-- ==== Sys2Proof/Word.lean ====
section
/-!
DEFINITION. The plain word types of the F940 (00 R6, R9; 01 R13): bytes, 32-bit register words, 64-bit pairs,
96-bit instruction words and 128-byte lines. Every multi-byte value is little-endian (R6).
-/

namespace Sys2Proof

/-- A byte of memory (R6). -/
abbrev Byte := BitVec 8

/-- A 32-bit register word (R162). -/
abbrev Word := BitVec 32

/-- A 64-bit value, as a register pair holds it (R15). -/
abbrev Dword := BitVec 64

/-- One 96-bit instruction word (R13). -/
abbrev IWord := BitVec 96

/-- A 128-byte line (R112); byte `i` is bits `[8i+7:8i]` (R6). -/
abbrev Line := BitVec 1024

/-- The mask of the 64 lanes of one register set (R286, R287). -/
abbrev LaneMask := BitVec 64

/-- A 9-bit operand field of the instruction word (R14, R15). -/
abbrev Reg := BitVec 9

end Sys2Proof
end

