-- ==== Sys2Proof/Syntax.lean ====
section
/-!
DEFINITION. The instructions and steps of the F940 as data (spec/opcode_table.json, 02 R43 to R46).
Rows with an encoding carry the common header of the word (R14) and their operands under the names the manual uses;
rows without an encoding (messages, completions, timers, commands of the driver, host and debugger) carry what
the step is about. No meaning is given here.
-/

namespace Sys2Proof

/-- The type codes of FN[7:4] (01 R19). -/
inductive Ty where
  | s32 | n32 | s64 | n64 | f32 | f64 | f16 | bf16 | f16x2 | bf16x2 | b8 | b16 | b32 | b64 | b128
  deriving DecidableEq, Repr

/-- Rounding modes (01 R20). -/
inductive Rm where
  | rne | rtz | rup | rdn
  deriving DecidableEq, Repr

/-- Address spaces (02 R44, layout MEM). -/
inductive Space where
  | glb | scr | coh | prv | win
  deriving DecidableEq, Repr

/-- Agent scopes (01 R25, 08 R154). -/
inductive Scope where
  | grp | blk | coh | die | pkg | sys
  deriving DecidableEq, Repr

/-- Ordering suffixes (02 R45). -/
inductive Ord where
  | rlx | acq | rel | acqrel
  deriving DecidableEq, Repr

/-- The storage mask of the memory extension (01 R25), bits [24:21] from the highest. -/
structure Stor where
  host : Bool
  glb : Bool
  scr : Bool
  prv : Bool
  deriving DecidableEq, Repr

/-- The memory extension (01 R25): counter, agent scope, storage mask, offset. -/
structure MemX where
  ctr : BitVec 4
  scope : Scope
  stor : Stor
  ofs : BitVec 21
  deriving DecidableEq, Repr

/-- The hint bits of the word (01 R23). -/
structure Hints where
  lastA : Bool
  lastB : Bool
  yield : Bool
  stream : Bool
  deriving DecidableEq, Repr

/-- The header every instruction word carries (01 R14): form, guard, reuse, energy class, hints. -/
structure Hdr where
  g : Bool
  neg : Bool
  gidx : BitVec 4
  reuse : BitVec 2
  ecl : BitVec 3
  hints : Hints
  deriving DecidableEq, Repr

/-- The last source operand: a register, or the imm32 that stands for it (01 R26). -/
inductive Opnd where
  | reg (r : Reg)
  | imm (x : Word)
  deriving DecidableEq, Repr

/-- Allocation options of LD and ST (02 R45). -/
inductive Alloc where
  | dflt | na | ef
  deriving DecidableEq, Repr

/-- Integer comparisons (02 R44, CMPI). -/
inductive CmpI where
  | eq | ne | lt | le | gt | ge
  deriving DecidableEq, Repr

/-- Floating comparisons (02 R44, CMPF). -/
inductive CmpF where
  | eq | ne | lt | le | gt | ge | num | nan | equ | neu | ltu | leu | gtu | geu
  deriving DecidableEq, Repr

/-- PMOV directions (02 R44, PMV). -/
inductive PmvDir where
  | p2r | r2p
  deriving DecidableEq, Repr

/-- SHFL modes (02 R44, SHM). -/
inductive ShflMode where
  | idx | up | down | xor
  deriving DecidableEq, Repr

/-- VOTE modes (02 R44, VTM). -/
inductive VoteMode where
  | all | any | uni | ballot
  deriving DecidableEq, Repr

/-- ACTST conditions (02 R44, ACT). -/
inductive AcCond where
  | zero | neg | nan | inf | lowloss | range
  deriving DecidableEq, Repr

/-- PREF modes (02 R44, PFM). -/
inductive PrefMode where
  | s | x | wbi
  deriving DecidableEq, Repr

/-- FENCE orders (02 R44, FEN). -/
inductive FenceOrd where
  | acqrel | acq | rel
  deriving DecidableEq, Repr

/-- Tier and place of MHINT and of migration commands (02 R44, TIER). -/
inductive TierPlace where
  | h (n : BitVec 2)
  | l (f : Bool)
  | x (f : Option Bool)
  deriving DecidableEq, Repr

/-- ATOM operations (02 R44, AOP). -/
inductive AtomOp where
  | add | and | or | xor | smin | smax | nmin | nmax | exch | incw | badd
  deriving DecidableEq, Repr

/-- AADD forms (02 R44, AFORM; 13 R245): the typed forms carry their type. -/
inductive AForm where
  | val (t : Ty)
  | prod (t : Ty)
  | la
  deriving DecidableEq, Repr

/-- COLL operations (02 R44, COP). -/
inductive CollOp where
  | ared | rscat | agath | bcast
  deriving DecidableEq, Repr

/-- The scale of ACRND (11 R211). -/
inductive AcScale where
  | none
  | reg (r : Reg)
  | imm (x : Word)
  deriving DecidableEq, Repr

/-- The shape codes of the matrix extension (12 R226). -/
inductive Shape where
  | m64n64 | m128n64 | m64n128 | m128n128
  deriving DecidableEq, Repr

/-- Matrix operand formats (12 R224). -/
inductive MFmt where
  | f64 | f32 | f16 | bf16 | gs4 | gs6 | gs9
  deriving DecidableEq, Repr

/-- A matrix operand: a y tile with its format, or a scratchpad descriptor (12 R228). -/
inductive MSrc where
  | tile (y : Reg) (f : MFmt)
  | desc (s : Reg)
  deriving DecidableEq, Repr

/-- Kept elements per 128 of MMAS (12 R228). -/
inductive NK where
  | k16 | k32 | k64
  deriving DecidableEq, Repr

/-- Residual of MDRAIN: its space (true for global) and format (12 R234). -/
inductive FFmt where
  | f64 | f32 | f16 | bf16
  deriving DecidableEq, Repr

/-- The drain extension (12 R234). -/
structure DrainX where
  shape : Shape
  glb : Bool
  res : Option (Bool × FFmt)
  mask : Bool
  clr : Bool
  deriving DecidableEq, Repr

/-- The object of a collective (14 R274). -/
inductive CollObj where
  | memory (b : Reg)
  | zTile (n : BitVec 3)
  | yTile (n : BitVec 3)
  deriving DecidableEq, Repr

/-- Element formats of a collective (14 R274). -/
inductive CollFmt where
  | fp (f : FFmt)
  | la
  deriving DecidableEq, Repr

/-- The collective extension (14 R274). -/
structure CollX where
  rm : Rm
  mean : Bool
  fmt : CollFmt
  obj : CollObj
  deriving DecidableEq, Repr

/-- The key of a line (06 R112): VA[47:7] and the address space. -/
structure Key where
  line : Nat
  asid : Nat
  deriving DecidableEq, Repr

/-- The tier field of a leaf or map command (05 R85). -/
inductive Tier where
  | h | l | x | none
  deriving DecidableEq, Repr

/-- Memory types (05 R85). -/
inductive MT where
  | wb | wc | uc | hc
  deriving DecidableEq, Repr

/-- One command of the map engine (05 R91); `size` is log2 of the page bytes: 16, 21 or 30. -/
structure MapCmd where
  asid : Nat
  va : Nat
  size : Nat
  count : Nat
  frame : Nat
  tier : Tier
  home : Nat
  mt : MT
  rd : Bool
  w : Bool
  x : Bool
  u : Bool
  deriving DecidableEq, Repr

/-- MetaValue of a host read (06 R130). -/
inductive HostMeta where
  | invalid | shared | any
  deriving DecidableEq, Repr

/-- What the host's CXL.cache answer grants (06 R131). -/
inductive CxlGrant where
  | invalid | shared | exclusive
  deriving DecidableEq, Repr

/-- Outcome the media shows to a patrol scrub or demand read (04 R73). -/
inductive EccOutcome where
  | clean | corrected | uncorrectable
  deriving DecidableEq, Repr

/-- Management registers without a row of their own (00 R8; the chapters that name them). -/
inductive MReg where
  | asidtBase | tspillBase | rthEntry | podBase | podEn | timePage
  | faqBase | faqSize | faqHead
  | mgcBase | mgcSize | mgcHead | mgcTail | mgcCtl
  | mgrBase | mgrSize | mgrHead | mgrCtl
  | rejBase | rejSize | rejHead | rejCtl
  | trqBase | trqSize | trqHead | trqCtl
  | dbqBase | dbqSize | dbqHead | dbqCtl
  | qBase (q : Nat) | qSize (q : Nat)
  | ppoolBase | ppoolSlots | ppoolSlotb
  | csaBase | csaSlots | csaSlotb
  | ytrBase (core : Nat) | ytrSize (core : Nat) | ytrHead (core : Nat)
  | refill (core : Nat) | ecap (core : Nat) | ecost (cls : Nat)
  | smpPeriod | cxRangeLo (n : Nat) | cxRangeHi (n : Nat)
  | fdumpBase | fdumpSize | rplHead (launch : Nat)
  | hintEnable (asid : Nat) | tansyPromote (tier : Nat) | tansyDemote (tier : Nat) | tansyPolicy
  | freeFrame (tier place : Nat) | barSize
  deriving DecidableEq, Repr

/-- A migration command of the driver's ring (05 R102) is read from memory; this is its decoded form. -/
structure MigCmd where
  dest : TierPlace
  asid : Nat
  count : Nat
  vpn : Nat
  deriving DecidableEq, Repr

/-- A flit of a die link (14 R261): its header's fields, and its 244 bytes of payload. -/
structure Flit where
  rr : Bool
  kind : Nat
  av : Bool
  ack : Nat
  seq : Nat
  payload : List Byte
  deriving DecidableEq, Repr

/-- A direction of a module of a die edge (14 R260): edge 0 to 7, direction, module index. -/
structure LinkId where
  edge : Nat
  up : Bool
  mod : Nat
  deriving DecidableEq, Repr

/-- Requests a pod peer makes (14 R265 to R267). -/
inductive PodReq where
  | read (o : Nat) (bytes : Nat)
  | write (o : Nat) (data : List Byte)
  | atom (op : AtomOp) (wide : Bool) (o : Nat) (v b : Nat)
  | cas (wide : Bool) (o : Nat) (c n : Nat)
  deriving DecidableEq, Repr

/-- What a collective message carries (14 R275 to R277, R281): partial sums, as packed partials of 32 elements each (R268), with
their tag (R255) and the further sources whose partials a switch has added to them (R270); final values; a progress vector;
PARTIAL with the first two. -/
inductive CollBody where
  | partials (packs : List (List Byte)) (partialFlag : Bool) (tag : Nat) (merged : List Nat)
  | final (v : List (BitVec 768)) (partialFlag : Bool)
  | progress (steps : List (Nat × Bool))
  deriving DecidableEq, Repr

/-- A collective message (14 R275). -/
structure CollMsg where
  commid : Nat
  epoch : Nat
  n : Nat
  chunk : Nat
  step : Nat
  src : Nat
  body : CollBody
  deriving DecidableEq, Repr

/-- What a pre-emption request names (20 R354). -/
inductive PreemptTarget where
  | launch (l : Nat)
  | die (d : Nat)
  | package
  deriving DecidableEq, Repr

/-- Items of RDSTATE and WRSTATE (22 R377). -/
inductive DbgItem where
  | vreg (set lane n : Nat)
  | greg (n : Nat)
  | lpred (set lane i : Nat)
  | kpred (i : Nat)
  | counter (i : Nat)
  | pathPc (i : Nat)
  | pathMask (i set : Nat)
  | token (i : Nat)
  deriving DecidableEq, Repr

/-- A firmware image as Dawn reads it from flash (24 R399). -/
structure Firmware where
  magic : Nat
  stage : Nat
  rollback : Nat
  length : Nat
  digest : BitVec 256
  reservedZero : Bool
  body : List Byte
  signature : List Byte
  pubKey : BitVec 256
  deriving DecidableEq, Repr

/-- Where blocks are placed: die and core of each block, in ascending block index (15 R296). -/
abbrev Placement := List (Nat × Nat)

/-- Structures whose uncorrectable error is fatal (20 R363). -/
inductive OnChip where
  | directory | mtlb | distributor
  deriving DecidableEq, Repr

/-- Every row of spec/opcode_table.json. -/
inductive Instr where
  -- class 0: integer, logic and lanes (10)
  | iadd (h : Hdr) (t : Ty) (sat : Bool) (d a : Reg) (b : Opnd)
  | isub (h : Hdr) (t : Ty) (sat : Bool) (d a : Reg) (b : Opnd)
  | imul (h : Hdr) (t : Ty) (sat : Bool) (d a : Reg) (b : Opnd)
  | imulh (h : Hdr) (t : Ty) (d a : Reg) (b : Opnd)
  | imad (h : Hdr) (t : Ty) (sat : Bool) (d a b : Reg) (c : Opnd)
  | idiv (h : Hdr) (t : Ty) (d a : Reg) (b : Opnd)
  | irem (h : Hdr) (t : Ty) (d a : Reg) (b : Opnd)
  | imin (h : Hdr) (t : Ty) (d a : Reg) (b : Opnd)
  | imax (h : Hdr) (t : Ty) (d a : Reg) (b : Opnd)
  | iabs (h : Hdr) (t : Ty) (sat : Bool) (d a : Reg)
  | and (h : Hdr) (t : Ty) (d a : Reg) (b : Opnd)
  | or (h : Hdr) (t : Ty) (d a : Reg) (b : Opnd)
  | xor (h : Hdr) (t : Ty) (d a : Reg) (b : Opnd)
  | shl (h : Hdr) (t : Ty) (d a : Reg) (b : Opnd)
  | shr (h : Hdr) (t : Ty) (d a : Reg) (b : Opnd)
  | sar (h : Hdr) (t : Ty) (d a : Reg) (b : Opnd)
  | bfx (h : Hdr) (t : Ty) (d a b : Reg) (c : Opnd)
  | bfi (h : Hdr) (t : Ty) (d a b : Reg) (c : Opnd)
  | popc (h : Hdr) (t : Ty) (d a : Reg)
  | clz (h : Hdr) (t : Ty) (d a : Reg)
  | brev (h : Hdr) (t : Ty) (d a : Reg)
  | lea (h : Hdr) (t : Ty) (sh : BitVec 3) (d a : Reg) (b : Opnd)
  | mov (h : Hdr) (t : Ty) (d a : Reg)
  | movi (h : Hdr) (t : Ty) (d : Reg) (x : Word)
  | sel (h : Hdr) (t : Ty) (p : BitVec 4) (d a : Reg) (b : Opnd)
  | icmp (h : Hdr) (c : CmpI) (t : Ty) (d a : Reg) (b : Opnd)
  | plop (h : Hdr) (tt : BitVec 4) (d a b : Reg)
  | pmov (h : Hdr) (dir : PmvDir) (r : Reg)
  | shfl (h : Hdr) (m : ShflMode) (t : Ty) (d a : Reg) (b : Opnd)
  | vote (h : Hdr) (m : VoteMode) (d a : Reg)
  | getl (h : Hdr) (t : Ty) (d a : Reg) (b : Opnd)
  | setl (h : Hdr) (t : Ty) (d a : Reg) (b : Opnd)
  -- class 1: floating point (10)
  | fadd (h : Hdr) (t : Ty) (rm : Rm) (sat : Bool) (d a : Reg) (b : Opnd)
  | fmul (h : Hdr) (t : Ty) (rm : Rm) (sat : Bool) (d a : Reg) (b : Opnd)
  | ffma (h : Hdr) (t : Ty) (rm : Rm) (sat : Bool) (d a b : Reg) (c : Opnd)
  | fmin (h : Hdr) (t : Ty) (nan : Bool) (d a : Reg) (b : Opnd)
  | fmax (h : Hdr) (t : Ty) (nan : Bool) (d a : Reg) (b : Opnd)
  | fcmp (h : Hdr) (c : CmpF) (t : Ty) (d a : Reg) (b : Opnd)
  | fclass (h : Hdr) (t : Ty) (d a : Reg)
  | frnd (h : Hdr) (t : Ty) (rm : Rm) (d a : Reg)
  | fscl (h : Hdr) (t : Ty) (rm : Rm) (d a : Reg) (b : Opnd)
  | frcp (h : Hdr) (t : Ty) (d a : Reg)
  | frsq (h : Hdr) (t : Ty) (d a : Reg)
  | fsqrt (h : Hdr) (t : Ty) (rm : Rm) (d a : Reg)
  | fdiv (h : Hdr) (t : Ty) (rm : Rm) (d a : Reg) (b : Opnd)
  | fexp2 (h : Hdr) (t : Ty) (d a : Reg)
  | flog2 (h : Hdr) (t : Ty) (d a : Reg)
  | fsin (h : Hdr) (t : Ty) (d a : Reg)
  | fcos (h : Hdr) (t : Ty) (d a : Reg)
  | fcvt (h : Hdr) (td ts : Ty) (rm : Rm) (sat : Bool) (d a : Reg)
  | ftoi (h : Hdr) (td ts : Ty) (rm : Rm) (sat : Bool) (d a : Reg)
  | itof (h : Hdr) (td ts : Ty) (rm : Rm) (d a : Reg)
  -- class 2: long accumulators (11)
  | acz (h : Hdr) (d : Reg)
  | acadd (h : Hdr) (t : Ty) (d a : Reg)
  | acfma (h : Hdr) (t : Ty) (d a b : Reg)
  | acdot (h : Hdr) (t : Ty) (d a b : Reg)
  | acmrg (h : Hdr) (d a : Reg)
  | acred (h : Hdr) (d a : Reg)
  | acnorm (h : Hdr) (d a : Reg)
  | acrnd (h : Hdr) (t : Ty) (rm : Rm) (sat mean : Bool) (d a : Reg) (scale : AcScale) (rep : Option Reg)
  | acscl (h : Hdr) (d a : Reg) (b : Opnd)
  | acxt (h : Hdr) (d a : Reg) (b : Opnd)
  | acins (h : Hdr) (d a : Reg) (b : Opnd)
  | actst (h : Hdr) (c : AcCond) (d a : Reg)
  | acld (h : Hdr) (sp : Space) (d a : Reg) (m : MemX)
  | acst (h : Hdr) (sp : Space) (canon : Bool) (d a : Reg) (m : MemX)
  -- class 3: memory and asynchronous (07, 08, 09, 05)
  | ld (h : Hdr) (sp : Space) (t : Ty) (acq : Bool) (al : Alloc) (d a : Reg) (m : MemX)
  | st (h : Hdr) (sp : Space) (t : Ty) (rel : Bool) (al : Alloc) (d a : Reg) (m : MemX)
  | pref (h : Hdr) (mode : PrefMode) (a : Reg) (m : MemX)
  | waitc (h : Hdr) (d : Reg) (b : Opnd)
  | fence (h : Hdr) (o : FenceOrd) (m : MemX)
  | cpy (h : Hdr) (a : Reg)
  | seal (h : Hdr) (d : Reg)
  | cbw (h : Hdr) (b : Opnd)
  | dep (h : Hdr) (t : Ty) (a : Reg) (b : Opnd)
  | cadd (h : Hdr) (d : Reg) (b : Opnd)
  | disc (h : Hdr) (a b : Reg) (m : MemX)
  | mhint (h : Hdr) (tp : TierPlace) (a b : Reg) (m : MemX)
  | lqry (h : Hdr) (d a : Reg) (m : MemX)
  | region (h : Hdr) (idx : BitVec 12)
  -- class 4: atomics (13)
  | atom (h : Hdr) (op : AtomOp) (far : Bool) (t : Ty) (o : Ord) (d a : Reg) (m : MemX)
  | acas (h : Hdr) (far : Bool) (t : Ty) (o : Ord) (d a : Reg) (m : MemX)
  | aadd (h : Hdr) (f : AForm) (rel : Bool) (d a : Reg) (m : MemX)
  | afin (h : Hdr) (mean clr : Bool) (t : Ty) (rm : Rm) (acq : Bool) (d a : Reg) (m : MemX)
  -- class 5: control (16)
  | bra (h : Hdr) (off : Word)
  | brx (h : Hdr) (a : Reg)
  | vbr (h : Hdr) (inv : Bool) (p : BitVec 4) (jofs : BitVec 18) (off : Word)
  | join (h : Hdr)
  | loop (h : Hdr) (off : Word)
  | brk (h : Hdr)
  | call (h : Hdr) (off : Word)
  | callx (h : Hdr) (a : Reg)
  | ret (h : Hdr)
  | throw (h : Hdr) (inv : Bool) (p : BitVec 4)
  | barArrive (h : Hdr) (coh : Bool) (nb : Reg) (cnt : Opnd)
  | barWait (h : Hdr) (coh : Bool) (nb : Reg)
  | barSync (h : Hdr) (coh : Bool) (nb : Reg) (cnt : Opnd)
  | exit (h : Hdr)
  | yield (h : Hdr)
  | nop (h : Hdr)
  | sleep (h : Hdr) (b : Opnd)
  | suspend (h : Hdr) (a b : Reg)
  | signal (h : Hdr) (a b : Reg)
  | spawn (h : Hdr) (a b : Reg)
  | launch (h : Hdr) (a b : Reg)
  | swpt (h : Hdr) (id : BitVec 16)
  -- class 6: matrix and collectives (12, 14)
  | mz (h : Hdr) (d n : Reg)
  | mma (h : Hdr) (sh : Shape) (d : Reg) (a b : MSrc)
  | mmas (h : Hdr) (sh : Shape) (nk : NK) (d sa : Reg) (b : MSrc)
  | mdrain (h : Hdr) (t : Ty) (rm : Rm) (sat : Bool) (x : DrainX) (d a : Reg)
  | mspill (h : Hdr) (sh : Shape) (clr : Bool) (d a : Reg)
  | mfill (h : Hdr) (sh : Shape) (d a : Reg)
  | coll (h : Hdr) (op : CollOp) (x : CollX) (a : Reg)
  | abw (h : Hdr) (a : Reg)
  | crec (h : Hdr) (op : CollOp) (x : CollX) (a : Reg)
  -- class 7: system and debug (09, 20, 22)
  | gets (h : Hdr) (sr : BitVec 8) (d : Reg)
  | sets (h : Hdr) (sr : BitVec 8) (a : Reg)
  | trap (h : Hdr) (code : BitVec 16)
  | rett (h : Hdr) (skip : Bool)
  | bkpt (h : Hdr)
  | ppt (h : Hdr) (n : BitVec 4)
  | tmark (h : Hdr) (a : Opnd)
  -- completions (07, 16, 12)
  | loadDataReturn (blk who op : Nat)
  | storePerformed (blk who op : Nat)
  | memoryFaultArrival (blk who op : Nat)
  | copyComplete (blk who copy : Nat)
  | copyFailure (blk who copy : Nat) (timeout : Bool)
  | depositApplied (dep : Nat)
  | sleepExpiry (blk grp path : Nat)
  | matrixPassComplete (blk : Nat)
  -- coherence messages (06, 13)
  | rds (src : Nat) (k : Key)
  | rdx (src : Nat) (k : Key)
  | upg (src : Nat) (k : Key)
  | wb (src : Nat) (k : Key)
  | accA (src : Nat) (k : Key)
  | mrg (src : Nat) (k : Key)
  | fwdS (dst : Nat) (k : Key)
  | fwdInv (dst : Nat) (k : Key)
  | inv (dst : Nat) (k : Key)
  | data (dst : Nat) (k : Key)
  | ack (dst : Nat) (k : Key)
  | fwdData (src : Nat) (k : Key)
  | fwdMiss (src : Nat) (k : Key)
  | invAck (src : Nat) (k : Key)
  | wbAck (dst : Nat) (k : Key)
  | farOperation (k : Key)
  | replayContribution (src : Nat) (k : Key)
  -- the host (06)
  | memRd (ofs : Nat) (m : HostMeta)
  | memWr (ofs : Nat) (d : Line × Bool)
  | biRsp (k : Key) (keepS : Bool)
  | snpInv (hpa : Nat)
  | snpData (hpa : Nat)
  | snpCur (hpa : Nat)
  | cxlCacheResponse (k : Key) (g : CxlGrant) (d : Line) (poison : Bool)
  -- time-outs and timers (05, 06, 07, 12)
  | homeTimeout (k : Key)
  | requestTimeout (cl : Nat) (k : Key)
  | wcDrain (cl : Nat)
  | throttleWindow (die core : Nat)
  | hotnessDecay (die : Nat)
  | speculativeAccess (blk who : Nat) (va : Nat)
  | patrolScrub (pa : Nat) (o : EccOutcome)
  | faqBufferDrain
  | faqCtl (v : Word)
  | registerWrite (r : MReg) (v : Dword)
  | energyRefill (die core : Nat)
  | powerAlarmRise
  | powerAlarmClear
  | thermalFreeze (stack : Nat)
  | thermalResume
  | freezeTimeout
  -- pages in motion and the map engine (05, 04)
  | moveAccept (engine : Nat)
  | lineCopyComplete (engine vpn asid : Nat) (o : EccOutcome)
  | destWriteError (engine vpn asid : Nat)
  | cursorTimeout (engine vpn asid : Nat)
  | migrationCommand
  | migrationRecordDrain (engine : Nat)
  | map (c : MapCmd)
  | unmap (c : MapCmd)
  | protect (c : MapCmd)
  | zero (c : MapCmd)
  | badPageAdd (frame : Nat)
  | hotsnap (va : Nat)
  | tagPurge (task : Nat)
  -- links, pod, collectives, time (14)
  | flitReceive (l : LinkId) (sent got : List Byte)
  | ackFlit (l : LinkId) (ack : Nat)
  | moduleRetrainDone (l : LinkId) (ok : Bool)
  | ucieRetrain (l : LinkId)
  | podRequest (peer tag : Nat) (r : PodReq)
  | podCompletion (id : Nat) (ok : Bool) (data : List Byte)
  | podTimeout (id : Nat)
  | packedPartial (port slot : Nat) (p : List Byte × Bool)
  | collMessage (blk : Nat) (m : CollMsg)
  | stepDeadline (blk commid chunk : Nat)
  | memberTimeout (blk commid : Nat)
  | collAbortReport (blk entry cause : Nat)
  | timeRecalibrate (rates : List (Dword × Dword))
  -- distribution, switching, pre-emption (15, 20)
  | launchRecord (die q : Nat)
  | blockStart (die launch : Nat) (place : Placement) (slot : Nat)
  | blockResume (die q : Nat) (place : Placement)
  | taskRecord (die q : Nat) (place : Nat × Nat) (slot : Nat)
  | qtail (q : Nat) (v : Nat)
  | workRequest (die core : Nat)
  | rejectBufferDrain
  | yieldRequestTimeout (q launch : Nat)
  | switchSuspend (cohort : Nat)
  | preemptRequest (t : PreemptTarget)
  | contextSave (cohort : Nat) (rows : List Nat)
  | bmsResume (blk : Nat)
  | blockEnd (blk : Nat)
  -- reset, fatal errors, firmware (24, 20, 06)
  | packageReset
  | hostLinkRetry (ok : Bool)
  | dieResetGraceful (die : Nat) (cores uncore : Bool)
  | dieResetCoreAbrupt (die : Nat)
  | dieResetUncoreAbrupt (die : Nat)
  | uncoreReturn (die : Nat)
  | watchdogExpiry
  | uncorrectableStateError (die : Nat) (w : OnChip)
  | mailboxStatus
  | firmwareUpdate (img : Firmware)
  | attestRequest (nonce : BitVec 256)
  -- debug, trace, replay, causal experiments (22)
  | attach (launch : Nat) (mode : Bool)
  | detach (launch : Nat)
  | hold (gid idx : Nat)
  | release (gid idx : Nat)
  | step (gid idx : Nat)
  | split (gid idx set : Nat) (m : LaneMask)
  | bpset (launch slot : Nat) (pc : Nat)
  | bpclr (launch slot : Nat)
  | rdstate (gid : Nat) (it : DbgItem)
  | wrstate (gid : Nat) (it : DbgItem) (v : Dword)
  | pcSample (die core : Nat)
  | ytrCtl (die core : Nat) (v : Word)
  | record (launch : Nat) (clkt rplBase rplSize : Nat) (mode : Nat)
  | replayWaitEnd (blk who : Nat)
  | ppcntRead (launch : Nat)
  | cxExchange
  | coreResetEnd (die : Nat)
  deriving DecidableEq, Repr

end Sys2Proof
end

