-- ==== Sys2Proof/WellFormed.lean ====
section
/-!
DEFINITION. What makes an instruction one that a word can carry (01 R13 to R29, 02 R42 to R48): the opcode and the
streams that fetch it, the types, the form, hints and reuse (step 2 of R29, `formOk`), and the ranges of the operands
(step 3, `operandsOk`). The register budget of the running variant (step 4) is `budgetOk`.
-/

namespace Sys2Proof

/-- The two instruction streams (R46). -/
inductive Stream where
  | group | bms
  deriving DecidableEq, Repr

/-- The opcode of each encoded instruction (R43); the steps without an encoding have none. -/
def opcodeOf : Instr → Option Nat
  | .iadd .. => some 0x001
  | .isub .. => some 0x002
  | .imul .. => some 0x003
  | .imulh .. => some 0x004
  | .imad .. => some 0x005
  | .idiv .. => some 0x006
  | .irem .. => some 0x007
  | .imin .. => some 0x008
  | .imax .. => some 0x009
  | .iabs .. => some 0x00A
  | .and .. => some 0x010
  | .or .. => some 0x011
  | .xor .. => some 0x012
  | .shl .. => some 0x013
  | .shr .. => some 0x014
  | .sar .. => some 0x015
  | .bfx .. => some 0x016
  | .bfi .. => some 0x017
  | .popc .. => some 0x018
  | .clz .. => some 0x019
  | .brev .. => some 0x01A
  | .lea .. => some 0x020
  | .mov .. => some 0x021
  | .movi .. => some 0x022
  | .sel .. => some 0x023
  | .icmp .. => some 0x028
  | .plop .. => some 0x029
  | .pmov .. => some 0x02A
  | .shfl .. => some 0x030
  | .vote .. => some 0x031
  | .getl .. => some 0x032
  | .setl .. => some 0x033
  | .fadd .. => some 0x080
  | .fmul .. => some 0x081
  | .ffma .. => some 0x082
  | .fmin .. => some 0x083
  | .fmax .. => some 0x084
  | .fcmp .. => some 0x085
  | .fclass .. => some 0x086
  | .frnd .. => some 0x087
  | .fscl .. => some 0x088
  | .frcp .. => some 0x090
  | .frsq .. => some 0x091
  | .fsqrt .. => some 0x092
  | .fdiv .. => some 0x093
  | .fexp2 .. => some 0x094
  | .flog2 .. => some 0x095
  | .fsin .. => some 0x096
  | .fcos .. => some 0x097
  | .fcvt .. => some 0x0A0
  | .ftoi .. => some 0x0A1
  | .itof .. => some 0x0A2
  | .acz .. => some 0x100
  | .acadd .. => some 0x101
  | .acfma .. => some 0x102
  | .acdot .. => some 0x103
  | .acmrg .. => some 0x104
  | .acred .. => some 0x105
  | .acnorm .. => some 0x106
  | .acrnd .. => some 0x107
  | .acscl .. => some 0x108
  | .acxt .. => some 0x109
  | .acins .. => some 0x10A
  | .actst .. => some 0x10B
  | .acld .. => some 0x110
  | .acst .. => some 0x111
  | .ld .. => some 0x180
  | .st .. => some 0x181
  | .pref .. => some 0x182
  | .waitc .. => some 0x183
  | .fence .. => some 0x184
  | .cpy .. => some 0x188
  | .seal .. => some 0x189
  | .cbw .. => some 0x18A
  | .dep .. => some 0x18B
  | .cadd .. => some 0x18C
  | .disc .. => some 0x190
  | .mhint .. => some 0x191
  | .lqry .. => some 0x192
  | .region .. => some 0x198
  | .atom .. => some 0x200
  | .acas .. => some 0x201
  | .aadd .. => some 0x202
  | .afin .. => some 0x203
  | .bra .. => some 0x280
  | .brx .. => some 0x281
  | .vbr .. => some 0x282
  | .join .. => some 0x283
  | .loop .. => some 0x284
  | .brk .. => some 0x285
  | .call .. => some 0x286
  | .callx .. => some 0x287
  | .ret .. => some 0x288
  | .throw .. => some 0x289
  | .barArrive .. => some 0x290
  | .barWait .. => some 0x290
  | .barSync .. => some 0x290
  | .exit .. => some 0x291
  | .yield .. => some 0x292
  | .sleep .. => some 0x293
  | .nop .. => some 0x294
  | .suspend .. => some 0x298
  | .signal .. => some 0x299
  | .spawn .. => some 0x29A
  | .launch .. => some 0x29B
  | .swpt .. => some 0x29C
  | .mz .. => some 0x300
  | .mma .. => some 0x301
  | .mmas .. => some 0x302
  | .mdrain .. => some 0x303
  | .mspill .. => some 0x304
  | .mfill .. => some 0x305
  | .coll .. => some 0x310
  | .abw .. => some 0x311
  | .crec .. => some 0x312
  | .gets .. => some 0x380
  | .sets .. => some 0x381
  | .trap .. => some 0x388
  | .rett .. => some 0x389
  | .bkpt .. => some 0x390
  | .ppt .. => some 0x391
  | .tmark .. => some 0x392
  | _ => none

/-- Opcodes only the BMS stream fetches (R43, "only"). -/
def bmsOnly (o : Nat) : Bool :=
  decide (0x300 ≤ o ∧ o ≤ 0x305) || decide (0x310 ≤ o ∧ o ≤ 0x312)

/-- Opcodes both streams fetch (R43, "yes"). -/
def bmsToo (o : Nat) : Bool :=
  decide (0x001 ≤ o ∧ o ≤ 0x00A) || decide (0x010 ≤ o ∧ o ≤ 0x01A) || decide (0x020 ≤ o ∧ o ≤ 0x023)
    || decide (0x028 ≤ o ∧ o ≤ 0x02A) || o == 0x183 || decide (0x188 ≤ o ∧ o ≤ 0x18A) || o == 0x280
    || decide (0x290 ≤ o ∧ o ≤ 0x291) || decide (0x380 ≤ o ∧ o ≤ 0x381)

/-- Opcodes only a group stream fetches (R43, "—"). -/
def groupOnly (o : Nat) : Bool :=
  decide (0x030 ≤ o ∧ o ≤ 0x033) || decide (0x080 ≤ o ∧ o ≤ 0x088) || decide (0x090 ≤ o ∧ o ≤ 0x097)
    || decide (0x0A0 ≤ o ∧ o ≤ 0x0A2) || decide (0x100 ≤ o ∧ o ≤ 0x10B) || decide (0x110 ≤ o ∧ o ≤ 0x111)
    || decide (0x180 ≤ o ∧ o ≤ 0x182) || o == 0x184 || decide (0x18B ≤ o ∧ o ≤ 0x18C)
    || decide (0x190 ≤ o ∧ o ≤ 0x192) || o == 0x198 || decide (0x200 ≤ o ∧ o ≤ 0x203)
    || decide (0x281 ≤ o ∧ o ≤ 0x289) || decide (0x292 ≤ o ∧ o ≤ 0x294) || decide (0x298 ≤ o ∧ o ≤ 0x29C)
    || decide (0x388 ≤ o ∧ o ≤ 0x389) || decide (0x390 ≤ o ∧ o ≤ 0x392)

/-- Whether a stream fetches an opcode (R46); an unassigned opcode (R47) is fetched by none. -/
def fetchable (s : Stream) (o : Nat) : Bool :=
  match s with
  | .group => bmsToo o || groupOnly o
  | .bms => bmsToo o || bmsOnly o

/-- The header of an encoded instruction. -/
def hdrOf : Instr → Option Hdr
  | .iadd h .. | .isub h .. | .imul h .. | .imulh h .. | .imad h .. | .idiv h .. | .irem h .. | .imin h ..
  | .imax h .. | .iabs h .. | .and h .. | .or h .. | .xor h .. | .shl h .. | .shr h .. | .sar h .. | .bfx h ..
  | .bfi h .. | .popc h .. | .clz h .. | .brev h .. | .lea h .. | .mov h .. | .movi h .. | .sel h .. | .icmp h ..
  | .plop h .. | .pmov h .. | .shfl h .. | .vote h .. | .getl h .. | .setl h .. | .fadd h .. | .fmul h ..
  | .ffma h .. | .fmin h .. | .fmax h .. | .fcmp h .. | .fclass h .. | .frnd h .. | .fscl h .. | .frcp h ..
  | .frsq h .. | .fsqrt h .. | .fdiv h .. | .fexp2 h .. | .flog2 h .. | .fsin h .. | .fcos h .. | .fcvt h ..
  | .ftoi h .. | .itof h .. | .acz h .. | .acadd h .. | .acfma h .. | .acdot h .. | .acmrg h .. | .acred h ..
  | .acnorm h .. | .acrnd h .. | .acscl h .. | .acxt h .. | .acins h .. | .actst h .. | .acld h .. | .acst h ..
  | .ld h .. | .st h .. | .pref h .. | .waitc h .. | .fence h .. | .cpy h .. | .seal h .. | .cbw h .. | .dep h ..
  | .cadd h .. | .disc h .. | .mhint h .. | .lqry h .. | .region h .. | .atom h .. | .acas h .. | .aadd h ..
  | .afin h .. | .bra h .. | .brx h .. | .vbr h .. | .join h | .loop h .. | .brk h | .call h .. | .callx h ..
  | .ret h | .throw h .. | .barArrive h .. | .barWait h .. | .barSync h .. | .exit h | .yield h | .nop h
  | .sleep h .. | .suspend h .. | .signal h .. | .spawn h .. | .launch h .. | .swpt h .. | .mz h .. | .mma h ..
  | .mmas h .. | .mdrain h .. | .mspill h .. | .mfill h .. | .coll h .. | .abw h .. | .crec h .. | .gets h ..
  | .sets h .. | .trap h .. | .rett h .. | .bkpt h | .ppt h .. | .tmark h .. => some h
  | _ => none

/-! ### Types (R19, R43) -/

def tyInt : List Ty := [.s32, .n32, .s64, .n64]
def tyBits : List Ty := [.b32, .b64]
def tyF6 : List Ty := [.f64, .f32, .f16, .bf16, .f16x2, .bf16x2]
def tyF4 : List Ty := [.f64, .f32, .f16, .bf16]
def tyF2 : List Ty := [.f64, .f32]
def tyFs : List Ty := [.f32, .f16]
def tyMem : List Ty := [.b8, .b16, .b32, .b64, .b128]

/-- How many registers a value of a type takes (R15, R50). -/
def tyRegs : Ty → Nat
  | .s64 | .n64 | .f64 | .b64 => 2
  | .b128 => 4
  | _ => 1

/-- The types an instruction accepts, and the restrictions of R43, R44 and R45 on them. -/
def typeOk : Instr → Bool
  | .iadd _ t .. | .isub _ t .. | .imul _ t .. | .imulh _ t .. | .imad _ t .. | .idiv _ t .. | .irem _ t ..
  | .imin _ t .. | .imax _ t .. | .bfx _ t .. | .icmp _ _ t .. | .acas _ _ t .. => tyInt.contains t
  | .iabs _ t .. => [Ty.s32, .s64].contains t
  | .and _ t .. | .or _ t .. | .xor _ t .. | .shl _ t .. | .shr _ t .. | .sar _ t .. | .bfi _ t .. | .popc _ t ..
  | .clz _ t .. | .brev _ t .. | .movi _ t .. | .sel _ t .. | .shfl _ _ t .. | .getl _ t .. | .setl _ t ..
  | .dep _ t .. => tyBits.contains t
  | .lea _ t .. => [Ty.n32, .n64].contains t
  | .mov h t .. => [Ty.b32, .b64].contains t || (t == .b128 && !h.g)
  | .fadd _ t .. | .fmul _ t .. | .ffma _ t .. | .fmin _ t .. | .fmax _ t .. => tyF6.contains t
  | .fcmp _ _ t .. | .fclass _ t .. | .frnd _ t .. | .fscl _ t .. | .acadd _ t .. | .acfma _ t .. | .acrnd _ t ..
  | .afin _ _ _ t .. | .mdrain _ t .. => tyF4.contains t
  | .fcvt _ td ts .. => tyF4.contains td && tyF4.contains ts
  | .ftoi _ td ts .. => tyInt.contains td && tyF4.contains ts
  | .itof _ td ts .. => tyF4.contains td && tyInt.contains ts
  | .frcp _ t .. | .frsq _ t .. | .fsqrt _ t .. | .fdiv _ t .. => tyF2.contains t
  | .fexp2 _ t .. | .flog2 _ t .. | .fsin _ t .. | .fcos _ t .. => tyFs.contains t
  | .acdot _ t .. => [Ty.f16x2, .bf16x2].contains t
  | .ld h _ t .. | .st h _ t .. => tyMem.contains t && (t != .b128 || !h.g)
  | .atom _ op _ t .. =>
    (match op with
     | .smin | .smax => [Ty.s32, .s64].contains t
     | .nmin | .nmax => [Ty.n32, .n64].contains t
     | _ => tyInt.contains t)
  | .aadd h f .. => (match f with | .la => !h.g | .val t | .prod t => tyF4.contains t)
  | _ => true

/-- The G values of an opcode (R18, R43); in the BMS stream only G=1 (R46). -/
def gOk : Instr → Bool
  | .shfl h .. | .vote h .. | .getl h .. | .setl h .. | .acz h .. | .acadd h .. | .acfma h .. | .acdot h ..
  | .acmrg h .. | .acred h .. | .acnorm h .. | .acrnd h .. | .acscl h .. | .acxt h .. | .acins h .. | .actst h ..
  | .acld h .. | .acst h .. => !h.g
  | .waitc h .. | .fence h .. | .cpy h .. | .seal h .. | .cbw h .. | .dep h .. | .cadd h .. | .disc h ..
  | .mhint h .. | .region h .. | .bra h .. | .brx h .. | .vbr h .. | .join h | .loop h .. | .brk h | .call h ..
  | .callx h .. | .ret h | .throw h .. | .barArrive h .. | .barWait h .. | .barSync h .. | .exit h | .yield h
  | .nop h | .sleep h .. | .suspend h .. | .signal h .. | .spawn h .. | .launch h .. | .swpt h .. | .mz h ..
  | .mma h .. | .mmas h .. | .mdrain h .. | .mspill h .. | .mfill h .. | .coll h .. | .abw h .. | .crec h ..
  | .gets h .. | .sets h .. | .trap h .. | .rett h .. | .bkpt h | .ppt h .. | .tmark h .. => h.g
  | _ => true

/-! ### Operands (R15, R172, R201, R245, R305) -/

/-- What kind of name an operand field holds. -/
inductive Kind where
  /-- registers of the issuer's own file (v, g or s): how many, and the alignment of the first -/
  | reg (n align : Nat)
  /-- a vector register in a G=1 word (R171, R305) -/
  | vec
  | la
  | pred
  | ctr
  | bar
  | tile
  /-- eight registers from a multiple of 8 (R144, R305) -/
  | rec8
  /-- `n` s registers from an even register from 2 to `hi` (R231, R233, R237, R274) -/
  | sdesc (n hi : Nat)
  deriving DecidableEq, Repr

/-- One used operand field: its kind, its number, and whether a last-use hint or reuse may name it as a register
the instruction reads (R21, R23). -/
structure Use where
  kind : Kind
  r : Reg
  reads : Bool
  deriving DecidableEq, Repr

/-- The operand fields of an instruction that name something. -/
structure Uses where
  d : Option Use := none
  a : Option Use := none
  b : Option Use := none
  c : Option Use := none
  deriving DecidableEq, Repr

def useW (n : Nat) (r : Reg) : Option Use := some ⟨.reg n n, r, true⟩
def usePred (r : Reg) : Option Use := some ⟨.pred, r, false⟩
def useLa (r : Reg) : Option Use := some ⟨.la, r, true⟩

/-- A last operand that may be an immediate. -/
def useO (n : Nat) : Opnd → Option Use
  | .reg r => useW n r
  | .imm _ => none

/-- The base operand of a memory space (R134): a pair for `.glb` and `.win`. -/
def useBase (sp : Space) (r : Reg) : Option Use :=
  match sp with
  | .glb | .win => useW 2 r
  | _ => useW 1 r

/-- A matrix operand: a tile, or a descriptor of `n` s registers up to `hi`. -/
def useM (n hi : Nat) : MSrc → Option Use
  | .tile y _ => some ⟨.tile, y, false⟩
  | .desc r => some ⟨.sdesc n hi, r, true⟩

/-- A register that a field of 0 leaves out (R305, BAR and SIGNAL). -/
def useNz (r : Reg) : Option Use := some ⟨.reg 1 1, r, r != 0⟩

/-- A count register or immediate (R305, BAR). -/
def useCnt : Opnd → Option Use
  | .reg r => useNz r
  | .imm _ => none

/-- The object of a collective (R274). -/
def useObj : CollObj → Option Use
  | .memory b => some ⟨.sdesc 3 28, b, true⟩
  | _ => none

/-- Whether a special register is 64 bits wide (R170). -/
def srWide (n : BitVec 8) : Bool :=
  n == 0x08 || n == 0x09 || n == 0x0B || n == 0x0C || n == 0x0D

/-- Per-lane special registers (R170). -/
def srPerLane (n : BitVec 8) : Bool := n == 0x00 || n == 0x06

/-- The operand fields of each instruction (R172, R201, R245, R305 and the entries). -/
def uses : Instr → Uses
  | .iadd _ t _ d a b | .isub _ t _ d a b | .imul _ t _ d a b => ⟨useW (tyRegs t) d, useW (tyRegs t) a, useO (tyRegs t) b, none⟩
  | .imulh _ t d a b | .idiv _ t d a b | .irem _ t d a b | .imin _ t d a b | .imax _ t d a b | .and _ t d a b
  | .or _ t d a b | .xor _ t d a b => ⟨useW (tyRegs t) d, useW (tyRegs t) a, useO (tyRegs t) b, none⟩
  | .imad _ t _ d a b c => ⟨useW (tyRegs t) d, useW (tyRegs t) a, useW (tyRegs t) b, useO (tyRegs t) c⟩
  | .iabs _ t _ d a | .brev _ t d a | .mov _ t d a => ⟨useW (tyRegs t) d, useW (tyRegs t) a, none, none⟩
  | .shl _ t d a b | .shr _ t d a b | .sar _ t d a b | .shfl _ _ t d a b | .getl _ t d a b | .setl _ t d a b
  | .lea _ t _ d a b => ⟨useW (tyRegs t) d, useW (tyRegs t) a, useO 1 b, none⟩
  | .bfx _ t d a b c => ⟨useW (tyRegs t) d, useW (tyRegs t) a, useW 1 b, useO 1 c⟩
  | .bfi _ t d a b c => ⟨useW (tyRegs t) d, useW (tyRegs t) a, useW (tyRegs t) b, useO 1 c⟩
  | .popc _ t d a | .clz _ t d a | .fclass _ t d a => ⟨useW 1 d, useW (tyRegs t) a, none, none⟩
  | .movi _ t d _ => ⟨useW (tyRegs t) d, none, none, none⟩
  | .sel _ t _ d a b => ⟨useW (tyRegs t) d, useW (tyRegs t) a, useO (tyRegs t) b, none⟩
  | .icmp _ _ t d a b => ⟨usePred d, useW (tyRegs t) a, useO (tyRegs t) b, none⟩
  | .fcmp _ _ t d a b => ⟨usePred d, useW (tyRegs t) a, useO (tyRegs t) b, none⟩
  | .plop _ _ d a b => ⟨usePred d, usePred a, usePred b, none⟩
  | .pmov _ dir r => (match dir with | .p2r => ⟨useW 1 r, none, none, none⟩ | .r2p => ⟨none, useW 1 r, none, none⟩)
  | .vote _ m d a => (match m with | .ballot => ⟨useW 2 d, usePred a, none, none⟩ | _ => ⟨usePred d, usePred a, none, none⟩)
  | .fadd _ t _ _ d a b | .fmul _ t _ _ d a b => ⟨useW (tyRegs t) d, useW (tyRegs t) a, useO (tyRegs t) b, none⟩
  | .fmin _ t _ d a b | .fmax _ t _ d a b | .fdiv _ t _ d a b => ⟨useW (tyRegs t) d, useW (tyRegs t) a, useO (tyRegs t) b, none⟩
  | .ffma _ t _ _ d a b c => ⟨useW (tyRegs t) d, useW (tyRegs t) a, useW (tyRegs t) b, useO (tyRegs t) c⟩
  | .frnd _ t _ d a | .fsqrt _ t _ d a => ⟨useW (tyRegs t) d, useW (tyRegs t) a, none, none⟩
  | .frcp _ t d a | .frsq _ t d a | .fexp2 _ t d a | .flog2 _ t d a | .fsin _ t d a | .fcos _ t d a =>
    ⟨useW (tyRegs t) d, useW (tyRegs t) a, none, none⟩
  | .fscl _ t _ d a b => ⟨useW (tyRegs t) d, useW (tyRegs t) a, useO 1 b, none⟩
  | .fcvt _ td ts _ _ d a | .ftoi _ td ts _ _ d a => ⟨useW (tyRegs td) d, useW (tyRegs ts) a, none, none⟩
  | .itof _ td ts _ d a => ⟨useW (tyRegs td) d, useW (tyRegs ts) a, none, none⟩
  | .acz _ d => ⟨useLa d, none, none, none⟩
  | .acadd _ t d a => ⟨useLa d, useW (tyRegs t) a, none, none⟩
  | .acfma _ t d a b => ⟨useLa d, useW (tyRegs t) a, useW (tyRegs t) b, none⟩
  | .acdot _ _ d a b => ⟨useLa d, useW 1 a, useW 1 b, none⟩
  | .acmrg _ d a | .acred _ d a | .acnorm _ d a => ⟨useLa d, useLa a, none, none⟩
  | .acrnd _ t _ _ _ d a sc rep =>
    ⟨useW (tyRegs t) d, useLa a, (match sc with | .reg r => useW 1 r | _ => none), rep.bind fun r => some ⟨.reg 1 1, r, false⟩⟩
  | .acscl _ d a b => ⟨useLa d, useLa a, useO 1 b, none⟩
  | .acxt _ d a b => ⟨useW 1 d, useLa a, useO 1 b, none⟩
  | .acins _ d a b => ⟨useLa d, useW 1 a, useO 1 b, none⟩
  | .actst _ _ d a => ⟨usePred d, useLa a, none, none⟩
  | .acld _ sp d a _ | .acst _ sp _ d a _ => ⟨useLa d, useBase sp a, none, none⟩
  | .ld _ sp t _ _ d a _ | .st _ sp t _ _ d a _ => ⟨useW (tyRegs t) d, useBase sp a, none, none⟩
  | .pref _ _ a _ => ⟨none, useW 2 a, none, none⟩
  | .waitc _ d b | .cadd _ d b => ⟨some ⟨.ctr, d, false⟩, none, useO 1 b, none⟩
  | .cpy _ a => ⟨none, some ⟨.rec8, a, true⟩, none, none⟩
  | .seal _ d => ⟨useW 1 d, none, none, none⟩
  | .cbw _ b | .sleep _ b => ⟨none, none, useO 1 b, none⟩
  | .dep _ t a b => ⟨none, useW 1 a, useO (tyRegs t) b, none⟩
  | .disc _ a b _ | .mhint _ _ a b _ => ⟨none, useW 2 a, useW 1 b, none⟩
  | .lqry _ d a _ => ⟨usePred d, useW 2 a, none, none⟩
  | .atom _ op _ t _ d a _ =>
    ⟨some ⟨.reg (if op = .badd then 2 * tyRegs t else tyRegs t) (tyRegs t), d, true⟩, useW 2 a, none, none⟩
  | .acas _ _ t _ d a _ => ⟨some ⟨.reg (2 * tyRegs t) (tyRegs t), d, true⟩, useW 2 a, none, none⟩
  | .aadd _ f _ d a _ =>
    ⟨(match f with
      | .val t => useW (tyRegs t) d
      | .prod t => some ⟨.reg (2 * tyRegs t) (tyRegs t), d, true⟩
      | .la => useLa d), useW 2 a, none, none⟩
  | .afin _ _ _ t _ _ d a _ => ⟨useW (tyRegs t) d, useW 2 a, none, none⟩
  | .brx _ a | .callx _ a => ⟨none, some ⟨.vec, a, true⟩, none, none⟩
  | .barArrive _ _ nb c | .barSync _ _ nb c => ⟨some ⟨.bar, nb, false⟩, none, useCnt c, none⟩
  | .barWait _ _ nb => ⟨some ⟨.bar, nb, false⟩, none, none, none⟩
  | .suspend _ a b => ⟨none, useW 2 a, useW 1 b, none⟩
  | .signal _ a b => ⟨none, useW 2 a, useNz b, none⟩
  | .spawn _ a b | .launch _ a b => ⟨none, some ⟨.rec8, a, true⟩, useW 1 b, none⟩
  | .mz _ d _ => ⟨some ⟨.tile, d, false⟩, none, none, none⟩
  | .mma _ _ d a b => ⟨some ⟨.tile, d, false⟩, useM 2 30 a, useM 2 30 b, none⟩
  | .mmas _ _ _ d sa b => ⟨some ⟨.tile, d, false⟩, some ⟨.sdesc 3 28, sa, true⟩, useM 2 30 b, none⟩
  | .mdrain _ _ _ _ _ d a => ⟨some ⟨.tile, d, false⟩, some ⟨.sdesc 12 20, a, true⟩, none, none⟩
  | .mspill _ _ _ d a | .mfill _ _ d a => ⟨some ⟨.tile, d, false⟩, some ⟨.sdesc 3 28, a, true⟩, none, none⟩
  | .coll _ _ x a | .crec _ _ x a => ⟨none, some ⟨.sdesc 2 30, a, true⟩, useObj x.obj, none⟩
  | .abw _ a => ⟨none, useW 1 a, none, none⟩
  | .gets _ sr d =>
    ⟨(if srPerLane sr then some ⟨.vec, d, false⟩ else useW (if srWide sr then 2 else 1) d), none, none, none⟩
  | .sets _ sr a => ⟨none, useW (if srWide sr then 2 else 1) a, none, none⟩
  | .tmark _ a => (match a with | .reg r => ⟨none, some ⟨.reg 1 1, r, false⟩, none, none⟩ | .imm _ => {})
  | _ => {}

/-! ### Step 2 of R29 -/

/-- Whether a use may be named by reuse (R21): a vector register the instruction reads, and no LA. -/
def reusable : Option Use → Bool
  | some ⟨.reg _ _, _, r⟩ => r
  | _ => false

/-- R21. -/
def reuseOk (h : Hdr) (u : Uses) : Bool :=
  match h.reuse with
  | 0 => true
  | 1 => !h.g && reusable u.a
  | 2 => !h.g && reusable u.b
  | _ => !h.g && reusable u.c

/-- Whether the stream hint may be set (R23). -/
def streamHintOk : Instr → Bool
  | .ld .. | .st .. | .pref .. | .cpy .. | .atom .. | .acas .. | .aadd .. => true
  | _ => false

/-- Whether a use may carry a last-use hint (R23). -/
def lastOk : Option Use → Bool
  | some u => u.reads
  | none => false

/-- R23. -/
def hintsOk (i : Instr) (h : Hdr) (u : Uses) : Bool :=
  (!h.hints.lastA || lastOk u.a) && (!h.hints.lastB || lastOk u.b) && (!h.hints.stream || streamHintOk i)

/-- The 16-bit immediates of R26. -/
def imm16Ok (t : Ty) : Opnd → Bool
  | .imm x => if t = .f16 ∨ t = .bf16 then x.toNat / 65536 == 0 else true
  | .reg _ => true

/-- Formats of two matrix operands taken from the word (R224, R231). -/
def mfmtGs : MFmt → Bool
  | .gs4 | .gs6 | .gs9 => true
  | _ => false

def mfmtPair (a b : MFmt) : Bool := a == b || (mfmtGs a && mfmtGs b)

/-- What an entry adds to step 2 (R26, R106, R161, R190, R211, R221, R231, R274, R305). -/
def entryOk (s : Stream) : Instr → Bool
  | .fadd _ t _ _ _ _ b | .fmul _ t _ _ _ _ b => imm16Ok t b
  | .fmin _ t _ _ _ b | .fmax _ t _ _ _ b | .fcmp _ _ t _ _ b => imm16Ok t b
  | .ffma _ t _ _ _ _ _ c => imm16Ok t c
  | .getl _ _ _ _ b | .setl _ _ _ _ b => (match b with | .imm x => x.toNat / 64 == 0 | _ => true)
  | .acrnd _ _ _ _ _ _ _ sc rep =>
    (match sc with
     | .reg r => r != 0
     | .imm _ => rep == none
     | .none => true)
  | .acld _ sp .. | .acst _ sp .. => sp == .glb || sp == .scr || sp == .prv
  | .fence _ _ m => m.ctr == 15 && m.ofs == 0
  | .mhint _ _ _ _ m | .lqry _ _ _ m => m.ctr == 15
  | .bra _ x | .loop _ x | .call _ x => x.toNat % 4 == 0
  | .vbr _ _ _ j x => j != 0 && x.toNat % 4 == 0
  | .barArrive _ coh _ _ | .barWait _ coh _ | .barSync _ coh _ _ => !(coh && s == .bms)
  | .mma _ _ _ a b => (match a, b with | .tile _ f, .tile _ g => mfmtPair f g | _, _ => true)
  | .coll _ op x _ | .crec _ op x _ =>
    ((op == .ared || op == .rscat) && (match x.fmt with | .fp _ => true | .la => false) || (x.rm == .rne && !x.mean))
      && (match x.obj, x.fmt with
          | .zTile _, .la => true
          | .zTile _, _ => false
          | .yTile _, .la => false
          | _, _ => true)
  | _ => true

/-- Step 2 of R29 on the instruction a word's fields give. -/
def formOk (s : Stream) (i : Instr) : Bool :=
  match hdrOf i with
  | none => false
  | some h =>
    gOk i && (s == .group || h.g) && typeOk i && entryOk s i && reuseOk h (uses i) && hintsOk i h (uses i)

/-! ### Step 3 of R29 -/

/-- The number of registers a stream and form can name (R15, R46). -/
def regLimit (s : Stream) (g : Bool) : Nat :=
  match s, g with
  | .bms, _ => 32
  | .group, true => 128
  | .group, false => 512

/-- R15 for one operand field. -/
def useOk (s : Stream) (g : Bool) (u : Use) : Bool :=
  let r := u.r.toNat
  match u.kind with
  | .reg n al => r % al == 0 && decide (r + n ≤ regLimit s g)
  | .vec => s == .group
  | .la => r % 24 == 8 && decide (r ≤ 488)
  | .pred => decide (r < (if g then 8 else 16))
  | .ctr => decide (r < 16)
  | .bar => decide (r < 16)
  | .tile => decide (r < 8)
  | .rec8 => r % 8 == 0 && decide (8 ≤ r ∧ r ≤ (if s = .bms then 24 else 120))
  | .sdesc _ hi => r % 2 == 0 && decide (2 ≤ r ∧ r ≤ hi)

def useOk? (s : Stream) (g : Bool) : Option Use → Bool
  | none => true
  | some u => useOk s g u

/-- Whether two operands share a register (R248). -/
def overlaps : Option Use → Option Use → Bool
  | some ⟨.reg n _, r, _⟩, some ⟨.reg m _, q, _⟩ => decide (r.toNat < q.toNat + m ∧ q.toNat < r.toNat + n)
  | _, _ => false

/-- What an entry adds to step 3 (R171, R209, R227, R248, R44 layout PIDX). -/
def entryRangeOk (s : Stream) : Instr → Bool
  | .sel h _ p .. => !h.g || decide (p.toNat < 8)
  | .acxt _ _ _ b | .acins _ _ _ b => (match b with | .imm x => decide (x.toNat ≤ 647) | _ => true)
  | .mz _ _ n => decide (1 ≤ n.toNat ∧ n.toNat ≤ 8)
  | .atom _ _ _ _ _ _ _ _ => true
  | .gets _ sr _ =>
    decide (sr.toNat ≤ 0x22) && !(s == .bms && (srPerLane sr || sr == 0x0C || sr == 0x0D))
  | .sets _ sr _ =>
    decide (sr.toNat ≤ 0x22) && !srPerLane sr && !(s == .bms && (sr == 0x0C || sr == 0x0D))
  | _ => true

/-- R248: D may not overlap A. -/
def noOverlap (i : Instr) : Bool :=
  match i with
  | .atom .. | .acas .. => !overlaps (uses i).d (uses i).a
  | _ => true

/-- Step 3 of R29 (R15, R17). -/
def operandsOk (s : Stream) (i : Instr) : Bool :=
  match hdrOf i with
  | none => false
  | some h =>
    let u := uses i
    (!h.g || decide (h.gidx.toNat < 8)) && useOk? s h.g u.d && useOk? s h.g u.a && useOk? s h.g u.b
      && useOk? s h.g u.c && entryRangeOk s i && noOverlap i

/-- An instruction that a word of the stream can carry: it passes steps 1 to 3 of R29. -/
def WellFormed (s : Stream) (i : Instr) : Bool :=
  (match opcodeOf i with | some o => fetchable s o | none => false) && formOk s i && operandsOk s i

/-! ### Step 4 of R29 -/

/-- The registers of one vector operand lie below the budget (R16). -/
def useBudget (g : Bool) (b : Nat) : Option Use → Bool
  | some ⟨.reg n _, r, _⟩ => g || decide (r.toNat + n ≤ b)
  | some ⟨.la, r, _⟩ => decide (r.toNat + 24 ≤ b)
  | some ⟨.vec, r, _⟩ => decide (r.toNat + 1 ≤ b)
  | _ => true

/-- Step 4 of R29: no vector operand at or above the variant's budget (R16). -/
def budgetOk (b : Nat) (i : Instr) : Bool :=
  match hdrOf i with
  | none => true
  | some h =>
    let u := uses i
    useBudget h.g b u.d && useBudget h.g b u.a && useBudget h.g b u.b && useBudget h.g b u.c

end Sys2Proof
end

