-- ==== Sys2Proof/Decode.lean ====
section
/-!
DEFINITION. The decoder and encoder of the 96-bit word (01 R13 to R29, 02 R42 to R48): the fields of a word, the
instruction they name or the cause they raise in the order of R29, and the word of an instruction.
-/

namespace Sys2Proof

/-- The fields of an instruction word (R14). -/
structure Fields where
  opc : BitVec 10
  g : Bool
  neg : Bool
  gidx : BitVec 4
  d : Reg
  a : Reg
  b : Reg
  ty : BitVec 4
  mode : BitVec 4
  reuse : BitVec 2
  ecl : BitVec 3
  hints : BitVec 4
  xk : BitVec 4
  x : Word
  deriving DecidableEq, Repr

/-- The fields of a word, by their bit positions (R14). -/
def fieldsOf (w : IWord) : Fields where
  opc := w.extractLsb' 86 10
  g := w.getLsbD 85
  neg := w.getLsbD 84
  gidx := w.extractLsb' 80 4
  d := w.extractLsb' 71 9
  a := w.extractLsb' 62 9
  b := w.extractLsb' 53 9
  ty := w.extractLsb' 49 4
  mode := w.extractLsb' 45 4
  reuse := w.extractLsb' 43 2
  ecl := w.extractLsb' 40 3
  hints := w.extractLsb' 36 4
  xk := w.extractLsb' 32 4
  x := w.extractLsb' 0 32

/-- The word of fields (R14). -/
def wordOf (f : Fields) : IWord :=
  f.opc ++ BitVec.ofBool f.g ++ BitVec.ofBool f.neg ++ f.gidx ++ f.d ++ f.a ++ f.b ++ f.ty ++ f.mode ++ f.reuse
    ++ f.ecl ++ f.hints ++ f.xk ++ f.x

/-! ### Reading fields -/

/-- R19. -/
def tyOfCode (c : BitVec 4) : Option Ty :=
  match c.toNat with
  | 0 => some .s32
  | 1 => some .n32
  | 2 => some .s64
  | 3 => some .n64
  | 4 => some .f32
  | 5 => some .f64
  | 6 => some .f16
  | 7 => some .bf16
  | 8 => some .f16x2
  | 9 => some .bf16x2
  | 10 => some .b8
  | 11 => some .b16
  | 12 => some .b32
  | 13 => some .b64
  | 14 => some .b128
  | _ => none

/-- R20, FN[1:0]. -/
def rmOfCode (c : BitVec 2) : Rm :=
  match c.toNat with
  | 0 => .rne
  | 1 => .rtz
  | 2 => .rup
  | _ => .rdn

/-- The header of R14. -/
def hdrOfFields (f : Fields) : Hdr :=
  ⟨f.g, f.neg, f.gidx, f.reuse, f.ecl,
   ⟨f.hints.getLsbD 0, f.hints.getLsbD 1, f.hints.getLsbD 2, f.hints.getLsbD 3⟩⟩

/-- XK = 0 with X zero (R24). -/
def noX (f : Fields) : Bool := f.xk == 0 && f.x == 0

/-- A last operand in B: a register, or the imm32 that replaces it (R26). -/
def opndB (f : Fields) : Option Opnd :=
  if noX f then some (.reg f.b) else if f.xk == 2 && f.b == 0 then some (.imm f.x) else none

/-- A last operand in C: X[8:0], or the imm32 (R24, R26). -/
def opndC (f : Fields) : Option Opnd :=
  if f.xk == 1 && f.x.extractLsb' 9 23 == 0 then some (.reg (f.x.extractLsb' 0 9))
  else if f.xk == 2 then some (.imm f.x) else none

/-- R25. -/
def scopeOfCode (c : BitVec 3) : Option Scope :=
  match c.toNat with
  | 0 => some .grp
  | 1 => some .blk
  | 2 => some .coh
  | 3 => some .die
  | 4 => some .pkg
  | 5 => some .sys
  | _ => none

/-- The memory extension (R25). -/
def memX (f : Fields) : Option MemX :=
  if f.xk == 3 then
    (scopeOfCode (f.x.extractLsb' 25 3)).map fun s =>
      ⟨f.x.extractLsb' 28 4, s, ⟨f.x.getLsbD 24, f.x.getLsbD 23, f.x.getLsbD 22, f.x.getLsbD 21⟩, f.x.extractLsb' 0 21⟩
  else none

/-- FN takes no type and no mode. -/
def fnZero (f : Fields) : Bool := f.ty == 0 && f.mode == 0

/-- Layout ISAT (R44): the SAT flag. -/
def isat (f : Fields) : Option Bool :=
  if f.mode == 0 then some false else if f.mode == 4 then some true else none

/-- SAT of the rounding layouts (R20). -/
def satOf (f : Fields) : Bool := f.mode.getLsbD 2

/-- RM of the rounding layouts (R20). -/
def rmOf (f : Fields) : Rm := rmOfCode (f.mode.extractLsb' 0 2)

/-- Layouts RM and RM+S leave FN[3] (and FN[2]) zero (R44). -/
def isRm (f : Fields) : Bool := f.mode.extractLsb' 2 2 == 0
def isRmS (f : Fields) : Bool := !f.mode.getLsbD 3

/-- Layout MEM (R44). -/
def spaceOf (f : Fields) : Option Space :=
  match (f.mode.extractLsb' 1 3).toNat with
  | 0 => some .glb
  | 1 => some .scr
  | 2 => some .coh
  | 3 => some .prv
  | 4 => some .win
  | _ => none

/-- Layout CMPI (R44). -/
def cmpiOf (c : BitVec 4) : Option CmpI :=
  match c.toNat with
  | 0 => some .eq
  | 1 => some .ne
  | 2 => some .lt
  | 3 => some .le
  | 4 => some .gt
  | 5 => some .ge
  | _ => none

/-- Layout CMPF (R44). -/
def cmpfOf (c : BitVec 4) : Option CmpF :=
  match c.toNat with
  | 0 => some .eq
  | 1 => some .ne
  | 2 => some .lt
  | 3 => some .le
  | 4 => some .gt
  | 5 => some .ge
  | 6 => some .num
  | 7 => some .nan
  | 8 => some .equ
  | 9 => some .neu
  | 10 => some .ltu
  | 11 => some .leu
  | 12 => some .gtu
  | 13 => some .geu
  | _ => none

/-- Layout SHM (R44). -/
def shmOf (c : BitVec 4) : Option ShflMode :=
  match c.toNat with
  | 0 => some .idx
  | 1 => some .up
  | 2 => some .down
  | 3 => some .xor
  | _ => none

/-- Layout VTM (R44). -/
def vtmOf (c : BitVec 4) : Option VoteMode :=
  match c.toNat with
  | 0 => some .all
  | 1 => some .any
  | 2 => some .uni
  | 3 => some .ballot
  | _ => none

/-- Layout ACT (R44). -/
def actOf (c : BitVec 4) : Option AcCond :=
  match c.toNat with
  | 0 => some .zero
  | 1 => some .neg
  | 2 => some .nan
  | 3 => some .inf
  | 4 => some .lowloss
  | 5 => some .range
  | _ => none

/-- Layout PFM (R44). -/
def pfmOf (c : BitVec 4) : Option PrefMode :=
  match c.toNat with
  | 0 => some .s
  | 1 => some .x
  | 2 => some .wbi
  | _ => none

/-- Layout FEN (R44). -/
def fenOf (c : BitVec 4) : Option FenceOrd :=
  match c.toNat with
  | 0 => some .acqrel
  | 1 => some .acq
  | 2 => some .rel
  | _ => none

/-- Layout TIER (R44): FN[1:0] the tier, FN[3:2] the place. -/
def tierOf (c : BitVec 4) : Option TierPlace :=
  match (c.extractLsb' 0 2).toNat, (c.extractLsb' 2 2).toNat with
  | 0, _ => some (.h (c.extractLsb' 2 2))
  | 1, 0 => some (.l false)
  | 1, 1 => some (.l true)
  | 2, 0 => some (.x none)
  | 2, 1 => some (.x (some false))
  | 2, 2 => some (.x (some true))
  | _, _ => none

/-- Layout AOP (R44). -/
def aopOf (c : BitVec 4) : Option AtomOp :=
  match c.toNat with
  | 0 => some .add
  | 1 => some .and
  | 2 => some .or
  | 3 => some .xor
  | 4 => some .smin
  | 5 => some .smax
  | 6 => some .nmin
  | 7 => some .nmax
  | 8 => some .exch
  | 9 => some .incw
  | 10 => some .badd
  | _ => none

/-- Orderings of ATOM and ACAS (R45). -/
def ordOf (c : BitVec 2) : Ord :=
  match c.toNat with
  | 0 => .rlx
  | 1 => .acq
  | 2 => .rel
  | _ => .acqrel

/-- Allocation options (R45), with B[8:2] zero. -/
def allocOf (b : Reg) : Option Alloc :=
  match b.toNat with
  | 0 => some .dflt
  | 1 => some .na
  | 2 => some .ef
  | _ => none

/-- A source type code in B (R45), with B[8:4] zero. -/
def srcTy (b : Reg) : Option Ty := if b.toNat < 16 then tyOfCode (b.extractLsb' 0 4) else none

/-- Layout COP (R44). -/
def copOf (c : BitVec 2) : CollOp :=
  match c.toNat with
  | 0 => .ared
  | 1 => .rscat
  | 2 => .agath
  | _ => .bcast

/-- R226. -/
def shapeOf (c : BitVec 3) : Option Shape :=
  match c.toNat with
  | 0 => some .m64n64
  | 1 => some .m128n64
  | 2 => some .m64n128
  | 3 => some .m128n128
  | _ => none

/-- R224. -/
def mfmtOf (c : BitVec 4) : Option MFmt :=
  match c.toNat with
  | 0 => some .f64
  | 1 => some .f32
  | 2 => some .f16
  | 3 => some .bf16
  | 4 => some .gs4
  | 5 => some .gs6
  | 6 => some .gs9
  | _ => none

/-- The floating formats of R224 and R274. -/
def ffmtOf (c : BitVec 4) : Option FFmt :=
  match c.toNat with
  | 0 => some .f64
  | 1 => some .f32
  | 2 => some .f16
  | 3 => some .bf16
  | _ => none

/-- R230. -/
def nkOf (c : BitVec 2) : Option NK :=
  match c.toNat with
  | 0 => some .k16
  | 1 => some .k32
  | 2 => some .k64
  | _ => none

/-- A matrix operand from its source bit, its register and its format field (R228). -/
def msrcOf (desc : Bool) (r : Reg) (fm : BitVec 4) : Option MSrc :=
  if desc then (if fm == 0 then some (.desc r) else none) else (mfmtOf fm).map (.tile r)

/-- The drain extension (R234). -/
def drainOf (x : Word) : Option DrainX :=
  if x.extractLsb' 12 20 != 0 then none
  else
    (shapeOf (x.extractLsb' 0 3)).bind fun sh =>
      if x.getLsbD 4 then
        (ffmtOf (x.extractLsb' 6 4)).map fun f =>
          ⟨sh, x.getLsbD 3, some (x.getLsbD 5, f), x.getLsbD 10, x.getLsbD 11⟩
      else if x.extractLsb' 5 5 == 0 then some ⟨sh, x.getLsbD 3, none, x.getLsbD 10, x.getLsbD 11⟩
      else none

/-- The format of a collective (R274). -/
def collFmtOf (c : BitVec 4) : Option CollFmt :=
  if c == 8 then some .la else (ffmtOf c).map .fp

/-- The object of a collective (R274). -/
def collObjOf (obj : BitVec 2) (tile : BitVec 3) (b : Reg) : Option CollObj :=
  match obj.toNat with
  | 0 => if tile == 0 then some (.memory b) else none
  | 1 => if b == 0 then some (.zTile tile) else none
  | 2 => if b == 0 then some (.yTile tile) else none
  | _ => none

/-- The collective extension (R274). -/
def collOf (x : Word) (b : Reg) : Option CollX :=
  if x.extractLsb' 14 18 != 0 then none
  else
    match collFmtOf (x.extractLsb' 5 4), collObjOf (x.extractLsb' 0 2) (x.extractLsb' 2 3) b with
    | some f, some o => some ⟨rmOfCode (x.extractLsb' 10 2), x.getLsbD 9, f, o⟩
    | _, _ => none

/-- The type of an instruction that takes one. -/
def tyOf (f : Fields) : Option Ty := tyOfCode f.ty

/-! ### The instruction the fields name, by class (R43 to R45), or nothing where a field has no meaning -/

/-- Two sources, B last. -/
def mkDAB (f : Fields) (ok : Bool) (k : Ty → Opnd → Instr) : Option Instr :=
  if ok then (match tyOf f, opndB f with | some t, some b => some (k t b) | _, _ => none) else none

/-- Three sources, C last. -/
def mkDABC (f : Fields) (ok : Bool) (k : Ty → Opnd → Instr) : Option Instr :=
  if ok then (match tyOf f, opndC f with | some t, some c => some (k t c) | _, _ => none) else none

/-- One source. -/
def mkDA (f : Fields) (ok : Bool) (k : Ty → Instr) : Option Instr :=
  if ok && noX f && f.b == 0 then (tyOf f).map k else none

/-- Two register sources, no extension. -/
def mkDARB (f : Fields) (ok : Bool) (k : Ty → Instr) : Option Instr :=
  if ok && noX f then (tyOf f).map k else none

/-- No type, given a condition on the fields. -/
def mkIf (ok : Bool) (i : Instr) : Option Instr := if ok then some i else none

/-- Class 0. -/
def decode0 (f : Fields) : Option Instr :=
  let h := hdrOfFields f
  let z := f.mode == 0
  match f.opc.toNat with
  | 0x001 => (isat f).bind fun s => mkDAB f true fun t b => .iadd h t s f.d f.a b
  | 0x002 => (isat f).bind fun s => mkDAB f true fun t b => .isub h t s f.d f.a b
  | 0x003 => (isat f).bind fun s => mkDAB f true fun t b => .imul h t s f.d f.a b
  | 0x004 => mkDAB f z fun t b => .imulh h t f.d f.a b
  | 0x005 => (isat f).bind fun s => mkDABC f true fun t c => .imad h t s f.d f.a f.b c
  | 0x006 => mkDAB f z fun t b => .idiv h t f.d f.a b
  | 0x007 => mkDAB f z fun t b => .irem h t f.d f.a b
  | 0x008 => mkDAB f z fun t b => .imin h t f.d f.a b
  | 0x009 => mkDAB f z fun t b => .imax h t f.d f.a b
  | 0x00A => (isat f).bind fun s => mkDA f true fun t => .iabs h t s f.d f.a
  | 0x010 => mkDAB f z fun t b => .and h t f.d f.a b
  | 0x011 => mkDAB f z fun t b => .or h t f.d f.a b
  | 0x012 => mkDAB f z fun t b => .xor h t f.d f.a b
  | 0x013 => mkDAB f z fun t b => .shl h t f.d f.a b
  | 0x014 => mkDAB f z fun t b => .shr h t f.d f.a b
  | 0x015 => mkDAB f z fun t b => .sar h t f.d f.a b
  | 0x016 => mkDABC f z fun t c => .bfx h t f.d f.a f.b c
  | 0x017 => mkDABC f z fun t c => .bfi h t f.d f.a f.b c
  | 0x018 => mkDA f z fun t => .popc h t f.d f.a
  | 0x019 => mkDA f z fun t => .clz h t f.d f.a
  | 0x01A => mkDA f z fun t => .brev h t f.d f.a
  | 0x020 => mkDAB f (!f.mode.getLsbD 3) fun t b => .lea h t (f.mode.extractLsb' 0 3) f.d f.a b
  | 0x021 => mkDA f z fun t => .mov h t f.d f.a
  | 0x022 => if z && f.xk == 2 && f.a == 0 && f.b == 0 then (tyOf f).map fun t => .movi h t f.d f.x else none
  | 0x023 => mkDAB f true fun t b => .sel h t f.mode f.d f.a b
  | 0x028 => (cmpiOf f.mode).bind fun c => mkDAB f true fun t b => .icmp h c t f.d f.a b
  | 0x029 => mkIf (f.ty == 0 && noX f) (.plop h f.mode f.d f.a f.b)
  | 0x02A =>
    if f.ty == 0 && noX f && f.b == 0 then
      (if f.mode == 0 && f.a == 0 then some (.pmov h .p2r f.d)
       else if f.mode == 1 && f.d == 0 then some (.pmov h .r2p f.a) else none)
    else none
  | 0x030 => (shmOf f.mode).bind fun m => mkDAB f true fun t b => .shfl h m t f.d f.a b
  | 0x031 => (vtmOf f.mode).bind fun m => mkIf (f.ty == 0 && noX f && f.b == 0) (.vote h m f.d f.a)
  | 0x032 => mkDAB f z fun t b => .getl h t f.d f.a b
  | 0x033 => mkDAB f z fun t b => .setl h t f.d f.a b
  | _ => none

/-- Class 1. -/
def decode1 (f : Fields) : Option Instr :=
  let h := hdrOfFields f
  let z := f.mode == 0
  match f.opc.toNat with
  | 0x080 => mkDAB f (isRmS f) fun t b => .fadd h t (rmOf f) (satOf f) f.d f.a b
  | 0x081 => mkDAB f (isRmS f) fun t b => .fmul h t (rmOf f) (satOf f) f.d f.a b
  | 0x082 => mkDABC f (isRmS f) fun t c => .ffma h t (rmOf f) (satOf f) f.d f.a f.b c
  | 0x083 => mkDAB f (f.mode.extractLsb' 1 3 == 0) fun t b => .fmin h t (f.mode.getLsbD 0) f.d f.a b
  | 0x084 => mkDAB f (f.mode.extractLsb' 1 3 == 0) fun t b => .fmax h t (f.mode.getLsbD 0) f.d f.a b
  | 0x085 => (cmpfOf f.mode).bind fun c => mkDAB f true fun t b => .fcmp h c t f.d f.a b
  | 0x086 => mkDA f z fun t => .fclass h t f.d f.a
  | 0x087 => mkDA f (isRm f) fun t => .frnd h t (rmOf f) f.d f.a
  | 0x088 => mkDAB f (isRm f) fun t b => .fscl h t (rmOf f) f.d f.a b
  | 0x090 => mkDA f z fun t => .frcp h t f.d f.a
  | 0x091 => mkDA f z fun t => .frsq h t f.d f.a
  | 0x092 => mkDA f (isRm f) fun t => .fsqrt h t (rmOf f) f.d f.a
  | 0x093 => mkDAB f (isRm f) fun t b => .fdiv h t (rmOf f) f.d f.a b
  | 0x094 => mkDA f z fun t => .fexp2 h t f.d f.a
  | 0x095 => mkDA f z fun t => .flog2 h t f.d f.a
  | 0x096 => mkDA f z fun t => .fsin h t f.d f.a
  | 0x097 => mkDA f z fun t => .fcos h t f.d f.a
  | 0x0A0 => (srcTy f.b).bind fun ts => mkDARB f (isRmS f) fun td => .fcvt h td ts (rmOf f) (satOf f) f.d f.a
  | 0x0A1 => (srcTy f.b).bind fun ts => mkDARB f (isRmS f) fun td => .ftoi h td ts (rmOf f) (satOf f) f.d f.a
  | 0x0A2 => (srcTy f.b).bind fun ts => mkDARB f (isRm f) fun td => .itof h td ts (rmOf f) f.d f.a
  | _ => none

/-- The scale and report of ACRND (R211). -/
def acrndTail (f : Fields) : Option (AcScale × Option Reg) :=
  let sc := if f.b == 0 then AcScale.none else .reg f.b
  if noX f then some (sc, none)
  else if f.xk == 1 && f.x.extractLsb' 9 23 == 0 then some (sc, some (f.x.extractLsb' 0 9))
  else if f.xk == 2 && f.b == 0 then some (.imm f.x, none)
  else none

/-- Class 2. -/
def decode2 (f : Fields) : Option Instr :=
  let h := hdrOfFields f
  let z := f.mode == 0
  let n := fnZero f && noX f
  match f.opc.toNat with
  | 0x100 => mkIf (n && f.a == 0 && f.b == 0) (.acz h f.d)
  | 0x101 => mkDA f z fun t => .acadd h t f.d f.a
  | 0x102 => mkDARB f z fun t => .acfma h t f.d f.a f.b
  | 0x103 => mkDARB f z fun t => .acdot h t f.d f.a f.b
  | 0x104 => mkIf (n && f.b == 0) (.acmrg h f.d f.a)
  | 0x105 => mkIf (n && f.b == 0) (.acred h f.d f.a)
  | 0x106 => mkIf (n && f.b == 0) (.acnorm h f.d f.a)
  | 0x107 =>
    match tyOf f, acrndTail f with
    | some t, some (sc, rep) => some (.acrnd h t (rmOf f) (satOf f) (f.mode.getLsbD 3) f.d f.a sc rep)
    | _, _ => none
  | 0x108 => if fnZero f then (opndB f).map fun b => .acscl h f.d f.a b else none
  | 0x109 => if z && tyOf f == some .b32 then (opndB f).map fun b => .acxt h f.d f.a b else none
  | 0x10A => if z && tyOf f == some .b32 then (opndB f).map fun b => .acins h f.d f.a b else none
  | 0x10B => (actOf f.mode).bind fun c => mkIf (f.ty == 0 && noX f && f.b == 0) (.actst h c f.d f.a)
  | 0x110 =>
    match spaceOf f, memX f with
    | some sp, some m => mkIf (f.ty == 0 && !f.mode.getLsbD 0 && f.b == 0) (.acld h sp f.d f.a m)
    | _, _ => none
  | 0x111 =>
    match spaceOf f, memX f with
    | some sp, some m => mkIf (f.ty == 0 && f.b == 0) (.acst h sp (f.mode.getLsbD 0) f.d f.a m)
    | _, _ => none
  | _ => none

/-- Class 3. -/
def decode3 (f : Fields) : Option Instr :=
  let h := hdrOfFields f
  let z := fnZero f
  match f.opc.toNat with
  | 0x180 =>
    match tyOf f, spaceOf f, allocOf f.b, memX f with
    | some t, some sp, some al, some m => some (.ld h sp t (f.mode.getLsbD 0) al f.d f.a m)
    | _, _, _, _ => none
  | 0x181 =>
    match tyOf f, spaceOf f, allocOf f.b, memX f with
    | some t, some sp, some al, some m => some (.st h sp t (f.mode.getLsbD 0) al f.d f.a m)
    | _, _, _, _ => none
  | 0x182 =>
    match pfmOf f.mode, memX f with
    | some pm, some m => mkIf (f.ty == 0 && f.d == 0 && f.b == 0) (.pref h pm f.a m)
    | _, _ => none
  | 0x183 => if z && f.a == 0 then (opndB f).map fun b => .waitc h f.d b else none
  | 0x184 =>
    match fenOf f.mode, memX f with
    | some o, some m => mkIf (f.ty == 0 && f.d == 0 && f.a == 0 && f.b == 0) (.fence h o m)
    | _, _ => none
  | 0x188 => mkIf (z && noX f && f.d == 0 && f.b == 0) (.cpy h f.a)
  | 0x189 => mkIf (z && noX f && f.a == 0 && f.b == 0) (.seal h f.d)
  | 0x18A => if z && f.d == 0 && f.a == 0 then (opndB f).map fun b => .cbw h b else none
  | 0x18B => if f.mode == 0 && f.d == 0 then mkDAB f true fun t b => .dep h t f.a b else none
  | 0x18C => if z && f.a == 0 then (opndB f).map fun b => .cadd h f.d b else none
  | 0x190 => (memX f).bind fun m => mkIf (z && f.d == 0) (.disc h f.a f.b m)
  | 0x191 =>
    match tierOf f.mode, memX f with
    | some tp, some m => mkIf (f.ty == 0 && f.d == 0) (.mhint h tp f.a f.b m)
    | _, _ => none
  | 0x192 => (memX f).bind fun m => mkIf (z && f.b == 0) (.lqry h f.d f.a m)
  | 0x198 =>
    mkIf (z && f.xk == 2 && f.x.extractLsb' 12 20 == 0 && f.d == 0 && f.a == 0 && f.b == 0)
      (.region h (f.x.extractLsb' 0 12))
  | _ => none

/-- Class 4. -/
def decode4 (f : Fields) : Option Instr :=
  let h := hdrOfFields f
  match f.opc.toNat with
  | 0x200 =>
    match aopOf f.mode, tyOf f, memX f with
    | some op, some t, some m =>
      mkIf (f.b.extractLsb' 3 6 == 0) (.atom h op (f.b.getLsbD 2) t (ordOf (f.b.extractLsb' 0 2)) f.d f.a m)
    | _, _, _ => none
  | 0x201 =>
    match tyOf f, memX f with
    | some t, some m =>
      mkIf (f.mode == 0 && f.b.extractLsb' 3 6 == 0)
        (.acas h (f.b.getLsbD 2) t (ordOf (f.b.extractLsb' 0 2)) f.d f.a m)
    | _, _ => none
  | 0x202 =>
    match tyOf f, memX f with
    | some t, some m =>
      if f.b == 0 || f.b == 2 then
        (match f.mode.toNat with
         | 0 => some (.aadd h (.val t) (f.b == 2) f.d f.a m)
         | 1 => some (.aadd h (.prod t) (f.b == 2) f.d f.a m)
         | 2 => mkIf (f.ty == 0) (.aadd h .la (f.b == 2) f.d f.a m)
         | _ => none)
      else none
    | _, _ => none
  | 0x203 =>
    match tyOf f, memX f with
    | some t, some m =>
      mkIf (!f.mode.getLsbD 2 && !f.b.getLsbD 1 && f.b.extractLsb' 3 6 == 0)
        (.afin h (f.mode.getLsbD 3) (f.b.getLsbD 2) t (rmOf f) (f.b.getLsbD 0) f.d f.a m)
    | _, _ => none
  | _ => none

/-- Class 5. -/
def decode5 (f : Fields) : Option Instr :=
  let h := hdrOfFields f
  let z := fnZero f
  let n := z && noX f
  let br := z && f.xk == 4
  match f.opc.toNat with
  | 0x280 => mkIf (br && f.d == 0 && f.a == 0 && f.b == 0) (.bra h f.x)
  | 0x281 => mkIf (n && f.d == 0 && f.b == 0) (.brx h f.a)
  | 0x282 =>
    mkIf (br && f.a.extractLsb' 5 4 == 0) (.vbr h (f.a.getLsbD 4) (f.a.extractLsb' 0 4) (f.d ++ f.b) f.x)
  | 0x283 => mkIf (n && f.d == 0 && f.a == 0 && f.b == 0) (.join h)
  | 0x284 => mkIf (br && f.d == 0 && f.a == 0 && f.b == 0) (.loop h f.x)
  | 0x285 => mkIf (n && f.d == 0 && f.a == 0 && f.b == 0) (.brk h)
  | 0x286 => mkIf (br && f.d == 0 && f.a == 0 && f.b == 0) (.call h f.x)
  | 0x287 => mkIf (n && f.d == 0 && f.b == 0) (.callx h f.a)
  | 0x288 => mkIf (n && f.d == 0 && f.a == 0 && f.b == 0) (.ret h)
  | 0x289 => mkIf (n && f.d == 0 && f.b == 0 && f.a.extractLsb' 5 4 == 0) (.throw h (f.a.getLsbD 4) (f.a.extractLsb' 0 4))
  | 0x290 =>
    if f.ty == 0 && !f.mode.getLsbD 3 && f.a == 0 then
      (match (f.mode.extractLsb' 0 2).toNat with
       | 1 => (opndB f).map fun c => .barArrive h (f.mode.getLsbD 2) f.d c
       | 2 => mkIf (noX f && f.b == 0) (.barWait h (f.mode.getLsbD 2) f.d)
       | 3 => (opndB f).map fun c => .barSync h (f.mode.getLsbD 2) f.d c
       | _ => none)
    else none
  | 0x291 => mkIf (n && f.d == 0 && f.a == 0 && f.b == 0) (.exit h)
  | 0x292 => mkIf (n && f.d == 0 && f.a == 0 && f.b == 0) (.yield h)
  | 0x293 => if z && f.d == 0 && f.a == 0 then (opndB f).map fun b => .sleep h b else none
  | 0x294 => mkIf (n && f.d == 0 && f.a == 0 && f.b == 0) (.nop h)
  | 0x298 => mkIf (n && f.d == 0) (.suspend h f.a f.b)
  | 0x299 => mkIf (n && f.d == 0) (.signal h f.a f.b)
  | 0x29A => mkIf (n && f.d == 0) (.spawn h f.a f.b)
  | 0x29B => mkIf (n && f.d == 0) (.launch h f.a f.b)
  | 0x29C =>
    mkIf (z && f.xk == 2 && f.x.extractLsb' 16 16 == 0 && f.d == 0 && f.a == 0 && f.b == 0)
      (.swpt h (f.x.extractLsb' 0 16))
  | _ => none

/-- Class 6. -/
def decode6 (f : Fields) : Option Instr :=
  let h := hdrOfFields f
  let z := fnZero f
  match f.opc.toNat with
  | 0x300 => mkIf (z && noX f && f.b == 0) (.mz h f.d f.a)
  | 0x301 =>
    if z && f.xk == 5 && f.x.extractLsb' 13 19 == 0 then
      (match shapeOf (f.x.extractLsb' 0 3), msrcOf (f.x.getLsbD 3) f.a (f.x.extractLsb' 5 4),
         msrcOf (f.x.getLsbD 4) f.b (f.x.extractLsb' 9 4) with
       | some sh, some a, some b => some (.mma h sh f.d a b)
       | _, _, _ => none)
    else none
  | 0x302 =>
    if z && f.xk == 5 && f.x.extractLsb' 15 17 == 0 && f.x.getLsbD 3 && f.x.extractLsb' 5 4 == 0 then
      (match shapeOf (f.x.extractLsb' 0 3), nkOf (f.x.extractLsb' 13 2), msrcOf (f.x.getLsbD 4) f.b (f.x.extractLsb' 9 4) with
       | some sh, some nk, some b => some (.mmas h sh nk f.d f.a b)
       | _, _, _ => none)
    else none
  | 0x303 =>
    if isRmS f && f.xk == 5 && f.b == 0 then
      (match tyOf f, drainOf f.x with
       | some t, some x => some (.mdrain h t (rmOf f) (satOf f) x f.d f.a)
       | _, _ => none)
    else none
  | 0x304 =>
    if z && f.xk == 5 && f.b == 0 && f.x.extractLsb' 4 28 == 0 then
      (shapeOf (f.x.extractLsb' 0 3)).map fun sh => .mspill h sh (f.x.getLsbD 3) f.d f.a
    else none
  | 0x305 =>
    if z && f.xk == 5 && f.b == 0 && f.x.extractLsb' 3 29 == 0 then
      (shapeOf (f.x.extractLsb' 0 3)).map fun sh => .mfill h sh f.d f.a
    else none
  | 0x310 =>
    if f.ty == 0 && f.mode.extractLsb' 2 2 == 0 && f.xk == 5 && f.d == 0 && f.x.extractLsb' 12 2 == 0 then
      (collOf f.x f.b).map fun x => .coll h (copOf (f.mode.extractLsb' 0 2)) x f.a
    else none
  | 0x311 => mkIf (z && noX f && f.d == 0 && f.b == 0) (.abw h f.a)
  | 0x312 =>
    if z && f.xk == 5 && f.d == 0 then
      (collOf f.x f.b).map fun x => .crec h (copOf (f.x.extractLsb' 12 2)) x f.a
    else none
  | _ => none

/-- Class 7. -/
def decode7 (f : Fields) : Option Instr :=
  let h := hdrOfFields f
  let z := fnZero f
  let n := z && noX f
  match f.opc.toNat with
  | 0x380 =>
    mkIf (z && f.xk == 2 && f.x.extractLsb' 8 24 == 0 && f.a == 0 && f.b == 0) (.gets h (f.x.extractLsb' 0 8) f.d)
  | 0x381 =>
    mkIf (z && f.xk == 2 && f.x.extractLsb' 8 24 == 0 && f.d == 0 && f.b == 0) (.sets h (f.x.extractLsb' 0 8) f.a)
  | 0x388 =>
    mkIf (z && f.xk == 2 && f.x.extractLsb' 16 16 == 0 && f.d == 0 && f.a == 0 && f.b == 0)
      (.trap h (f.x.extractLsb' 0 16))
  | 0x389 => mkIf (n && f.d == 0 && f.a == 0 && f.b.extractLsb' 1 8 == 0) (.rett h (f.b.getLsbD 0))
  | 0x390 => mkIf (n && f.d == 0 && f.a == 0 && f.b == 0) (.bkpt h)
  | 0x391 =>
    mkIf (z && f.xk == 2 && f.x.extractLsb' 4 28 == 0 && f.d == 0 && f.a == 0 && f.b == 0) (.ppt h (f.x.extractLsb' 0 4))
  | 0x392 =>
    if z && f.d == 0 && f.b == 0 then
      (if noX f then some (.tmark h (.reg f.a))
       else if f.xk == 2 && f.a == 0 then some (.tmark h (.imm f.x)) else none)
    else none
  | _ => none

/-- The instruction the fields name, or nothing where some field has no meaning in it. -/
def decodeFields (f : Fields) : Option Instr :=
  match f.opc.toNat / 128 with
  | 0 => decode0 f
  | 1 => decode1 f
  | 2 => decode2 f
  | 3 => decode3 f
  | 4 => decode4 f
  | 5 => decode5 f
  | 6 => decode6 f
  | _ => decode7 f

/-- What a word is (R47): an instruction, or the cause of the first of steps 1 to 3 of R29 that it fails. -/
inductive Decoded where
  | instr (i : Instr)
  | illegalOpcode
  | illegalEncoding
  | illegalOperand
  deriving DecidableEq, Repr

/-- Decoding of a word in a stream, in the order of R29. -/
def decode (s : Stream) (w : IWord) : Decoded :=
  let f := fieldsOf w
  if fetchable s f.opc.toNat then
    match decodeFields f with
    | some i => if formOk s i then (if operandsOk s i then .instr i else .illegalOperand) else .illegalEncoding
    | none => .illegalEncoding
  else .illegalOpcode

/-! ### The encoder -/

def codeOfTy : Ty → BitVec 4
  | .s32 => 0
  | .n32 => 1
  | .s64 => 2
  | .n64 => 3
  | .f32 => 4
  | .f64 => 5
  | .f16 => 6
  | .bf16 => 7
  | .f16x2 => 8
  | .bf16x2 => 9
  | .b8 => 10
  | .b16 => 11
  | .b32 => 12
  | .b64 => 13
  | .b128 => 14

def codeOfRm : Rm → BitVec 2
  | .rne => 0
  | .rtz => 1
  | .rup => 2
  | .rdn => 3

def codeOfScope : Scope → BitVec 3
  | .grp => 0
  | .blk => 1
  | .coh => 2
  | .die => 3
  | .pkg => 4
  | .sys => 5

def codeOfSpace : Space → BitVec 3
  | .glb => 0
  | .scr => 1
  | .coh => 2
  | .prv => 3
  | .win => 4

def codeOfCmpi : CmpI → BitVec 4
  | .eq => 0
  | .ne => 1
  | .lt => 2
  | .le => 3
  | .gt => 4
  | .ge => 5

def codeOfCmpf : CmpF → BitVec 4
  | .eq => 0
  | .ne => 1
  | .lt => 2
  | .le => 3
  | .gt => 4
  | .ge => 5
  | .num => 6
  | .nan => 7
  | .equ => 8
  | .neu => 9
  | .ltu => 10
  | .leu => 11
  | .gtu => 12
  | .geu => 13

def codeOfShm : ShflMode → BitVec 4
  | .idx => 0
  | .up => 1
  | .down => 2
  | .xor => 3

def codeOfVtm : VoteMode → BitVec 4
  | .all => 0
  | .any => 1
  | .uni => 2
  | .ballot => 3

def codeOfAct : AcCond → BitVec 4
  | .zero => 0
  | .neg => 1
  | .nan => 2
  | .inf => 3
  | .lowloss => 4
  | .range => 5

def codeOfPfm : PrefMode → BitVec 4
  | .s => 0
  | .x => 1
  | .wbi => 2

def codeOfFen : FenceOrd → BitVec 4
  | .acqrel => 0
  | .acq => 1
  | .rel => 2

def codeOfTier : TierPlace → BitVec 4
  | .h n => n ++ (0 : BitVec 2)
  | .l false => 1
  | .l true => 5
  | .x none => 2
  | .x (some false) => 6
  | .x (some true) => 10

def codeOfAop : AtomOp → BitVec 4
  | .add => 0
  | .and => 1
  | .or => 2
  | .xor => 3
  | .smin => 4
  | .smax => 5
  | .nmin => 6
  | .nmax => 7
  | .exch => 8
  | .incw => 9
  | .badd => 10

def codeOfOrd : Ord → BitVec 2
  | .rlx => 0
  | .acq => 1
  | .rel => 2
  | .acqrel => 3

def codeOfAlloc : Alloc → Reg
  | .dflt => 0
  | .na => 1
  | .ef => 2

def codeOfCop : CollOp → BitVec 2
  | .ared => 0
  | .rscat => 1
  | .agath => 2
  | .bcast => 3

def codeOfShape : Shape → BitVec 3
  | .m64n64 => 0
  | .m128n64 => 1
  | .m64n128 => 2
  | .m128n128 => 3

def codeOfMfmt : MFmt → BitVec 4
  | .f64 => 0
  | .f32 => 1
  | .f16 => 2
  | .bf16 => 3
  | .gs4 => 4
  | .gs6 => 5
  | .gs9 => 6

def codeOfFfmt : FFmt → BitVec 4
  | .f64 => 0
  | .f32 => 1
  | .f16 => 2
  | .bf16 => 3

def codeOfNk : NK → BitVec 2
  | .k16 => 0
  | .k32 => 1
  | .k64 => 2

/-- The base of every word: opcode and header, all other fields zero. -/
def baseFields (o : Nat) (h : Hdr) : Fields where
  opc := BitVec.ofNat 10 o
  g := h.g
  neg := h.neg
  gidx := h.gidx
  d := 0
  a := 0
  b := 0
  ty := 0
  mode := 0
  reuse := h.reuse
  ecl := h.ecl
  hints := BitVec.ofBool h.hints.stream ++ BitVec.ofBool h.hints.yield ++ BitVec.ofBool h.hints.lastB
    ++ BitVec.ofBool h.hints.lastA
  xk := 0
  x := 0

/-- A last operand placed in B (R26). -/
def Fields.withB (f : Fields) : Opnd → Fields
  | .reg r => { f with b := r }
  | .imm x => { f with xk := 2, x := x }

/-- A last operand placed in C (R24, R26). -/
def Fields.withC (f : Fields) : Opnd → Fields
  | .reg r => { f with xk := 1, x := r.setWidth 32 }
  | .imm x => { f with xk := 2, x := x }

/-- The memory extension (R25). -/
def Fields.withM (f : Fields) (m : MemX) : Fields :=
  { f with
    xk := 3
    x := m.ctr ++ codeOfScope m.scope ++ BitVec.ofBool m.stor.host ++ BitVec.ofBool m.stor.glb
      ++ BitVec.ofBool m.stor.scr ++ BitVec.ofBool m.stor.prv ++ m.ofs }

/-- Layouts ISAT and SAT with RM (R20, R44). -/
def satMode (s : Bool) : BitVec 4 := if s then 4 else 0
def rmMode (xm s : Bool) (r : Rm) : BitVec 4 := BitVec.ofBool xm ++ BitVec.ofBool s ++ codeOfRm r
def memMode (sp : Space) (o : Bool) : BitVec 4 := codeOfSpace sp ++ BitVec.ofBool o
def boolMode (b : Bool) : BitVec 4 := if b then 1 else 0

/-- Operand fields of typed register instructions. -/
def Fields.dab (f : Fields) (t : Ty) (m : BitVec 4) (d a : Reg) : Fields :=
  { f with ty := codeOfTy t, mode := m, d := d, a := a }

/-- The register, descriptor bit and format of a matrix operand (R228). -/
def msrcReg : MSrc → Reg
  | .tile y _ => y
  | .desc s => s
def msrcDesc : MSrc → Bool
  | .tile _ _ => false
  | .desc _ => true
def msrcFmt : MSrc → BitVec 4
  | .tile _ f => codeOfMfmt f
  | .desc _ => 0

/-- The drain extension (R234). -/
def drainX (x : DrainX) : Word :=
  let r : BitVec 4 × Bool × Bool :=
    match x.res with | none => (0, false, false) | some (g, f) => (codeOfFfmt f, g, true)
  (0 : BitVec 20) ++ BitVec.ofBool x.clr ++ BitVec.ofBool x.mask ++ r.1 ++ BitVec.ofBool r.2.1
    ++ BitVec.ofBool r.2.2 ++ BitVec.ofBool x.glb ++ codeOfShape x.shape

/-- The collective extension (R274), with the OP of CREC. -/
def collX (op : BitVec 2) (x : CollX) : Word :=
  let fm : BitVec 4 := match x.fmt with | .la => 8 | .fp f => codeOfFfmt f
  let o : BitVec 3 × BitVec 2 :=
    match x.obj with | .memory _ => (0, 0) | .zTile n => (n, 1) | .yTile n => (n, 2)
  (0 : BitVec 18) ++ op ++ codeOfRm x.rm ++ BitVec.ofBool x.mean ++ fm ++ o.1 ++ o.2

/-- The B field of a collective's object (R274). -/
def objReg : CollObj → Reg
  | .memory b => b
  | _ => 0

/-- The fields of an instruction's word (R14 and the entry of each instruction). -/
def encodeFields (i : Instr) : Option Fields :=
  match opcodeOf i, hdrOf i with
  | some o, some h =>
    let f := baseFields o h
    match i with
    | .iadd _ t s d a b => some ((f.dab t (satMode s) d a).withB b)
    | .isub _ t s d a b => some ((f.dab t (satMode s) d a).withB b)
    | .imul _ t s d a b => some ((f.dab t (satMode s) d a).withB b)
    | .imulh _ t d a b => some ((f.dab t 0 d a).withB b)
    | .imad _ t s d a b c => some ({ f.dab t (satMode s) d a with b := b }.withC c)
    | .idiv _ t d a b => some ((f.dab t 0 d a).withB b)
    | .irem _ t d a b => some ((f.dab t 0 d a).withB b)
    | .imin _ t d a b => some ((f.dab t 0 d a).withB b)
    | .imax _ t d a b => some ((f.dab t 0 d a).withB b)
    | .iabs _ t s d a => some (f.dab t (satMode s) d a)
    | .and _ t d a b => some ((f.dab t 0 d a).withB b)
    | .or _ t d a b => some ((f.dab t 0 d a).withB b)
    | .xor _ t d a b => some ((f.dab t 0 d a).withB b)
    | .shl _ t d a b => some ((f.dab t 0 d a).withB b)
    | .shr _ t d a b => some ((f.dab t 0 d a).withB b)
    | .sar _ t d a b => some ((f.dab t 0 d a).withB b)
    | .bfx _ t d a b c => some ({ f.dab t 0 d a with b := b }.withC c)
    | .bfi _ t d a b c => some ({ f.dab t 0 d a with b := b }.withC c)
    | .popc _ t d a => some (f.dab t 0 d a)
    | .clz _ t d a => some (f.dab t 0 d a)
    | .brev _ t d a => some (f.dab t 0 d a)
    | .lea _ t sh d a b => some ((f.dab t (sh.setWidth 4) d a).withB b)
    | .mov _ t d a => some (f.dab t 0 d a)
    | .movi _ t d x => some { f.dab t 0 d 0 with xk := 2, x := x }
    | .sel _ t p d a b => some ((f.dab t p d a).withB b)
    | .icmp _ c t d a b => some ((f.dab t (codeOfCmpi c) d a).withB b)
    | .plop _ tt d a b => some { f with mode := tt, d := d, a := a, b := b }
    | .pmov _ .p2r r => some { f with d := r }
    | .pmov _ .r2p r => some { f with mode := 1, a := r }
    | .shfl _ m t d a b => some ((f.dab t (codeOfShm m) d a).withB b)
    | .vote _ m d a => some { f with mode := codeOfVtm m, d := d, a := a }
    | .getl _ t d a b => some ((f.dab t 0 d a).withB b)
    | .setl _ t d a b => some ((f.dab t 0 d a).withB b)
    | .fadd _ t r s d a b => some ((f.dab t (rmMode false s r) d a).withB b)
    | .fmul _ t r s d a b => some ((f.dab t (rmMode false s r) d a).withB b)
    | .ffma _ t r s d a b c => some ({ f.dab t (rmMode false s r) d a with b := b }.withC c)
    | .fmin _ t n d a b => some ((f.dab t (boolMode n) d a).withB b)
    | .fmax _ t n d a b => some ((f.dab t (boolMode n) d a).withB b)
    | .fcmp _ c t d a b => some ((f.dab t (codeOfCmpf c) d a).withB b)
    | .fclass _ t d a => some (f.dab t 0 d a)
    | .frnd _ t r d a => some (f.dab t (rmMode false false r) d a)
    | .fscl _ t r d a b => some ((f.dab t (rmMode false false r) d a).withB b)
    | .frcp _ t d a => some (f.dab t 0 d a)
    | .frsq _ t d a => some (f.dab t 0 d a)
    | .fsqrt _ t r d a => some (f.dab t (rmMode false false r) d a)
    | .fdiv _ t r d a b => some ((f.dab t (rmMode false false r) d a).withB b)
    | .fexp2 _ t d a => some (f.dab t 0 d a)
    | .flog2 _ t d a => some (f.dab t 0 d a)
    | .fsin _ t d a => some (f.dab t 0 d a)
    | .fcos _ t d a => some (f.dab t 0 d a)
    | .fcvt _ td ts r s d a => some { f.dab td (rmMode false s r) d a with b := (codeOfTy ts).setWidth 9 }
    | .ftoi _ td ts r s d a => some { f.dab td (rmMode false s r) d a with b := (codeOfTy ts).setWidth 9 }
    | .itof _ td ts r d a => some { f.dab td (rmMode false false r) d a with b := (codeOfTy ts).setWidth 9 }
    | .acz _ d => some { f with d := d }
    | .acadd _ t d a => some (f.dab t 0 d a)
    | .acfma _ t d a b => some { f.dab t 0 d a with b := b }
    | .acdot _ t d a b => some { f.dab t 0 d a with b := b }
    | .acmrg _ d a => some { f with d := d, a := a }
    | .acred _ d a => some { f with d := d, a := a }
    | .acnorm _ d a => some { f with d := d, a := a }
    | .acrnd _ t r s mean d a sc rep =>
      let f := f.dab t (rmMode mean s r) d a
      let f := match sc with | .none => f | .reg q => { f with b := q } | .imm x => { f with xk := 2, x := x }
      some (match rep with | none => f | some c => { f with xk := 1, x := c.setWidth 32 })
    | .acscl _ d a b => some ({ f with d := d, a := a }.withB b)
    | .acxt _ d a b => some ((f.dab .b32 0 d a).withB b)
    | .acins _ d a b => some ((f.dab .b32 0 d a).withB b)
    | .actst _ c d a => some { f with mode := codeOfAct c, d := d, a := a }
    | .acld _ sp d a m => some ({ f with mode := memMode sp false, d := d, a := a }.withM m)
    | .acst _ sp c d a m => some ({ f with mode := memMode sp c, d := d, a := a }.withM m)
    | .ld _ sp t o al d a m => some ({ f.dab t (memMode sp o) d a with b := codeOfAlloc al }.withM m)
    | .st _ sp t o al d a m => some ({ f.dab t (memMode sp o) d a with b := codeOfAlloc al }.withM m)
    | .pref _ pm a m => some ({ f with mode := codeOfPfm pm, a := a }.withM m)
    | .waitc _ d b => some ({ f with d := d }.withB b)
    | .fence _ o m => some ({ f with mode := codeOfFen o }.withM m)
    | .cpy _ a => some { f with a := a }
    | .seal _ d => some { f with d := d }
    | .cbw _ b => some (f.withB b)
    | .dep _ t a b => some ((f.dab t 0 0 a).withB b)
    | .cadd _ d b => some ({ f with d := d }.withB b)
    | .disc _ a b m => some ({ f with a := a, b := b }.withM m)
    | .mhint _ tp a b m => some ({ f with mode := codeOfTier tp, a := a, b := b }.withM m)
    | .lqry _ d a m => some ({ f with d := d, a := a }.withM m)
    | .region _ n => some { f with xk := 2, x := n.setWidth 32 }
    | .atom _ op far t o d a m =>
      some ({ f.dab t (codeOfAop op) d a with b := (BitVec.ofBool far ++ codeOfOrd o).setWidth 9 }.withM m)
    | .acas _ far t o d a m =>
      some ({ f.dab t 0 d a with b := (BitVec.ofBool far ++ codeOfOrd o).setWidth 9 }.withM m)
    | .aadd _ k rel d a m =>
      let b : Reg := if rel then 2 else 0
      (match k with
       | .val t => some ({ f.dab t 0 d a with b := b }.withM m)
       | .prod t => some ({ f.dab t 1 d a with b := b }.withM m)
       | .la => some ({ f with mode := 2, d := d, a := a, b := b }.withM m))
    | .afin _ mean clr t r acq d a m =>
      some ({ f.dab t (rmMode mean false r) d a with
        b := (BitVec.ofBool clr ++ (0 : BitVec 1) ++ BitVec.ofBool acq).setWidth 9 }.withM m)
    | .bra _ x => some { f with xk := 4, x := x }
    | .brx _ a => some { f with a := a }
    | .vbr _ inv p j x =>
      some { f with d := j.extractLsb' 9 9, a := (BitVec.ofBool inv ++ p).setWidth 9, b := j.extractLsb' 0 9, xk := 4, x := x }
    | .join _ => some f
    | .loop _ x => some { f with xk := 4, x := x }
    | .brk _ => some f
    | .call _ x => some { f with xk := 4, x := x }
    | .callx _ a => some { f with a := a }
    | .ret _ => some f
    | .throw _ inv p => some { f with a := (BitVec.ofBool inv ++ p).setWidth 9 }
    | .barArrive _ coh nb c => some ({ f with mode := (BitVec.ofBool coh ++ (1 : BitVec 2)).setWidth 4, d := nb }.withB c)
    | .barWait _ coh nb => some { f with mode := (BitVec.ofBool coh ++ (2 : BitVec 2)).setWidth 4, d := nb }
    | .barSync _ coh nb c => some ({ f with mode := (BitVec.ofBool coh ++ (3 : BitVec 2)).setWidth 4, d := nb }.withB c)
    | .exit _ => some f
    | .yield _ => some f
    | .nop _ => some f
    | .sleep _ b => some (f.withB b)
    | .suspend _ a b => some { f with a := a, b := b }
    | .signal _ a b => some { f with a := a, b := b }
    | .spawn _ a b => some { f with a := a, b := b }
    | .launch _ a b => some { f with a := a, b := b }
    | .swpt _ n => some { f with xk := 2, x := n.setWidth 32 }
    | .mz _ d n => some { f with d := d, a := n }
    | .mma _ sh d a b =>
      some { f with
        d := d, a := msrcReg a, b := msrcReg b, xk := 5
        x := (0 : BitVec 19) ++ msrcFmt b ++ msrcFmt a ++ BitVec.ofBool (msrcDesc b) ++ BitVec.ofBool (msrcDesc a)
          ++ codeOfShape sh }
    | .mmas _ sh nk d sa b =>
      some { f with
        d := d, a := sa, b := msrcReg b, xk := 5
        x := (0 : BitVec 17) ++ codeOfNk nk ++ msrcFmt b ++ (0 : BitVec 4) ++ BitVec.ofBool (msrcDesc b) ++ (1 : BitVec 1)
          ++ codeOfShape sh }
    | .mdrain _ t r s x d a => some { f.dab t (rmMode false s r) d a with xk := 5, x := drainX x }
    | .mspill _ sh clr d a =>
      some { f with d := d, a := a, xk := 5, x := (0 : BitVec 28) ++ BitVec.ofBool clr ++ codeOfShape sh }
    | .mfill _ sh d a => some { f with d := d, a := a, xk := 5, x := (codeOfShape sh).setWidth 32 }
    | .coll _ op x a =>
      some { f with mode := (codeOfCop op).setWidth 4, a := a, b := objReg x.obj, xk := 5, x := collX 0 x }
    | .abw _ a => some { f with a := a }
    | .crec _ op x a => some { f with a := a, b := objReg x.obj, xk := 5, x := collX (codeOfCop op) x }
    | .gets _ sr d => some { f with d := d, xk := 2, x := sr.setWidth 32 }
    | .sets _ sr a => some { f with a := a, xk := 2, x := sr.setWidth 32 }
    | .trap _ c => some { f with xk := 2, x := c.setWidth 32 }
    | .rett _ skip => some { f with b := (BitVec.ofBool skip).setWidth 9 }
    | .bkpt _ => some f
    | .ppt _ n => some { f with xk := 2, x := n.setWidth 32 }
    | .tmark _ (.reg r) => some { f with a := r }
    | .tmark _ (.imm x) => some { f with xk := 2, x := x }
    | _ => none
  | _, _ => none

/-- The word of an encoded instruction; steps without an encoding have none. -/
def encode (i : Instr) : Option IWord := (encodeFields i).map wordOf

/-- The instruction a table word gives: in a group stream, else in the BMS stream. -/
def decodeTableWord (nbits w : Nat) : Option Instr :=
  if nbits ≤ 96 then
    match decode .group (BitVec.ofNat 96 w) with
    | .instr i => some i
    | _ =>
      match decode .bms (BitVec.ofNat 96 w) with
      | .instr i => some i
      | _ => none
  else none

end Sys2Proof
end

