-- ==== Sys2Proof/Config.lean ====
section
/-!
DEFINITION. What one F940 fixes that the manual leaves open, and the free values. An `opaque` constant has no value that
Lean can see: what is proved holds whatever it is. The numbers in this file are the manual's own.
-/

namespace Sys2Proof.Config

/-- Nanoseconds of the 2 ms time-outs (01 R4, 06 R132, 07 R146). -/
def timeoutNs : Nat := 2000000

/-- Registers, predicates and tiles that nothing has written (09 R162, 12 R218): drawn by the seed of the unit
that owns them and the name of the register. FREE VALUE, assumption log 3. -/
opaque freeWord : Nat → Nat → Word

/-- As `freeWord`, for predicates. FREE VALUE, assumption log 3. -/
opaque freeBool : Nat → Nat → Bool

/-- Bits of a special function whose enclosing interval the model could not narrow to one value
(10 R197 gives the exact value; assumption log 7). FREE VALUE. -/
opaque freeFunction : Nat → Nat → Nat

/-- The directory set of a line in its slice (06 R126), which the manual leaves to the implementation. -/
opaque dirSet : Nat → Nat → Nat

/-- The set of a line in an L1, an instruction cache and a cluster cache (06 R111 gives the ways and no index). -/
opaque l1Set : Nat → Nat → Nat
opaque codeSet : Nat → Nat → Nat
opaque clusterSet : Nat → Nat → Nat
opaque l2Set : Nat → Nat → Nat

/-- The bank of an MTLB that an entry of an ASID and VA[47:16] uses (05 R88 gives the banks and no index). -/
opaque mtlbBank : Nat → Nat → Nat

/-- The memory controller that serves a physical address of tiers H and L on its die (04 R74), which the manual leaves to
the controllers (R72). -/
opaque memCtrl : Nat → Nat

/-- The messages that a flit's payload packs (14 R261 gives no layout): whether each is a reply, its request id, and the line
key that it concerns. -/
opaque linkMessages : List Byte → List (Bool × Nat × Nat)

/-- The hash of a line key by which an edge selects a module (14 R260 gives none). -/
opaque linkHash : Nat → Nat

/-- This device's id in its pod (14 R266), given by the pod. -/
opaque deviceId : Nat

/-- SHA-256 of bytes (24 R399), an algorithm outside the manual. Uninterpreted, assumption log 8. -/
opaque sha256 : List Byte → BitVec 256

/-- SLH-DSA verification (24 R399): public key, message, signature. Uninterpreted, assumption log 8. -/
opaque slhVerify : BitVec 256 → List Byte → List Byte → Bool

/-- The SLH-DSA signature of a report under the device key (24 R402). Uninterpreted, assumption log 8. -/
opaque attestSign : BitVec 256 → List Byte → List Byte

/-- Where the map engine finds room for page tables (05 R91 names a table region and not its place). Assumption log 30. -/
opaque tableRegion : Nat

/-- The eight bytes that HOTSNAP writes of an entry: ASID, VA[47:16], counter (05 R105 gives no layout). Assumption log 31. -/
opaque hotsnapEntry : Nat → Nat → Nat → Nat

/-- Where Tansy's own policy sends a granule, as a code of layout TIER: whether hot, its tier, ASID, VA[47:16]
(05 R105 gives no choice of destination). FREE VALUE, assumption log 32. -/
opaque tansyTarget : Bool → Nat → Nat → Nat → BitVec 4

/-- The firmware version that a dump names (20 R364). Assumption log 34. -/
opaque fwVersion : BitVec 16

/-- The hash from which a task's TASK value is taken: launch, block index, record address (13 R256). Assumption log 37. -/
opaque taskHash : Nat → Nat → Nat → Nat

/-- The mailbox's code for LOGFULL (24 R401 gives the name and no number). Assumption log 38. -/
opaque logFull : Nat

end Sys2Proof.Config
end

