-- ==== Sys2Proof/Machine/Float.lean ====
section
/-!
DEFINITION. Floating point (03 R49 to R56, 10 R191 to R200): formats, exact values, one rounding, and each function of
class 1 as a function from bits to bits. Bits are natural numbers below the format's width; an exact value is a sign,
a magnitude and a power of two; a result is the exact rational rounded once (R54).
-/

namespace Sys2Proof.Machine

/-- A format by its exponent and fraction widths (R49). -/
structure Fmt where
  ebits : Nat
  frac : Nat
  deriving DecidableEq, Repr

namespace Fmt
/-- The width in bits. -/
def width (f : Fmt) : Nat := 1 + f.ebits + f.frac
/-- The exponent bias (R49). -/
def bias (f : Fmt) : Nat := 2 ^ (f.ebits - 1) - 1
/-- +Inf (R51). -/
def infBits (f : Fmt) : Nat := (2 ^ f.ebits - 1) * 2 ^ f.frac
/-- The largest finite value (R51). -/
def maxBits (f : Fmt) : Nat := f.infBits - 1
/-- The canonical quiet NaN (R51). -/
def nanBits (f : Fmt) : Nat := f.infBits + 2 ^ (f.frac - 1)
/-- The sign bit's weight. -/
def signBit (f : Fmt) : Nat := 2 ^ (f.ebits + f.frac)
end Fmt

def f64 : Fmt := ⟨11, 52⟩
def f32 : Fmt := ⟨8, 23⟩
def f16 : Fmt := ⟨5, 10⟩
def bf16 : Fmt := ⟨8, 7⟩

/-- The floating format of a type code; the packed types give their element's (R56). -/
def fmtOf : Ty → Fmt
  | .f64 => f64
  | .f16 => f16
  | .f16x2 => f16
  | .bf16 => bf16
  | .bf16x2 => bf16
  | _ => f32

/-- What bits stand for: `fin neg m e` is (−1)^neg · m · 2^e. -/
inductive FVal where
  | nan
  | inf (neg : Bool)
  | fin (neg : Bool) (m : Nat) (e : Int)
  deriving DecidableEq, Repr

/-- Reading bits in a format (R49). -/
def fdecode (f : Fmt) (b : Nat) : FVal :=
  let neg := b / f.signBit % 2 == 1
  let ex := b / 2 ^ f.frac % 2 ^ f.ebits
  let fr := b % 2 ^ f.frac
  if ex = 2 ^ f.ebits - 1 then (if fr = 0 then .inf neg else .nan)
  else if ex = 0 then .fin neg fr (1 - (f.bias : Int) - f.frac)
  else .fin neg (fr + 2 ^ f.frac) ((ex : Int) - f.bias - f.frac)

/-- Bits with a sign. -/
def withSign (f : Fmt) (neg : Bool) (b : Nat) : Nat := if neg then b + f.signBit else b

/-- Infinity of a sign. -/
def infOf (f : Fmt) (neg : Bool) : Nat := withSign f neg f.infBits

/-- The result beyond the largest finite value (R54). -/
def overflowBits (f : Fmt) (rm : Rm) (neg : Bool) : Nat :=
  match rm with
  | .rne => infOf f neg
  | .rtz => withSign f neg f.maxBits
  | .rup => if neg then withSign f neg f.maxBits else infOf f neg
  | .rdn => if neg then infOf f neg else withSign f neg f.maxBits

/-- Whether a quotient `n` with remainder `r` of divisor `d` is rounded away from zero. -/
def roundsUp (rm : Rm) (neg : Bool) (n r d : Nat) : Bool :=
  match rm with
  | .rne => decide (2 * r > d) || (decide (2 * r = d) && n % 2 == 1)
  | .rtz => false
  | .rup => !neg && decide (r ≠ 0)
  | .rdn => neg && decide (r ≠ 0)

/-- `a / b` as a fraction times a power of two: multiply one side. -/
def scaleFrac (num den : Nat) (e : Int) : Nat × Nat :=
  match e with
  | .ofNat k => (num * 2 ^ k, den)
  | .negSucc k => (num, den * 2 ^ (k + 1))

/-- ⌊log2 (num/den)⌋ for a positive fraction. -/
def ilog2 (num den : Nat) : Int :=
  let l : Int := (Nat.log2 num : Int) - Nat.log2 den
  let (n, d) := scaleFrac num den (-l)
  if n ≥ d then l else l - 1

/-- The exact value (−1)^neg · num/den rounded once to a format (R54); zero keeps the sign given. -/
def roundRat (f : Fmt) (rm : Rm) (neg : Bool) (num den : Nat) : Nat :=
  if num = 0 then withSign f neg 0
  else
    let emin : Int := 1 - (f.bias : Int)
    let e := max (ilog2 num den) emin
    let (n, d) := scaleFrac num den (f.frac - e)
    let q := n / d
    let q' := if roundsUp rm neg q (n % d) d then q + 1 else q
    let b := q' + (e - emin).toNat * 2 ^ f.frac
    if b ≥ f.infBits then overflowBits f rm neg else withSign f neg b

/-- (−1)^neg · m · 2^e rounded once (R54). -/
def roundDy (f : Fmt) (rm : Rm) (neg : Bool) (m : Nat) (e : Int) : Nat :=
  let (n, d) := scaleFrac m 1 e
  roundRat f rm neg n d

/-- `.sat` of a floating-point result (R55). -/
def fsat (f : Fmt) (sat : Bool) (b : Nat) : Nat :=
  if sat && b = f.infBits then f.maxBits
  else if sat && b = infOf f true then withSign f true f.maxBits
  else b

/-- A value given back in a format, its NaN canonical (R52). -/
def fencode (f : Fmt) (rm : Rm) : FVal → Nat
  | .nan => f.nanBits
  | .inf neg => infOf f neg
  | .fin neg m e => roundDy f rm neg m e

/-- The signed magnitude of a finite value at exponent `e₀ ≤ e`. -/
def signedAt (neg : Bool) (m : Nat) (e e₀ : Int) : Int :=
  let x : Int := (m * 2 ^ (e - e₀).toNat : Nat)
  if neg then -x else x

/-- Exact sum (R54, R191): the sign of an exact zero depends on the rounding mode. -/
def vadd (rm : Rm) (a b : FVal) : FVal :=
  match a, b with
  | .nan, _ => .nan
  | _, .nan => .nan
  | .inf s, .inf t => if s = t then .inf s else .nan
  | .inf s, _ => .inf s
  | _, .inf t => .inf t
  | .fin s m e, .fin t n k =>
    let e₀ := min e k
    let x := signedAt s m e e₀ + signedAt t n k e₀
    if x = 0 then .fin (if s = t then s else rm == .rdn) 0 0
    else .fin (decide (x < 0)) x.natAbs e₀

/-- Exact product (R54, R191). -/
def vmul (a b : FVal) : FVal :=
  match a, b with
  | .nan, _ => .nan
  | _, .nan => .nan
  | .inf s, .inf t => .inf (s != t)
  | .inf s, .fin t n _ => if n = 0 then .nan else .inf (s != t)
  | .fin s m _, .inf t => if m = 0 then .nan else .inf (s != t)
  | .fin s m e, .fin t n k => .fin (s != t) (m * n) (e + k)

/-- FADD (R191). -/
def faddBits (f : Fmt) (rm : Rm) (sat : Bool) (a b : Nat) : Nat :=
  fsat f sat (fencode f rm (vadd rm (fdecode f a) (fdecode f b)))

/-- FMUL (R191). -/
def fmulBits (f : Fmt) (rm : Rm) (sat : Bool) (a b : Nat) : Nat :=
  fsat f sat (fencode f rm (vmul (fdecode f a) (fdecode f b)))

/-- FFMA (R191): the product is not rounded. -/
def ffmaBits (f : Fmt) (rm : Rm) (sat : Bool) (a b c : Nat) : Nat :=
  fsat f sat (fencode f rm (vadd rm (vmul (fdecode f a) (fdecode f b)) (fdecode f c)))

/-- Order of two non-NaN values with −0 = +0: −1, 0 or 1. -/
def vcmp (a b : FVal) : Int :=
  match a, b with
  | .inf s, .inf t => if s = t then 0 else if s then -1 else 1
  | .inf s, _ => if s then -1 else 1
  | _, .inf t => if t then 1 else -1
  | .fin s m e, .fin t n k =>
    let e₀ := min e k
    let x := signedAt s m e e₀ - signedAt t n k e₀
    if x < 0 then -1 else if x = 0 then 0 else 1
  | _, _ => 0

/-- Whether bits are a NaN. -/
def isNan (f : Fmt) (b : Nat) : Bool := fdecode f b == .nan

/-- Whether `a` is chosen as the smaller of two non-NaN values, −0 below +0 (R192). -/
def fminLeft (f : Fmt) (a b : Nat) : Bool :=
  let c := vcmp (fdecode f a) (fdecode f b)
  if c = 0 then decide (a / f.signBit % 2 = 1) || decide (b / f.signBit % 2 = 0) else decide (c < 0)

/-- FMIN and FMAX (R192). -/
def fminmaxBits (f : Fmt) (mx nanp : Bool) (a b : Nat) : Nat :=
  match isNan f a, isNan f b with
  | true, true => f.nanBits
  | true, false => if nanp then f.nanBits else b
  | false, true => if nanp then f.nanBits else a
  | false, false => if mx then (if fminLeft f b a then a else b) else (if fminLeft f a b then a else b)

/-- FCMP (R193, R44 layout CMPF). -/
def fcmpBits (f : Fmt) (c : CmpF) (a b : Nat) : Bool :=
  let un := isNan f a || isNan f b
  let r := vcmp (fdecode f a) (fdecode f b)
  match c with
  | .eq => !un && r == 0
  | .ne => un || r != 0
  | .lt => !un && decide (r < 0)
  | .le => !un && decide (r ≤ 0)
  | .gt => !un && decide (r > 0)
  | .ge => !un && decide (r ≥ 0)
  | .num => !un
  | .nan => un
  | .equ => un || r == 0
  | .neu => un || r != 0
  | .ltu => un || decide (r < 0)
  | .leu => un || decide (r ≤ 0)
  | .gtu => un || decide (r > 0)
  | .geu => un || decide (r ≥ 0)

/-- FCLASS (R194): the bit number of the class. -/
def fclassIndex (f : Fmt) (b : Nat) : Nat :=
  let neg := b / f.signBit % 2 == 1
  let ex := b / 2 ^ f.frac % 2 ^ f.ebits
  let fr := b % 2 ^ f.frac
  if ex = 2 ^ f.ebits - 1 then
    (if fr = 0 then (if neg then 0 else 7) else if fr < 2 ^ (f.frac - 1) then 8 else 9)
  else if ex = 0 then
    (if fr = 0 then (if neg then 3 else 4) else if neg then 2 else 5)
  else if neg then 1 else 6

/-- The integer a mode selects for (−1)^neg · m · 2^e (R195, R199): its magnitude. -/
def roundInt (rm : Rm) (neg : Bool) (m : Nat) (e : Int) : Nat :=
  let (n, d) := scaleFrac m 1 e
  let q := n / d
  if roundsUp rm neg q (n % d) d then q + 1 else q

/-- FRND (R195). -/
def frndBits (f : Fmt) (rm : Rm) (a : Nat) : Nat :=
  match fdecode f a with
  | .nan => f.nanBits
  | .inf neg => infOf f neg
  | .fin neg m e => if m = 0 ∨ e ≥ 0 then a else roundDy f rm neg (roundInt rm neg m e) 0

/-- A power of two that stands for 2^k in any scaling of a format (values beyond it give the same result). -/
def clampScale (k : Int) : Int := max (-5000) (min 5000 k)

/-- FSCL (R195): A · 2^k rounded once. -/
def fsclBits (f : Fmt) (rm : Rm) (a : Nat) (k : Int) : Nat :=
  match fdecode f a with
  | .nan => f.nanBits
  | .inf neg => infOf f neg
  | .fin neg m e => roundDy f rm neg m (e + clampScale k)

/-- FDIV (R196). -/
def fdivBits (f : Fmt) (rm : Rm) (a b : Nat) : Nat :=
  match fdecode f a, fdecode f b with
  | .nan, _ => f.nanBits
  | _, .nan => f.nanBits
  | .inf _, .inf _ => f.nanBits
  | .inf s, .fin t _ _ => infOf f (s != t)
  | .fin s _ _, .inf t => withSign f (s != t) 0
  | .fin s m e, .fin t n k =>
    if n = 0 then (if m = 0 then f.nanBits else infOf f (s != t))
    else
      let (x, y) := scaleFrac m n (e - k)
      roundRat f rm (s != t) x y

/-- Bit by bit from `k`, the largest r with r² ≤ n. -/
def isqrtFrom (n : Nat) : Nat → Nat → Nat
  | 0, r => if (r + 1) * (r + 1) ≤ n then r + 1 else r
  | k + 1, r =>
    let r' := r + 2 ^ (k + 1)
    isqrtFrom n k (if r' * r' ≤ n then r' else r)

/-- ⌊√n⌋. -/
def isqrt (n : Nat) : Nat := isqrtFrom n (Nat.log2 n / 2 + 1) 0

/-- √(num/den) rounded once: a floor with two guard digits and a sticky digit decides every rounding. -/
def sqrtRat (f : Fmt) (rm : Rm) (num den : Nat) : Nat :=
  let l := ilog2 num den
  let k : Nat := ((f.frac + 8 : Nat) - l / 2 : Int).toNat
  let n := num * 4 ^ k
  let s := isqrt (n / den)
  if s * s * den = n then roundRat f rm false s (2 ^ k) else roundRat f rm false (2 * s + 1) (2 ^ (k + 1))

/-- FSQRT (R196). -/
def fsqrtBits (f : Fmt) (rm : Rm) (a : Nat) : Nat :=
  match fdecode f a with
  | .nan => f.nanBits
  | .inf neg => if neg then f.nanBits else f.infBits
  | .fin neg m e =>
    if m = 0 then a
    else if neg then f.nanBits
    else
      let (x, y) := scaleFrac m 1 e
      sqrtRat f rm x y

/-- FRCP (R197). -/
def frcpBits (f : Fmt) (a : Nat) : Nat :=
  match fdecode f a with
  | .nan => f.nanBits
  | .inf neg => withSign f neg 0
  | .fin neg m e =>
    if m = 0 then infOf f neg
    else
      let (x, y) := scaleFrac 1 m (-e)
      roundRat f .rne neg x y

/-- FRSQ (R197). -/
def frsqBits (f : Fmt) (a : Nat) : Nat :=
  match fdecode f a with
  | .nan => f.nanBits
  | .inf neg => if neg then f.nanBits else 0
  | .fin neg m e =>
    if m = 0 then infOf f neg
    else if neg then f.nanBits
    else
      let (x, y) := scaleFrac 1 m (-e)
      sqrtRat f .rne x y

/-! ### The transcendental functions (R197), by enclosing intervals in fixed point -/

/-- A closed interval of fixed-point numbers at a common scale. -/
structure Ivl where
  lo : Int
  hi : Int
  deriving DecidableEq, Repr

/-- Division rounded up, for a positive divisor. -/
def cdiv (a b : Int) : Int := -((-a).fdiv b)

/-- Product of two intervals of non-negative numbers at scale 2^p. -/
def ivMul (p : Nat) (a b : Ivl) : Ivl := ⟨(a.lo * b.lo).fdiv (2 ^ p), cdiv (a.hi * b.hi) (2 ^ p)⟩

/-- An interval divided by a positive integer. -/
def ivDivN (a : Ivl) (n : Nat) : Ivl := ⟨a.lo.fdiv n, cdiv a.hi n⟩

def ivAdd (a b : Ivl) : Ivl := ⟨a.lo + b.lo, a.hi + b.hi⟩
def ivSub (a b : Ivl) : Ivl := ⟨a.lo - b.hi, a.hi - b.lo⟩
def ivNeg (a : Ivl) : Ivl := ⟨-a.hi, -a.lo⟩

/-- The non-negative fraction num/den at scale 2^p. -/
def ivRat (p num den : Nat) : Ivl := ⟨((num * 2 ^ p : Nat) : Int).fdiv den, cdiv ((num * 2 ^ p : Nat) : Int) den⟩

/-- Σ of `n` further terms t, t·x/(k+1), t·x²/((k+1)(k+2)), … (the exponential series from term k). -/
def expTerms (p : Nat) (x : Ivl) : Nat → Nat → Ivl → Ivl → Ivl
  | 0, _, t, acc => ⟨acc.lo, acc.hi + t.hi + t.hi⟩
  | n + 1, k, t, acc => expTerms p x n (k + 1) (ivDivN (ivMul p t x) (k + 1)) (ivAdd acc t)

/-- e^x for x in [0, 1). -/
def ivExp (p : Nat) (x : Ivl) : Ivl :=
  expTerms p x (p / 2) 0 ⟨2 ^ p, 2 ^ p⟩ ⟨0, 0⟩

/-- Σ z^(2j+1)/(2j+1), with powers t and step z²; the tail is below the last power. -/
def atanhTerms (p : Nat) (z2 : Ivl) : Nat → Nat → Ivl → Ivl → Ivl
  | 0, _, t, acc => ⟨acc.lo, acc.hi + t.hi⟩
  | n + 1, k, t, acc => atanhTerms p z2 n (k + 2) (ivMul p t z2) (ivAdd acc (ivDivN t k))

/-- atanh z for z in [0, 1/3]. -/
def ivAtanh (p : Nat) (z : Ivl) : Ivl := atanhTerms p (ivMul p z z) (p / 3 + 1) 1 z ⟨0, 0⟩

/-- ln 2 = 2·atanh(1/3). -/
def ivLn2 (p : Nat) : Ivl :=
  let a := ivAtanh p (ivRat p 1 3)
  ivAdd a a

/-- Alternating Σ of the arctangent series. -/
def atanTerms (p : Nat) (z2 : Ivl) : Nat → Nat → Bool → Ivl → Ivl → Ivl
  | 0, _, _, t, acc => ⟨acc.lo - t.hi, acc.hi + t.hi⟩
  | n + 1, k, sub, t, acc =>
    atanTerms p z2 n (k + 2) (!sub) (ivMul p t z2)
      (if sub then ivSub acc (ivDivN t k) else ivAdd acc (ivDivN t k))

/-- arctan(1/n). -/
def ivAtanInv (p n : Nat) : Ivl :=
  let z := ivRat p 1 n
  atanTerms p (ivMul p z z) (p / 4) 1 false z ⟨0, 0⟩

/-- π = 16·arctan(1/5) − 4·arctan(1/239). -/
def ivPi (p : Nat) : Ivl :=
  let a := ivAtanInv p 5
  let b := ivAtanInv p 239
  ⟨16 * a.lo - 4 * b.hi, 16 * a.hi - 4 * b.lo⟩

/-- Alternating Σ t, −t·x²/((k+1)(k+2)), … of sine and cosine. -/
def trigTerms (p : Nat) (x2 : Ivl) : Nat → Nat → Bool → Ivl → Ivl → Ivl
  | 0, _, _, t, acc => ⟨acc.lo - t.hi, acc.hi + t.hi⟩
  | n + 1, k, sub, t, acc =>
    trigTerms p x2 n (k + 2) (!sub) (ivDivN (ivDivN (ivMul p t x2) (k + 1)) (k + 2))
      (if sub then ivSub acc t else ivAdd acc t)

/-- sin x for x in [0, 2]. -/
def ivSin (p : Nat) (x : Ivl) : Ivl := trigTerms p (ivMul p x x) (p / 4) 1 false x ⟨0, 0⟩

/-- cos x for x in [0, 2]. -/
def ivCos (p : Nat) (x : Ivl) : Ivl := trigTerms p (ivMul p x x) (p / 4) 0 false ⟨2 ^ p, 2 ^ p⟩ ⟨0, 0⟩

/-- A fixed-point number rounded to a format. -/
def fixBits (f : Fmt) (x : Int) (p : Nat) (sc : Int) : Nat := 
  let (n, d) := scaleFrac x.natAbs (2 ^ p) sc
  roundRat f .rne (decide (x < 0)) n d

/-- The one value both ends of an interval round to, if there is one. -/
def ivRound (f : Fmt) (v : Ivl) (p : Nat) (sc : Int) : Option Nat :=
  let a := fixBits f v.lo p sc
  if a = fixBits f v.hi p sc then some a else none

/-- 2^x for a non-integral x between −200 and 200, at precision p. -/
def exp2At (f : Fmt) (neg : Bool) (m : Nat) (e : Int) (p : Nat) : Option Nat :=
  let (n, d) := scaleFrac m 1 e
  let x : Int := if neg then -(n : Int) else n
  let i := x.fdiv d
  let r := (x - i * d).toNat
  ivRound f (ivExp p (ivMul p (ivRat p r d) (ivLn2 p))) p i

/-- log2 of m·2^e, at precision p: m·2^e = y·2^k with 3/4 ≤ y < 3/2. -/
def log2At (f : Fmt) (m : Nat) (e : Int) (p : Nat) : Option Nat :=
  let l := Nat.log2 m
  let hi := decide (2 * m ≥ 3 * 2 ^ l)
  let den := if hi then 2 ^ (l + 1) else 2 ^ l
  let k : Int := e + (if hi then l + 1 else l : Nat)
  let ln2 := ivLn2 p
  let (z, negz) := if m ≥ den then (ivRat p (m - den) (m + den), false) else (ivRat p (den - m) (m + den), true)
  let a := ivAtanh p z
  let q : Ivl := ⟨(2 * a.lo * 2 ^ p).fdiv ln2.hi, cdiv (2 * a.hi * 2 ^ p) ln2.lo⟩
  let q := if negz then ivNeg q else q
  ivRound f ⟨k * 2 ^ p + q.lo, k * 2 ^ p + q.hi⟩ p 0

/-- sin or cos of a finite non-zero |x| = m·2^e, at precision p after an exact reduction (R197). -/
def trigAt (f : Fmt) (cos neg : Bool) (m : Nat) (e : Int) (p : Nat) : Option Nat :=
  let (n, d) := scaleFrac m 1 e
  let x := ivRat p n d
  let pi := ivPi p
  let k := (2 * x.lo).fdiv pi.hi
  if k ≠ (2 * x.hi).fdiv pi.lo then none
  else
    let k := k.toNat
    let r : Ivl := ⟨max 0 (x.lo - cdiv (pi.hi * k) 2), x.hi - (pi.lo * k).fdiv 2⟩
    let s := ivSin p r
    let c := ivCos p r
    let v := if cos then
        (match k % 4 with | 0 => c | 1 => ivNeg s | 2 => ivNeg c | _ => s)
      else (match k % 4 with | 0 => s | 1 => c | 2 => ivNeg s | _ => ivNeg c)
    ivRound f (if neg && !cos then ivNeg v else v) p 0

/-- sin of a small value: between x − x³/6 and x − x³/6 + x⁵/120. -/
def sinSmall (f : Fmt) (neg : Bool) (m : Nat) (e : Int) : Option Nat :=
  let (n, d) := scaleFrac m 1 e
  let lo := n * (6 * d * d - n * n)
  let lod := 6 * d * d * d
  let hi := lo * 20 * d * d + n * n * n * n * n
  let hid := 120 * d * d * d * d * d
  let a := roundRat f .rne neg lo lod
  if a = roundRat f .rne neg hi hid then some a else none

/-- The first answer of a list of attempts, or a free value (assumption log 7). -/
def firstSome (tag a : Nat) : List (Option Nat) → Nat
  | [] => Config.freeFunction tag a
  | some x :: _ => x
  | none :: r => firstSome tag a r

/-- FEXP2 (R197). -/
def fexp2Bits (f : Fmt) (a : Nat) : Nat :=
  match fdecode f a with
  | .nan => f.nanBits
  | .inf neg => if neg then 0 else f.infBits
  | .fin neg m e =>
    let (n, d) := scaleFrac m 1 e
    if n % d = 0 then
      let k : Int := (n / d : Nat)
      roundDy f .rne false 1 (clampScale (if neg then -k else k))
    else if n / d ≥ 200 then (if neg then 0 else f.infBits)
    else firstSome 0 a [exp2At f neg m e 160, exp2At f neg m e 400]

/-- FLOG2 (R197). -/
def flog2Bits (f : Fmt) (a : Nat) : Nat :=
  match fdecode f a with
  | .nan => f.nanBits
  | .inf neg => if neg then f.nanBits else f.infBits
  | .fin neg m e =>
    if m = 0 then infOf f true
    else if neg then f.nanBits
    else if m = 2 ^ Nat.log2 m then
      let k : Int := e + Nat.log2 m
      roundDy f .rne (decide (k < 0)) k.natAbs 0
    else firstSome 1 a [log2At f m e 160, log2At f m e 400]

/-- FSIN (R197). -/
def fsinBits (f : Fmt) (a : Nat) : Nat :=
  match fdecode f a with
  | .nan => f.nanBits
  | .inf _ => f.nanBits
  | .fin neg m e =>
    if m = 0 then a
    else if (Nat.log2 m : Int) + e < -12 then firstSome 2 a [sinSmall f neg m e, trigAt f false neg m e 500]
    else firstSome 2 a [trigAt f false neg m e 320, trigAt f false neg m e 600]

/-- FCOS (R197). -/
def fcosBits (f : Fmt) (a : Nat) : Nat :=
  match fdecode f a with
  | .nan => f.nanBits
  | .inf _ => f.nanBits
  | .fin neg m e =>
    if m = 0 then roundDy f .rne false 1 0
    else firstSome 3 a [trigAt f true neg m e 320, trigAt f true neg m e 600]

/-! ### Conversions -/

/-- FCVT (R198). -/
def fcvtBits (td ts : Fmt) (rm : Rm) (sat : Bool) (a : Nat) : Nat :=
  fsat td sat (fencode td rm (fdecode ts a))

/-- FTOI (R199): the integer before truncation to the destination's width. -/
def ftoiInt (sgn : Bool) (w : Nat) (ts : Fmt) (rm : Rm) (sat : Bool) (a : Nat) : Int :=
  let lo : Int := if sgn then -(2 ^ (w - 1)) else 0
  let hi : Int := if sgn then 2 ^ (w - 1) - 1 else 2 ^ w - 1
  let indef : Int := if sgn then -(2 ^ (w - 1)) else 2 ^ w - 1
  match fdecode ts a with
  | .nan => if sat then 0 else indef
  | .inf neg => if sat then (if neg then lo else hi) else indef
  | .fin neg m e =>
    let n : Int := (roundInt rm neg m e : Nat)
    let x := if neg then -n else n
    if x > hi then (if sat then hi else indef)
    else if x < lo then (if sat then lo else indef)
    else x

/-- ITOF (R200). -/
def itofBits (td : Fmt) (rm : Rm) (x : Int) : Nat :=
  roundRat td rm (decide (x < 0)) x.natAbs 1

/-! ### Packed types (R56) -/

/-- An operation on each 16-bit element. -/
def packed2 (op : Nat → Nat → Nat) (a b : Nat) : Nat :=
  op (a % 65536) (b % 65536) + op (a / 65536 % 65536) (b / 65536 % 65536) * 65536

/-- As `packed2`, of three sources. -/
def packed3 (op : Nat → Nat → Nat → Nat) (a b c : Nat) : Nat :=
  op (a % 65536) (b % 65536) (c % 65536)
    + op (a / 65536 % 65536) (b / 65536 % 65536) (c / 65536 % 65536) * 65536

/-- Whether a type is a packed pair. -/
def isPacked : Ty → Bool
  | .f16x2 => true
  | .bf16x2 => true
  | _ => false

end Sys2Proof.Machine
end

