-- ==== Sys2Proof/Machine/LongAcc.lean ====
section
/-!
DEFINITION. The long accumulator (03 R61 to R69) and what class 2 does to one (11 R203 to R213): the carry-save image,
the contribution procedure, merges, canonical form, scaling, tests and the single rounding. An image is 768 bits (R62).
-/

namespace Sys2Proof.Machine

/-- The 96-byte image of a long accumulator (R62); byte `i` is bits `[8i+7:8i]`. -/
abbrev LaImage := BitVec 768

/-- The status word's fields (R63). -/
structure LaStatus where
  count : Nat
  lowloss : Bool
  nan : Bool
  ninf : Nat
  pinf : Nat
  deriving DecidableEq, Repr

/-- The storage of a long accumulator (R61): ten segments, ten signed carries, the guard byte, the status word. -/
structure La where
  seg : List Nat
  car : List Int
  g : Nat
  st : LaStatus
  deriving DecidableEq, Repr

/-- The status word as bits (R63). -/
def LaStatus.toNat (s : LaStatus) : Nat :=
  s.pinf + s.ninf * 2 ^ 7 + s.nan.toNat * 2 ^ 14 + s.lowloss.toNat * 2 ^ 15 + s.count * 2 ^ 16

/-- The fields of a status word (R63). -/
def LaStatus.ofNat (w : Nat) : LaStatus :=
  ⟨w / 2 ^ 16 % 65536, w / 2 ^ 15 % 2 == 1, w / 2 ^ 14 % 2 == 1, w / 2 ^ 7 % 128, w % 128⟩

/-- A byte as two's complement. -/
def byteInt (b : Nat) : Int := if b < 128 then b else (b : Int) - 256

/-- The fields of an image (R62); byte 91 is ignored. -/
def La.ofImage (i : LaImage) : La :=
  let n := i.toNat
  ⟨(List.range 10).map fun j => n / 2 ^ (64 * j) % 2 ^ 64,
   (List.range 10).map fun j => byteInt (n / 2 ^ (640 + 8 * j) % 256),
   n / 2 ^ 720 % 256, LaStatus.ofNat (n / 2 ^ 736 % 2 ^ 32)⟩

/-- Σ f(j)·2^(step·j) over a list. -/
def packNat (step : Nat) : List Nat → Nat
  | [] => 0
  | x :: r => x + 2 ^ step * packNat step r

/-- The image of an accumulator (R62), byte 91 zero. -/
def La.toImage (a : La) : LaImage :=
  BitVec.ofNat 768 (packNat 64 (a.seg.map (· % 2 ^ 64))
    + 2 ^ 640 * packNat 8 (a.car.map fun c => (c % 256).toNat)
    + 2 ^ 720 * (a.g % 256) + 2 ^ 736 * (a.st.toNat % 2 ^ 32))

/-- An integer read modulo 2^648 as two's complement (R66). -/
def wrapS (x : Int) : Int :=
  let t := x % 2 ^ 648
  if t < 2 ^ 647 then t else t - 2 ^ 648

/-- Σ c_j·2^(64j+64). -/
def carrySum : Nat → List Int → Int
  | _, [] => 0
  | j, c :: r => c * 2 ^ (64 * j + 64) + carrySum (j + 1) r

/-- The integer S an accumulator represents (R61). -/
def La.s (a : La) : Int :=
  wrapS ((packNat 64 a.seg : Nat) + (a.g * 2 ^ 640 : Nat) + carrySum 0 a.car)

/-- The canonical accumulator of an S and a status (R68). -/
def La.canonOf (s : Int) (st : LaStatus) : La :=
  let t := (s % 2 ^ 648).toNat
  ⟨(List.range 10).map fun j => t / 2 ^ (64 * j) % 2 ^ 64, List.replicate 10 0, t / 2 ^ 640, st⟩

/-- ACNORM's result (R207). -/
def La.canon (a : La) : La := La.canonOf a.s a.st

/-- The all-zero accumulator (R204). -/
def La.zero : La := La.canonOf 0 ⟨0, false, false, 0, 0⟩

/-- COUNT raised by one, saturating (R64). -/
def LaStatus.bump (s : LaStatus) : LaStatus := { s with count := min (s.count + 1) 65535 }

/-- `AddSeg` with its carry resolution (R203); `fuel` is the number of segments above, at most 11. -/
def La.addSeg : Nat → La → Nat → Int → La
  | 0, a, _, _ => a
  | fuel + 1, a, i, t =>
    if i ≥ 10 then { a with g := (((a.g : Int) + t) % 256).toNat }
    else
      let x := (a.seg.getD i 0 : Int) + t
      let d : Int := if x ≥ 2 ^ 64 then 1 else if x < 0 then -1 else 0
      let a := { a with seg := a.seg.set i (x - d * 2 ^ 64).toNat }
      if d = 0 then a
      else
        let c := a.car.getD i 0
        if c + d < -128 ∨ c + d > 127 then
          let a := La.addSeg fuel { a with car := a.car.set i 0 } (i + 1) c
          { a with car := a.car.set i (a.car.getD i 0 + d) }
        else { a with car := a.car.set i (c + d) }

/-- The number of factors of two of a positive number, below a bound. -/
def lowBit (n : Nat) : Nat :=
  Nat.log2 (n &&& (2 ^ (Nat.log2 n + 1) - n))

/-- `AddPart` (R203). -/
def La.addPart (a : La) (q : Int) : La :=
  if q = 0 then a
  else
    let j := min (lowBit q.natAbs / 64) 10
    let w := q.fdiv (2 ^ (64 * j))
    let lo := w % 2 ^ 64
    let hi := (w - lo) / 2 ^ 64
    let a := La.addSeg 12 a j lo
    if hi ≠ 0 ∧ j < 10 then La.addSeg 12 a (j + 1) hi else a

/-- `AddContribution` of T·2^−300 (R203). -/
def La.addContribution (a : La) (t : Int) : La :=
  let a := { a with st := a.st.bump }
  if t = 0 then a
  else
    let m := t.natAbs
    let z := lowBit m
    let σ : Int := if t < 0 then -1 else 1
    if m < 2 ^ (z + 64) then a.addPart (σ * m)
    else
      let l := m % 2 ^ (z + 53)
      (a.addPart (σ * l)).addPart (σ * (m - l : Nat))

/-- ACINS at p (R209): an integer that wraps under R66; at p ≥ 648 it only counts. -/
def La.addInteger (a : La) (x : Int) (p : Nat) : La :=
  if p ≥ 648 then { a with st := a.st.bump } else a.addContribution (x * 2 ^ p)

/-- PINF or NINF raised by one, saturating, and COUNT (R64). -/
def LaStatus.bumpInf (s : LaStatus) (neg : Bool) : LaStatus :=
  let s := s.bump
  if neg then { s with ninf := min (s.ninf + 1) 127 } else { s with pinf := min (s.pinf + 1) 127 }

/-- One contribution of an exact value (R64, R65, R205). -/
def La.contribute (a : La) (x : FVal) : La :=
  match x with
  | .nan => { a with st := { a.st.bump with nan := true } }
  | .inf neg => { a with st := a.st.bumpInf neg }
  | .fin neg m e =>
    let (n, d) := scaleFrac m 1 e
    if n ≥ 2 ^ 339 * d then { a with st := a.st.bumpInf neg }
    else
      let t := n * 2 ^ 300 / d
      let a := if t * d = n * 2 ^ 300 then a else { a with st := { a.st with lowloss := true } }
      a.addContribution (if neg then -(t : Int) else t)

/-- A merge of status words (R64). -/
def LaStatus.merge (a b : LaStatus) : LaStatus :=
  ⟨min (a.count + b.count) 65535, a.lowloss || b.lowloss, a.nan || b.nan, min (a.ninf + b.ninf) 127,
   min (a.pinf + b.pinf) 127⟩

/-- A merge (R64, R66), in canonical form (R206). -/
def La.merge (a b : La) : La := La.canonOf (wrapS (a.s + b.s)) (a.st.merge b.st)

/-- ACSCL (R208). -/
def La.scale (a : La) (k : Int) : La :=
  if k ≥ 0 then La.canonOf (wrapS (a.s * 2 ^ (min k 648).toNat)) a.st
  else
    let n := (min (-k) 648).toNat
    let s := a.s
    let q := s.natAbs / 2 ^ n
    let s' : Int := if s < 0 then -(q : Int) else q
    La.canonOf s' { a.st with lowloss := a.st.lowloss || decide (q * 2 ^ n ≠ s.natAbs) }

/-- ACXT (R209): 32 bits of S from p up. -/
def La.extract (a : La) (p : Nat) : Word := BitVec.ofInt 32 (a.s.fdiv (2 ^ min p 648))

/-- Whether S lies outside the exact range (R65, R66). -/
def La.outOfRange (a : La) : Bool := decide (a.s < -(2 ^ 639)) || decide (a.s ≥ 2 ^ 639)

/-- ACTST (R210). -/
def La.test (a : La) : AcCond → Bool
  | .zero => !a.st.nan && a.st.pinf == 0 && a.st.ninf == 0 && a.s == 0
  | .neg => decide (a.s < 0)
  | .nan => a.st.nan || (a.st.pinf != 0 && a.st.ninf != 0)
  | .inf => !a.st.nan && ((a.st.pinf != 0) != (a.st.ninf != 0))
  | .lowloss => a.st.lowloss
  | .range => a.outOfRange

/-- What ACRND reports (R213). -/
structure AcReport where
  mean0 : Bool
  cntsat : Bool
  lowloss : Bool
  inexact : Bool
  range : Bool
  deriving DecidableEq, Repr

/-- The report word (R213). -/
def AcReport.toWord (r : AcReport) : Word :=
  BitVec.ofNat 32 (r.range.toNat + 2 * r.inexact.toNat + 4 * r.lowloss.toNat + 8 * r.cntsat.toNat + 16 * r.mean0.toNat)

/-- The value a result stands for differs from (−1)^neg·num/den. -/
def differs (f : Fmt) (b : Nat) (neg : Bool) (num den : Nat) : Bool :=
  match fdecode f b with
  | .nan => true
  | .inf _ => true
  | .fin s m e =>
    let (n, d) := scaleFrac m 1 e
    decide (n * den ≠ num * d) || (s != neg && num != 0)

/-- ACRND's value and report in one lane (R212); the scale is an exact value, +1 when there is none. -/
def La.round (a : La) (f : Fmt) (rm : Rm) (sat mean : Bool) (scale : FVal) : Nat × AcReport :=
  let st := a.st
  let rep : AcReport := ⟨false, decide (st.count = 65535), st.lowloss, false, false⟩
  let (res, rep) : Nat × AcReport :=
    if st.nan || (st.pinf != 0 && st.ninf != 0) then (f.nanBits, rep)
    else if st.pinf != 0 || st.ninf != 0 then
      (match scale with
       | .nan => f.nanBits
       | .inf s => infOf f (s != (st.pinf == 0))
       | .fin s m _ => if m = 0 then f.nanBits else infOf f (s != (st.pinf == 0)), rep)
    else if a.outOfRange then (f.nanBits, { rep with range := true })
    else
      match scale with
      | .nan => (f.nanBits, rep)
      | .inf s => (if a.s = 0 then f.nanBits else infOf f (s != decide (a.s < 0)), rep)
      | .fin s m e =>
        if mean && st.count = 0 then (f.nanBits, { rep with mean0 := true })
        else
          let num := a.s.natAbs * m
          if num = 0 then (0, rep)
          else
            let neg := s != decide (a.s < 0)
            let (x, y) := scaleFrac num (if mean then st.count else 1) (e - 300)
            let r := roundRat f rm neg x y
            (r, { rep with inexact := differs f (fsat f sat r) neg x y })
  (fsat f sat res, rep)

/-- The contributions ACDOT adds in order (R205). -/
def dotTerms (f : Fmt) (a b : Nat) : List FVal :=
  [vmul (fdecode f (a % 65536)) (fdecode f (b % 65536)),
   vmul (fdecode f (a / 65536 % 65536)) (fdecode f (b / 65536 % 65536))]

/-- The merge of a list of accumulators (R206): the first alone is its canonical form. -/
def La.mergeAll : List La → La
  | [] => La.zero
  | a :: r => r.foldl La.merge a.canon

end Sys2Proof.Machine
end

