-- ==== Sys2Proof/Machine/State.lean ====
section
/-!
DEFINITION. The state of one F940 package as plain data: blocks with their groups, paths, tokens and sequencer contexts
(09, 12, 15, 16, 20), caches, homes and messages (06), memory and page motion (04, 05), copies and deposits (07), links,
pod and collectives (14), queues and launches (15), management registers, debug, trace and replay (22), power, reset and
boot (04, 12, 20, 24); and the state after reset. INVENTORY.md names the rule of every piece.
-/

namespace Sys2Proof.Machine

/-- A map from naturals as a list of pairs in rising order of the key. -/
abbrev SMap (α : Type) := List (Nat × α)

/-- The value at a key. -/
def SMap.get? {α : Type} (m : SMap α) (k : Nat) : Option α :=
  match m with
  | [] => none
  | (j, v) :: r => if k = j then some v else SMap.get? r k

/-- The map with a key set, its order kept. -/
def SMap.set {α : Type} (m : SMap α) (k : Nat) (v : α) : SMap α :=
  match m with
  | [] => [(k, v)]
  | (j, w) :: r => if k < j then (k, v) :: (j, w) :: r else if k = j then (k, v) :: r else (j, w) :: SMap.set r k v

/-- The map without a key. -/
def SMap.erase {α : Type} (m : SMap α) (k : Nat) : SMap α :=
  match m with
  | [] => []
  | (j, w) :: r => if k = j then r else (j, w) :: SMap.erase r k

/-! ### Registers and paths of a group -/

/-- One executing place of an instruction: a lane of a register set, or the control thread or BMS (R17, R287). -/
inductive Slot where
  | lane (set l : Nat)
  | ctl
  deriving DecidableEq, Repr

/-- Where one slot's access goes: its byte address in its space. -/
structure Access where
  slot : Slot
  addr : Nat
  deriving DecidableEq, Repr

/-- An armed wait's condition, or what else a waiting path waits for (R136, R303, R320, R323, R325). -/
inductive Wait where
  | none
  | ctr (c : Nat) (thr : Int) (then_ : Option (Nat × Nat))
  | bar (coh : Bool) (nb phase count : Nat)
  | swpt (id : Nat)
  | suspend (obj ctl : Nat)
  deriving DecidableEq, Repr

/-- Path states (R303); HELD is a flag beside them (R373). -/
inductive PState where
  | free | ready | waitc | barw | joinw | sleep
  deriving DecidableEq, Repr

/-- A pending trap of a path (R355, R359). -/
structure PTrap where
  cause : Word
  addr : Nat
  g121 : Word
  pc : Nat
  word : IWord
  deriving DecidableEq, Repr

/-- A path-table entry (R307, R303, R359, R373, R374, R375, R382). -/
structure Path where
  pc : Nat
  mask : List LaneMask
  st : PState
  held : Bool
  tref : Option Nat
  dlist : Option Nat
  unrep : Bool
  wake : Nat
  wait : Wait
  /-- registers that the waiting instruction marks dead when it retires (R169) -/
  kills : List Nat
  trap : Option PTrap
  bpSkip : Bool
  step : Bool
  deriving DecidableEq, Repr

/-- Token kinds (R307). -/
inductive TKind where
  | join | loop | defer
  deriving DecidableEq, Repr

/-- A token or DEFER record (R307, R308). -/
structure Token where
  kind : TKind
  pc : Nat
  exp : List LaneMask
  arr : List LaneMask
  parent : Option Nat
  next : Option Nat
  deriving DecidableEq, Repr

/-- A handler level's shadow set (R347, R348, R359). -/
structure Shadow where
  runtime : Bool
  g : List Word
  k6 : Bool
  k7 : Bool
  cause : Word
  trapPc : Nat
  resume : Nat
  deriving DecidableEq, Repr

/-- A register cell that a discarded instruction gives back (R139). -/
inductive Cell where
  | v (k : Nat) (old : Option (Option Word))
  | g (k : Nat) (old : Option (Option Word))
  | p (k : Nat) (old : Option Bool)
  | k (k : Nat) (old : Option Bool)
  deriving DecidableEq, Repr

/-- What one instruction that has not retired wrote (R139): the cell with what it held before. -/
structure Undo where
  path : Nat
  order : Nat
  cell : Cell
  deriving DecidableEq, Repr

/-- An instruction that has issued and not retired (R139), with the registers that its last-use hints mark when it retires
(R169): whether a vector register's key, and the key. -/
structure Ahead where
  path : Nat
  order : Nat
  marks : List (Bool × Nat)
  deriving DecidableEq, Repr

/-- A memory instruction whose access is not complete (R139): its accesses and threads (R153), the lines whose data has
arrived, and whether it has passed its fault point. -/
structure Pend where
  id : Nat
  path : Nat
  pc : Nat
  word : IWord
  instr : Instr
  acc : List Access
  thr : List LaneMask
  data : List Word
  got : List (Nat × Line)
  passed : Bool
  issued : Nat
  deriving DecidableEq, Repr

/-- A copy handed to the copy engine (R143 to R147, R359). -/
structure CopyRec where
  id : Nat
  desc : BitVec 256
  batch : Nat
  /-- rows done (R355, R361) -/
  rows : Nat
  /-- every byte is written but for pod writes that have not been answered (R266) -/
  sent : Bool
  issued : Nat
  /-- the rights under which the CPY issued (R144) -/
  runtime : Bool
  deriving DecidableEq, Repr

/-- A copy that failed after issue, until it is raised (R147). -/
structure CopyFail where
  id : Nat
  batch : Nat
  cause : Nat
  addr : Nat
  deriving DecidableEq, Repr

/-- What every issuer has, a group or a BMS context (R135, R136, R139, R143 to R147, R242, R255). -/
structure Ctx where
  gregs : SMap (Option Word)
  kpreds : SMap Bool
  ctrs : List Int
  batch : Nat
  copies : List CopyRec
  fails : List CopyFail
  seq : Nat
  hwm : Nat
  energy : Int
  bstall : Bool
  window : List Pend
  order : Nat
  armed : List Nat
  /-- path and PC of a faulted AADD or MSPILL, and the lines it names, until its replay retires (R258) -/
  hold : Option (Nat × Nat × List Key)
  deriving DecidableEq, Repr

/-- A group (09 R162, 15 R285). -/
structure Group where
  ctx : Ctx
  /-- unlisted registers and predicates: free values of this seed, or dead and false (R301) -/
  seed : Option Nat
  vregs : SMap (Option Word)
  preds : SMap Bool
  paths : List Path
  tokens : SMap Token
  /-- ids of the tokens held on chip, least recently used first; the others are in the spill area (R308) -/
  recent : List Nat
  running : Nat
  runLen : Nat
  shadows : List Shadow
  hpath : Option Nat
  utrap : Dword
  unwind : Dword
  region : List Nat
  opbuf : Option Nat
  undo : List Undo
  ahead : List Ahead
  gclk : Nat
  redc : List (Nat × Nat)
  replayed : Nat
  paid : Nat
  score : Nat
  excluded : Nat
  mayIssue : Bool
  gslot : Nat
  /-- resumed from a frame that does not match its record: it raises 0x0C wherever it stands (R301) -/
  stray : Bool
  deriving DecidableEq, Repr

/-! ### Matrix state (12) -/

/-- One z element (R223): S and its status. -/
structure ZEl where
  s : Int
  st : LaStatus
  deriving DecidableEq, Repr

/-- A z tile: the elements written since MZ, or since the block started (then the others are undefined, R218). -/
structure ZTile where
  zeroed : Bool
  seed : Nat
  els : SMap ZEl
  deriving DecidableEq, Repr

/-- A y tile's 24,576 bytes and 3,072 bytes of side store (R224, R145). -/
structure YTile where
  /-- unlisted bytes: free values of this seed, or zero -/
  seed : Option Nat
  bytes : SMap Byte
  deriving DecidableEq, Repr

/-- BMS states (R218, R219, R353). -/
inductive BmsSt where
  | run | wait | trapped | exited
  deriving DecidableEq, Repr

/-- A collective of a BMS context (14 R271 to R281): incomplete, aborted, or the last one of its communicator. -/
structure Coll where
  op : CollOp
  x : CollX
  abo : Nat
  n : Nat
  rank : Nat
  root : Nat
  chunk : Nat
  tree : Bool
  fanin : Nat
  swacc : Bool
  deadline : Nat
  commid : Nat
  mtab : Nat
  pvec : Nat
  base : Nat
  elems : Nat
  epoch : Nat
  /-- the member table's entries as read at issue (R272) -/
  members : List Nat
  aborted : Bool
  /-- the survivors' progress vectors are being exchanged (R281), and those that have come, by rank -/
  recovering : Bool
  /-- N and the members are those of the aborted collective (R281) -/
  same : Bool
  vecs : SMap (List (Nat × Bool))
  /-- chunk to steps completed and FINAL (R278) -/
  prog : SMap (Nat × Bool)
  /-- chunk to the partial sums held, and the sources already added -/
  parts : SMap (List LaImage)
  srcs : SMap (List (Nat × Nat))
  /-- chunk to when its open step began, on the die's counter and in cycles (R277, R279, R78) -/
  opened : SMap (Nat × Nat)
  deriving DecidableEq, Repr

/-- A BMS context (R218). -/
structure Bms where
  ctx : Ctx
  pc : Nat
  st : BmsSt
  wait : Wait
  kills : List Nat
  trap : Option PTrap
  /-- the matrix instruction in progress and its next pass or row (R232, R241) -/
  prog : Option (Nat × Instr)
  /-- whether its contributions are replay contributions (R257), and the elements that an MFILL has read (R239) -/
  replay : Bool
  fill : List (Nat × Nat × ZEl)
  bctx : Nat
  colls : List Coll
  deriving DecidableEq, Repr

/-! ### Blocks, cohorts, launches (15) -/

/-- A numbered barrier (R320). -/
structure Bar where
  p : Nat
  a : Nat
  phase : Nat
  /-- block index and issuer of the arrivals of the open phase (R300 step 1) -/
  who : List (Nat × Nat)
  deriving DecidableEq, Repr

/-- A variant of a kernel descriptor (R289). -/
structure Variant where
  regs : Nat
  fold : Nat
  groups : Nat
  scr : Nat
  zt : Nat
  entry : Nat
  seq : Nat
  deriving DecidableEq, Repr

/-- A kernel descriptor as the distributor read it (R288, R289). -/
structure Kernel where
  vars : List Variant
  prog : Nat
  divz : Bool
  nlease : Nat
  ltpb : Nat
  fmax : Nat
  rtab : Nat
  rcnt : Nat
  nsw : Nat
  ftab : Nat
  place : List (Nat × Nat × Nat)
  deriving DecidableEq, Repr

/-- A resident block (R285, R286, R294, R296). -/
structure Block where
  uid : Nat
  cohort : Nat
  launch : Nat
  index : Nat
  inCoh : Nat
  die : Nat
  core : Nat
  /-- the spans of the core's scratchpad that its allocation holds, in order: base and bytes (R150, R296) -/
  scrSpans : List (Nat × Nat)
  vidx : Nat
  v : Variant
  slot : Nat
  save : Nat
  task : Nat
  frame : Nat
  groups : List Group
  bms : Option Bms
  scr : SMap Byte
  ytiles : List YTile
  ztiles : List ZTile
  bars : List Bar
  /-- SEQ and HWM of the issuer indices that its variant does not have (R256) -/
  absent : SMap (Nat × Nat)
  halted : Bool
  broken : Bool
  deriving DecidableEq, Repr

/-- A block that is suspended in its frame or saved in its save area (R300, R355): what it keeps. -/
structure Away where
  cohort : Nat
  launch : Nat
  index : Nat
  inCoh : Nat
  slot : Nat
  save : Nat
  task : Nat
  frame : Nat
  saved : Bool
  vidx : Nat
  v : Variant
  /-- a saved block as it stood: what its waits and barriers were; the save area has the rest -/
  kept : Option Block
  deriving DecidableEq, Repr

/-- One block of a cohort as the cohort was placed (R149, R285): its block, index in the cohort, die, core, scratchpad
bytes. -/
structure Member where
  uid : Nat
  inCoh : Nat
  die : Nat
  core : Nat
  scr : Nat
  deriving DecidableEq, Repr

/-- A cohort (R285, R295, R297). -/
structure Cohort where
  uid : Nat
  launch : Nat
  queue : Nat
  first : Nat
  size : Nat
  bars : List Bar
  /-- a yield request is pending -/
  yield : Bool
  /-- queue and index of the waiting record that caused it (R297) -/
  starve : Option (Nat × Nat)
  preempt : Bool
  plan : List Member
  deriving DecidableEq, Repr

/-- Recording and replay of a launch (22 R385 to R388). -/
structure Replay where
  mode : Nat
  clkt : Nat
  base : Nat
  size : Nat
  head : Nat
  tail : Nat
  /-- line of the leased ranges to WC, WG, RC, RG -/
  clocks : SMap (Nat × Nat × Nat × Nat)
  deriving DecidableEq, Repr

/-- A launch, or a task popped from a task record (R285, R290, R295). -/
structure Launch where
  id : Nat
  isTask : Bool
  queue : Nat
  record : BitVec 256
  kdesc : Nat
  k : Kernel
  asid : Nat
  args : Nat
  prv : Nat
  nblk : Nat
  cohb : Nat
  join : Nat
  pin : Bool
  next : Nat
  ended : Nat
  failed : Bool
  /-- its record is still at the head of its queue (R293) -/
  queued : Bool
  finished : Bool
  leased : Bool
  ranges : List (Nat × Nat)
  ppcnt : List Dword
  cx : Word
  cxd : List Nat
  cxn : Nat
  cxc : SMap Nat
  dbg : Option Bool
  bps : SMap Nat
  rr : Option Replay
  deriving DecidableEq, Repr

/-- A deposit in flight (R148). -/
structure Deposit where
  id : Nat
  src : Nat
  who : Nat
  cohort : Nat
  inCoh : Nat
  grp : Nat
  reg : Nat
  wide : Bool
  val : Dword
  ctr : Nat
  deriving DecidableEq, Repr

/-- The distributors, queues and everything handed out (R290 to R297, R256). -/
structure Work where
  blocks : List Block
  cohorts : List Cohort
  away : List Away
  launches : List Launch
  deposits : List Deposit
  nextUid : Nat
  qbase : SMap Nat
  qsize : SMap Nat
  qhead : SMap Nat
  qtail : SMap Nat
  /-- the queue served last, by distributor and priority: 16·4 places (R293) -/
  rot : List Nat
  enq : List (Nat × Nat × Nat)
  /-- ASID and private bytes under which a record was enqueued: queue, index, ASID, PRV (R290, assumption log 11) -/
  origin : List (Nat × Nat × Nat × Nat)
  /-- records taken before those in front of them: queue and index (R293) -/
  taken : List (Nat × Nat)
  /-- JOIN signals still to be made: ASID, VA, and the launch, if any, whose blocks' stores come first (R293) -/
  joins : List (Nat × Nat × Option Nat)
  purge : List Nat
  tagwait : List Nat
  /-- dies whose distributor has found a record waiting for a TASK value (R256) -/
  tagwaits : List Nat
  rejects : Nat
  ppBase : Nat
  ppSlots : Nat
  ppSlotb : Nat
  csaBase : Nat
  csaSlots : Nat
  csaSlotb : Nat
  tspill : Nat
  deriving DecidableEq, Repr

/-! ### Memory (04) -/

/-- Device memory by physical address (R71, R73, R76, R77) and what the controllers keep. -/
structure Mem where
  cells : List Host.Cell
  poison : List Nat
  dead : List Nat
  retired : List Nat
  badList : List Nat
  ceCount : SMap Nat
  cap : List Nat
  badStacks : List Nat
  badLp6 : List Nat
  /-- latent media errors by 64-byte granule: 1 correctable, 2 not (R73) -/
  flaws : SMap Nat
  /-- frames in which the walker has used a page table (R91) -/
  tables : List Nat
  deriving DecidableEq, Repr

/-! ### Caches and homes (06) -/

/-- Cluster states (R115). -/
inductive CSt where
  | s | e | o | m | a
  deriving DecidableEq, Repr

/-- Attributes a home keeps and hands out with a line (R89). -/
structure Attr where
  mt : MT
  rd : Bool
  w : Bool
  x : Bool
  u : Bool
  deriving DecidableEq, Repr

/-- A raw partial with its tags and counts, oldest first (R115, R257). -/
structure Partial where
  la : La
  tags : List (Nat × Nat)
  deriving DecidableEq, Repr

/-- A line of a cluster cache (R113, R115). -/
structure CLine where
  cl : Nat
  key : Key
  st : CSt
  data : Line
  poison : Bool
  attr : Attr
  l1 : List Nat
  xh : Option Nat
  dirty : List Nat
  part : Partial
  deriving DecidableEq, Repr

/-- Requests of clusters, the host and the engines (R117, R120, R130, R131, R257, R408). -/
inductive Req where
  | rds | rdx | upg | accA
  | far (drop : Bool)
  | hostRd (m : HostMeta)
  | hostWr (d : Line) (poison : Bool)
  | snp (inv cur : Bool)
  | replay (la : La) (tag : Nat)
  | wb (d : Option (Line × Bool))
  | mrg (p : Partial)
  deriving DecidableEq, Repr

/-- Message contents (R117), and the refusal of R72, R89 and R132. -/
inductive Body where
  | req (r : Req)
  | wb (d : Option (Line × Bool))
  | mrg (p : Partial)
  | fwdS | fwdInv | inv
  | data (st : CSt) (d : Line) (poison : Bool) (a : Attr)
  | ack (a : Attr)
  | refuse (cause : Nat)
  | fwdData (d : Line) (poison dirty : Bool)
  | fwdMiss (wbp : Bool)
  | invAck | wbAck
  deriving DecidableEq, Repr

/-- A message in flight; party 33 is the line's home (R117). -/
structure Msg where
  src : Nat
  dst : Nat
  key : Key
  body : Body
  deriving DecidableEq, Repr

/-- Stable directory states (R118). -/
inductive HSt where
  | hi | hs | he | ho | ha
  deriving DecidableEq, Repr

/-- A transaction a home runs (R119, R123, R337): its request, the answers it waits for, and what it has collected. -/
structure Txn where
  src : Nat
  req : Req
  fwd : Option Nat
  waitWb : Bool
  invs : List Nat
  mrgs : List Nat
  parts : List (Nat × Partial)
  data : Option (Line × Bool × Bool)
  /-- a CXL.cache request for the line is with the host (R131) -/
  host : Bool
  since : Nat
  deriving DecidableEq, Repr

/-- A directory entry (R118, R119). -/
structure DEntry where
  key : Key
  st : HSt
  owner : Nat
  sharers : List Nat
  txn : Option Txn
  queue : List (Nat × Req)
  wbEarly : Option (Option (Line × Bool))
  /-- attributes kept with the line (R89) -/
  attr : Option Attr
  /-- the cycle of the latest arrivals, and how many of them the queue ends with (R119) -/
  late : Nat × Nat
  /-- clusters whose next InvAck follows an Mrg that counted as their answer (R124) -/
  stale : List Nat
  deriving DecidableEq, Repr

/-- A memory-side TLB entry: the leaf of its first granule, and a hotness counter for each granule that it maps, 1 or 32 (R88,
R105). -/
structure Mtlb where
  die : Nat
  asid : Nat
  vpn : Nat
  pte : Nat
  hot : List Nat
  deriving DecidableEq, Repr

/-- A host line table entry (R131): the CXL.cache state held, whether dirty data has reached the home, its data. -/
structure HostLine where
  hpa : Nat
  keys : List Key
  st : CxlGrant
  data : Line
  poison : Bool
  dirty : Bool
  wait : Bool
  deriving DecidableEq, Repr

/-- A line of a write-combining buffer (R127): the bytes written; the stores they come from, by launch, block, issuer and
order; whether it is on its way to a peer or the host, and the pod writes that carry it (R267). -/
structure WcLine where
  cl : Nat
  key : Key
  bytes : SMap Byte
  since : Nat
  from_ : List (Nat × Nat × Nat × Nat)
  sent : Bool
  pods : List Nat
  deriving DecidableEq, Repr

/-- The contribution tags of one cluster at a line's home, oldest first (R257). -/
structure TagWin where
  key : Key
  cl : Nat
  tags : List (Nat × Nat)
  deriving DecidableEq, Repr

/-- An uncached CXL.cache access with the host (R127, R131): its line, who makes it (block, issuer, operation; issuer 32 a
cluster's buffer, 33 an agent), and the host's answer. -/
structure HostUc where
  key : Key
  tag : Nat × Nat × Nat
  write : Bool
  done : Option (Line × Bool)
  deriving DecidableEq, Repr

/-- A contribution that a cluster holds back after a fault (R258): its line, tag, whether it is a replay, its value, the
instruction it belongs to, and the counter that falls when the instruction's last one has gone. -/
structure Held where
  cl : Nat
  key : Key
  tag : Nat
  replay : Bool
  la : La
  blk : Nat
  who : Nat
  order : Nat
  ctr : Option Nat
  deriving DecidableEq, Repr

/-- An operation of an issuer that waits at a line's home, since when (R79, R132). -/
structure HomeWait where
  cl : Nat
  key : Key
  blk : Nat
  who : Nat
  since : Nat
  deriving DecidableEq, Repr

/-- A PREF whose requests have not all been granted or dropped (R140): the counter it lowers, and the lines still out. -/
structure Pref where
  blk : Nat
  who : Nat
  cl : Nat
  ctr : Option Nat
  mode : PrefMode
  runtime : Bool
  /-- the lines, and whether a `.wbi` has given the line up -/
  keys : List (Key × Bool)
  deriving DecidableEq, Repr

/-- A DISC past its checks (R109): the path, the operation's number, and the lines that are not yet dropped, with whether their
homes have been asked. -/
structure Disc where
  cl : Nat
  blk : Nat
  who : Nat
  path : Nat
  op : Nat
  left : List (Key × Bool)
  deriving DecidableEq, Repr

/-- The caches, homes and the messages between them. -/
structure Coh where
  lines : List CLine
  reqs : List (Nat × Key × Req × Nat)
  /-- write-backs that no home has acknowledged: cluster, line, since when -/
  wbs : List (Nat × Key × Nat)
  /-- operations of a cluster's issuers that wait at a line's home, since when (R132) -/
  homeWaits : List HomeWait
  prefs : List Pref
  discs : List Disc
  held : List Held
  net : List Msg
  dir : List DEntry
  mtlb : List Mtlb
  /-- table entries that the walkers of a die hold: die and address (R88) -/
  tcache : List (Nat × Nat)
  /-- home locator caches: cluster, ASID, VA[47:16], HOME (R87) -/
  locs : List (Nat × Nat × Nat × Nat)
  /-- lines in the L2 slices, least recently used first, with their poison (R111, R121) -/
  l2 : List (Key × Bool)
  hostTab : List HostLine
  ucs : List HostUc
  wc : List WcLine
  wins : List TagWin
  refused : List (Nat × Key × Nat)
  /-- core, key, line, and whether its page is a user page (R86, R114) -/
  icache : List (Nat × Key × Line × Bool)
  /-- lines whose write-back was dropped while the die of their home was in reset (R133) -/
  dropped : List Key
  dirBi : Nat
  specDrop : Nat
  prefDrop : Nat
  tagDup : Nat
  deriving DecidableEq, Repr

/-! ### Rings, motion, management (04, 05, 15, 20, 22) -/

/-- A memory-backed ring of the management controller (R75): entries wait in the buffer while it is full or off. -/
structure Ring where
  base : Nat
  size : Nat
  head : Nat
  tail : Nat
  phase : Bool
  ctl : Word
  buf : List (List Byte)
  deriving DecidableEq, Repr

/-- Why a move aborts, and the record kinds (R100, R101). -/
inductive MovKind where
  | committed | destErr | destFull | destRetired | timeout | unmapped
  deriving DecidableEq, Repr

/-- A granule in motion (R97, R98). -/
structure Move where
  engine : Nat
  asid : Nat
  vpn : Nat
  src : Nat
  dst : Nat
  cursor : Nat
  retry : Bool
  dead : Bool
  dest : TierPlace
  since : Nat
  /-- the first granule of its page -/
  page : Nat
  /-- its copying has begun; until then the granule of a larger page is as resident -/
  begun : Bool
  deriving DecidableEq, Repr

/-- A queued move (R97, R108). -/
structure MoveReq where
  engine : Nat
  asid : Nat
  vpn : Nat
  dest : TierPlace
  retry : Bool
  deriving DecidableEq, Repr

/-- The two Tansy engines (R97 to R105, R108). -/
structure Motion where
  moves : List Move
  queue : List MoveReq
  free : List (Nat × Nat × Nat)
  drops : List Nat
  recs : List (Nat × List Byte)
  hints : List Nat
  promote : SMap Nat
  demote : SMap Nat
  policy : Bool
  /-- when the hotness counters of each N-die last decayed (R105) -/
  decayed : List Nat
  /-- granules of the command at the head of its ring that have been handed over (R102) -/
  cmdAt : Nat
  /-- map commands that have not completed, in ring order: 0 MAP, 1 ZERO, 2 UNMAP, 3 PROTECT (R91) -/
  mapq : List (Nat × MapCmd)
  deriving DecidableEq, Repr

/-- Management registers without a home elsewhere, and the rings. -/
structure Mgmt where
  asidt : Nat
  rth : Nat
  podBase : Nat
  podEn : Bool
  timePage : Nat
  faq : Ring
  mgc : Ring
  mgr : Ring
  rej : Ring
  trq : Ring
  dbq : Ring
  smp : Nat
  smpQuad : SMap Nat
  cxRange : List (Nat × Nat)
  fdBase : Nat
  fdSize : Nat
  barSize : Nat
  irqs : Nat
  deriving DecidableEq, Repr

/-! ### Links, pod, collectives (14) -/

/-- A direction of a UCIe module (R260 to R263). -/
structure Module where
  id : LinkId
  up : Bool
  lanes : Nat
  retraining : Bool
  narrow : Bool
  seq : Nat
  replay : List Flit
  expect : Nat
  crcs : List Nat
  /-- the module that has taken its line keys and its flits (R263) -/
  moved : Option Nat
  /-- the next flit that the sender sends again (R262) -/
  resend : Option Nat
  /-- the ACK of the acknowledgement-only flit that the receiver sends after a CRC failure (R262) -/
  nak : Option Nat
  deriving DecidableEq, Repr

/-- An outstanding pod request of this device (R266, R267). -/
structure PodPend where
  id : Nat
  write : Bool
  blk : Nat
  who : Nat
  op : Nat
  /-- VA line for a read, slot number for an atomic -/
  at_ : Nat
  since : Nat
  done : Option (Bool × List Byte)
  deriving DecidableEq, Repr

/-- Die links, the pod and the adders. -/
structure Links where
  mods : List Module
  /-- by 8 · target die + source die (R264): the next number, ids that have no reply yet, ids completed, ids whose stored reply
  goes again -/
  nextReq : SMap Nat
  outst : SMap (List Nat)
  done : SMap (List Nat)
  replies : SMap (List Nat)
  delivered : List Nat
  degrade : Nat
  errors : Nat
  pods : List PodPend
  podNext : Nat
  werr : Nat
  adders : List (Nat × Nat × List LaImage)
  heldMsgs : List (Nat × CollMsg)
  out : List (Nat × CollMsg)
  collDup : Nat
  deriving DecidableEq, Repr

/-! ### Trace, power, reset, boot -/

/-- One core's Yarrow (22 R379 to R383). -/
structure Yarrow where
  base : Nat
  size : Nat
  head : Nat
  tail : Nat
  ctl : Word
  count : Nat
  due : Bool
  loss : Option Nat
  last : Option (Nat × Nat)
  bits : List Bool
  /-- block, group, entry, PC and masks at the first pending BR bit (R381) -/
  owner : Option (Nat × Nat × Nat × Nat × List LaneMask)
  lastTs : Nat
  deriving DecidableEq, Repr

/-- A line of a core's L1 (R113, R151): the group slot that last touched it, none after a stream hint; its dirty sectors. -/
structure L1Line where
  key : Key
  grp : Option Nat
  dirty : List Nat
  deriving DecidableEq, Repr

/-- Per-core machinery (07 R151, R152, 12 R242 to R244). -/
structure Core where
  cap : Nat
  ceil : Nat
  /-- the core's L1, least recently used first -/
  l1 : List L1Line
  vtags : List (Key × Nat)
  /-- scratchpad bytes written where no block has an allocation (R150) -/
  scr : SMap Byte
  hits : Nat
  accs : Nat
  winStart : Nat
  narrow : Bool
  refill : Int
  ecap : Int
  /-- when the last refill window ended (R242) -/
  refilled : Nat
  lastIssue : List (Option (Nat × Nat × Nat))
  /-- the group slot of each quadrant that issue picked last (R303) -/
  picked : List Nat
  deriving DecidableEq, Repr

/-- Power, thermal and fatal state (04 R78, 12 R244, 20 R363). -/
structure Power where
  alarm : Bool
  frozen : Bool
  frzStart : Nat
  frzCount : Nat
  hot : List Nat
  ecost : List Int
  /-- PERF_MESC (R232) -/
  mesc : Nat
  coresDown : List Nat
  uncoreDown : List Nat
  fatal : Option (Nat × Nat × Nat)
  deriving DecidableEq, Repr

/-- Boot and trust (24). -/
structure Boot where
  flash : List Firmware
  pkh : BitVec 256
  roll : List Nat
  status : Nat
  meas : List (BitVec 256)
  log : List (Nat × Nat × BitVec 256 × Nat)
  step : Nat
  hostUp : Bool
  serial : Dword
  devKey : BitVec 256
  deriving DecidableEq, Repr

/-- A reply of the mailbox, of the host link or of the pod, in the order given. -/
inductive Reply where
  | status (n : Nat)
  | words (w : List Nat)
  | line (d : Line) (poison : Bool)
  /-- R131: 0 RspIHitI, 1 RspIHitSE, 2 RspIFwdM, 3 RspSHitSE, 4 RspSFwdM, 5 RspVHitV, 6 RspVFwdV -/
  | snoop (kind : Nat)
  /-- bytes that the device writes to host memory (R363) -/
  | hostWr (hpa : Nat) (b : List Byte)
  | bytes (b : List Byte)
  /-- the frame availability report: the capacity of each CXL port, and the entries of the bad-page list (R70, R76) -/
  | frames (caps bad : List Nat)
  | hostReq (hpa : Nat) (own : Bool)
  | podReq (id peer : Nat) (r : PodReq)
  | podDone (peer tag : Nat) (ok : Bool) (b : List Byte)
  /-- CleanEvict, or DirtyEvict with the line and its poison (R129, R131) -/
  | evict (hpa : Nat) (d : Option (Line × Bool))
  /-- an uncached CXL.cache access: a read, or a write of the bytes whose bit is set (R127) -/
  | hostUc (hpa : Nat) (d : Option (Line × BitVec 128))
  deriving DecidableEq, Repr

/-! ### The agenda: which step comes next, and the whole state -/

/-- One turn: how much time passes before it, and what then happens. -/
inductive Act where
  | issue (blk who : Nat)
  | event (i : Instr)
  /-- the media of a 64-byte granule develops an error that its next read meets (R73) -/
  | flaw (granule : Nat) (o : EccOutcome)
  /-- a cluster evicts a line, by capacity (R116) -/
  | evict (cl : Nat) (k : Key)
  /-- a core's L1 evicts a line, by capacity (R113, R151) -/
  | evictL1 (ci : Nat) (k : Key)
  deriving DecidableEq, Repr

/-- A turn of the agenda (assumption log 1). -/
structure Turn where
  ns : Nat
  cyc : Nat
  act : Act
  deriving DecidableEq, Repr

/-- Who issues the instruction that `exec` executes: block, issuer index (16 is the BMS, R255), path, its PC, its word. -/
structure Cur where
  blk : Nat
  who : Nat
  path : Nat
  pc : Nat
  word : IWord
  deriving DecidableEq, Repr

/-- Scheduling and time: the agenda, the counter of free values, the core clock, the issuer, the die counters. -/
structure Sched where
  agenda : List Turn
  tick : Nat
  cycle : Nat
  /-- nanoseconds outside thermal freezes: what limits in seconds are counted in (R78) -/
  ns : Nat
  cur : Option Cur
  time : List Nat
  rates : List (Dword × Dword)
  /-- rates that firmware is writing, while SEQ is odd (R284) -/
  newRates : Option (List (Dword × Dword))
  tpSeq : Nat
  replies : List Reply
  deriving DecidableEq, Repr

/-- The state of the package. -/
structure State where
  sched : Sched
  work : Work
  mem : Mem
  coh : Coh
  motion : Motion
  mgmt : Mgmt
  links : Links
  trace : SMap Yarrow
  cores : SMap Core
  power : Power
  boot : Boot
  deriving DecidableEq, Repr

/-- Reasons for which the machine stops. There are none: the manual gives every fault of the part a state that
follows it (a trap, a record, or the halted device of R363), so no step stops and this type has no constructor. -/
inductive Fault where
  deriving DecidableEq, Repr

/-- Reasons for which the model gives an instruction no meaning. -/
inductive Refusal where
  /-- Raised by an arm of `exec` whose instruction has no meaning yet. Safe: nothing can be proved of its next state. -/
  | notModelled (mnemonic : String)
  deriving DecidableEq, Repr

/-! ### After reset -/

/-- A ring that is off and empty (R75): control register zero. -/
def Ring.off (ctl : Word) : Ring := ⟨0, 0, 0, 0, true, ctl, []⟩

/-- Per-core state after reset: CAP and CEIL 32 (R152), NARROW 0 (R243); REFILL and ECAP are the model's (log 6). -/
def Core.reset : Core := ⟨32, 32, [], [], [], 0, 0, 0, false, 1024, 1024, 0, [none, none, none, none], [7, 7, 7, 7]⟩

/-- Trace of a core after reset (R379). -/
def Yarrow.reset : Yarrow := ⟨0, 0, 0, 0, 0, 0, false, none, none, [], none, 0⟩

/-- The package after package reset: no work, nothing cached, counters at zero (R283, R398 and the reset columns).
What the manual gives no reset value is as assumption logs 2, 4, 5 and 6 name. -/
def State.reset : State where
  sched := ⟨[], 0, 0, 0, none, [0, 0, 0, 0, 0, 0], [], none, 0, []⟩
  work :=
    { blocks := [], cohorts := [], away := [], launches := [], deposits := [], nextUid := 0, qbase := [], qsize := []
      qhead := [], qtail := [], rot := List.replicate 16 15, enq := [], origin := [], taken := [], joins := [], purge := [], tagwait := [0, 0, 0, 0], tagwaits := [], rejects := 0
      ppBase := 0, ppSlots := 0, ppSlotb := 0, csaBase := 0, csaSlots := 0, csaSlotb := 0, tspill := 0 }
  mem := ⟨[], [], [], [], [], [], [0, 0, 0, 0, 0, 0, 0, 0], [], [], [], []⟩
  coh :=
    { lines := [], reqs := [], wbs := [], homeWaits := [], prefs := [], discs := [], held := [], net := [], dir := [], mtlb := [], tcache := [], locs := [], l2 := [], hostTab := [], ucs := [], wc := [], wins := []
      refused := [], icache := [], dropped := [], dirBi := 0, specDrop := 0, prefDrop := 0, tagDup := 0 }
  motion := ⟨[], [], [], [0, 0], [], [], [], [], false, [0, 0, 0, 0], 0, []⟩
  mgmt :=
    { asidt := 0, rth := 0, podBase := 0, podEn := false, timePage := 0, faq := Ring.off 0x400, mgc := Ring.off 0
      mgr := Ring.off 0, rej := Ring.off 0, trq := Ring.off 0, dbq := Ring.off 0, smp := 0, smpQuad := []
      cxRange := [(0, 0), (0, 0), (0, 0), (0, 0)], fdBase := 0, fdSize := 0, barSize := 0, irqs := 0 }
  links :=
    { mods := [], nextReq := [], outst := [], done := [], replies := [], delivered := [], degrade := 0, errors := 0, pods := [], podNext := 0
      werr := 0, adders := [], heldMsgs := [], out := [], collDup := 0 }
  trace := []
  cores := []
  power := ⟨false, false, 0, 0, [], [1, 2, 4, 8, 16, 32, 64, 128], 0, [], [], none⟩
  boot := ⟨[], 0, [0, 0, 0], 0, [0, 0, 0], [], 0, false, 0, 0⟩

end Sys2Proof.Machine
end

