-- ==== Sys2Proof/Machine/Bits.lean ====
section
/-!
DEFINITION. Bit fields, sign extension, byte order and lane masks, as every chapter uses them: little-endian bytes (00 R6),
two's complement (R9), lane masks of 64 bits a register set (15 R287).
-/

namespace Sys2Proof.Machine

/-- Bits `[lo+w-1:lo]` of a natural. -/
def bitsAt (x lo w : Nat) : Nat := x / 2 ^ lo % 2 ^ w

/-- One bit of a natural. -/
def bitAt (x i : Nat) : Bool := x / 2 ^ i % 2 == 1

/-- `x` with bits `[lo+w-1:lo]` replaced by the low `w` bits of `v`. -/
def putBits (x lo w v : Nat) : Nat := x - bitsAt x lo w * 2 ^ lo + v % 2 ^ w * 2 ^ lo

/-- The low `w` bits read as two's complement. -/
def sextN (w x : Nat) : Int :=
  let y := x % 2 ^ w
  if y < 2 ^ (w - 1) then y else (y : Int) - 2 ^ w

/-- An integer truncated to `w` bits. -/
def truncN (w : Nat) (x : Int) : Nat := (x % 2 ^ w).toNat

/-- A natural as `n` little-endian bytes (R6). -/
def toBytes : Nat → Nat → List Byte
  | 0, _ => []
  | n + 1, x => BitVec.ofNat 8 x :: toBytes n (x / 256)

/-- Little-endian bytes as a natural (R6). -/
def ofBytes : List Byte → Nat
  | [] => 0
  | b :: r => b.toNat + 256 * ofBytes r

/-- `n` bytes of a line from offset `o`, as a natural. -/
def lineGet (l : Line) (o n : Nat) : Nat := bitsAt l.toNat (8 * o) (8 * n)

/-- A line with `n` bytes from offset `o` replaced. -/
def linePut (l : Line) (o n v : Nat) : Line := BitVec.ofNat 1024 (putBits l.toNat (8 * o) (8 * n) v)

/-- The lanes of a mask, in ascending order. -/
def lanesOf (m : LaneMask) : List Nat := (List.range 64).filter fun l => m.getLsbD l

/-- The mask of a list of lanes. -/
def maskOf (ls : List Nat) : LaneMask := ls.foldl (fun m l => m ||| BitVec.ofNat 64 (2 ^ l)) 0

/-- Masks of several register sets, set by set (R287). -/
def mAnd (a b : List LaneMask) : List LaneMask := a.zipWith (· &&& ·) b
def mOr (a b : List LaneMask) : List LaneMask := a.zipWith (· ||| ·) b
def mSub (a b : List LaneMask) : List LaneMask := a.zipWith (fun x y => x &&& ~~~y) b
def mEmpty (a : List LaneMask) : Bool := a.all (· == 0)
def mZero (n : Nat) : List LaneMask := List.replicate n 0

/-- A value in or not in a list of naturals without repeats. -/
def insertNat (x : Nat) (l : List Nat) : List Nat := if l.contains x then l else l ++ [x]

/-- Base-2 logarithm rounded up of a count of groups of `b`. -/
def ceilDiv (a b : Nat) : Nat := (a + b - 1) / b

/-- Insertion into a sorted list, after its equals. -/
def insertBy {α : Type} (le : α → α → Bool) (x : α) : List α → List α
  | [] => [x]
  | y :: r => if le y x then y :: insertBy le x r else x :: y :: r

/-- Insertion sort, stable. -/
def sortBy {α : Type} (le : α → α → Bool) (l : List α) : List α := l.foldl (fun acc x => insertBy le x acc) []

/-- The minimum index of a list that satisfies a test. -/
def findIdx? {α : Type} (p : α → Bool) : List α → Option Nat
  | [] => none
  | x :: r => if p x then some 0 else (findIdx? p r).map (· + 1)

/-- The first element for which a test holds replaced by `f` of it. -/
def modFirst {α : Type} (p : α → Bool) (f : α → α) : List α → List α
  | [] => []
  | x :: r => if p x then f x :: r else x :: modFirst p f r

/-- The list without its first element that satisfies a test. -/
def dropFirst {α : Type} (p : α → Bool) : List α → List α
  | [] => []
  | x :: r => if p x then r else x :: dropFirst p r

end Sys2Proof.Machine
end

