-- ==== Sys2Proof/Machine/Mem.lean ====
section
/-!
DEFINITION. Memory below the homes (04, 05): the bytes of device memory in one canonical form, physical addresses and
what backs them (R71, R72), poison, dead granules and retired frames (R73, R76, R77), the page walk (R82 to R86), the
memory-side TLB (R88 to R90, R105) and reads and writes of lines through it, a granule in motion included (R98).
-/

namespace Sys2Proof.Machine

/-! ### Bytes -/

/-- Memory as a list of cells. -/
abbrev Memory := List Host.Cell

/-- Little-endian value of the `n` bytes from `a`; an unlisted byte reads 0 (assumption log 2). -/
def Memory.read : Memory → Nat → Nat → Nat
  | [], _, _ => 0
  | (x, b) :: r, a, n =>
    (if a ≤ x ∧ x < a + n then b.toNat * 256 ^ (x - a) else 0) + Memory.read r a n

/-- The cells of `n` bytes `v` from `a`; a zero byte is not listed. -/
def Memory.cellsOf : Nat → Nat → Nat → Memory
  | _, 0, _ => []
  | a, n + 1, v =>
    if v % 256 = 0 then Memory.cellsOf (a + 1) n (v / 256)
    else (a, BitVec.ofNat 8 v) :: Memory.cellsOf (a + 1) n (v / 256)

/-- The memory with `n` bytes from `a` replaced by those of `v`. -/
def Memory.write (m : Memory) (a n v : Nat) : Memory :=
  m.filter (fun c => decide (c.1 < a)) ++ Memory.cellsOf a n v ++ m.filter (fun c => decide (a + n ≤ c.1))

/-- One byte. -/
def Memory.byte (m : Memory) (a : Nat) : Byte := BitVec.ofNat 8 (Memory.read m a 1)

/-- Addresses strictly rise. -/
def Memory.rising : Memory → Bool
  | [] => true
  | [_] => true
  | x :: y :: r => decide (x.1 < y.1) && Memory.rising (y :: r)

/-- The canonical form: addresses strictly rise and no listed byte is what an unlisted one reads as. -/
def Memory.wf (m : Memory) : Bool := Memory.rising m && m.all fun c => c.2 != 0

/-! ### Physical addresses (R71) -/

/-- PA[51:48]. -/
def paTarget (pa : Nat) : Nat := bitsAt pa 48 4

/-- Whether a physical address of device memory is backed (R71, R72). -/
def Mem.backed (m : Mem) (pa : Nat) : Bool :=
  let t := paTarget pa
  if t ≤ 3 then
    bitsAt pa 38 10 == 0 && bitsAt pa 36 2 != 3 && !m.badStacks.contains (3 * t + bitsAt pa 36 2)
  else if t ≤ 5 then bitsAt pa 39 9 == 0 && !m.badLp6.contains (t - 4)
  else if t ≤ 7 then
    bitsAt pa 46 2 == 0 && decide (bitsAt pa 0 44 < m.cap.getD (4 * (t - 6) + bitsAt pa 44 2) 0)
  else t == 8 || t == 9 || t == 15

/-- The die that reports an error at a physical address (R74): N0–N3, F0 as 4, F1 as 5. For a reserved target R74 names
none: the model's choice is F0 and its counter (assumption log 107). -/
def paDie (pa : Nat) : Nat :=
  let t := paTarget pa
  if t ≤ 5 then t else if t ≤ 7 then t - 2 else 4

/-- The controller or port index of R74. -/
def paCtrl (pa : Nat) : Nat :=
  if paTarget pa = 6 ∨ paTarget pa = 7 then bitsAt pa 44 2 else Config.memCtrl pa % 32

/-- The HBM4E stack of a physical address, numbered 3·die + stack. -/
def paStack (pa : Nat) : Option Nat :=
  if paTarget pa ≤ 3 then some (3 * paTarget pa + bitsAt pa 36 2) else none

/-! ### The fault-address queue's entries (R74, R75) -/

/-- An entry without its PHASE. -/
def faqEntry (s : State) (kind count pa : Nat) : List Byte :=
  let t := s.sched.time.getD (paDie pa) 0
  toBytes 16 (bitsAt pa 6 46 * 2 ^ 6 + kind * 2 ^ 68 + paCtrl pa * 2 ^ 72 + paDie pa * 2 ^ 77
    + min count 65535 * 2 ^ 80 + t % 2 ^ 32 * 2 ^ 96)

/-- The KIND of a pending entry. -/
def faqKind (e : List Byte) : Nat := bitsAt (ofBytes e) 68 4

/-- An entry joins the buffer (R75); `ringFlush` then writes what the ring takes. -/
def faqPush (s : State) (kind count pa : Nat) : State :=
  { s with mgmt := { s.mgmt with faq := { s.mgmt.faq with buf := s.mgmt.faq.buf ++ [faqEntry s kind count pa] } } }

/-- A corrected error at a granule: the threshold CTHR posts an entry of kind 0 (R75). -/
def countCorrected (s : State) (pa : Nat) : State :=
  let g := pa / 64
  let n := ((s.mem.ceCount.get? g).getD 0) + 1
  let thr := max 1 (bitsAt s.mgmt.faq.ctl.toNat 8 8)
  if n ≥ thr then
    faqPush { s with mem := { s.mem with ceCount := s.mem.ceCount.erase g } } 0 n pa
  else { s with mem := { s.mem with ceCount := s.mem.ceCount.set g n } }

/-! ### Lines by physical address -/

/-- What an access below the homes meets. -/
inductive MemRes where
  /-- the line and its poison bit -/
  | ok (l : Line) (poison : Bool)
  /-- a cause at the requesting instruction -/
  | bad (cause : Nat)
  /-- it waits: at a cursor, at a stack in self-refresh, or behind a die in reset (R98, R78, R79) -/
  | wait
  deriving DecidableEq, Repr

/-- Whether a request to an address waits below the homes (R78, R79). -/
def paHeld (s : State) (pa : Nat) : Bool :=
  (match paStack pa with | some k => s.power.frozen && s.power.hot.contains k | none => false)
    || (decide (paTarget pa ≤ 7) && s.power.uncoreDown.contains (paDie pa))

/-- Media errors of one 64-byte half met by a read (R73, R75). An uncorrectable one stays, and each later read that meets it
posts an entry again: the model's choice, the manual does not say (assumption log 107). -/
def readFlaw (s : State) (pa g : Nat) : State :=
  match s.mem.flaws.get? g with
  | some 1 => countCorrected s (64 * g)
  | some _ =>
    faqPush { s with mem := { s.mem with poison := insertNat (pa / 128) s.mem.poison } } (if paTarget pa ≥ 6 then 5 else 1) 0 (64 * g)
  | none => s

/-- Reads the 128-byte line at a device address (R71 to R77). A frame that is both retired and dead reads as retired, and an
entry of kind 4 names the line's first granule: the model's choices (assumption log 107). -/
def readLine (s : State) (pa : Nat) : State × MemRes :=
  let pa := pa / 128 * 128
  if !s.mem.backed pa then (faqPush s 4 0 pa, .bad 7)
  else if paHeld s pa then (s, .wait)
  else if s.mem.retired.contains (pa / 65536) then (s, .ok 0 true)
  else if s.mem.dead.contains (pa / 65536) then (s, .ok 0 false)
  else
    let s := readFlaw (readFlaw s pa (pa / 64)) pa (pa / 64 + 1)
    (s, .ok (BitVec.ofNat 1024 (Memory.read s.mem.cells pa 128)) (s.mem.poison.contains (pa / 128)))

/-- Writes a whole line with its poison bit (R72, R73, R76, R77); retired comes before dead, as for a read. -/
def writeLine (s : State) (pa : Nat) (l : Line) (poison : Bool) : State :=
  let pa := pa / 128 * 128
  if !s.mem.backed pa then faqPush s 4 0 pa
  else if s.mem.retired.contains (pa / 65536) then s
  else
    let g := pa / 65536
    let m := s.mem
    let m := if m.dead.contains g then
        { m with dead := m.dead.erase g, cells := Memory.write m.cells (65536 * g) 65536 0
                 poison := m.poison.filter fun p => p / 512 != g
                 flaws := m.flaws.filter fun f => f.1 / 1024 != g }
      else m
    let m := { m with cells := Memory.write m.cells pa 128 l.toNat
                      poison := if poison then insertNat (pa / 128) m.poison else m.poison.erase (pa / 128)
                      flaws := (m.flaws.erase (pa / 64)).erase (pa / 64 + 1) }
    { s with mem := m }

/-- Marks a granule dead (R77). -/
def markDead (s : State) (frame : Nat) : State :=
  { s with mem := { s.mem with dead := insertNat frame s.mem.dead } }

/-- Whether the line of an address has an uncorrectable error or poison (R73). -/
def Mem.bad (m : Mem) (pa : Nat) : Bool :=
  m.poison.contains (pa / 128) || (m.flaws.get? (pa / 128 * 2)).any (· ≥ 2) || (m.flaws.get? (pa / 128 * 2 + 1)).any (· ≥ 2)

/-- Eight bytes of a page table, as the walker reads them; none when there is no memory there or its line is poisoned. -/
def readEntry (s : State) (pa : Nat) : Option Nat :=
  if !s.mem.backed pa || decide (paTarget pa > 7) then none
  else if s.mem.retired.contains (pa / 65536) then none
  else if s.mem.dead.contains (pa / 65536) then some 0
  else if s.mem.bad pa then none
  else some (Memory.read s.mem.cells pa 8)

/-! ### Leaves (R85) -/

def pteV (e : Nat) : Bool := bitAt e 0
def pteLeaf (e : Nat) : Bool := bitAt e 1
def pteRd (e : Nat) : Bool := bitAt e 6
def pteW (e : Nat) : Bool := bitAt e 7
def pteX (e : Nat) : Bool := bitAt e 8
def pteU (e : Nat) : Bool := bitAt e 9
def pteG (e : Nat) : Bool := bitAt e 10
def pteMt (e : Nat) : MT := match bitsAt e 11 2 with | 0 => .wb | 1 => .wc | 2 => .uc | _ => .hc
def pteFrame (e : Nat) : Nat := bitsAt e 16 36
def pteHome (e : Nat) : Nat := bitsAt e 57 3
def pteTier (e : Nat) : Nat := bitsAt e 60 2
def pteDead (e : Nat) : Bool := bitAt e 56

/-- The attributes a leaf gives (R89). -/
def pteAttr (e : Nat) : Attr := ⟨pteMt e, pteRd e, pteW e, pteX e, pteU e⟩

/-- The tier a frame's target goes with (R86). -/
def tierOfTarget (t : Nat) : Option Nat :=
  if t ≤ 3 then some 0 else if t ≤ 5 then some 1 else if t ≤ 7 then some 2
  else if t = 8 ∨ t = 9 ∨ t = 15 then some 3 else none

/-- Whether a leaf met at a level is well formed (R86). -/
def leafOk (asid level e : Nat) : Bool :=
  bitsAt e 62 2 == 0 && bitsAt e 52 4 == 0 && !bitAt e 15 && bitsAt e 2 4 == 0
    && (pteHome e ≤ 3 || pteHome e == 7) && level != 1
    && (if level = 2 then bitsAt e 16 14 == 0 else if level = 3 then bitsAt e 16 5 == 0 else true)
    && pteG e == (asid == 0) && tierOfTarget (bitsAt e 48 4) == some (pteTier e)

/-- Whether a table entry is well formed (R84, R86). -/
def tableOk (level e : Nat) : Bool := level != 4 && bitsAt e 52 12 == 0 && bitsAt e 2 6 == 0

/-- What a walk finds: the leaf, its address, and log2 of the page size; and the tables it read. -/
structure Walk where
  pte : Nat
  at_ : Nat
  size : Nat
  tables : List Nat
  deriving DecidableEq, Repr

/-- Index of a VA at a level (R83). -/
def levelIndex (level va : Nat) : Nat :=
  match level with
  | 1 => bitsAt va 39 9
  | 2 => bitsAt va 30 9
  | 3 => bitsAt va 21 9
  | _ => bitsAt va 16 5

/-- Page size of a leaf at a level (R83). -/
def levelSize (level : Nat) : Nat := match level with | 2 => 30 | 3 => 21 | _ => 16

/-- The levels of a walk from a table; `fuel` counts the levels left. -/
def walkFrom (s : State) (asid va : Nat) : Nat → Nat → Nat → List Nat → Option Walk
  | 0, _, _, _ => none
  | fuel + 1, level, table, seen =>
    let at_ := table + 8 * levelIndex level va
    let seen := insertNat (table / 65536) seen
    match readEntry s at_ with
    | none => none
    | some e =>
      if !pteV e then none
      else if pteLeaf e then
        if leafOk asid level e then some ⟨e, at_, levelSize level, seen⟩ else none
      else if tableOk level e then walkFrom s asid va fuel (level + 1) (bitsAt e 8 44 * 256) seen
      else none

/-- The tables a VA is looked up in (R80): those of ASID 0 for the global half. -/
def tabAsid (asid va : Nat) : Nat := if bitAt va 47 then 0 else asid

/-- A walk of the tables of an ASID (R82, R86). -/
def walk (s : State) (asid va : Nat) : Option Walk :=
  let asid := tabAsid asid va
  let at_ := s.mgmt.asidt + 8 * asid
  match readEntry s at_ with
  | none => none
  | some e =>
    if !bitAt e 0 || bitsAt e 52 12 != 0 || bitsAt e 1 11 != 0 then none
    else walkFrom s asid va 4 1 (bitsAt e 12 40 * 4096) [at_ / 65536]

/-- The addresses that a walk reads from a table on, the last one included on which it ends. -/
def readsFrom (s : State) (va : Nat) : Nat → Nat → Nat → List Nat
  | 0, _, _ => []
  | fuel + 1, level, table =>
    let at_ := table + 8 * levelIndex level va
    at_ :: match readEntry s at_ with
      | some e => if pteV e && !pteLeaf e && tableOk level e then readsFrom s va fuel (level + 1) (bitsAt e 8 44 * 256) else []
      | none => []

/-- The addresses that a walk of an ASID reads, that of the root table's entry first. -/
def walkReads (s : State) (asid va : Nat) : List Nat :=
  let at_ := s.mgmt.asidt + 8 * tabAsid asid va
  at_ :: match readEntry s at_ with
    | some e => if !bitAt e 0 || bitsAt e 52 12 != 0 || bitsAt e 1 11 != 0 then [] else readsFrom s va 4 1 (bitsAt e 12 40 * 4096)
    | none => []

/-- Whether a walk waits for a table behind a stack in self-refresh or a die in reset (R78, R79). -/
def walkHeld (s : State) (asid va : Nat) : Bool := (walkReads s asid va).any (paHeld s)

/-- What the memory reports of one read of a table (R72, R73, R75). -/
def noteEntry (s : State) (pa : Nat) : State :=
  if !s.mem.backed pa then faqPush s 4 0 pa
  else if decide (paTarget pa > 7) || s.mem.retired.contains (pa / 65536) || s.mem.dead.contains (pa / 65536) then s
  else readFlaw (readFlaw s pa (pa / 128 * 2)) pa (pa / 128 * 2 + 1)

/-- Table entries that the walkers of a die keep (R88). -/
def tableCache : Nat := 4096

/-- A table entry enters its die's cache, which then gives up the oldest: the manual names no replacement (assumption log
103). -/
def tableFill (s : State) (die at_ : Nat) : State :=
  let mine := s.coh.tcache.filter fun t => t.1 == die
  let l := if mine.length < tableCache then s.coh.tcache else dropFirst (fun t => t.1 == die) s.coh.tcache
  { s with coh := { s.coh with tcache := l ++ [(die, at_)] } }

/-- The reads of a walk on a die, one for each table entry of levels 1 to 3 that its cache does not hold, the root's and the
leaf (R88). -/
def noteReads (s : State) (die : Nat) (reads : List Nat) : State :=
  (List.range reads.length).foldl (fun s j =>
    let a := reads.getD j 0
    let inner := decide (1 ≤ j ∧ j ≤ 3 ∧ j + 1 < reads.length)
    if inner && s.coh.tcache.contains (die, a) then s
    else let s := noteEntry s a; if inner then tableFill s die a else s) s

/-- PA of a VA on the page a walk found (R85). -/
def Walk.pa (w : Walk) (va : Nat) : Nat := pteFrame w.pte * 65536 + va % 2 ^ w.size

/-- What an access wants (R86). -/
inductive Want where
  | read | write | exec
  | both
  deriving DecidableEq, Repr

/-- Whether attributes permit an access (R86). -/
def Attr.permits (a : Attr) (w : Want) (runtime : Bool) : Bool :=
  (a.u || runtime)
    && (match w with
        | .read => a.rd
        | .write => a.w
        | .both => a.rd && a.w
        | .exec => a.x)

/-- Whether a frame holds page tables or the root table (R91): no program or host writes it. -/
def inTables (s : State) (pa : Nat) : Bool :=
  s.mem.tables.contains (pa / 65536) || (decide (s.mgmt.asidt ≤ pa ∧ pa < s.mgmt.asidt + 524288))

/-! ### Keys, homes and the memory-side TLB -/

/-- The key of a VA under an ASID (R112). -/
def keyOf (asid va : Nat) : Key := ⟨va / 128 % 2 ^ 41, tabAsid asid va⟩

/-- The first byte's VA of a key. -/
def vaOf (k : Key) : Nat := k.line * 128

/-- The home die of a line (R87); a key that no walk reaches has none. -/
def homeDie (s : State) (k : Key) : Option Nat :=
  (walk s k.asid (vaOf k)).map fun w => if pteHome w.pte = 7 then bitsAt (vaOf k) 11 2 else pteHome w.pte

/-- The home slice of a key on its die (R87). -/
def homeSlice (k : Key) : Nat :=
  (bitsAt (vaOf k) 7 16 ^^^ bitsAt (vaOf k) 23 16 ^^^ bitsAt (vaOf k) 39 9 ^^^ k.asid) % 24

/-- Whether an entry maps a key on a die: as many granules from its first one on as it has counters. -/
def Mtlb.maps (e : Mtlb) (die : Nat) (k : Key) : Bool :=
  e.die == die && e.asid == k.asid && decide (e.vpn ≤ vaOf k / 65536 ∧ vaOf k / 65536 < e.vpn + e.hot.length)

/-- The leaf with the FRAME of a key's own granule. -/
def Mtlb.pteFor (e : Mtlb) (k : Key) : Nat := putBits e.pte 16 36 (pteFrame e.pte + (vaOf k / 65536 - e.vpn))

/-- Entries of an MTLB's bank, and its banks (R88). -/
def mtlbBankSize : Nat := 16384

def mtlbBanks : Nat := 24

/-- An entry enters its bank, which then gives up its oldest: the manual names no replacement (assumption log 103). -/
def mtlbFill (s : State) (e : Mtlb) : State :=
  let l := s.coh.mtlb
  let bank (x : Mtlb) : Nat := Config.mtlbBank x.asid x.vpn % mtlbBanks
  let same (x : Mtlb) : Bool := x.die == e.die && bank x == bank e
  let l := if l.length < mtlbBankSize || (l.filter same).length < mtlbBankSize then l else dropFirst same l
  { s with coh := { s.coh with mtlb := l ++ [e] } }

/-- Writes a PTE bit (R90). -/
def setPteBit (s : State) (at_ bit : Nat) : State :=
  let e := Memory.read s.mem.cells at_ 8
  if bitAt e bit then s
  else { s with mem := { s.mem with cells := Memory.write s.mem.cells at_ 8 (putBits e bit 1 1) } }

/-- The walker remembers which frames hold tables (R91). -/
def noteTables (s : State) (w : Walk) : State :=
  { s with mem := { s.mem with tables := w.tables.foldl (fun l t => insertNat t l) s.mem.tables } }

/-- Translates a key in the MTLB of its home's die, filling it by a walk (R88, R90): an entry maps a 64 KiB page, or 2 MiB of
a larger one. A demand fill sets A. The leaf's FRAME is given for the key's own granule. -/
def translate (s : State) (k : Key) (demand : Bool) : State × Option Nat :=
  match homeDie s k with
  | none => (s, none)
  | some die =>
    match s.coh.mtlb.find? (fun e => e.maps die k) with
    | some e => (s, some (e.pteFor k))
    | none =>
      match walk s k.asid (vaOf k) with
      | none => (s, none)
      | some w =>
        let s := noteTables (if demand then noteReads s die (walkReads s k.asid (vaOf k)) else s) w
        let s := if demand then setPteBit s w.at_ 13 else s
        let n := if w.size = 16 then 1 else 32
        let vpn := vaOf k / 65536 / n * n
        let e : Mtlb := ⟨die, k.asid, vpn, putBits w.pte 16 36 (w.pa (vpn * 65536) / 65536), List.replicate n 0⟩
        (mtlbFill s e, some (e.pteFor k))

/-- One more access to memory of a key's granule, on the die of its home (R105). -/
def heat (s : State) (k : Key) : State :=
  match homeDie s k with
  | none => s
  | some die =>
    { s with coh := { s.coh with mtlb := modFirst (fun e => e.maps die k) (fun e => { e with
        hot := e.hot.modify (vaOf k / 65536 - e.vpn) fun n => min 255 (n + 1) }) s.coh.mtlb } }

/-- The walker reads the page tables for a key, where its MTLB has no entry, and they cannot be reached now (R78, R79). -/
def walkWaits (s : State) (k : Key) : Bool :=
  match homeDie s k with
  | none => walkHeld s k.asid (vaOf k)
  | some die => !(s.coh.mtlb.any fun e => e.maps die k) && walkHeld s k.asid (vaOf k)

/-! ### L2 slices (R87, R111, R121) -/

/-- Whether two keys have their home in one slice. -/
def sameSlice (s : State) (a b : Key) : Bool := homeSlice a == homeSlice b && homeDie s a == homeDie s b

/-- Whether the L2 slice of a key's home holds its line, and the line's poison. -/
def l2Line (s : State) (k : Key) : Option Bool := (s.coh.l2.find? fun e => e.1 == k).map (·.2)

/-- A slice takes a line; a full set gives up its least recently used one, without a message (R121; assumption log 103). -/
def l2Fill (s : State) (k : Key) (p : Bool) : State :=
  let rest := s.coh.l2.filter fun e => e.1 != k
  let same (e : Key × Bool) : Bool :=
    Config.l2Set e.1.line e.1.asid == Config.l2Set k.line k.asid && sameSlice s e.1 k
  let rest := if rest.length < 16 || (rest.filter same).length < 16 then rest else dropFirst same rest
  { s with coh := { s.coh with l2 := rest ++ [(k, p)] } }

def l2Drop (s : State) (gone : Key → Bool) : State := { s with coh := { s.coh with l2 := s.coh.l2.filter fun e => !gone e.1 } }

/-- Whether a leaf is cached (R127): WB and HC on device or host memory. -/
def pteCached (pte : Nat) : Bool :=
  (pteMt pte == .wb || pteMt pte == .hc) && decide (paTarget (pteFrame pte * 65536) ≤ 8)

/-- The move that has a frame as its source (R97, R98). -/
def moveOf (s : State) (frame : Nat) : Option Move := s.motion.moves.find? fun m => m.begun && m.src == frame

/-- PA of a key under a leaf of its granule. -/
def keyPa (k : Key) (pte : Nat) : Nat := pteFrame pte * 65536 + vaOf k % 65536

/-- Reads a key's line from device memory (R88, R98): `demand` is false for speculative accesses (R110) and for a read that
is part of an operation counted elsewhere (R105). -/
def memoryRead (s : State) (k : Key) (demand : Bool) : State × MemRes :=
  if walkWaits s k then (s, .wait)
  else match translate s k demand with
  | (s, none) => (s, .bad 7)
  | (s, some pte) =>
    let pa := keyPa k pte
    let dead := s.mem.dead.contains (pa / 65536)
    let s := if demand && !dead then heat s k else s
    match moveOf s (pa / 65536) with
    | some m =>
      let i := k.line % 512
      if m.dead then readLine s pa
      else if i < m.cursor then readLine s (m.dst * 65536 + vaOf k % 65536)
      else if i = m.cursor then (s, .wait)
      else readLine s pa
    | none => readLine s pa

/-- A home reads a line: from its L2 slice when it holds it, else from memory, and a line that may be cached then enters the
slice (R111, R121, R127). A line of the slice is as memory holds it, but for its poison. -/
def homeRead (s : State) (k : Key) (demand : Bool) : State × MemRes :=
  match l2Line s k, (translate s k true).2 with
  | some p, some pte =>
    let pa := keyPa k pte
    (l2Fill s k p, .ok (if s.mem.dead.contains (pa / 65536) then 0 else BitVec.ofNat 1024 (Memory.read s.mem.cells pa 128)) p)
  | _, pte =>
    match memoryRead s k demand with
    | (s, .ok l p) => (if pte.any pteCached then l2Fill s k p else s, .ok l p)
    | x => x

/-- A read that is part of an operation whose write counts (R105). -/
def homePeek (s : State) (k : Key) : State × MemRes := homeRead (translate s k true).1 k false

/-- Whether a write of a key's line waits below the home (R78, R79, R98). -/
def homeBusy (s : State) (k : Key) : Bool :=
  walkWaits s k || match (translate s k true).2 with
  | none => false
  | some pte =>
    let pa := keyPa k pte
    paHeld s pa
      || (match moveOf s (pa / 65536) with
          | some m => !m.dead && m.cursor == k.line % 512 && decide (m.cursor < 512)
          | none => false)

/-- The first write of a page that reaches memory sets D (R90). -/
def noteDirty (s : State) (k : Key) : State :=
  match walk s k.asid (vaOf k) with
  | some w => setPteBit s w.at_ 14
  | none => s

/-- Writes a key's line to device memory (R88, R98, R121), setting D (R90). A line that no walk reaches is dropped. The L2
slice's copy is written too; that of a retired frame goes. -/
def homeWrite (s : State) (k : Key) (l : Line) (poison : Bool) : State :=
  match translate s k true with
  | (s, none) => s
  | (s, some pte) =>
    let s := noteDirty (heat s k) k
    let pa := keyPa k pte
    let s := if (l2Line s k).isNone then s
      else if s.mem.retired.contains (pa / 65536) then l2Drop s (· == k)
      else { s with coh := { s.coh with l2 := s.coh.l2.map fun e => if e.1 = k then (k, poison) else e } }
    match moveOf s (pa / 65536) with
    | some m =>
      if m.dead || decide (k.line % 512 < m.cursor) then
        writeLine (writeLine s pa l poison) (m.dst * 65536 + vaOf k % 65536) l poison
      else writeLine s pa l poison
    | none => writeLine s pa l poison

end Sys2Proof.Machine
end

