-- ==== Sys2Proof/Machine/Coherence.lean ====
section
/-!
DEFINITION. Clusters, homes and the messages between them (06 R112 to R132, R408; 13 R257): what a cluster answers and
asks (R115, R116), how a home serves the queue of a line (R118 to R124), the accumulate state and its tag windows (R125,
R257), host lines (R130, R131), and the operations by which an agent of a cluster obtains a line.
-/

namespace Sys2Proof.Machine

/-- The home of every line as a party of `Msg`; clusters are 0 to 31, the host is 32 (R117). -/
def homeParty : Nat := 33

/-- The map engine, DISC and the management controller as requesters (R408). -/
def enginePty : Nat := 34

/-! ### Directory entries -/

/-- The entry of a key; an absent one is HI and idle (R118). -/
def dirOf (s : State) (k : Key) : DEntry :=
  (s.coh.dir.find? (fun e => e.key == k)).getD ⟨k, .hi, 0, [], none, [], none, none, (0, 0), []⟩

/-- Stores an entry as the most recently used; an idle HI entry is not kept, and HI keeps no attributes. -/
def setDir (s : State) (e : DEntry) : State :=
  let rest := dropFirst (fun d => d.key == e.key) s.coh.dir
  let idle := e.st == .hi && e.txn == none && e.queue.isEmpty && e.wbEarly == none && e.stale.isEmpty
  let e := if e.st == .hi then { e with attr := none } else e
  { s with coh := { s.coh with dir := if idle then rest else rest ++ [e] } }

/-- Messages sent, oldest first. -/
def sendAll (s : State) (ms : List Msg) : State := { s with coh := { s.coh with net := s.coh.net ++ ms } }

def sendTo (s : State) (dst : Nat) (k : Key) (b : Body) : State := sendAll s [⟨homeParty, dst, k, b⟩]

/-- Replies to the host, the pod and the mailbox, in order. -/
def reply (s : State) (r : Reply) : State :=
  { s with sched := { s.sched with replies := s.sched.replies ++ [r] } }

/-! ### Accumulator lines at a home (R125, R214, R257) -/

/-- The image in a line (R214). -/
def lineLa (l : Line) : La := La.ofImage (BitVec.ofNat 768 l.toNat)

/-- The line of a canonical accumulator, bytes 96 to 127 zero (R214). -/
def laLine (a : La) : Line := BitVec.ofNat 1024 (La.toImage a.canon).toNat

/-- A tag with a count enters a list of at most 8, the least recently added first (R257). -/
def tagAdd (tags : List (Nat × Nat)) (tag n : Nat) : List (Nat × Nat) :=
  let old := ((tags.find? fun t => t.1 == tag).map (·.2)).getD 0
  let tags := (tags.filter fun t => t.1 != tag) ++ [(tag, min 65535 (old + n))]
  if tags.length > 8 then tags.drop 1 else tags

/-- Tags of a partial enter the window of its cluster, in the order the partial received them (R257). -/
def winAdd (s : State) (k : Key) (cl : Nat) (tags : List (Nat × Nat)) : State :=
  if tags.isEmpty then s
  else
    let w := (s.coh.wins.find? (fun w => w.key == k && w.cl == cl)).getD ⟨k, cl, []⟩
    let w := { w with tags := tags.foldl (fun l t => tagAdd l t.1 t.2) w.tags }
    let rest := s.coh.wins.filter fun v => !(v.key == k && v.cl == cl)
    { s with coh := { s.coh with wins := rest ++ [w] } }

/-- The windows of a line are dropped (R109, R257). -/
def winDrop (s : State) (k : Key) : State :=
  { s with coh := { s.coh with wins := s.coh.wins.filter fun w => w.key != k } }

/-- The window of the lowest cluster that holds a tag with a count above 0 gives one back (R257). -/
def tagTake (s : State) (k : Key) (tag : Nat) : Option State :=
  let cls := (List.range 32).filter fun cl =>
    s.coh.wins.any fun w => w.key == k && w.cl == cl && w.tags.any fun t => t.1 == tag && decide (t.2 > 0)
  match cls with
  | [] => none
  | cl :: _ =>
    some { s with coh := { s.coh with
      tagDup := s.coh.tagDup + 1
      wins := s.coh.wins.map fun w =>
        if w.key == k && w.cl == cl then { w with tags := w.tags.map fun t => if t.1 = tag then (t.1, t.2 - 1) else t } else w } }

/-! ### Where a home's data is (R121, R131) -/

/-- What a home finds for a line. -/
inductive Fetch where
  | ok (l : Line) (poison : Bool)
  | bad (cause : Nat)
  | wait
  | ask (hpa : Nat)
  deriving DecidableEq, Repr

/-- The host address of a key's line when its frame is host memory (R71, R131). -/
def hostAddr (s : State) (k : Key) : Option Nat :=
  match (translate s k true).2 with
  | none => none
  | some pte => let pa := keyPa k pte; if paTarget pa = 8 then some (pa % 2 ^ 48 / 128) else none

def hostLine (s : State) (hpa : Nat) : Option HostLine := s.coh.hostTab.find? fun e => e.hpa == hpa

def modHost (s : State) (hpa : Nat) (f : HostLine → HostLine) : State :=
  { s with coh := { s.coh with hostTab := modFirst (fun e => e.hpa == hpa) f s.coh.hostTab } }

/-- An entry of the host line table is used under a key: it is the most recently used, and the key is among its keys. -/
def useHost (s : State) (e : HostLine) (k : Key) : State :=
  { s with coh := { s.coh with hostTab :=
      (s.coh.hostTab.filter fun h => h.hpa != e.hpa) ++ [{ e with keys := if e.keys.contains k then e.keys else e.keys ++ [k] }] } }

/-- The home copy of a line (R121, R131): `own` asks for it with ownership from the host. -/
def homeFetch (s : State) (k : Key) (own demand : Bool) : State × Fetch :=
  match hostAddr s k with
  | some hpa =>
    let s := (translate s k demand).1
    (match hostLine s hpa with
     | some e =>
       if e.wait then (s, .wait)
       else if e.st == .exclusive || (e.st == .shared && !own) then (useHost s e k, .ok e.data e.poison) else (s, .ask hpa)
     | none => (s, .ask hpa))
  | none =>
    match homeRead s k demand with
    | (s, .ok l p) => (s, .ok l p)
    | (s, .bad c) => (s, .bad c)
    | (s, .wait) => (s, .wait)

/-- The home copy as a far operation takes it, with ownership: the operation counts once, where it writes or else by
`countFar` (R105, R247). -/
def homeTake (s : State) (k : Key) : State × Fetch := homeFetch (translate s k true).1 k true false

/-- A far operation that has written nothing counts; the request to the host has counted for a host frame (R105). -/
def countFar (s : State) (k : Key) : State := if (hostAddr s k).isSome then s else heat s k

/-- Data that the home absorbs (R121; R131 for host lines). -/
def homeAbsorb (s : State) (k : Key) (l : Line) (p : Bool) : State :=
  match hostAddr s k with
  | some hpa => modHost s hpa fun e => { e with data := l, poison := p, dirty := true }
  | none => homeWrite s k l p

/-- A write of a page on a host frame goes to the host: it counts, and it sets D (R90, R105). -/
def hostNoted (s : State) (k : Key) : State := noteDirty (heat (translate s k true).1 k) k

/-- What a DISC leaves of a line at its home (R109): no partials and no tags; zeros, where an earlier write-back has made the
granule live again; a host line is clean. -/
def discHome (s : State) (k : Key) : State :=
  let s := winDrop s k
  match hostAddr s k, walk s k.asid (vaOf k) with
  | some hpa, _ => modHost s hpa fun e => { e with dirty := false }
  | none, some w => if s.mem.dead.contains (w.pa (vaOf k) / 65536) then s else homeWrite s k 0 false
  | none, none => s

/-- A host line whose home reached HI is given up: DirtyEvict or CleanEvict (R131). -/
def hostRelease (s : State) (k : Key) : State :=
  match hostAddr s k with
  | none => s
  | some hpa =>
    match hostLine s hpa with
    | none => s
    | some e =>
      let keys := e.keys.erase k
      if keys.isEmpty then
        let s := { s with coh := { s.coh with hostTab := s.coh.hostTab.filter fun h => h.hpa != hpa } }
        let s := if e.dirty && e.st != .invalid then hostNoted s k else s
        if e.st == .invalid then s else reply s (.evict hpa (if e.dirty then some (e.data, e.poison) else none))
      else modHost s hpa fun e => { e with keys := keys }

/-- Entries of the host line table (R131). -/
def hostTableSize : Nat := 524288

/-- Whether a line of the host needs an entry in a table that has none free (R131). -/
def hostFull (s : State) (k : Key) : Bool :=
  decide (s.coh.hostTab.length ≥ hostTableSize) && (match hostAddr s k with | some hpa => (hostLine s hpa).isNone | none => false)

/-- A full host line table gives up its least recently used line: every holder is recalled first (R131). -/
def hostMakeRoom (s : State) : State :=
  match s.coh.hostTab.find? (fun e => !e.wait) with
  | none => s
  | some v => v.keys.foldl (fun s k =>
      let e := dirOf s k
      if e.txn.isSome || !e.queue.isEmpty then s else setDir s { e with queue := [(enginePty, .far false)] }) s

/-- A CXL.cache request for a line goes to the host (R131), a fill of its page (R105). -/
def hostAsk (s : State) (k : Key) (hpa : Nat) (own : Bool) : State :=
  let s := heat s k
  let s := match hostLine s hpa with
    | some _ => modHost s hpa fun e => { e with wait := true, keys := if e.keys.contains k then e.keys else e.keys ++ [k] }
    | none =>
      { s with coh := { s.coh with hostTab := s.coh.hostTab ++ [⟨hpa, [k], .invalid, 0, false, false, true⟩] } }
  reply s (.hostReq hpa own)

/-! ### Serving a line (R119 to R124) -/

/-- Requests that leave other copies in place. -/
def Req.reads : Req → Bool
  | .rds => true
  | .hostRd m => m != .any
  | .snp inv _ => !inv
  | _ => false

/-- A request as the home judges it when it serves it (R122). -/
def judge (e : DEntry) (src : Nat) (r : Req) : Req :=
  match r with
  | .upg =>
    if (e.st == .hs && e.sharers.contains src) || (e.st == .ho && (e.owner == src || e.sharers.contains src)) then .upg
    else .rdx
  | r => r

/-- What a home must ask before it answers (R120): the owner and whether it must invalidate, the sharers, the
accumulators. -/
def homePlan (e : DEntry) (src : Nat) (r : Req) : Option (Nat × Bool) × List Nat × List Nat :=
  let others := match r with | .far _ | .replay _ _ => e.sharers | _ => e.sharers.erase src
  match e.st with
  | .hi => (none, [], [])
  | .hs => (none, if r.reads then [] else others, [])
  | .he => (some (e.owner, !r.reads), [], [])
  | .ho => if r.reads then (some (e.owner, false), [], [])
           else if r == .upg && e.owner == src then (none, others, [])
           else (some (e.owner, true), others, [])
  | .ha => if r == .accA then (none, [], []) else (none, [], e.sharers)

/-- The attributes of a line at its home: those it keeps with the line, or those of the MTLB (R89). -/
def homeAttr (s : State) (k : Key) : Option Attr :=
  match (dirOf s k).attr with
  | some a => some a
  | none => (translate s k true).2.map pteAttr

/-- Whether a home refuses a request by the attributes it holds (R89, R125). -/
def refusal (s : State) (k : Key) (src : Nat) (r : Req) : Option Nat :=
  if src ≥ 32 then none
  else match r with
  | .wb _ | .mrg _ => none
  | _ =>
    match homeAttr s k with
    | none => some 7
    | some a =>
      match r with
      | .rdx | .upg | .far _ => if a.w then none else some 7
      | .accA | .replay _ _ =>
        if a.w && a.mt == .wb && (translate s k true).2.any (fun pte => paTarget (keyPa k pte) ≤ 7) then none else some 7
      | _ => none

/-- The requester learns that its request failed (R72, R89, R132). -/
def refuse (s : State) (src : Nat) (k : Key) (cause : Nat) : State :=
  if src < 32 then sendTo s src k (.refuse cause)
  else if src = 32 then reply s (.line 0 true)
  else s

/-- Attributes handed out with a line (R89). -/
def attrOf (s : State) (k : Key) : Attr := (homeAttr s k).getD ⟨.wb, false, false, false, false⟩

/-- The base of an accumulator line with partials added, canonical, and the tags entered (R125, R257). -/
def mergeParts (s : State) (k : Key) (base : Line) (poison : Bool) (parts : List (Nat × Partial)) : State :=
  let a := parts.foldl (fun a p => La.merge a p.2.la) (lineLa base)
  let s := parts.foldl (fun s p => winAdd s k p.1 p.2.tags) s
  homeWrite s k (laLine a) poison

/-- The response to a snoop (R131): whether the device held the line, and dirty data with its poison that goes along (R129). -/
def snoopReply (s : State) (inv cur held : Bool) (d : Option (Line × Bool)) : State :=
  let kind :=
    if !held then 0
    else match d with
      | some _ => if inv then 2 else if cur then 6 else 4
      | none => if inv then 1 else if cur then 5 else 3
  let s := reply s (.snoop kind)
  match d with
  | some (l, p) => reply s (.line l p)
  | none => s

/-- The home completes a transaction whose answers have all arrived (R120, R123, R125). `none` when memory or the host
makes it wait. -/
def finishTxn (s : State) (e : DEntry) (t : Txn) : Option State :=
  let k := e.key
  let src := t.src
  let done (s : State) (e : DEntry) : Option State :=
    let s := setDir s { e with txn := none }
    some (if e.st == .hi then hostRelease s k else s)
  let refused (s : State) (e : DEntry) (c : Nat) : Option State := done (refuse s src k c) e
  -- R123: a write-back that was waited for is absorbed, acknowledged, and its owner removed
  let pre : Option (State × DEntry) :=
    match e.wbEarly with
    | none => some (s, e)
    | some d =>
      let lose := e.st == .he || e.st == .ho
      let s := if e.owner < 32 then sendTo s e.owner k .wbAck else s
      let e := { e with wbEarly := none }
      if !lose then some (s, e)
      else match d with
        | none => some (s, e)
        | some (l, p) => if homeBusy s k then none else some (homeAbsorb s k l p, e)
  match pre with
  | none => none
  | some (s, e) =>
  -- the line's state once every copy that must go has gone
  let hadOwner := e.st == .he || e.st == .ho
  let given := match t.req with | .wb _ | .mrg _ => true | _ => false
  let asked := hadOwner && !given && !(t.req == .upg && e.owner == src && e.st == .ho)
  let e := if asked && t.data == none then
      { e with st := if e.sharers.isEmpty then .hi else .hs } else e
  -- R125: partials are merged before anything else is served
  let post : Option (State × DEntry) :=
    if e.st == .ha && t.req != .accA && !given then
      match t.req with
      | .far true => some (s, { e with st := .hi, sharers := [] })
      | _ =>
        match homeFetch s k false true with
        | (_, .wait) | (_, .ask _) => none
        | (s, .bad _) => some (s, { e with st := .hi, sharers := [] })
        | (s, .ok b p) =>
          if homeBusy s k then none else some (mergeParts s k b p t.parts, { e with st := .hi, sharers := [] })
    else some (s, e)
  match post with
  | none => none
  | some (s, e) =>
  let a := attrOf s k
  let e := { e with attr := homeAttr s k }
  match t.req with
  | .rds =>
    (match t.data with
     | some (l, p, dirty) =>
       let s := sendTo s src k (.data .s l p a)
       if dirty then done s { e with st := .ho, sharers := insertNat src e.sharers }
       else done s { e with st := .hs, sharers := insertNat src (insertNat e.owner e.sharers) }
     | none =>
       match homeFetch s k false true with
       | (_, .wait) => none
       | (s, .ask hpa) => some (hostAsk (setDir s { e with txn := some { t with host := true } }) k hpa false)
       | (s, .bad c) => refused s e c
       | (s, .ok l p) =>
         let excl := match hostAddr s k with
           | some hpa => (hostLine s hpa).any fun h => h.st == .exclusive
           | none => true
         if e.st == .hi && a.w && excl then
           done (sendTo s src k (.data .e l p a)) { e with st := .he, owner := src, sharers := [] }
         else done (sendTo s src k (.data .s l p a)) { e with st := .hs, sharers := insertNat src e.sharers })
  | .rdx =>
    (match t.data with
     | some (l, p, _) =>
       done (sendTo s src k (.data .m l p a)) { e with st := .he, owner := src, sharers := [] }
     | none =>
       match homeFetch s k true true with
       | (_, .wait) => none
       | (s, .ask hpa) => some (hostAsk (setDir s { e with txn := some { t with host := true } }) k hpa true)
       | (s, .bad c) => refused s { e with st := .hi, sharers := [] } c
       | (s, .ok l p) =>
         done (sendTo s src k (.data .m l p a)) { e with st := .he, owner := src, sharers := [] })
  | .upg =>
    let own : Option Nat := match hostAddr s k with
      | some hpa => if (hostLine s hpa).any (fun h => h.st == .exclusive) then none else some hpa
      | none => none
    (match own with
     | some hpa => some (hostAsk (setDir s { e with txn := some { t with host := true } }) k hpa true)
     | none =>
       match t.data with
       | some (l, p, true) =>
         if homeBusy s k then none
         else done (sendTo (homeAbsorb s k l p) src k (.ack a)) { e with st := .he, owner := src, sharers := [] }
       | _ => done (sendTo s src k (.ack a)) { e with st := .he, owner := src, sharers := [] })
  | .accA =>
    if e.st == .ha then done (sendTo s src k (.ack a)) { e with sharers := insertNat src e.sharers }
    else
      (match t.data with
       | some (l, p, true) =>
         if homeBusy s k then none
         else done (sendTo (homeAbsorb s k l p) src k (.ack a)) { e with st := .ha, sharers := [src] }
       | _ => done (sendTo s src k (.ack a)) { e with st := .ha, sharers := [src] })
  | .far true => if homeBusy s k then none else done (discHome s k) { e with st := .hi, sharers := [] }
  | .far false =>
    (match t.data with
     | some (l, p, true) =>
       if homeBusy s k then none else done (homeAbsorb s k l p) { e with st := .hi, sharers := [] }
     | _ => done s { e with st := .hi, sharers := [] })
  | .hostRd m =>
    (match t.data with
     | some (l, p, dirty) =>
       let s := reply s (.line l p)
       (match m with
        | .any => 
          if dirty && homeBusy s k then none
          else done (if dirty then homeAbsorb s k l p else s) { e with st := .he, owner := 32, sharers := [] }
        | .shared =>
          if dirty then done s { e with st := .ho, sharers := insertNat 32 e.sharers }
          else done s { e with st := .hs, sharers := insertNat 32 (insertNat e.owner e.sharers) }
        | .invalid =>
          if dirty then done s { e with st := .ho }
          else done s { e with st := .hs, sharers := insertNat e.owner e.sharers })
     | none =>
       match homeFetch s k false true with
       | (_, .wait) | (_, .ask _) => none
       | (s, .bad _) => done (reply s (.line 0 true)) e
       | (s, .ok l p) =>
         let s := reply s (.line l p)
         match m with
         | .any => done s { e with st := .he, owner := 32, sharers := [] }
         | .shared => done s { e with st := .hs, sharers := insertNat 32 e.sharers }
         | .invalid => done s e)
  | .hostWr d p =>
    if homeBusy s k then none else done (homeWrite s k d p) { e with st := .hi, sharers := [] }
  | .snp inv cur =>
    let hpa := (hostAddr s k).getD 0
    let h := hostLine s hpa
    let kept := h.bind fun h => if h.dirty then some (h.data, h.poison) else none
    let out : Option (Line × Bool) := match t.data with
      | some (l, p, true) => some (l, p)
      | _ => kept
    let last := h.any fun h => if inv then h.keys == [k] else h.keys.head? == some k
    let s := if last then snoopReply s inv cur (h.any fun h => h.st != .invalid) out else s
    let s := if last && out.isSome then hostNoted s k else s
    if inv then
      let s := modHost s hpa fun e =>
        if last then { e with keys := [], st := .invalid, dirty := false }
        else match out with
          | some (l, p) => { e with keys := e.keys.erase k, data := l, poison := p, dirty := true }
          | none => { e with keys := e.keys.erase k }
      done s { e with st := .hi, sharers := [] }
    else
      let held := if t.data.isSome then insertNat e.owner e.sharers else e.sharers
      if cur then
        (match t.data with
         | some (_, _, true) => done s { e with st := .ho }
         | some _ => done s { e with st := .hs, sharers := held }
         | none => done s e)
      else
        let s := modHost s hpa fun h => { h with
          st := .shared, dirty := false, data := (out.map (·.1)).getD h.data, poison := (out.map (·.2)).getD h.poison }
        done s { e with st := if held.isEmpty then e.st else .hs, sharers := held }
  | .replay la tag =>
    let put : Option State := match t.data with
      | some (l, p, true) => if homeBusy s k then none else some (homeAbsorb s k l p)
      | _ => some s
    (match put with
     | none => none
     | some s =>
       let e := { e with st := .hi, sharers := [] }
       match tagTake s k tag with
       | some s => done s e
       | none =>
         match homeFetch s k false true with
         | (_, .wait) | (_, .ask _) => none
         | (s, .bad c) => refused s e c
         | (s, .ok b p) =>
           if homeBusy s k then none
           else done (homeWrite s k (laLine (La.merge (lineLa b) la)) p) e)
  | .wb d =>
    if (e.st == .he || e.st == .ho) && e.owner == src then
      let e' := { e with st := if e.st == .ho && !e.sharers.isEmpty then .hs else .hi }
      match d with
      | none => done (if src < 32 then sendTo s src k .wbAck else s) e'
      | some (l, p) =>
        if homeBusy s k then none
        else done (let s := homeAbsorb s k l p; if src < 32 then sendTo s src k .wbAck else s) e'
    else done (if src < 32 then sendTo s src k .wbAck else s) e
  | .mrg p =>
    if e.st == .ha && e.sharers.contains src then
      match homeFetch s k false true with
      | (_, .wait) | (_, .ask _) => none
      | (s, .bad _) =>
        let h := e.sharers.erase src
        done s { e with st := if h.isEmpty then .hi else .ha, sharers := h }
      | (s, .ok b poison) =>
        if homeBusy s k then none
        else
          let h := e.sharers.erase src
          done (mergeParts s k b poison [(src, p)]) { e with st := if h.isEmpty then .hi else .ha, sharers := h }
    else done s e

/-- Whether a transaction has every answer it waits for. -/
def Txn.ready (t : Txn) : Bool := t.fwd == none && !t.waitWb && t.invs.isEmpty && t.mrgs.isEmpty && !t.host

/-- Whether a directory entry is recorded in its set: an idle HI line is not (R118). -/
def DEntry.recorded (e : DEntry) : Bool := e.st != .hi || e.txn.isSome || e.wbEarly.isSome

/-- Requests that leave a line recorded. -/
def Req.records : Req → Bool
  | .rds | .rdx | .upg | .accA => true
  | .hostRd m => m != .invalid
  | _ => false

/-- Whether two keys share a directory set (R87, R111). -/
def sameSet (s : State) (a b : Key) : Bool := Config.dirSet a.line a.asid == Config.dirSet b.line b.asid && sameSlice s a b

/-- Ways of a directory set (R111). -/
def dirWays : Nat := 16

/-- Whether a line that is not recorded finds its set full (R126). -/
def dirFull (s : State) (k : Key) : Bool :=
  decide (s.coh.dir.length ≥ dirWays) && !(dirOf s k).recorded
    && decide ((s.coh.dir.filter fun e => e.recorded && sameSet s e.key k).length ≥ dirWays)

/-- A full directory set evicts its least recently used entry that is not transient, one at a time: its holders are recalled as
for a far operation (R126). -/
def dirMakeRoom (s : State) (k : Key) : State :=
  let mine (e : DEntry) : Bool := e.recorded && sameSet s e.key k
  let leaving (e : DEntry) : Bool := e.queue.contains (enginePty, .far false)
    || e.txn.any fun t => t.src == enginePty && t.req == .far false
  if s.coh.dir.any fun e => mine e && leaving e then s
  else match s.coh.dir.find? (fun e => mine e && e.txn == none && e.queue.isEmpty) with
    | none => s
    | some v => setDir { s with coh := { s.coh with dirBi := s.coh.dirBi + 1 } } { v with queue := [(enginePty, .far false)] }

/-- A home begins to serve the head of a line's queue (R120): it refuses, or asks the holders. -/
def beginTxn (s : State) (e : DEntry) (src : Nat) (r : Req) : State :=
  let k := e.key
  match refusal s k src r with
  | some c => refuse (setDir s e) src k c
  | none =>
    let r := judge e src r
    let isReply := match r with | .wb _ | .mrg _ => true | _ => false
    let (fwd, invs, mrgs) := if isReply then (none, [], []) else homePlan e src r
    -- a WB or Mrg already queued of a party that this transaction needs is consumed by it (R119)
    let early := fwd.bind fun o => e.queue.findSome? fun x => match x with | (p, .wb d) => if p = o.1 then some d else none | _ => none
    let parts := e.queue.filterMap fun x => match x with | (p, .mrg q) => if mrgs.contains p then some (p, q) else none | _ => none
    let queue := e.queue.filter fun x => match x with
      | (p, .wb _) => !(fwd.map (·.1) == some p)
      | (p, .mrg _) => !mrgs.contains p
      | _ => true
    let fwd := if early.isSome then none else fwd
    let mrgs := mrgs.filter fun p => !(parts.any fun x => x.1 == p)
    let t : Txn := ⟨src, r, fwd.map (·.1), false, invs, mrgs, parts, none, false, s.sched.ns⟩
    let s := setDir s { e with txn := some t, queue := queue, wbEarly := early }
    let s := match fwd with
      | some (o, inv) => sendTo s o k (if inv then .fwdInv else .fwdS)
      | none => s
    sendAll s ((invs ++ mrgs).map fun d => ⟨homeParty, d, k, .inv⟩)

/-- Whether the home of a key serves requests (R79). -/
def homeUp (s : State) (k : Key) : Bool :=
  match homeDie s k with
  | some d => !s.power.uncoreDown.contains d
  | none => true

/-- The home of a line goes on as far as it can: completes its transaction, then serves its queue in order (R119). What needs a
directory entry or a host line table entry has room made for it first (R126, R131). -/
def pump : Nat → State → Key → State
  | 0, s, _ => s
  | n + 1, s, k =>
    if !homeUp s k then s
    else
      let e := dirOf s k
      match e.txn with
      | some t =>
        if t.ready then
          if hostFull s k then hostMakeRoom s
          else match finishTxn s e t with
            | some s' => pump n s' k
            | none => s
        else s
      | none =>
        match e.queue with
        | [] => s
        | (src, r) :: q =>
          if r.records && dirFull s k then dirMakeRoom s k
          else pump n (beginTxn s { e with queue := q } src r) k

/-- A line's home goes on; then those of other lines that may have waited for the room it left, or that are to make room. -/
def homeGo (s : State) (k : Key) : State :=
  let s := pump 200 s k
  if s.coh.dir.length < dirWays && decide (s.coh.hostTab.length + 1 < hostTableSize) then s
  else
    let ks := (s.coh.dir.filter fun e => e.key != k && (if e.txn.isSome then e.txn.any Txn.ready else !e.queue.isEmpty)).map (·.key)
    ks.foldl (fun s k => pump 200 s k) s

/-- A request's place among those of its cycle: ascending global index, the host last (R119). -/
def partyRank (p : Nat) : Nat := if p = 32 then 64 else p

/-- A request reaches its home (R119): it waits behind those that came before, and in the order of their senders among those of
its cycle. -/
def arrive (s : State) (src : Nat) (k : Key) (r : Req) : State :=
  let e := dirOf s k
  let n := if e.late.1 = s.sched.cycle then min e.late.2 e.queue.length else 0
  let old := e.queue.take (e.queue.length - n)
  let new := insertBy (fun a b => decide (partyRank a.1 ≤ partyRank b.1)) (src, r) (e.queue.drop (e.queue.length - n))
  homeGo (setDir s { e with queue := old ++ new, late := (s.sched.cycle, n + 1) }) k

/-- Requests that a slice queues (R119). -/
def sliceQueue : Nat := 256

/-- Whether the slice of a line's home can queue no more (R119). -/
def sliceFull (s : State) (k : Key) : Bool :=
  decide ((s.coh.dir.map (·.queue.length)).sum ≥ sliceQueue)
    && decide (((s.coh.dir.filter fun e => sameSlice s e.key k).map (·.queue.length)).sum ≥ sliceQueue)

/-- Changes the transaction of a line, then lets the home go on. -/
def modTxn (s : State) (k : Key) (f : Txn → Txn) : State :=
  let e := dirOf s k
  match e.txn with
  | some t => homeGo (setDir s { e with txn := some (f t) }) k
  | none => s

/-- Whether an Inv to a cluster, or its InvAck, is under way: an Mrg that comes now crossed it (R124). -/
def crossesInv (s : State) (src : Nat) (k : Key) : Bool :=
  s.coh.net.any fun m => m.key == k && (match m.body with
    | .inv => m.dst == src
    | .invAck => m.src == src
    | _ => false)

/-- A reply or a departure reaches the home (R119, R123, R124). -/
def homeReceive (s : State) (src : Nat) (k : Key) (b : Body) : State :=
  let e := dirOf s k
  let waits : Bool := match e.txn with | some t => t.fwd == some src | none => false
  match b with
  | .req r => arrive s src k r
  | .wb d =>
    if waits then
      let early := (e.txn.any fun t => t.waitWb)
      let s := setDir s { e with wbEarly := some d }
      if early then modTxn s k fun t => { t with fwd := none, waitWb := false } else s
    else arrive s src k (.wb d)
  | .mrg p =>
    if e.txn.any (fun t => t.mrgs.contains src) then
      let s := if crossesInv s src k then setDir s { e with stale := e.stale ++ [src] } else s
      modTxn s k fun t => { t with mrgs := t.mrgs.erase src, parts := t.parts ++ [(src, p)] }
    else arrive s src k (.mrg p)
  | .fwdData l p dirty =>
    if waits then modTxn s k fun t => { t with fwd := none, data := some (l, p, dirty) } else s
  | .fwdMiss wbp =>
    if !waits then s
    else if wbp && e.wbEarly == none then setDir s { e with txn := e.txn.map fun t => { t with waitWb := true } }
    else modTxn s k fun t => { t with fwd := none }
  | .invAck =>
    if e.stale.contains src then setDir s { e with stale := e.stale.erase src }
    else modTxn s k fun t => { t with invs := t.invs.erase src }
  | _ => s

/-! ### Clusters (R113, R115, R116) -/

def lineOf (s : State) (cl : Nat) (k : Key) : Option CLine := s.coh.lines.find? fun c => c.cl == cl && c.key == k

def dropLine (s : State) (cl : Nat) (k : Key) : State :=
  { s with coh := { s.coh with lines := s.coh.lines.filter fun c => !(c.cl == cl && c.key == k) } }

def setLine (s : State) (c : CLine) : State :=
  let s := dropLine s c.cl c.key
  { s with coh := { s.coh with lines := s.coh.lines ++ [c] } }

def noPartial : Partial := ⟨La.zero, []⟩

/-! ### Cores and their L1s (R111, R113) -/

/-- The global index of a core: 64·die + core; its cluster is an eighth of it (R117). -/
def coreIndex (die core : Nat) : Nat := 64 * die + core

/-- The cluster of a core (R117). -/
def clusterOf (die core : Nat) : Nat := 8 * die + core / 8

def coreState (s : State) (i : Nat) : Core := (s.cores.get? i).getD Core.reset

def modCore (s : State) (i : Nat) (f : Core → Core) : State :=
  { s with cores := s.cores.set i (f (coreState s i)) }

/-- The dirty sectors that a core's L1 holds of a line. -/
def l1Dirty (s : State) (ci : Nat) (k : Key) : List Nat :=
  (((coreState s ci).l1.find? fun e => e.key == k).map (·.dirty)).getD []

/-- An L1 hands the dirty sectors of a line to its cluster cache (R113): it keeps a readable copy, or none. -/
def l1Return (s : State) (cl : Nat) (k : Key) (n : Nat) (keep : Bool) : State :=
  match lineOf s cl k with
  | none => s
  | some c =>
    let d := l1Dirty s (8 * cl + n) k
    let s := modCore s (8 * cl + n) fun q => { q with
      l1 := if keep then q.l1.map (fun e => if e.key = k then { e with dirty := [] } else e) else q.l1.filter fun e => e.key != k }
    setLine s { c with l1 := if keep then c.l1 else c.l1.erase n, xh := if c.xh == some n then none else c.xh
                       dirty := d.foldl (fun l q => insertNat q l) c.dirty }

/-- The cluster cache takes a line back from its L1s, but for one (R113). -/
def recallL1 (s : State) (cl : Nat) (k : Key) (but : Option Nat) : State :=
  match lineOf s cl k with
  | none => s
  | some c => (c.l1.filter fun n => but != some n).foldl (fun s n => l1Return s cl k n false) s

/-- The cluster cache reads a line: a writable copy of an L1 becomes readable (R113). -/
def cleanL1 (s : State) (cl : Nat) (k : Key) : State :=
  match (lineOf s cl k).bind (·.xh) with
  | some n => l1Return s cl k n true
  | none => s

/-- A cluster answers its home (R116). -/
def clusterSend (s : State) (cl : Nat) (k : Key) (b : Body) : State := sendAll s [⟨cl, homeParty, k, b⟩]

/-- Whether a cluster's request for a line is outstanding (R116). -/
def reqOut (s : State) (cl : Nat) (k : Key) : Bool := s.coh.reqs.any fun r => r.1 == cl && r.2.1 == k

/-- A cluster evicts a line (R116); a line with a request outstanding stays until its answer. -/
def evictLine (s : State) (cl : Nat) (k : Key) : State :=
  match (if reqOut s cl k then none else lineOf (recallL1 s cl k none) cl k) with
  | none => s
  | some c =>
    let s := dropLine (recallL1 s cl k none) cl k
    let wb (s : State) (d : Option (Line × Bool)) : State :=
      clusterSend { s with coh := { s.coh with wbs := s.coh.wbs ++ [(cl, k, s.sched.ns)] } } cl k (.wb d)
    match c.st with
    | .s => s
    | .e => wb s none
    | .o | .m => wb s (some (c.data, c.poison))
    | .a => clusterSend s cl k (.mrg c.part)

/-- A full set of a cluster cache evicts its least recently used line before it takes another (R111, R116; assumption log
103). -/
def clusterRoom (s : State) (cl : Nat) (k : Key) : State :=
  if s.coh.lines.length < 16 then s
  else
    let mine := s.coh.lines.filter fun c => c.cl == cl && Config.clusterSet c.key.line c.key.asid == Config.clusterSet k.line k.asid
    if mine.length < 16 || mine.any (fun c => c.key == k) then s
    else match mine.find? fun c => !reqOut s cl c.key with
      | some c => evictLine s cl c.key
      | none => s

/-- Whether a write-back of a cluster has not been acknowledged. -/
def wbPending (s : State) (cl : Nat) (k : Key) : Bool := s.coh.wbs.any fun w => w.1 == cl && w.2.1 == k

/-- A message reaches a cluster (R116, R122 to R124); before it answers a forward or an invalidation it recalls its L1 copies
(R113). -/
def clusterReceive (s : State) (cl : Nat) (k : Key) (b : Body) : State :=
  let s := match b with | .fwdS | .fwdInv | .inv => recallL1 s cl k none | _ => s
  let c := lineOf s cl k
  let pending := wbPending s cl k
  let answered (s : State) : State :=
    { s with coh := { s.coh with reqs := s.coh.reqs.filter fun r => !(r.1 == cl && r.2.1 == k) } }
  match b with
  | .fwdS =>
    (match c with
     | some c =>
       if c.st == .e then clusterSend (setLine s { c with st := .s }) cl k (.fwdData c.data c.poison false)
       else if c.st == .o || c.st == .m then
         clusterSend (setLine s { c with st := .o }) cl k (.fwdData c.data c.poison true)
       else clusterSend s cl k (.fwdMiss pending)
     | none => clusterSend s cl k (.fwdMiss pending))
  | .fwdInv =>
    (match c with
     | some c =>
       if c.st == .e then clusterSend (dropLine s cl k) cl k (.fwdData c.data c.poison false)
       else if c.st == .o || c.st == .m then clusterSend (dropLine s cl k) cl k (.fwdData c.data c.poison true)
       else clusterSend s cl k (.fwdMiss pending)
     | none => clusterSend s cl k (.fwdMiss pending))
  | .inv =>
    (match c with
     | some c =>
       if c.st == .a then clusterSend (dropLine s cl k) cl k (.mrg c.part)
       else clusterSend (dropLine s cl k) cl k .invAck
     | none => clusterSend s cl k .invAck)
  | .data st l p a => setLine (clusterRoom (answered s) cl k) ⟨cl, k, st, l, p, a, [], none, [], noPartial⟩
  | .ack a =>
    let acc := s.coh.reqs.any fun r => r.1 == cl && r.2.1 == k && r.2.2.1 == .accA
    let s := answered s
    if acc then setLine (clusterRoom (recallL1 s cl k none) cl k) ⟨cl, k, .a, 0, false, a, [], none, [], noPartial⟩
    else
      (match c with
       | some c => setLine s { c with st := .m, attr := a }
       | none => s)
  | .refuse cause =>
    let s := answered s
    { s with coh := { s.coh with refused := s.coh.refused ++ [(cl, k, cause)] } }
  | .wbAck => { s with coh := { s.coh with wbs := dropFirst (fun w => w.1 == cl && w.2.1 == k) s.coh.wbs } }
  | _ => s

/-- Whether message `a`, sent first, keeps message `b` behind it: messages of one key between two parties keep their order
(14 R260), but for a fwd-miss, which may reach the home before the write-back that it announces (R123, 18 R338). -/
def staysBehind (a b : Msg) : Bool :=
  a.src == b.src && a.dst == b.dst && a.key == b.key
    && !(match a.body, b.body with | .wb _, .fwdMiss _ => true | _, _ => false)

/-- Whether a message can be delivered now: none that it stays behind is under way, the host answers its own by BIRSP, and a
home in reset takes none (R79), nor a full slice a request (R119). -/
def deliverable (s : State) (m : Msg) : Bool :=
  m.dst != 32 && (m.dst != homeParty || homeUp s m.key)
    && !(match m.body with | .req _ => sliceFull s m.key | _ => false) && (s.coh.net.find? fun a => a == m || staysBehind a m) == some m

/-- Delivers one message: the first of the net that satisfies a test. -/
def deliverFirst (s : State) (p : Msg → Bool) : Option State :=
  match s.coh.net.find? (fun m => p m && deliverable s m) with
  | none => none
  | some m =>
    let s := { s with coh := { s.coh with net := dropFirst (fun m => p m && deliverable s m) s.coh.net } }
    some (if m.dst = homeParty then homeReceive s m.src m.key m.body else clusterReceive s m.dst m.key m.body)

/-- Delivers a line's messages until none is left that can be delivered. -/
def settle : Nat → State → Key → State
  | 0, s, _ => s
  | n + 1, s, k =>
    match deliverFirst s (fun m => m.key == k) with
    | none => s
    | some s' => settle n s' k

/-- The bound of `settle`: no line has more messages than its queue of clusters can raise. -/
def settleFuel : Nat := 6000

/-! ### Obtaining a line (R113, R116) -/

/-- What an access needs of its cluster's line. -/
inductive Need where
  | rd | wr | acc
  deriving DecidableEq, Repr

/-- Whether a line's state serves a need (R116); a write to E makes it M silently. -/
def CSt.serves : CSt → Need → Bool
  | .s, .rd | .e, .rd | .o, .rd | .m, .rd | .e, .wr | .m, .wr | .a, .acc => true
  | _, _ => false

/-- The request a need raises (R116). -/
def needReq (c : Option CLine) (n : Need) : Req :=
  match n with
  | .rd => .rds
  | .acc => .accA
  | .wr => (match c with | some c => if c.st == .s || c.st == .o then .upg else .rdx | none => .rdx)

/-- Whether a cluster may send a request for a line (R116). -/
def mayAsk (s : State) (cl : Nat) (k : Key) : Bool :=
  !wbPending s cl k && !reqOut s cl k

/-- Entries of a home locator cache (R87). -/
def locatorSize : Nat := 1024

/-- A cluster finds the home of a line: on a miss its walker reads the PTE, of which the locator cache keeps HOME (R87). HOME
does not change while the page is mapped, so that what it keeps is what `homeDie` walks to. The oldest entry makes room
(assumption log 103). -/
def locate (s : State) (cl : Nat) (k : Key) : State :=
  let vpn := vaOf k / 65536
  if s.coh.locs.any fun e => e.1 == cl && e.2.1 == k.asid && e.2.2.1 == vpn then s
  else match walk s k.asid (vaOf k) with
    | none => s
    | some w =>
      let s := noteReads s (cl / 8) (walkReads s k.asid (vaOf k))
      let mine := s.coh.locs.filter fun e => e.1 == cl
      let l := if mine.length < locatorSize then s.coh.locs else dropFirst (fun e => e.1 == cl) s.coh.locs
      { s with coh := { s.coh with locs := l ++ [(cl, k.asid, vpn, pteHome w.pte)] } }

/-- A cluster sends a request, unless one is outstanding or a WB unacknowledged (R116). -/
def ask (s : State) (cl : Nat) (k : Key) (r : Req) : State :=
  if mayAsk s cl k then
    let s := locate s cl k
    clusterSend { s with coh := { s.coh with reqs := s.coh.reqs ++ [(cl, k, r, s.sched.ns)] } } cl k (.req r)
  else s

/-- The cluster's line, when it serves a need; a write makes E into M. -/
def held (s : State) (cl : Nat) (k : Key) (n : Need) : Option CLine :=
  match lineOf s cl k with
  | some c => if c.st.serves n then some (if n == .wr then { c with st := .m } else c) else none
  | none => none

/-- What obtaining a line comes to. -/
inductive Got where
  | line (c : CLine)
  | fault (cause : Nat)
  | wait
  deriving DecidableEq, Repr

/-- The refusal a cluster has received for a line, taken. -/
def takeRefusal (s : State) (cl : Nat) (k : Key) : Option (Nat × State) :=
  match s.coh.refused.find? (fun r => r.1 == cl && r.2.1 == k) with
  | none => none
  | some r =>
    some (r.2.2, { s with coh := { s.coh with refused := dropFirst (fun r => r.1 == cl && r.2.1 == k) s.coh.refused } })

/-- Whether the permission carried with a line serves a need (R89). -/
def Attr.serves (a : Attr) : Need → Bool
  | .rd => a.rd
  | .wr | .acc => a.w

/-- An agent of a cluster obtains a line within one step: its request and the line's messages run to their end. A hit is
checked against the permission carried with the line (R89). -/
def obtain (s : State) (cl : Nat) (k : Key) (n : Need) : State × Got :=
  match held s cl k n with
  | some c => if c.attr.serves n then (s, .line c) else (s, .fault 7)
  | none =>
    let s := settle settleFuel (ask s cl k (needReq (lineOf s cl k) n)) k
    match takeRefusal s cl k with
    | some (c, s) => (s, .fault c)
    | none =>
      match held s cl k n with
      | some c => (s, .line c)
      | none =>
        let s := settle settleFuel (ask s cl k (needReq (lineOf s cl k) n)) k
        match takeRefusal s cl k with
        | some (c, s) => (s, .fault c)
        | none =>
          match held s cl k n with
          | some c => (s, .line c)
          | none => (s, .wait)

/-- A line is recalled from every cluster and left HI at its home (R120 far, R408); false when it must wait. -/
def recallLine (s : State) (k : Key) (src : Nat) (drop : Bool) : State × Bool :=
  let e := dirOf s k
  if e.st == .hi && e.txn == none && e.queue.isEmpty && homeUp s k && !drop then (s, true)
  else if sliceFull s k then (s, false)
  else
    let s := settle settleFuel (arrive s src k (.far drop)) k
    let e := dirOf s k
    (s, e.st == .hi && e.txn == none && e.queue.isEmpty)

/-- A refusal of a recalled line's requester is taken up by the agent that recalled it. -/
def farRefused (s : State) (cl : Nat) (k : Key) : State × Option Nat :=
  let s := settle settleFuel s k
  match takeRefusal s cl k with
  | some (c, s) => (s, some c)
  | none => (s, none)

end Sys2Proof.Machine
end

