-- ==== Sys2Proof/Machine/Agent.lean ====
section
/-!
DEFINITION. Accesses that agents make within one step (R408): an agent of a cluster (copy engine, frame engine, context
save, collective engine) through its cluster's lines, the management controller and the map engine at the home; the
memory-backed rings of the management controller (04 R75, 15 R292, 20 R351, 22 R371).
-/

namespace Sys2Proof.Machine

/-- The leaf of a key's page, if any walk finds one. -/
def pteOf (s : State) (k : Key) : Option Nat := (translate s k true).2

/-- Where an access to a page goes (R127, R134, R153). -/
inductive PageKind where
  | cached | uncached
  | window (pa : Nat)
  | pod (o : Nat)
  deriving DecidableEq, Repr

def pageKind (k : Key) (pte : Nat) : PageKind :=
  let pa := keyPa k pte
  if paTarget pa = 9 then .window pa
  else if paTarget pa = 15 then .pod (pa % 2 ^ 48)
  else if pteCached pte then .cached else .uncached

/-! ### Uncached accesses (R127) -/

/-- Who makes an uncached access that the host must answer: an agent of the part, or an issuer's operation. -/
def agentTag : Nat × Nat × Nat := (0, 33, 0)

/-- The bytes that a function of a line writes whatever the line held. -/
def bytesWritten (f : Line → Line) : BitVec 128 :=
  (List.range 128).foldl (fun m o => if lineGet (f 0) o 1 = lineGet (f (BitVec.allOnes 1024)) o 1 then m ||| (1 <<< o) else m) 0

/-- The host's answer to an uncached access, or whether it is still out: an agent's answer is taken, an operation's stays
until the operation ends. -/
def ucTake (s : State) (tag : Nat × Nat × Nat) (k : Key) (write : Bool) : State × Option (Option (Line × Bool)) :=
  match s.coh.ucs.find? fun u => u.tag == tag && u.key == k && u.write == write with
  | none => (s, none)
  | some u =>
    if u.done.isNone then (s, some none)
    else if tag == agentTag then ({ s with coh := { s.coh with ucs := s.coh.ucs.filter fun v => v != u } }, some u.done)
    else (s, some u.done)

/-- An uncached CXL.cache access goes to the host (R127, R131). -/
def ucSend (s : State) (tag : Nat × Nat × Nat) (k : Key) (hpa : Nat) (d : Option (Line × BitVec 128)) : State :=
  reply { s with coh := { s.coh with ucs := s.coh.ucs ++ [⟨k, tag, d.isSome, none⟩] } } (.hostUc hpa d)

/-- The line is idle at its home, and its memory can be reached (R119). -/
def uncachedIdle (s : State) (k : Key) : State × Bool :=
  match recallLine s k enginePty false with
  | (s, false) => (s, false)
  | (s, true) => (s, !homeBusy s k)

/-- The home reads an uncached line in the order of R119 (R127); on a host frame the host does. -/
def uncachedRead (s : State) (tag : Nat × Nat × Nat) (k : Key) : State × MemRes :=
  match recallLine s k enginePty false with
  | (s, false) => (s, .wait)
  | (s, true) =>
    match hostAddr s k with
    | none => homeRead s k true
    | some hpa =>
      match ucTake s tag k false with
      | (s, some (some (l, p))) => (s, .ok l p)
      | (s, some none) => (s, .wait)
      | (s, none) => (ucSend (heat (translate s k true).1 k) tag k hpa none, .wait)

/-- The home's line with bytes replaced, and its poison: a whole-line write clears it (R129). -/
def homeMerge (s : State) (k : Key) (full : Bool) (f : Line → Line) : State :=
  if full then homeWrite s k (f 0) false
  else match homePeek s k with
    | (s, .ok l p) => homeWrite s k (f l) p
    | (_, _) => homeWrite s k (f 0) false

/-- The home writes part of an uncached line (R127, R129): `f` of the line; on a host frame the bytes go to the host, whose
answer ends the access. -/
def uncachedWrite (s : State) (tag : Nat × Nat × Nat) (k : Key) (full : Bool) (f : Line → Line) : State × MemRes :=
  match uncachedIdle s k with
  | (s, false) => (s, .wait)
  | (s, true) =>
    match hostAddr s k with
    | none => (homeMerge s k full f, if (pteOf s k).isSome then .ok 0 false else .bad 7)
    | some hpa =>
      match ucTake s tag k true with
      | (s, some (some _)) => (s, .ok 0 false)
      | (s, some none) => (s, .wait)
      | (s, none) => (ucSend (hostNoted s k) tag k hpa (some (f 0, bytesWritten f)), .wait)

/-- An agent of cluster `cl` reads a line under a tag (R116, R127). -/
def lineAs (s : State) (tag : Nat × Nat × Nat) (cl : Nat) (k : Key) : State × MemRes :=
  match pteOf s k with
  | none => (s, .bad 7)
  | some pte =>
    match pageKind k pte with
    | .cached =>
      (match obtain s cl k .rd with
       | (s, .line c) => (cleanL1 s cl k, .ok c.data c.poison)
       | (s, .fault c) => (s, .bad c)
       | (s, .wait) => (s, .wait))
    | .uncached => uncachedRead s tag k
    | _ => (s, .bad 7)

def agentLine (s : State) (cl : Nat) (k : Key) : State × MemRes := lineAs s agentTag cl k

/-- An agent of cluster `cl` writes a line under a tag (R116, R127, R129). -/
def putAs (s : State) (tag : Nat × Nat × Nat) (cl : Nat) (k : Key) (full : Bool) (f : Line → Line) : State × MemRes :=
  match pteOf s k with
  | none => (s, .bad 7)
  | some pte =>
    match pageKind k pte with
    | .cached =>
      (match obtain s cl k .wr with
       | (s, .line _) =>
         let s := recallL1 s cl k none
         (match lineOf s cl k with
          | some c => (setLine s { c with st := .m, data := f c.data, poison := c.poison && !full }, .ok 0 false)
          | none => (s, .wait))
       | (s, .fault c) => (s, .bad c)
       | (s, .wait) => (s, .wait))
    | .uncached => uncachedWrite s tag k full f
    | _ => (s, .bad 7)

def agentPut (s : State) (cl : Nat) (k : Key) (full : Bool) (f : Line → Line) : State × MemRes :=
  putAs s agentTag cl k full f

/-- The pieces of `n` bytes from `va`: VA, length, offset in the value, by lines. -/
def pieces : Nat → Nat → Nat → Nat → List (Nat × Nat × Nat)
  | 0, _, _, _ => []
  | fuel + 1, va, n, o =>
    if n = 0 then []
    else
      let m := min n (128 - va % 128)
      (va, m, o) :: pieces fuel (va + m) (n - m) (o + m)

/-- The number of lines that `n` bytes can touch. -/
def pieceFuel (n : Nat) : Nat := n / 128 + 2

/-- An agent reads bytes; poison is reported with the address of its line. -/
def agentReadGo (asid cl : Nat) : List (Nat × Nat × Nat) → State → Nat → Option Nat → State × MemRes × Nat × Option Nat
  | [], s, v, p => (s, .ok 0 false, v, p)
  | (va, m, o) :: r, s, v, p =>
    match agentLine s cl (keyOf asid va) with
    | (s, .ok l poison) =>
      agentReadGo asid cl r s (v + lineGet l (va % 128) m * 256 ^ o)
        (match p with | some a => some a | none => if poison then some (va / 128 * 128) else none)
    | (s, res) => (s, res, va, p)

/-- `n` bytes at a VA: the outcome, the value (or the failing VA), the first poisoned line. -/
def agentRead (s : State) (cl asid va n : Nat) : State × MemRes × Nat × Option Nat :=
  agentReadGo asid cl (pieces (pieceFuel n) va n 0) s 0 none

/-- An agent writes bytes. -/
def agentWriteGo (asid cl v : Nat) : List (Nat × Nat × Nat) → State → State × MemRes × Nat
  | [], s => (s, .ok 0 false, 0)
  | (va, m, o) :: r, s =>
    match agentPut s cl (keyOf asid va) (m == 128) (fun l => linePut l (va % 128) m (v / 256 ^ o)) with
    | (s, .ok _ _) => agentWriteGo asid cl v r s
    | (s, res) => (s, res, va)

def agentWrite (s : State) (cl asid va n v : Nat) : State × MemRes × Nat :=
  agentWriteGo asid cl v (pieces (pieceFuel n) va n 0) s

/-- A state in which something has to wait: what it has asked of caches, homes, the host and the pod stays asked for, and
nothing else of what it began is kept. -/
def asked (s t : State) : State :=
  { s with
    mem := t.mem
    coh := t.coh
    cores := t.cores
    mgmt := t.mgmt
    motion := t.motion
    links := { s.links with pods := t.links.pods, podNext := t.links.podNext }
    sched := { s.sched with replies := t.sched.replies } }

/-! ### The management controller's accesses, at the home under ASID 0 -/

/-- The host's answers to an operation are over. -/
def ucDrop (s : State) (tag : Nat × Nat × Nat) : State :=
  { s with coh := { s.coh with ucs := s.coh.ucs.filter fun u => u.tag != tag } }

def engReadGo : List (Nat × Nat × Nat) → State → Nat → State × Option Nat
  | [], s, v => (s, some v)
  | (va, m, o) :: r, s, v =>
    match uncachedRead s agentTag (keyOf 0 va) with
    | (s, .ok l _) => engReadGo r s (v + lineGet l (va % 128) m * 256 ^ o)
    | (s, _) => (s, none)

/-- The management controller reads `n` bytes of a global-half VA. -/
def engRead (s : State) (va n : Nat) : State × Option Nat := engReadGo (pieces (pieceFuel n) va n 0) s 0

def engWriteGo (v : Nat) : List (Nat × Nat × Nat) → State → State × Bool
  | [], s => (s, true)
  | (va, m, o) :: r, s =>
    match uncachedWrite s agentTag (keyOf 0 va) (m == 128) (fun l => linePut l (va % 128) m (v / 256 ^ o)) with
    | (s, .ok _ _) => engWriteGo v r s
    | (s, _) => (s, false)

/-- The management controller writes `n` bytes of a global-half VA. -/
def engWrite (s : State) (va n v : Nat) : State × Bool := engWriteGo v (pieces (pieceFuel n) va n 0) s

/-! ### Rings (R75) -/

/-- Which ring. -/
inductive RingId where
  | faq | mgr | rej | trq | dbq
  deriving DecidableEq, Repr

def ringOf (s : State) : RingId → Ring
  | .faq => s.mgmt.faq | .mgr => s.mgmt.mgr | .rej => s.mgmt.rej | .trq => s.mgmt.trq | .dbq => s.mgmt.dbq

def setRing (s : State) (i : RingId) (r : Ring) : State :=
  match i with
  | .faq => { s with mgmt := { s.mgmt with faq := r } }
  | .mgr => { s with mgmt := { s.mgmt with mgr := r } }
  | .rej => { s with mgmt := { s.mgmt with rej := r } }
  | .trq => { s with mgmt := { s.mgmt with trq := r } }
  | .dbq => { s with mgmt := { s.mgmt with dbq := r } }

/-- Bytes of an entry, the bit its PHASE takes, and the buffer's length (R74, R75, R101, R292, R351, R371). -/
def ringShape : RingId → Nat × Option Nat × Nat
  | .faq => (16, some 63, 64)
  | .mgr => (16, none, 64)
  | .rej => (64, some 511, 16)
  | .trq => (32, none, 64)
  | .dbq => (32, none, 64)

/-- Whether the ring takes an entry now (R75). -/
def Ring.takes (r : Ring) : Bool := bitAt r.ctl.toNat 0 && r.size != 0 && (r.tail + 1) % r.size != r.head

/-- Buffered entries go to the ring while it takes them; the tail advances after each (R75). -/
def ringFlush : Nat → State → RingId → State
  | 0, s, _ => s
  | n + 1, s, i =>
    let r := ringOf s i
    let (len, ph, _) := ringShape i
    match r.buf with
    | [] => s
    | e :: _ =>
      if !r.takes then s
      else
        let v := ofBytes e
        let v := match ph with | some b => putBits v b 1 r.phase.toNat | none => v
        match engWrite s (r.base + len * r.tail) len v with
        | (s, false) => s
        | (s, true) =>
          let r := ringOf s i
          let tail := (r.tail + 1) % r.size
          let s := if bitAt r.ctl.toNat 1 && r.tail == r.head then
              { s with mgmt := { s.mgmt with irqs := s.mgmt.irqs + 1 } } else s
          ringFlush n (setRing s i { r with tail := tail, phase := if tail = 0 then !r.phase else r.phase, buf := r.buf.drop 1 }) i

/-- The overflow rule of the fault-address queue's buffer (R75), entry by entry. Where the buffer holds only entries of kinds 1,
2, 3 and 5 and the new one is of kind 0 or 4, the text sets OVF_UE and the table of the bits OVF_CE: the model's choice is the
table's, OVF_CE (assumption log 107). -/
def faqOverflow : List (List Byte) → List (List Byte) → Word → List (List Byte) × Word
  | kept, [], ctl => (kept, ctl)
  | kept, e :: rest, ctl =>
    if kept.length < 64 then faqOverflow (kept ++ [e]) rest ctl
    else
      let small (x : List Byte) : Bool := faqKind x == 0 || faqKind x == 4
      if kept.any small then faqOverflow (dropFirst small kept ++ [e]) rest (ctl ||| 0x40000000#32)
      else faqOverflow kept rest (ctl ||| (if small e then 0x40000000#32 else 0x80000000#32))

/-- What the fault-address queue does at the end of a step that reported errors (R75): the ring takes what it can, the
buffer keeps 64. -/
def faqSettle (s : State) : State :=
  let s := ringFlush (s.mgmt.faq.buf.length + 64) s .faq
  let r := s.mgmt.faq
  let (buf, ctl) := faqOverflow [] r.buf r.ctl
  setRing s .faq { r with buf := buf, ctl := ctl }

/-- An entry for a ring that discards its newest record when ring and buffer are full (R351, R371). -/
def ringPush (s : State) (i : RingId) (e : List Byte) : State :=
  let r := ringOf s i
  let s := ringFlush 65 (setRing s i { r with buf := r.buf ++ [e] }) i
  let r := ringOf s i
  let (_, _, cap) := ringShape i
  if r.buf.length > cap then setRing s i { r with buf := r.buf.take cap, ctl := r.ctl ||| 0x80000000#32 } else s

end Sys2Proof.Machine
end

