-- ==== Sys2Proof/Machine/Issuer.lean ====
section
/-!
DEFINITION. Who issues an instruction and the registers it sees (09 R162, R169; 15 R287; 12 R218): blocks, groups, BMS
contexts and launches by name; the register view of an issuer; the slots an instruction executes in (R17, R287); reads
and writes of registers, predicates, accumulators, with the hard-wired names in one place.
-/

namespace Sys2Proof.Machine

/-! ### Finding and changing units -/

def blockOf (s : State) (uid : Nat) : Option Block := s.work.blocks.find? fun b => b.uid == uid

def modBlock (s : State) (uid : Nat) (f : Block → Block) : State :=
  { s with work := { s.work with blocks := s.work.blocks.map fun b => if b.uid = uid then f b else b } }

def groupOf (s : State) (uid g : Nat) : Option Group :=
  match blockOf s uid with
  | some b => b.groups[g]?
  | none => none

def modGroup (s : State) (uid g : Nat) (f : Group → Group) : State :=
  modBlock s uid fun b => { b with groups := b.groups.modify g f }

/-- The issuer index of a BMS context (R255). -/
def bmsWho : Nat := 16

/-- The context of an issuer: a group's or the BMS's. -/
def ctxOf (s : State) (uid who : Nat) : Option Ctx :=
  match blockOf s uid with
  | none => none
  | some b => if who = bmsWho then b.bms.map (·.ctx) else b.groups[who]?.map (·.ctx)

def modBms (s : State) (uid : Nat) (f : Bms → Bms) : State :=
  modBlock s uid fun b => { b with bms := b.bms.map f }

def modCtx (s : State) (uid who : Nat) (f : Ctx → Ctx) : State :=
  if who = bmsWho then modBms s uid fun m => { m with ctx := f m.ctx }
  else modGroup s uid who fun g => { g with ctx := f g.ctx }

def modPath (s : State) (uid g p : Nat) (f : Path → Path) : State :=
  modGroup s uid g fun gr => { gr with paths := gr.paths.modify p f }

def pathOf (s : State) (uid g p : Nat) : Option Path :=
  match groupOf s uid g with
  | some gr => gr.paths[p]?
  | none => none

def launchOf (s : State) (id : Nat) : Option Launch := s.work.launches.find? fun l => l.id == id

def modLaunch (s : State) (id : Nat) (f : Launch → Launch) : State :=
  { s with work := { s.work with launches := s.work.launches.map fun l => if l.id = id then f l else l } }

/-- The launch a block belongs to. -/
def launchOfBlock (s : State) (uid : Nat) : Option Launch :=
  match blockOf s uid with
  | some b => launchOf s b.launch
  | none => none

def Block.cluster (b : Block) : Nat := clusterOf b.die b.core

/-- The blocks of a cohort in ascending index. -/
def cohortBlocks (s : State) (coh : Nat) : List Block :=
  sortBy (fun a b => decide (a.index ≤ b.index)) (s.work.blocks.filter fun b => b.cohort == coh)

def cohortOf (s : State) (coh : Nat) : Option Cohort := s.work.cohorts.find? fun c => c.uid == coh

def modCohort (s : State) (coh : Nat) (f : Cohort → Cohort) : State :=
  { s with work := { s.work with cohorts := s.work.cohorts.map fun c => if c.uid = coh then f c else c } }

/-! ### The register view -/

/-- What an instruction reads and writes of its issuer (R162). -/
structure Regs where
  bms : Bool
  v : SMap (Option Word)
  g : SMap (Option Word)
  p : SMap Bool
  k : SMap Bool
  seed : Option Nat
  /-- registers of one set, and sets (R287) -/
  span : Nat
  sets : Nat
  deriving DecidableEq, Repr

/-- The register view of a group. -/
def Group.regs (g : Group) (v : Variant) : Regs :=
  ⟨false, g.vregs, g.ctx.gregs, g.preds, g.ctx.kpreds, g.seed, v.regs / v.fold, v.fold⟩

/-- The register view of a BMS context. -/
def Bms.regs (m : Bms) : Regs := ⟨true, [], m.ctx.gregs, [], m.ctx.kpreds, none, 0, 0⟩

/-- The register view of an issuer. -/
def regsOf (s : State) (uid who : Nat) : Option Regs :=
  match blockOf s uid with
  | none => none
  | some b => if who = bmsWho then b.bms.map (·.regs) else b.groups[who]?.map fun g => g.regs b.v

/-- Stores a register view. -/
def putRegs (s : State) (uid who : Nat) (r : Regs) : State :=
  if who = bmsWho then
    modBms s uid fun m => { m with ctx := { m.ctx with gregs := r.g, kpreds := r.k } }
  else
    modGroup s uid who fun g =>
      { g with vregs := r.v, preds := r.p, ctx := { g.ctx with gregs := r.g, kpreds := r.k } }

/-- The key of vector register `n`, set `j`, lane `l` (R287). -/
def Regs.vkey (r : Regs) (j l n : Nat) : Nat := (n + j * r.span) * 64 + l

/-- A vector register: v0 reads zero, a dead one zero, an unwritten one a free value (R162, R169). -/
def Regs.rdV (r : Regs) (j l n : Nat) : Word :=
  if n = 0 then 0
  else match r.v.get? (r.vkey j l n) with
    | some (some w) => w
    | some none => 0
    | none => match r.seed with | some q => Config.freeWord q (r.vkey j l n) | none => 0

/-- A group or sequencer register: g0 and s0 read zero (R162). -/
def Regs.rdG (r : Regs) (n : Nat) : Word :=
  if n = 0 then 0
  else match r.g.get? n with
    | some (some w) => w
    | some none => 0
    | none => match r.seed with | some q => Config.freeWord q (65536 + n) | none => 0

def Regs.wrV (r : Regs) (j l n : Nat) (w : Word) : Regs :=
  if n = 0 then r else { r with v := r.v.set (r.vkey j l n) (some w) }

def Regs.wrG (r : Regs) (n : Nat) (w : Word) : Regs :=
  if n = 0 then r else { r with g := r.g.set n (some w) }

/-- A lane predicate: p0 is true (R162). -/
def Regs.rdP (r : Regs) (j l i : Nat) : Bool :=
  if i = 0 then true
  else match r.p.get? ((j * 16 + i) * 64 + l) with
    | some b => b
    | none => match r.seed with | some q => Config.freeBool q ((j * 16 + i) * 64 + l) | none => false

def Regs.wrP (r : Regs) (j l i : Nat) (b : Bool) : Regs :=
  if i = 0 then r else { r with p := r.p.set ((j * 16 + i) * 64 + l) b }

/-- A group predicate: k0 is true (R162). -/
def Regs.rdK (r : Regs) (i : Nat) : Bool :=
  if i = 0 then true
  else match r.k.get? i with
    | some b => b
    | none => match r.seed with | some q => Config.freeBool q (65536 + i) | none => false

def Regs.wrK (r : Regs) (i : Nat) (b : Bool) : Regs :=
  if i = 0 then r else { r with k := r.k.set i b }

/-- A register of the file a slot uses. -/
def Regs.rd (r : Regs) (sl : Slot) (n : Nat) : Word :=
  match sl with
  | .lane j l => r.rdV j l n
  | .ctl => r.rdG n

def Regs.wr (r : Regs) (sl : Slot) (n : Nat) (w : Word) : Regs :=
  match sl with
  | .lane j l => r.wrV j l n w
  | .ctl => r.wrG n w

/-- `c` consecutive registers as one little-endian value, the first lowest (R15). -/
def Regs.rdN (r : Regs) (sl : Slot) (n : Nat) : Nat → Nat
  | 0 => 0
  | c + 1 => (r.rd sl n).toNat + 2 ^ 32 * Regs.rdN r sl (n + 1) c

def Regs.wrN (r : Regs) (sl : Slot) (n : Nat) : Nat → Nat → Regs
  | 0, _ => r
  | c + 1, x => Regs.wrN (r.wr sl n (BitVec.ofNat 32 x)) sl (n + 1) c (x / 2 ^ 32)

/-- A value of `c` registers (R15); a pair or quad whose base is a hard-wired register reads zero (R162, R175; assumption log
104). -/
def Regs.rdW (r : Regs) (sl : Slot) (n c : Nat) : Nat := if n = 0 then 0 else r.rdN sl n c

/-- A predicate of the file a slot uses. -/
def Regs.rdPred (r : Regs) (sl : Slot) (i : Nat) : Bool :=
  match sl with
  | .lane j l => r.rdP j l i
  | .ctl => r.rdK i

def Regs.wrPred (r : Regs) (sl : Slot) (i : Nat) (b : Bool) : Regs :=
  match sl with
  | .lane j l => r.wrP j l i b
  | .ctl => r.wrK i b

/-- The long accumulator at a register (R15, R62). -/
def Regs.rdLa (r : Regs) (sl : Slot) (n : Nat) : La := La.ofImage (BitVec.ofNat 768 (r.rdN sl n 24))

def Regs.wrLa (r : Regs) (sl : Slot) (n : Nat) (a : La) : Regs := r.wrN sl n 24 (La.toImage a).toNat

/-- A register marked dead (R169); the hard-wired ones have no mark. -/
def Regs.kill (r : Regs) (sl : Slot) (n : Nat) : Regs :=
  if n = 0 then r
  else match sl with
    | .lane j l => { r with v := r.v.set (r.vkey j l n) none }
    | .ctl => { r with g := r.g.set n none }

def Regs.killN (r : Regs) (sl : Slot) (n : Nat) : Nat → Regs
  | 0 => r
  | c + 1 => Regs.killN (r.kill sl n) sl (n + 1) c

/-! ### Slots (R17, R287) -/

/-- All (set, lane) slots of masks, sets ascending, lanes ascending. -/
def slotsFrom : Nat → List LaneMask → List Slot
  | _, [] => []
  | j, m :: r => (lanesOf m).map (Slot.lane j) ++ slotsFrom (j + 1) r

def slotsOf (m : List LaneMask) : List Slot := slotsFrom 0 m

/-- Whether a guard selects a slot (R17): p0–p15 by lane, k0–k7 for group form. -/
def guardHolds (r : Regs) (h : Hdr) (sl : Slot) : Bool := r.rdPred sl h.gidx.toNat != h.neg

/-- The slots an instruction executes in: the path's guarded lanes, or the control thread (R17, R287). -/
def activeSlots (r : Regs) (h : Hdr) (mask : List LaneMask) : List Slot :=
  (if h.g then [Slot.ctl] else slotsOf mask).filter (guardHolds r h)

end Sys2Proof.Machine
end

