-- ==== Sys2Proof/Machine/Yarrow.lean ====
section
/-!
DEFINITION. Path identifiers and Yarrow (22 R371, R379 to R383; 23 R391, R392): packets, free space, SYNC and loss mode,
and what branches, splits, joins and runs emit.
-/

namespace Sys2Proof.Machine

/-- The group identifier (R371). -/
def gidOf (b : Block) (isTask : Bool) (g : Nat) : Nat :=
  if isTask then 2 ^ 31 + b.task % 2 ^ 27 * 16 + g else b.index % 2 ^ 27 * 16 + g

def gidAt (s : State) (uid g : Nat) : Nat :=
  match blockOf s uid, launchOfBlock s uid with
  | some b, some l => gidOf b l.isTask g
  | _, _ => 0

/-- Unsigned LEB128 (R380). -/
def varint : Nat → Nat → List Byte
  | 0, x => [BitVec.ofNat 8 (x % 128)]
  | n + 1, x => if x < 128 then [BitVec.ofNat 8 x] else BitVec.ofNat 8 (x % 128 + 128) :: varint n (x / 128)

def varintOf (x : Nat) : List Byte := varint 20 x

/-- The trace unit of a core. -/
def yarrowOf (s : State) (ci : Nat) : Yarrow := (s.trace.get? ci).getD Yarrow.reset

def setYarrow (s : State) (ci : Nat) (y : Yarrow) : State := { s with trace := s.trace.set ci y }

def Yarrow.free (y : Yarrow) : Nat := y.size - (y.tail - y.head)

/-- Whether a block's groups are traced on its core (R379). -/
def traced (s : State) (b : Block) : Bool :=
  let y := yarrowOf s (coreIndex b.die b.core)
  bitAt y.ctl.toNat 0
    && (!bitAt y.ctl.toNat 1 || (launchOf s b.launch).any fun l => l.dbg.isSome)

/-- Bytes written at the tail, modulo the size (R379). -/
def yRaw (s : State) (ci : Nat) (bs : List Byte) : State :=
  let y := yarrowOf s ci
  let pos := if y.size = 0 then 0 else y.tail % y.size
  let n := min bs.length (y.size - pos)
  let s := (engWrite s (y.base + pos) n (ofBytes (bs.take n))).1
  let s := (engWrite s y.base (bs.length - n) (ofBytes (bs.drop n))).1
  setYarrow s ci { y with tail := y.tail + bs.length }

/-- Every entry of the groups on a core is unreported (R382). -/
def unreportAll (s : State) (die core : Nat) : State :=
  { s with work := { s.work with blocks := s.work.blocks.map fun b =>
      if b.die = die ∧ b.core = core then
        { b with groups := b.groups.map fun g => { g with paths := g.paths.map fun p => { p with unrep := true } } }
      else b } }

/-- A SYNC (R380, R382, R383). -/
def ySync (s : State) (die core : Nat) : State :=
  let ci := coreIndex die core
  let now := (s.sched.time.getD die 0) % 2 ^ 64
  let s := yRaw s ci (0x00#8 :: toBytes 8 now)
  let y := yarrowOf s ci
  unreportAll (setYarrow s ci { y with count := 0, due := false, last := none, lastTs := now }) die core

/-- A PATH packet (R380). -/
def pathPacket (gid e : Nat) (full : Bool) (pc : Nat) (masks : List LaneMask) : List Byte :=
  BitVec.ofNat 8 (0x10 + (if full then 8 else 0) + e) :: toBytes 4 gid
    ++ (if full then toBytes 6 pc ++ [BitVec.ofNat 8 (masks.length - 1)] ++ masks.flatMap (fun m => toBytes 8 m.toNat) else [])

/-- A packet's body; a TS depends on the time of the last TS or SYNC (R380). -/
inductive Pk where
  | path
  | bytes (b : List Byte)
  | ts (marker : Option Word)
  deriving DecidableEq, Repr

def Pk.body (p : Pk) (now last : Nat) : List Byte :=
  match p with
  | .path => []
  | .bytes b => b
  | .ts m =>
    let d := varintOf (now - last)
    match m with
    | some w => 0x41#8 :: d ++ toBytes 4 w.toNat
    | none => 0x40#8 :: d

/-- A packet behind LOSS, if in loss mode, SYNC and a PATH with F = 1 (R383, R392). -/
def yResync (s : State) (b : Block) (uid g e gid pc : Nat) (masks : List LaneMask) (p : Pk) : State × Bool :=
  let ci := coreIndex b.die b.core
  let y := yarrowOf s ci
  let now := (s.sched.time.getD b.die 0) % 2 ^ 64
  let pre := pathPacket gid e true pc masks
  let body := p.body now now
  if y.free < 15 + pre.length + body.length then
    (setYarrow s ci { y with loss := some (match y.loss with | some c => min (c + 1) (2 ^ 32 - 1) | none => 1) }, false)
  else
    let s := match y.loss with
      | some c => yRaw s ci (0xF0#8 :: varintOf c)
      | none => s
    let s := setYarrow s ci { yarrowOf s ci with loss := none }
    let s := yRaw (yRaw (ySync s b.die b.core) ci pre) ci body
    let y := yarrowOf s ci
    let s := setYarrow s ci { y with last := some (gid, e), count := if body.isEmpty then 1 else 2 }
    (modPath s uid g e fun q => { q with unrep := false }, true)

/-- A packet of an entry under R381 to R383; `pc` and `masks` are those before the instruction that emits it. -/
def ySend (s : State) (b : Block) (uid g e gid pc : Nat) (masks : List LaneMask) (p : Pk) (force : Bool) : State × Bool :=
  let ci := coreIndex b.die b.core
  let y := yarrowOf s ci
  let now := (s.sched.time.getD b.die 0) % 2 ^ 64
  if y.loss == none && !y.due && decide (y.count < 256) then
    let unrep := (pathOf s uid g e).any fun q => q.unrep
    let pre := pathPacket gid e unrep pc masks
    let (s, lost) : State × Bool :=
      if force || y.last != some (gid, e) || unrep then
        if y.free ≥ pre.length + 15 then
          let s := yRaw s ci pre
          let y := yarrowOf s ci
          let s := setYarrow s ci { y with count := y.count + 1, last := some (gid, e) }
          (modPath s uid g e fun q => { q with unrep := false }, false)
        else (setYarrow s ci { y with loss := some 1 }, true)
      else (s, false)
    if p == .path then (s, !lost)
    else if lost then yResync s b uid g e gid pc masks p
    else
      let y := yarrowOf s ci
      let body := p.body now y.lastTs
      if y.count ≥ 256 then yResync s b uid g e gid pc masks p
      else if y.free ≥ body.length + 15 then
        let s := yRaw s ci body
        let y := yarrowOf s ci
        (setYarrow s ci { y with count := y.count + 1
                                 lastTs := match p with | .ts _ => now | _ => y.lastTs }, true)
      else (setYarrow s ci { y with loss := some 1 }, false)
  else yResync s b uid g e gid pc masks p

/-- Pending BR bits are flushed (R381). -/
def yFlush (s : State) (ci : Nat) : State :=
  let y := yarrowOf s ci
  match y.bits, y.owner with
  | [], _ => s
  | _, none => s
  | bits, some (uid, g, e, pc, masks) =>
    let s := setYarrow s ci { y with bits := [], owner := none }
    match blockOf s uid with
    | none => s
    | some b =>
      let v := bits.foldr (fun b n => b.toNat + 2 * n) 0
      let body := BitVec.ofNat 8 (0x20 + (bits.length - 1)) :: toBytes ((bits.length + 7) / 8) v
      (ySend s b uid g e (gidAt s uid g) pc masks (.bytes body) false).1

/-- Emits a packet of a group's entry, when its core traces it. -/
def emit (s : State) (uid g e pc : Nat) (masks : List LaneMask) (p : Pk) (force : Bool) : State × Bool :=
  match blockOf s uid with
  | none => (s, false)
  | some b =>
    if traced s b then
      ySend (yFlush s (coreIndex b.die b.core)) b uid g e (gidAt s uid g) pc masks p force
    else (s, false)

/-- One BR bit (R381). -/
def traceBranch (s : State) (uid g e pc : Nat) (masks : List LaneMask) (taken : Bool) : State :=
  match blockOf s uid with
  | none => s
  | some b =>
    if !traced s b then s
    else
      let ci := coreIndex b.die b.core
      let y := yarrowOf s ci
      let same := match y.owner with | some (u, h, f, _, _) => u == uid && h == g && f == e | none => true
      let s := if same then s else yFlush s ci
      let y := yarrowOf s ci
      let s := setYarrow s ci { y with
        bits := y.bits ++ [taken], owner := if y.bits.isEmpty then some (uid, g, e, pc, masks) else y.owner }
      if (yarrowOf s ci).bits.length ≥ 16 then yFlush s ci else s

/-- The MASK packets of a split or throw (R381, R391); the entry that received the lanes is then known. -/
def traceMasks (s : State) (uid g e pc : Nat) (masks : List LaneMask) (dst : Option Nat) : List Nat → State
  | [] => s
  | v :: r =>
    let hdr := 0x30 + (match dst with | some d => d | none => 8)
    let (s, ok) := emit s uid g e pc masks (.bytes (BitVec.ofNat 8 hdr :: varintOf v)) false
    let s := match dst with
      | some d => if ok then modPath s uid g d fun q => { q with unrep := false } else s
      | none => s
    traceMasks s uid g e pc masks dst r

/-- The running entry became unreported (R382): a PATH with F = 1 at once. -/
def traceUnreport (s : State) (uid g e : Nat) : State :=
  let s := modPath s uid g e fun q => { q with unrep := true }
  match groupOf s uid g with
  | none => s
  | some gr =>
    match gr.paths[e]? with
    | none => s
    | some q => if gr.running = e then (emit s uid g e q.pc q.mask .path true).1 else s

/-- A run starts (R381): PATH on another entry than the last packet's, TS once its period has passed. -/
def traceRunStart (s : State) (uid g e : Nat) : State :=
  match blockOf s uid, pathOf s uid g e with
  | some b, some q =>
    if !traced s b then s
    else
      let ci := coreIndex b.die b.core
      let s := yFlush s ci
      let y := yarrowOf s ci
      let gid := gidAt s uid g
      let s := if y.last != some (gid, e) || q.unrep then (ySend s b uid g e gid q.pc q.mask .path false).1 else s
      let y := yarrowOf s ci
      let per := bitsAt y.ctl.toNat 16 16
      if per != 0 && decide ((s.sched.time.getD b.die 0) - y.lastTs ≥ per) then
        (ySend s b uid g e gid q.pc q.mask (.ts none) false).1
      else s
  | _, _ => s

/-- A run ends (R381). -/
def traceRunEnd (s : State) (uid : Nat) : State :=
  match blockOf s uid with
  | none => s
  | some b => if traced s b then yFlush s (coreIndex b.die b.core) else s

/-- JOINP (R380, R381). -/
def traceJoin (s : State) (uid g e pc : Nat) (masks : List LaneMask) (body : List Byte) : State :=
  (emit s uid g e pc masks (.bytes body) false).1

/-- A path record for the debug event ring, one for each register set that holds a lane (R371). -/
def pathRecords (s : State) (uid g p kind : Nat) : State :=
  match blockOf s uid, launchOfBlock s uid, pathOf s uid g p with
  | some b, some l, some q =>
    let base := (s.sched.time.getD b.die 0) % 2 ^ 64 + l.asid % 2 ^ 16 * 2 ^ 80 + gidOf b l.isTask g * 2 ^ 96
      + kind * 2 ^ 128 + p * 2 ^ 138 + q.pc % 2 ^ 48 * 2 ^ 144
    (List.range q.mask.length).foldl (fun s j =>
      let m := q.mask.getD j 0
      if m = 0 then s else ringPush s .dbq (toBytes 32 (base + j * 2 ^ 141 + m.toNat * 2 ^ 192))) s
  | _, _, _ => s

end Sys2Proof.Machine
end

