-- ==== Sys2Proof/Machine/Access.lean ====
section
/-!
DEFINITION. Address spaces and accesses (07 R134, R149, R150; 05 R96; 08 R153): addresses, the checks made at issue in
the order of R134, where a byte lies, scratchpad bytes, recorded lines (22 R385 to R388), and how issued loads and
stores take their data and are performed (R137 to R139).
-/

namespace Sys2Proof.Machine

/-! ### The issuer of an access -/

/-- The issuer of an access with its block and launch. -/
structure Iss where
  uid : Nat
  who : Nat
  b : Block
  l : Launch
  runtime : Bool
  deriving DecidableEq, Repr

/-- Whether a group runs in the runtime handler (R347). -/
def Group.inRuntime (g : Group) : Bool := g.shadows.head?.any fun s => s.runtime

def issOf (s : State) (uid who : Nat) : Option Iss :=
  match blockOf s uid with
  | none => none
  | some b =>
    match launchOf s b.launch with
    | none => none
    | some l => some ⟨uid, who, b, l, (b.groups[who]?).any Group.inRuntime⟩

def Iss.cl (i : Iss) : Nat := i.b.cluster

/-! ### Leases (R94, R96) -/

/-- Whether a launch has a range (R96). -/
def Launch.hasRange (l : Launch) : Bool := l.ranges.any fun r => r.2 != 0

def Launch.inRange (l : Launch) (va : Nat) : Bool := l.ranges.any fun r => decide (r.1 ≤ va ∧ va < r.1 + r.2)

/-- Every byte of a span lies in some range; ranges are whole granules (R94, R96). -/
def Launch.covers (l : Launch) (va n : Nat) : Bool :=
  !l.hasRange || n == 0
    || (List.range ((va + n - 1) / 65536 - va / 65536 + 1)).all fun i => l.inRange ((va / 65536 + i) * 65536)

/-! ### Addresses (R134) -/

/-- Whether a space has a 64-bit base (R134). -/
def wideBase : Space → Bool
  | .glb | .win => true
  | _ => false

/-- The address of a slot (R134): base register or pair plus the sign-extended offset. -/
def addrOf (r : Regs) (sp : Space) (sl : Slot) (a : Reg) (ofs : BitVec 21) : Nat :=
  let o := sextN 21 ofs.toNat
  if wideBase sp then truncN 64 ((r.rdW sl a.toNat 2 : Nat) + o) else truncN 32 ((r.rd sl a.toNat).toNat + o)

/-- Where an access lies. -/
inductive Loc where
  | mem (va : Nat)
  | scr (uid o : Nat)
  | free (die core o : Nat)
  deriving DecidableEq, Repr

/-- The logical thread of a slot (R286); the control thread's private area is thread 0's (R294). -/
def threadOf (b : Block) (g : Nat) : Slot → Nat
  | .lane j l => 64 * (b.v.groups * j + g) + l
  | .ctl => 0

/-- The base of a block's private slot (R294). -/
def slotBase (s : State) (b : Block) : Nat := s.work.ppBase + b.slot * s.work.ppSlotb

/-- VA of a byte of a slot's private area (R294). -/
def prvVa (s : State) (i : Iss) (sl : Slot) (o : Nat) : Nat :=
  slotBase s i.b + i.l.k.fmax + threadOf i.b i.who sl * i.l.prv + o

/-- The blocks of a cohort as it was placed, by block index. -/
def planOf (s : State) (coh : Nat) : List Member := ((cohortOf s coh).map (·.plan)).getD []

/-- The dies of a cohort's blocks, ascending. -/
def cohortDies (bs : List Member) : List Nat := (List.range 4).filter fun d => bs.any fun b => b.die == d

/-- The cores of a cohort on a die, ascending (R149). -/
def cohortCores (bs : List Member) (d : Nat) : List Nat :=
  (List.range 64).filter fun c => bs.any fun b => b.die == d && b.core == c

/-- The block and offset of a byte of a cohort region: the allocations in ascending block order (R149). -/
def regionAt : List Member → Nat → Nat → Option (Nat × Nat)
  | [], _, _ => none
  | b :: r, o, w =>
    if o + w ≤ b.scr then some (b.uid, o) else if o ≥ b.scr then regionAt r (o - b.scr) w else none

/-- A cohort window address (R149); an allocation given up by a block that has ended is reached no more. -/
def cohLoc (s : State) (i : Iss) (a w : Nat) : Option Loc :=
  let bs := planOf s i.b.cohort
  if bitsAt a 24 8 != 0 || decide (a ≥ 2 ^ 32) then none
  else match (cohortDies bs)[bitsAt a 23 1]? with
    | none => none
    | some d =>
      match (cohortCores bs d)[bitsAt a 18 5]? with
      | none => none
      | some c =>
        match regionAt (bs.filter fun b => b.die == d && b.core == c) (bitsAt a 0 18) w with
        | some (uid, o) => if (blockOf s uid).isSome then some (.scr uid o) else none
        | none => none

/-- The resident block of a cohort with an index in it (R143, R148). -/
def memberOf (s : State) (coh ix : Nat) : Option Block :=
  s.work.blocks.find? fun b => b.cohort == coh && b.inCoh == ix

/-- The offset in an allocation of bytes of its core's scratchpad (R150, R296). -/
def spanAt : List (Nat × Nat) → Nat → Nat → Option Nat
  | [], _, _ => none
  | (b, n) :: r, o, w => if b ≤ o ∧ o + w ≤ b + n then some (o - b) else (spanAt r o w).map (· + n)

/-- An on-chip window address (R150), as a program, or as the runtime handler, reaches it. -/
def winLoc (s : State) (i : Iss) (a w : Nat) : Option Loc :=
  let d := bitsAt a 45 3
  let c := bitsAt a 36 6
  let o := bitsAt a 0 22
  if bitsAt a 52 12 != 0 || bitsAt a 48 4 != 9 || d > 3 || bitsAt a 42 3 != 0 || bitsAt a 22 14 != 0
      || decide (o + w > 262144) then none
  else
    let here := (s.work.blocks.filter fun b => b.die == d && b.core == c).filterMap fun b =>
      (spanAt b.scrSpans o w).map fun p => (b.cohort, b.uid, p)
    if i.runtime then
      match here.head? with
      | some b => some (.scr b.2.1 b.2.2)
      | none => some (.free d c o)
    else (here.find? fun b => b.1 == i.b.cohort).map fun b => .scr b.2.1 b.2.2

/-! ### The checks of R134 -/

/-- What an instruction adds to the checks of its page (R125, R215, R246, R267). -/
structure PageRule where
  want : Want
  /-- only a WB page of device memory will do -/
  acc : Bool
  /-- no UC or WC page of host memory -/
  atom : Bool
  deriving DecidableEq, Repr

/-- Translation and permission of a global access, with the page-type checks (R86, R91, R125, R150, R246). -/
def pageCheck (s : State) (i : Iss) (va w : Nat) (p : PageRule) : Option Nat :=
  let k := keyOf i.l.asid va
  match walk s k.asid va with
  | none => some 7
  | some wk =>
    let pa := wk.pa va
    let a := pteAttr wk.pte
    let writes := p.want == .write || p.want == .both
    if !a.permits p.want i.runtime then some 7
    else if writes && inTables s pa then some 7
    else if p.acc && (a.mt != .wb || decide (paTarget pa > 7)) then some 7
    else if p.atom && (a.mt == .uc || a.mt == .wc) && paTarget pa == 8 then some 7
    else if paTarget pa = 9 then (match winLoc s i pa w with | some _ => none | none => some 7)
    else none

/-- The checks of one slot's access in the order of R134: the cause of the first that fails. -/
def checkAccess (s : State) (i : Iss) (sp : Space) (sl : Slot) (a w : Nat) (p : PageRule) : Option Nat :=
  match sp with
  | .glb =>
    if a ≥ 2 ^ 48 then some 7
    else if a % w != 0 then some 5
    else if !i.l.covers a w then some 6
    else pageCheck s i a w p
  | .scr => if a % w != 0 then some 5 else if a + w > i.b.v.scr then some 7 else none
  | .coh => if a % w != 0 then some 5 else if (cohLoc s i a w).isNone then some 7 else none
  | .prv =>
    if a % w != 0 then some 5
    else if a + w > i.l.prv then some 0x0D
    else if (walk s 0 (prvVa s i sl a)).isNone then some 7 else none
  | .win => if a % w != 0 then some 5 else if (winLoc s i a w).isNone then some 7 else none

/-- Where a checked access lies; a global page on an on-chip frame is served as that window address (R150). -/
def locOf (s : State) (i : Iss) (sp : Space) (sl : Slot) (a w : Nat) : Option Loc :=
  match sp with
  | .glb =>
    (match walk s (tabAsid i.l.asid a) a with
     | some wk => if paTarget (wk.pa a) = 9 then winLoc s i (wk.pa a) w else some (.mem a)
     | none => some (.mem a))
  | .scr => some (.scr i.uid a)
  | .coh => cohLoc s i a w
  | .prv => some (.mem (prvVa s i sl a))
  | .win => winLoc s i a w

/-- The key of a memory location: private areas lie in the global half (R294). -/
def locKey (i : Iss) (va : Nat) : Key := keyOf i.l.asid va

/-! ### Classes, threads and scopes (R153, R154) -/

/-- Storage classes (R153). -/
inductive StorClass where
  | prv | scr | glb | host
  deriving DecidableEq, Repr

/-- Whether a storage mask holds a class (R153). -/
def storHolds (m : Stor) : StorClass → Bool
  | .prv => m.prv
  | .scr => m.scr
  | .glb => m.glb
  | .host => m.host

/-- Whether a mask holds GLB or HOST (R127, R161). -/
def storWide (m : Stor) : Bool := m.glb || m.host

/-- The class of an access by its space and place (R153). -/
def classOf (s : State) (i : Iss) (sp : Space) (loc : Loc) : StorClass :=
  match sp, loc with
  | .prv, _ => .prv
  | _, .mem va =>
    (match pteOf s (locKey i va) with
     | some pte =>
       let t := paTarget (keyPa (locKey i va) pte)
       if t == 8 || t == 15 || pteMt pte == .hc then .host else .glb
     | none => .glb)
  | _, _ => .scr

/-- Whether two sets of a group's threads meet. -/
def masksMeet (a b : List LaneMask) : Bool := (List.zipWith (fun x y => x &&& y != 0) a b).any id

/-- The threads for which an access stands in program order (R153): a lane form's own lanes, a group form's whole path. -/
def threadsOf (group : Bool) (mask : List LaneMask) (slots : List Slot) : List LaneMask :=
  if group then mask
  else (List.range mask.length).map fun j => slots.foldl (fun m sl => match sl with
    | .lane j' l => if j' = j then m ||| (1 <<< l) else m
    | .ctl => m) 0

/-- The lanes of a group that have not exited. -/
def Group.liveMask (g : Group) : List LaneMask :=
  (g.paths.filter fun p => p.st != .free).foldl (fun m p => if m.isEmpty then p.mask else List.zipWith (· ||| ·) m p.mask) []

/-- Whether a scope of an issuer covers a thread of another issuer, by block and group (R154). -/
def scopeCovers (s : State) (i : Iss) (sc : Scope) (uid who : Nat) : Bool :=
  match sc with
  | .grp => uid == i.uid && who == i.who
  | .blk => uid == i.uid
  | .coh => (blockOf s uid).any fun b => b.cohort == i.b.cohort
  | .die => (blockOf s uid).any fun b => b.die == i.b.die
  | .pkg | .sys => true

/-- Whether a scope covers a party besides some threads of the issuer's own group (R154): beyond the block there may always
be one. -/
def coversOther (s : State) (i : Iss) (sc : Scope) (thr : List LaneMask) : Bool :=
  match sc with
  | .grp | .blk =>
    (match blockOf s i.uid with
     | none => false
     | some b =>
       (List.range b.groups.length).any (fun g => scopeCovers s i sc i.uid g && (match b.groups[g]? with
         | some gr => (if g = i.who then List.zipWith (fun x y => x &&& ~~~y) gr.liveMask thr else gr.liveMask).any (· != 0)
         | none => false))
       || (scopeCovers s i sc i.uid bmsWho && b.bms.any fun m => m.st != .exited))
  | _ => true

/-! ### Scratchpads -/

/-- `n` bytes of a scratchpad, little-endian; zero where nothing was written (R296). -/
def scrGet (m : SMap Byte) (o : Nat) : Nat → Nat
  | 0 => 0
  | n + 1 => ((m.get? o).getD 0).toNat + 256 * scrGet m (o + 1) n

def scrPut (m : SMap Byte) (o : Nat) : Nat → Nat → SMap Byte
  | 0, _ => m
  | n + 1, v =>
    scrPut (if v % 256 = 0 then m.erase o else m.set o (BitVec.ofNat 8 v)) (o + 1) n (v / 256)

def scrRead (s : State) (uid o n : Nat) : Nat :=
  match blockOf s uid with
  | some b => scrGet b.scr o n
  | none => 0

def scrWrite (s : State) (uid o n v : Nat) : State := modBlock s uid fun b => { b with scr := scrPut b.scr o n v }

/-- Bytes of a core's scratchpad that no block holds: free values until written (assumption log 9). -/
def freeRead (s : State) (die core o n : Nat) : Nat :=
  let ci := coreIndex die core
  ofBytes ((List.range n).map fun i =>
    ((coreState s ci).scr.get? (o + i)).getD ((Config.freeWord (1000000 + ci) (o + i)).truncate 8))

/-- Writes bytes of a core's scratchpad that no block holds. -/
def freeWrite (s : State) (die core o n v : Nat) : State :=
  modCore s (coreIndex die core) fun c => { c with
    scr := (List.range n).foldl (fun m i => m.set (o + i) (BitVec.ofNat 8 (v / 256 ^ i))) c.scr }

/-! ### Recorded lines (R385 to R388) -/

/-- The entry of the reduction cache for a source group (R387). -/
def implied (g : Group) (sg sc : Nat) : Bool := g.redc.any fun e => e.1 == sg && decide (e.2 ≥ sc)

/-- The group whose GID is given, with its clock. -/
def clockOf (s : State) (l : Launch) (gid : Nat) : Nat :=
  let bs := s.work.blocks.filter fun b => b.launch == l.id
  let gs := bs.flatMap fun b => (List.range b.groups.length).filterMap fun g =>
    if gidOf b l.isTask g = gid then (b.groups[g]?).map (·.gclk) else none
  gs.head?.getD 0

/-- The records a replay holds for a group, in the order supplied (R388): destination GC, source, source clock. -/
def replayRecords (s : State) (r : Replay) (gid : Nat) : List (Nat × Nat × Nat) :=
  (List.range (min (r.size / 16) 4096)).filterMap fun n =>
    match (engRead s (r.base + 16 * n) 16).2 with
    | none => none
    | some v =>
      if bitsAt v 0 32 = gid ∧ bitsAt v 96 32 ≠ 0 then some (bitsAt v 96 32, bitsAt v 32 32, bitsAt v 64 32) else none

/-- One access of a group to a recorded line (R386 to R388); `none` when it must wait. -/
def recordAccess (s : State) (i : Iss) (k : Key) (write : Bool) : Option State :=
  match i.l.rr, groupOf s i.uid i.who with
  | some r, some g =>
    if r.mode = 0 || !(i.l.inRange (vaOf k)) then some s
    else
      let gid := gidOf i.b i.l.isTask i.who
      let (wc, wg, rc, rg) := (r.clocks.get? k.line).getD (0, 2 ^ 32, 0, 2 ^ 32)
      let (sc, sg) := if wc ≥ rc then (wc, wg) else (rc, rg)
      let gc := max g.gclk sc + 1
      if gc > 2 ^ 32 - 1 then
        let s := (engWrite s (r.base + 16 * (r.tail % max 1 (r.size / 16))) 16 (2 ^ 32 - 1)).1
        some (modLaunch s i.l.id fun l => { l with rr := some { r with mode := 0, tail := r.tail + 1 } })
      else
        let ck := if write then (gc, gid, rc, rg) else (wc, wg, gc, gid)
        let fin (s : State) (r : Replay) (redc : List (Nat × Nat)) : State :=
          let s := modGroup s i.uid i.who fun g => { g with gclk := gc, redc := redc }
          modLaunch s i.l.id fun l => { l with rr := some { r with clocks := r.clocks.set k.line ck } }
        let log := sg != gid && sg != 2 ^ 32 && !implied g sg sc
        let redc := if log then (g.redc.filter fun e => e.1 != sg) ++ [(sg, sc)] else g.redc
        let redc := if redc.length > 8 then redc.drop 1 else redc
        if r.mode = 1 then
          if !log then some (fin s r redc)
          else if r.size / 16 = 0 || r.tail - r.head ≥ r.size / 16 then none
          else
            let v := gid + sg * 2 ^ 32 + sc * 2 ^ 64 + gc * 2 ^ 96
            let s := (engWrite s (r.base + 16 * (r.tail % (r.size / 16))) 16 v).1
            some (fin s { r with tail := r.tail + 1 } redc)
        else
          match (replayRecords s r gid)[g.replayed]? with
          | some (dst, src, clk) =>
            if dst = gc then
              if clockOf s i.l src ≥ clk then
                some (modGroup (fin s r redc) i.uid i.who fun g => { g with replayed := g.replayed + 1 })
              else none
            else some (fin s r redc)
          | none => some (fin s r redc)
  | _, _ => some s

/-! ### Reading and writing at a location -/

/-- Whether an instruction carries the stream hint (R23). -/
def streams (i : Instr) : Bool := match hdrOf i with | some h => h.hints.stream | none => false

/-- The allocation option of a load or store (R128). -/
def allocOf : Instr → Alloc
  | .ld _ _ _ _ al .. | .st _ _ _ _ al .. => al
  | _ => .dflt

/-- A core's L1 loses a line by capacity: its dirty sectors go to the cluster cache, its key enters the victim tags, the
newest 1,024 kept (R113, R151). -/
def evictL1 (s : State) (ci : Nat) (k : Key) : State :=
  let v := ((coreState s ci).l1.filter fun e => e.key == k).filterMap fun e => e.grp.map fun g => (k, g)
  let s := l1Return s (ci / 8) k (ci % 8) false
  modCore s ci fun c => { c with l1 := c.l1.filter (fun e => e.key != k)
                                 vtags := (c.vtags ++ v).drop ((c.vtags ++ v).length - 1024) }

/-- A full set of an L1 evicts its least recently used line before it takes another (R111; assumption log 103). -/
def l1Room (s : State) (ci : Nat) (k : Key) : State :=
  let l := (coreState s ci).l1
  if l.length < 12 then s
  else
    let mine := l.filter fun e => Config.l1Set e.key.line e.key.asid == Config.l1Set k.line k.asid
    if mine.length < 12 || mine.any (fun e => e.key == k) then s
    else match mine.head? with
      | some e => evictL1 s ci e.key
      | none => s

/-- The throttle sees one access of a group to the L1 of its core (R151): a miss that hits a victim tag of the same group
adds to the group's score. -/
def noteL1 (s : State) (i : Iss) (g : Group) (k : Key) : State :=
  let ci := coreIndex i.b.die i.b.core
  let c := coreState s ci
  let lost := !(c.l1.any fun e => e.key == k) && c.vtags.contains (k, g.gslot)
  let s := modCore s ci fun c => { c with
    accs := c.accs + 1
    hits := c.hits + lost.toNat
    vtags := if lost then c.vtags.erase (k, g.gslot) else c.vtags }
  if lost then modGroup s i.uid i.who fun g => { g with score := g.score + 1 } else s

/-- An L1 takes or keeps a line: in the most recent position, or for `.ef` in the least recent one (R128). -/
def l1Take (s : State) (ci : Nat) (k : Key) (grp : Option Nat) (sector : Option Nat) (al : Alloc) : State :=
  let s := l1Room s ci k
  modCore s ci fun c =>
    let old := ((c.l1.find? fun e => e.key == k).map (·.dirty)).getD []
    let e : L1Line := ⟨k, grp, match sector with | some q => insertNat q old | none => old⟩
    let rest := c.l1.filter fun e => e.key != k
    { c with l1 := if al == .ef then e :: rest else rest ++ [e] }

/-- A group's access to a cached line of its cluster, by way of its core's L1 (R113, R128, R151); `sector` is written. With
`.na` a line that the L1 lacks does not enter it, and a store writes the cluster's line. -/
def l1Access (s : State) (i : Iss) (k : Key) (sector : Option Nat) (stream : Bool) (al : Alloc) : State :=
  match groupOf s i.uid i.who with
  | none => s
  | some g =>
    let ci := coreIndex i.b.die i.b.core
    let n := i.b.core % 8
    let has := (coreState s ci).l1.any fun e => e.key == k
    let s := noteL1 s i g k
    let s := match sector with
      | some _ => recallL1 s i.cl k (if al == .na then none else some n)
      | none => if ((lineOf s i.cl k).bind (·.xh)) == some n then s else cleanL1 s i.cl k
    if al == .na && (sector.isSome || !has) then
      match lineOf s i.cl k, sector with
      | some c, some q => setLine s { c with dirty := insertNat q c.dirty }
      | _, _ => s
    else
      let s := l1Take s ci k (if stream then none else some g.gslot) sector al
      match lineOf s i.cl k with
      | some c => setLine s { c with
          l1 := if sector.isSome then [n] else insertNat n c.l1
          xh := if sector.isSome then some n else c.xh }
      | none => s

/-! ### Pod requests (R266, R267) -/

/-- Takes a pod request id and sends the request (R266, R267). A request to the own device is served inside. -/
def podSendFor (s : State) (uid who op at_ : Nat) (write : Bool) (o : Nat) (r : PodReq) : State :=
  let id := s.links.podNext
  let q : PodPend := ⟨id, write, uid, who, op, at_, s.sched.ns, none⟩
  reply { s with links := { s.links with podNext := id + 1, pods := s.links.pods ++ [q] } } (.podReq id (bitsAt o 38 10) r)

/-- A pod request of an operation of an issuer. -/
def podSend (s : State) (i : Iss) (op at_ : Nat) (write : Bool) (o : Nat) (r : PodReq) : State :=
  podSendFor s i.uid i.who op at_ write o r

/-! ### Write combining (R127, R267) -/

/-- A line of the buffer that still takes stores. -/
def WcLine.fills (w : WcLine) (cl : Nat) (k : Key) : Bool := w.cl == cl && w.key == k && !w.sent

/-- A line leaves the buffer. -/
def wcRemove (s : State) (w : WcLine) : State := { s with coh := { s.coh with wc := s.coh.wc.filter fun v => v != w } }

/-- Runs of adjacent bytes of a line, ascending: offset, bytes. -/
def wcRuns : SMap Byte → List (Nat × List Byte)
  | [] => []
  | (o, b) :: r =>
    match wcRuns r with
    | (p, bs) :: q => if p = o + 1 then (o, b :: bs) :: q else (o, [b]) :: (p, bs) :: q
    | [] => [(o, [b])]

/-- A line of the buffer that is on its way. -/
def wcSent (s : State) (w : WcLine) (pods : List Nat) : State :=
  { s with coh := { s.coh with wc := s.coh.wc.map fun v => if v = w then { w with sent := true, pods := pods } else v } }

/-- A line on a pod page leaves as pod writes, one a run of bytes (R267); it stays until they are answered. -/
def wcDrainPod (s : State) (w : WcLine) (o : Nat) : State :=
  let runs := wcRuns w.bytes
  let s' := runs.foldl (fun s r => podSendFor s 0 32 w.cl w.key.line true o (.write ((o + r.1) % 2 ^ 38) r.2)) s
  wcSent s' w ((List.range runs.length).map (s.links.podNext + ·))

/-- Who drains a cluster's buffer, for an answer of the host. -/
def wcTag (cl : Nat) : Nat × Nat × Nat := (cl, 32, 0)

/-- Drains one write-combining line to its home or peer (R127, R267); false while it must stay. A line whose page is gone is
dropped. -/
def wcDrainLine (s : State) (w : WcLine) : State × Bool :=
  if w.sent then (s, false)
  else match (pteOf s w.key).map (pageKind w.key) with
  | some (.pod o) => (wcDrainPod s w (o / 128 * 128), false)
  | some .uncached =>
    let sent := (s.coh.ucs.filter fun u => u.tag == wcTag w.cl).length
    (match uncachedWrite s (wcTag w.cl) w.key (w.bytes.length == 128)
        (fun l => w.bytes.foldl (fun l p => linePut l p.1 1 p.2.toNat) l) with
     | (s, .wait) =>
       (if (s.coh.ucs.filter fun u => u.tag == wcTag w.cl).length > sent then wcSent s w [] else s, false)
     | (s, _) => (wcRemove s w, true))
  | _ => (wcRemove s w, true)

/-- Lines whose writes have all been answered by the peer or the host leave the buffer. -/
def wcSettle (s : State) : State :=
  let open_ (w : WcLine) : Bool := w.pods.any (fun n => s.links.pods.any fun q => q.id == n && q.done.isNone)
    || s.coh.ucs.any fun u => u.tag == wcTag w.cl && u.key == w.key && u.done.isNone
  let ended := s.coh.wc.filter fun w => w.sent && !open_ w
  if ended.isEmpty then s
  else { s with
    coh := { s.coh with wc := s.coh.wc.filter (fun w => !ended.contains w)
                        ucs := s.coh.ucs.filter fun u => !ended.any fun w => u.tag == wcTag w.cl && u.key == w.key }
    links := { s.links with pods := s.links.pods.filter fun q => !ended.any fun w => w.pods.contains q.id } }

/-- Drains every line of a cluster's buffer that satisfies a test. -/
def wcDrainAll (s : State) (cl : Nat) (p : WcLine → Bool) : State :=
  (s.coh.wc.filter fun w => w.cl == cl && p w).foldl (fun s w => (wcDrainLine s w).1) s

/-- Whether a write-combining buffer of a cluster is empty (R127). -/
def wcEmpty (s : State) (cl : Nat) : Bool := !s.coh.wc.any fun w => w.cl == cl

/-- A store of an issuer puts bytes into the write-combining buffer (R127): a full line, or a full buffer, drains. -/
def wcStore (s : State) (i : Iss) (op : Nat) (k : Key) (o n v : Nat) : State :=
  let cl := i.cl
  let s := if (s.coh.wc.filter fun w => w.cl == cl && !w.sent).length ≥ 16 && !(s.coh.wc.any fun w => w.fills cl k) then
      wcDrainAll s cl fun _ => true else s
  let old := (s.coh.wc.find? (fun w => w.fills cl k)).getD ⟨cl, k, [], s.sched.cycle, [], false, []⟩
  let bytes := (List.range n).foldl (fun m j => m.set (o + j) (BitVec.ofNat 8 (v / 256 ^ j))) old.bytes
  let me := (i.l.id, i.uid, i.who, op)
  let w := { old with bytes := bytes, from_ := if old.from_.contains me then old.from_ else old.from_ ++ [me] }
  let s := { s with coh := { s.coh with wc := (s.coh.wc.filter fun v => !v.fills cl k) ++ [w] } }
  if bytes.length = 128 then (wcDrainLine s w).1 else s

/-- Whether bytes of an issuer's store wait in the buffer. -/
def wcOwes (s : State) (i : Iss) (op : Nat) : Bool := s.coh.wc.any fun w => w.from_.any fun f => f.2 == (i.uid, i.who, op)

/-! ### Issued loads and stores (R137 to R139) -/

/-- Bytes of an element and whether it is a load or a store, of a window entry. -/
def tyBytes : Ty → Nat
  | .b8 => 1
  | .b16 => 2
  | .b64 | .s64 | .n64 | .f64 => 8
  | .b128 => 16
  | .f16 | .bf16 => 2
  | _ => 4

/-- The width W of a type (R172). -/
def tyW : Ty → Nat
  | .s64 | .n64 | .f64 | .b64 => 64
  | .b128 => 128
  | .f16 | .bf16 | .b16 => 16
  | .b8 => 8
  | _ => 32

/-- The width, space and kind of an LD or ST. -/
def memShape : Instr → Option (Space × Nat × Bool)
  | .ld _ sp t .. => some (sp, tyBytes t, false)
  | .st _ sp t .. => some (sp, tyBytes t, true)
  | _ => none

/-- The locations of a window entry with their slots. -/
def pendLocs (s : State) (i : Iss) (p : Pend) : List (Slot × Nat × Loc) :=
  match memShape p.instr with
  | none => []
  | some (sp, w, _) =>
    p.acc.filterMap fun a => (locOf s i sp a.slot a.addr w).map fun l => (a.slot, a.addr, l)

/-- The distinct memory lines of a window entry, in ascending slot order (R138). -/
def pendKeys (s : State) (i : Iss) (p : Pend) : List Key :=
  (pendLocs s i p).foldl (fun ks x =>
    match x.2.2 with
    | .mem va => let k := locKey i va; if ks.contains k then ks else ks ++ [k]
    | _ => ks) []

/-- What the next line of a load comes to. -/
inductive Cap where
  | got (l : Line)
  | fault (cause addr : Nat)
  | wait
  deriving DecidableEq, Repr

/-- An operation of an issuer that waits at a line's home is remembered (R132). -/
def noteWait (s : State) (i : Iss) (k : Key) : State :=
  if s.coh.homeWaits.any fun w => w.key == k && w.blk == i.uid && w.who == i.who then s
  else { s with coh := { s.coh with homeWaits := s.coh.homeWaits ++ [⟨i.cl, k, i.uid, i.who, s.sched.ns⟩] } }

/-- An operation of an issuer waits no longer at the homes of lines. -/
def endWait (s : State) (i : Iss) (p : Key → Bool) : State :=
  { s with coh := { s.coh with homeWaits := s.coh.homeWaits.filter fun w => !(w.blk == i.uid && w.who == i.who && p w.key) } }

/-- The pod request of an operation for a line. -/
def podRead (s : State) (i : Iss) (op : Nat) (k : Key) : Option PodPend :=
  s.links.pods.find? fun q => q.blk == i.uid && q.who == i.who && q.op == op && q.at_ == k.line && !q.write

/-- A line's data as a load of this issuer reads it now, if it can (R137); what it needs is asked for. -/
def captureLine (s : State) (i : Iss) (op : Nat) (k : Key) (stream : Bool) (al : Alloc) : State × Cap :=
  match pteOf s k with
  | none => (s, .fault 7 (vaOf k))
  | some pte =>
    match pageKind k pte with
    | .cached =>
      (match takeRefusal s i.cl k with
       | some (c, s) => (s, .fault c (vaOf k))
       | none =>
         match held s i.cl k .rd with
         | some c =>
           if c.poison then (s, .fault 8 (vaOf k))
           else
             match recordAccess s i k false with
             | some s => (l1Access s i k none stream al, .got c.data)
             | none => (s, .wait)
         | none => (ask s i.cl k .rds, .wait))
    | .uncached =>
      (match takeRefusal s i.cl k with
       | some (c, s) => (s, .fault c (vaOf k))
       | none =>
         match recordAccess s i k false with
         | none => (s, .wait)
         | some t =>
           match uncachedRead t (i.uid, i.who, op) k with
           | (t, .ok l p) => let t := endWait t i (· == k); if p then (t, .fault 8 (vaOf k)) else (t, .got l)
           | (t, .bad c) => (t, .fault c (vaOf k))
           | (t, .wait) => (noteWait { t with work := s.work, links := s.links, cores := s.cores } i k, .wait))
    | .window _ => (s, .got 0)
    | .pod o =>
      match podRead s i op k with
      | some q =>
        (match q.done with
         | some (true, bytes) => (s, .got (BitVec.ofNat 1024 (ofBytes bytes)))
         | some (false, _) => (s, .fault 8 (vaOf k))
         | none => (s, .wait))
      | none => (podSend s i op k.line false o (.read (o % 2 ^ 38 / 128 * 128) 128), .wait)

/-- Window entries of an issuer. -/
def windowOf (s : State) (uid who : Nat) : List Pend := ((ctxOf s uid who).map (·.window)).getD []

def modPend (s : State) (uid who id : Nat) (f : Pend → Pend) : State :=
  modCtx s uid who fun c => { c with window := c.window.map fun p => if p.id = id then f p else p }

def dropPend (s : State) (uid who id : Nat) : State :=
  modCtx s uid who fun c => { c with window := c.window.filter fun p => p.id != id }

/-- Whether an earlier, unfinished access of the same issuer touches a line of this one (R158: program order to a byte). -/
def olderConflict (s : State) (i : Iss) (p : Pend) (lineOnly : Key → Bool) : Bool :=
  (windowOf s i.uid i.who).any fun q =>
    decide (q.id < p.id)
      && ((pendKeys s i q).any (fun k => lineOnly k && !(q.got.any fun g => g.1 == k.line))
          || ((pendLocs s i q).any fun x => match x.2.2 with | .mem _ => false | _ => true)
             && ((pendLocs s i p).any fun x => match x.2.2 with | .mem _ => false | _ => true))

/-- Captures what can be captured of a load's lines, in order. -/
def captureGo (i : Iss) (p : Pend) : List Key → State → List (Nat × Line) → Option (Nat × Nat) → State × List (Nat × Line) × Option (Nat × Nat)
  | [], s, got, f => (s, got, f)
  | k :: r, s, got, f =>
    if got.any (fun g => g.1 == k.line) then captureGo i p r s got f
    else if olderConflict s i p (fun q => q == k) then captureGo i p r s got f
    else match captureLine s i p.id k (streams p.instr) (allocOf p.instr) with
      | (s, .got l) => captureGo i p r s (got ++ [(k.line, l)]) f
      | (s, .fault c a) => captureGo i p r s got (match f with | some x => some x | none => some (c, a))
      | (s, .wait) => captureGo i p r s got f

/-- The value of one slot of a load whose lines are all there. -/
def loadValue (s : State) (i : Iss) (got : List (Nat × Line)) (w : Nat) (loc : Loc) : Nat :=
  match loc with
  | .mem va =>
    (match got.find? (fun g => g.1 == (locKey i va).line) with
     | some (_, l) => lineGet l (va % 128) w
     | none => 0)
  | .scr uid o => scrRead s uid o w
  | .free d c o => freeRead s d c o w

/-- Whether every line of a store is granted to its cluster, or needs no grant; the first refusal otherwise (R139). -/
def grantGo (i : Iss) : List Key → State → Bool → State × Bool × Option (Nat × Nat)
  | [], s, ok => (s, ok, none)
  | k :: r, s, ok =>
    match pteOf s k with
    | none => (s, false, some (7, vaOf k))
    | some pte =>
      if !pteW pte then (s, false, some (7, vaOf k))
      else
      match pageKind k pte with
      | .cached =>
        (match takeRefusal s i.cl k with
         | some (c, s) => (s, false, some (c, vaOf k))
         | none =>
           match held s i.cl k .wr with
           | some _ => grantGo i r s ok
           | none => grantGo i r (ask s i.cl k (needReq (lineOf s i.cl k) .wr)) false)
      | _ => grantGo i r s ok

/-- A store's bytes at one location, performed (R138), but for uncached lines, which are written whole. -/
def storeAt (s : State) (i : Iss) (op : Nat) (full : Key → Bool) (stream : Bool) (al : Alloc) (loc : Loc) (w v : Nat) : State :=
  match loc with
  | .scr uid o => scrWrite s uid o w v
  | .free d c o => freeWrite s d c o w v
  | .mem va =>
    let k := locKey i va
    match pteOf s k with
    | none => s
    | some pte =>
      match pageKind k pte with
      | .cached =>
        (match held s i.cl k .wr with
         | some _ =>
           let s := l1Access s i k (some (va % 128 / 32)) stream al
           (match lineOf s i.cl k with
            | some c => setLine s { c with st := .m, data := linePut c.data (va % 128) w v, poison := c.poison && !full k }
            | none => s)
         | none => s)
      | .uncached | .pod _ => if pteMt pte == .wc then wcStore s i op k (va % 128) w v else s
      | .window _ => s

/-- Whether a store writes all 128 bytes of a line (R129). -/
def writesLine (i : Iss) (locs : List (Slot × Nat × Loc)) (w : Nat) (k : Key) : Bool :=
  (List.range 128).all fun o => locs.any fun x =>
    match x.2.2 with
    | .mem va => locKey i va == k && decide (va % 128 ≤ o ∧ o < va % 128 + w)
    | _ => false

/-- The bytes a store writes from one slot: the low `w` of D. -/
def Pend.datum (p : Pend) (slotIx regs : Nat) : Nat :=
  (List.range regs).foldr (fun j n => (p.data.getD (slotIx * regs + j) 0).toNat + 2 ^ 32 * n) 0

/-- Whether a key's page is uncached without write combining (R127). -/
def plainUncached (s : State) (k : Key) : Bool :=
  match pteOf s k with
  | some pte => pageKind k pte == .uncached && pteMt pte != .wc
  | none => false

/-- A store's bytes within one line. -/
def storeLine (i : Iss) (locs : List (Slot × Nat × Loc)) (p : Pend) (w : Nat) (k : Key) (l : Line) : Line :=
  (List.range locs.length).foldl (fun l n =>
    match (locs[n]?).map (·.2.2) with
    | some (Loc.mem va) => if locKey i va = k then linePut l (va % 128) w (p.datum n ((w + 3) / 4) % 256 ^ w) else l
    | _ => l) l

/-- Whether the homes of a store's uncached lines can take it now (R139). -/
def uncachedReady (s : State) (ks : List Key) : State × Option Key :=
  (ks.filter (plainUncached s)).foldl (fun r k =>
    match r.2 with
    | some _ => r
    | none => match uncachedIdle r.1 k with | (s, true) => (s, none) | (s, false) => (s, some k)) (s, none)

/-- The granted store is performed, slot by slot in ascending order (R138), an uncached line by one request (R127); `none`
when a recording makes it wait. -/
def performStore (s : State) (i : Iss) (p : Pend) (w : Nat) : Option State :=
  let locs := pendLocs s i p
  let keys := pendKeys s i p
  let logged := keys.foldl (fun (o : Option State) k => o.bind fun s => recordAccess s i k true) (some s)
  logged.map fun s =>
    let full := writesLine i locs w
    let regs := (w + 3) / 4
    let s := (List.range locs.length).foldl (fun s n =>
      match locs[n]? with
      | some x => storeAt s i p.id full (streams p.instr) (allocOf p.instr) x.2.2 w (p.datum n regs % 256 ^ w)
      | none => s) s
    (keys.filter (plainUncached s)).foldl (fun s k =>
      (uncachedWrite s (i.uid, i.who, p.id) k (full k) (storeLine i locs p w k)).1) s

end Sys2Proof.Machine
end

