-- ==== Sys2Proof/Machine/Lines.lean ====
section
/-!
DEFINITION. Lines that an operation needs together (07 R139; 13 R246 to R248, R257; 16 R324): where its accesses lie, lines
owned by a cluster, lines made ready at their homes, and the read and write of one lane of an atomic there.
-/

namespace Sys2Proof.Machine

/-- Slots with their addresses. -/
def accessesOf (r : Regs) (sp : Space) (a : Reg) (ofs : BitVec 21) (slots : List Slot) : List Access :=
  slots.map fun sl => ⟨sl, addrOf r sp sl a ofs⟩

/-- Where each slot's access lies. -/
def locsOf (s : State) (i : Iss) (sp : Space) (w : Nat) (acc : List Access) : List (Slot × Nat × Loc) :=
  acc.filterMap fun a => (locOf s i sp a.slot a.addr w).map fun l => (a.slot, a.addr, l)

/-- The lines of `n` bytes from a VA. -/
def spanKeys (i : Iss) (va n : Nat) : List Key := (pieces (pieceFuel n) va n 0).map fun p => locKey i p.1

/-- The distinct memory lines of accesses of `n` bytes, in slot order. -/
def keysOf (i : Iss) (n : Nat) (locs : List (Slot × Nat × Loc)) : List Key :=
  locs.foldl (fun ks x => match x.2.2 with
    | .mem va => (spanKeys i va n).foldl (fun ks k => if ks.contains k then ks else ks ++ [k]) ks
    | _ => ks) []

/-- Whether some access lies in a scratchpad. -/
def anyScr (locs : List (Slot × Nat × Loc)) : Bool := locs.any fun x => match x.2.2 with | .mem _ => false | _ => true

/-- What gathering lines comes to. -/
inductive Lines where
  | ok
  | fault (cause addr : Nat)
  | wait
  deriving DecidableEq, Repr

/-- The kind of a key's page, as far as a walk finds one. -/
def kindOf (s : State) (k : Key) : Option PageKind := (pteOf s k).map (pageKind k)

/-- Obtains each cached line for a cluster, running its messages. -/
def needLines (cl : Nat) (n : Need) : List Key → State → State × Lines
  | [], s => (s, .ok)
  | k :: r, s =>
    match kindOf s k with
    | none => (s, .fault 7 (vaOf k))
    | some .cached =>
      (match obtain s cl k n with
       | (s, .line _) => needLines cl n r s
       | (s, .fault c) => (s, .fault c (vaOf k))
       | (s, .wait) => (s, .wait))
    | some _ => needLines cl n r s

/-- Whether every cached line of a list is held for a need at once. -/
def allHeld (s : State) (cl : Nat) (n : Need) (ks : List Key) : Bool :=
  ks.all fun k => kindOf s k != some .cached || (held s cl k n).isSome

/-- Lines obtained together, or the instruction waits. -/
def gather (s : State) (cl : Nat) (n : Need) (ks : List Key) : State × Lines :=
  match needLines cl n ks s with
  | (s, .ok) => if allHeld s cl n ks then (s, .ok) else (s, .wait)
  | r => r

/-- Every line of a list recorded for a replay (R386); `none` when a record makes it wait. -/
def recordAll (s : State) (i : Iss) (ks : List Key) (write : Bool) : Option State :=
  ks.foldl (fun (o : Option State) k => o.bind fun s => recordAccess s i k write) (some s)

/-! ### Lines at their homes (R247, R324) -/

/-- Reads the line of a join object at its home, after recalling it (R324); what the home asked for stays asked for. -/
def joinLine (s : State) (asid va : Nat) : State × MemRes :=
  let k := keyOf asid va
  match recallLine s k enginePty false with
  | (s, false) => (s, .wait)
  | (s, true) =>
    match homeTake s k with
    | (s, .ok l p) => if homeBusy s k then (s, .wait) else (s, .ok l p)
    | (s, .bad c) => (s, .bad c)
    | (s, .wait) => (s, .wait)
    | (s, .ask hpa) => (hostAsk s k hpa true, .wait)

/-- A host line that a far operation has used is given up once its home stands HI (R131). -/
def farDone (s : State) (k : Key) : State := if (dirOf s k).st == .hi then hostRelease s k else s

/-- The home of a line is ready to take an issuer's far operations at once: every copy recalled, its data readable (R247,
R257); a wait of 2 ms ends in 0x12 (R132). -/
def homeReady (s : State) (i : Iss) (k : Key) : State × Lines :=
  match takeRefusal s i.cl k with
  | some (c, s) => (s, .fault c (vaOf k))
  | none =>
    match joinLine s k.asid (vaOf k) with
    | (s, .ok _ _) => (s, .ok)
    | (s, .bad c) => (s, .fault c (vaOf k))
    | (s, .wait) => (noteWait s i k, .wait)

def homesReady (i : Iss) : List Key → State → State × Lines
  | [], s => (s, .ok)
  | k :: r, s =>
    match homeReady s i k with
    | (s, .ok) => homesReady i r s
    | x => x

/-- Whether every line of a list stands HI and idle at its home. -/
def allIdle (s : State) (ks : List Key) : Bool := ks.all fun k =>
  let e := dirOf s k
  e.st == .hi && e.txn == none && e.queue.isEmpty && !homeBusy s k

/-- Homes made ready together, or the instruction waits. -/
def gatherHomes (s : State) (i : Iss) (ks : List Key) : State × Lines :=
  match homesReady i ks s with
  | (s, .ok) => if allIdle s ks then (endWait s i ks.contains, .ok) else (s, .wait)
  | x => x

/-! ### Atomics (R247 to R249) -/

/-- What an operation does to a location: the new value, and whether it writes (R248, R249). -/
structure Rmw where
  new : Nat
  write : Bool
  flag : Bool
  deriving DecidableEq, Repr

/-- ATOM's operations on W bits (R248, R249). -/
def atomRmw (op : AtomOp) (w old v b : Nat) : Rmw :=
  match op with
  | .add => ⟨(old + v) % 2 ^ w, true, false⟩
  | .and => ⟨old &&& v, true, false⟩
  | .or => ⟨old ||| v, true, false⟩
  | .xor => ⟨old ^^^ v, true, false⟩
  | .smin => ⟨if sextN w old ≤ sextN w v then old else v, true, false⟩
  | .smax => ⟨if sextN w old ≥ sextN w v then old else v, true, false⟩
  | .nmin => ⟨min old v, true, false⟩
  | .nmax => ⟨max old v, true, false⟩
  | .exch => ⟨v, true, false⟩
  | .incw => ⟨if old ≥ v then 0 else old + 1, true, false⟩
  | .badd => if old + v ≤ b then ⟨old + v, true, true⟩ else ⟨old, false, false⟩

/-- ACAS (R248). -/
def casRmw (old c n : Nat) : Rmw := if old = c then ⟨n, true, false⟩ else ⟨old, false, false⟩

/-- Where an atomic is performed (R247). -/
inductive AtomPlace where
  | near | home | pod (o : Nat) | here
  deriving DecidableEq, Repr

def atomPlace (s : State) (i : Iss) (far : Bool) (loc : Loc) : AtomPlace :=
  match loc with
  | .mem va =>
    let k := locKey i va
    (match kindOf s k with
     | some .cached => if far || (dirOf s k).st == .ha then .home else .near
     | some (.pod o) => .pod (o / 128 * 128 + va % 128)
     | _ => .home)
  | _ => .here

/-- One lane of an atomic: its slot, its location, and where it is performed, settled once for the instruction. -/
abbrev AtomLane := Slot × Loc × AtomPlace

/-- The lanes of an atomic with their places, as the homes stand when it begins (R247). -/
def placeAll (s : State) (i : Iss) (far : Bool) (locs : List (Slot × Nat × Loc)) : List AtomLane :=
  locs.map fun x => (x.1, x.2.2, atomPlace s i far x.2.2)

/-- The keys of the lanes performed at a place. -/
def keysAt (i : Iss) (p : AtomPlace) (ps : List AtomLane) : List Key :=
  keysOf i 1 ((ps.filter fun x => x.2.2 == p).map fun x => (x.1, 0, x.2.1))

/-- The lines of an atomic: near lines owned by the cluster, home lines recalled; poison is cause 8 (R129). -/
def atomGather (s : State) (i : Iss) (ps : List AtomLane) : State × Lines :=
  let near := keysAt i .near ps
  let homes := keysAt i .home ps
  match gather s i.cl .wr near with
  | (s, .ok) =>
    (match gatherHomes s i homes with
     | (s, .ok) =>
       if !allHeld s i.cl .wr near then (s, .wait)
       else
         let bad := (near.find? fun k => (lineOf s i.cl k).any (·.poison)).orElse fun _ =>
           homes.find? fun k => match homeTake s k with | (_, .ok _ p) => p | _ => false
         match bad with
         | some k => (s, .fault 8 (vaOf k))
         | none => (s, .ok)
     | x => x)
  | x => x

/-- One lane's read and write, with the old value (R248). -/
def atomLane (s : State) (i : Iss) (stream : Bool) (n : Nat) (op : Nat → Rmw) (loc : Loc) (p : AtomPlace) : State × Nat :=
  match loc with
  | .scr uid o =>
    let old := scrRead s uid o n
    let r := op old
    (if r.write then scrWrite s uid o n r.new else s, old)
  | .free d c o =>
    let old := freeRead s d c o n
    let r := op old
    (if r.write then freeWrite s d c o n r.new else s, old)
  | .mem va =>
    let k := locKey i va
    match p with
    | .near =>
      let s := l1Access s i k (some (va % 128 / 32)) stream .dflt
      (match lineOf s i.cl k with
       | some c =>
         let old := lineGet c.data (va % 128) n
         let r := op old
         (setLine s { c with st := .m, data := if r.write then linePut c.data (va % 128) n r.new else c.data }, old)
       | none => (s, 0))
    | _ =>
      match homeTake s k with
      | (s, .ok l p) =>
        let old := lineGet l (va % 128) n
        let r := op old
        (if r.write then homeAbsorb s k (linePut l (va % 128) n r.new) p else countFar s k, old)
      | (s, _) => (s, 0)

/-- The lanes of an atomic in ascending order, with their old values; pod lanes are left out. -/
def atomGo (i : Iss) (stream : Bool) (n : Nat) (op : Slot → Nat → Rmw) :
    List AtomLane → State → List (Slot × Nat) → State × List (Slot × Nat)
  | [], s, vs => (s, vs)
  | (sl, loc, p) :: r, s, vs =>
    match p with
    | .pod _ => atomGo i stream n op r s vs
    | _ =>
      let (s, old) := atomLane s i stream n (op sl) loc p
      atomGo i stream n op r s (vs ++ [(sl, old)])

/-- The local lanes of an atomic whose lines are gathered; host lines used at their homes are given up (R131, R248). -/
def atomLocal (s : State) (i : Iss) (stream : Bool) (n : Nat) (op : Slot → Nat → Rmw) (ps : List AtomLane) :
    State × List (Slot × Nat) :=
  let (s, vs) := atomGo i stream n op ps s []
  ((keysAt i .home ps).foldl farDone s, vs)

/-- D of ATOM and ACAS: the old value, and the success flag of `.badd` (R248). -/
def writeOld (badd : Bool) (d : Reg) (n : Nat) (flag : Slot → Nat → Bool) (vs : List (Slot × Nat)) (r : Regs) : Regs :=
  vs.foldl (fun r v =>
    let r := r.wrN v.1 d.toNat n v.2
    if badd then r.wrN v.1 (d.toNat + n) n (flag v.1 v.2).toNat else r) r

end Sys2Proof.Machine
end

