-- ==== Sys2Proof/Machine/Ops.lean ====
section
/-!
DEFINITION. The operations every family uses: retirement (09 R169, 07 R139), counters and armed waits (R135, R136),
discarding after a memory fault (R139), draining (20 R355), queues and JOIN signals (15 R291, R293, 16 R326), ending a
task on a trap (20 R351, R352), TAKING AN EXCEPTION (R344 to R348) and returning from one (R350).
-/

namespace Sys2Proof.Machine

/-! ### The issuer of the instruction in hand -/

/-- What a meaning works with: the issuer, its register view, and the slots it executes in. -/
structure Ex where
  cur : Cur
  r : Regs
  mask : List LaneMask
  slots : List Slot
  deriving DecidableEq, Repr

/-- The path of the instruction in hand; a BMS context has none. -/
def maskAt (s : State) (c : Cur) : List LaneMask :=
  match pathOf s c.blk c.who c.path with
  | some p => p.mask
  | none => []

/-- The execution of an instruction with a header: none when nothing issues. -/
def exOf (s : State) (h : Hdr) : Option Ex :=
  match s.sched.cur with
  | none => none
  | some c =>
    match regsOf s c.blk c.who with
    | none => none
    | some r =>
      let m := maskAt s c
      some ⟨c, r, m, activeSlots r h m⟩

/-- The issuer goes on at a PC. -/
def goto (s : State) (c : Cur) (pc : Nat) : State :=
  if c.who = bmsWho then modBms s c.blk fun m => { m with pc := pc }
  else modPath s c.blk c.who c.path fun p => { p with pc := pc }

/-- The next instruction in order (R13). -/
def nextPc (c : Cur) : Nat := (c.pc + 12) % 2 ^ 48

/-- One more instruction of an issuer has issued. -/
def bumpOrder (s : State) (uid who : Nat) : State := modCtx s uid who fun c => { c with order := c.order + 1 }

/-- The instruction retires without another effect. -/
def pass (s : State) (c : Cur) : State := bumpOrder (goto s c (nextPc c)) c.blk c.who

/-! ### Last use (R169) -/

/-- Registers of an operand that a last-use hint marks. -/
def useSpan : Option Use → Nat × Nat
  | some ⟨.reg n _, r, _⟩ => (r.toNat, n)
  | some ⟨.la, r, _⟩ => (r.toNat, 24)
  | some ⟨.rec8, r, _⟩ => (r.toNat, 8)
  | some ⟨.sdesc n _, r, _⟩ => (r.toNat, n)
  | some ⟨.vec, r, _⟩ => (r.toNat, 1)
  | _ => (0, 0)

/-- The registers that last-use hints on A and B name. -/
def lastUses (i : Instr) (h : Hdr) : List (Nat × Nat) :=
  let u := uses i
  (if h.hints.lastA then [useSpan u.a] else []) ++ (if h.hints.lastB then [useSpan u.b] else [])

/-- A mark comes before the instruction's own writes: the write stands (R169). -/
def markDeadRegs (i : Instr) (h : Hdr) (slots : List Slot) (r : Regs) : Regs :=
  (lastUses i h).foldl (fun r u => slots.foldl (fun r sl => r.killN sl u.1 u.2) r) r

/-- The register keys that an instruction's hints mark: whether a vector register's. -/
def marksOf (i : Instr) (h : Hdr) (slots : List Slot) (r : Regs) : List (Bool × Nat) :=
  let e := markDeadRegs i h slots { r with v := [], g := [] }
  (e.v.map fun x => (true, x.1)) ++ e.g.map fun x => (false, x.1)

/-! ### Instructions that have issued and not retired (R139, R169, R304) -/

/-- Issued memory instructions of a path that have not passed their fault points. -/
def unpassed (s : State) (uid who path : Nat) : Bool :=
  (windowOf s uid who).any fun p => p.path == path && !p.passed

/-- Whether two cells are one. -/
def Cell.meets : Cell → Cell → Bool
  | .v a _, .v b _ | .g a _, .g b _ | .p a _, .p b _ | .k a _, .k b _ => a == b
  | _, _ => false

/-- Whether a register mark names a cell. -/
def Cell.markedBy : Cell → Bool × Nat → Bool
  | .v a _, (true, b) | .g a _, (false, b) => a == b
  | _, _ => false

/-- A cell with the contents that another of its kind held. -/
def Cell.withOld : Cell → Cell → Cell
  | .v a _, .v _ o => .v a o
  | .g a _, .g _ o => .g a o
  | .p a _, .p _ o => .p a o
  | .k a _, .k _ o => .k a o
  | c, _ => c

/-- The cells that a function of the registers writes, each with what the registers held. -/
def writtenCells (r : Regs) (new : Regs → Regs) : List Cell :=
  let e := new { r with v := [], g := [], p := [], k := [] }
  (e.v.map fun x => .v x.1 (r.v.get? x.1)) ++ (e.g.map fun x => .g x.1 (r.g.get? x.1))
    ++ (e.p.map fun x => .p x.1 (r.p.get? x.1)) ++ e.k.map fun x => .k x.1 (r.k.get? x.1)

/-- A cell put back. -/
def restoreCell (r : Regs) : Cell → Regs
  | .v k o => { r with v := match o with | some x => r.v.set k x | none => r.v.erase k }
  | .g k o => { r with g := match o with | some x => r.g.set k x | none => r.g.erase k }
  | .p k o => { r with p := match o with | some x => r.p.set k x | none => r.p.erase k }
  | .k k o => { r with k := match o with | some x => r.k.set k x | none => r.k.erase k }

/-- The order number of the next instruction an issuer issues. -/
def orderOf (s : State) (uid who : Nat) : Nat := ((ctxOf s uid who).map (·.order)).getD 0

/-- Cells have been written for good: what earlier instructions wrote there, or would mark there, is past (R304). -/
def Group.settled (g : Group) (cells : List Cell) : Group :=
  { g with undo := g.undo.filter fun u => !cells.any fun c => c.meets u.cell
           ahead := g.ahead.map fun a => { a with marks := a.marks.filter fun m => !cells.any fun c => c.markedBy m } }

/-- An instruction that has not retired has written cells: they can be given back (R139). -/
def Group.recorded (g : Group) (path order : Nat) (cells : List Cell) : Group :=
  { g with undo := g.undo ++ cells.map fun c => ⟨path, order, c⟩ }

/-- Registers of an issuer written for good: by an instruction that retires, a completion, an engine, or a debugger. -/
def putFinal (s : State) (uid who : Nat) (new : Regs → Regs) : State :=
  match regsOf s uid who with
  | none => s
  | some r =>
    let s := putRegs s uid who (new r)
    if who = bmsWho then s else modGroup s uid who fun g => g.settled (writtenCells r new)

/-- One mark of an instruction that retires: a later write that has not retired stands, and falls back to the mark (R169). -/
def Group.markAt (g : Group) (order : Nat) (m : Bool × Nat) : Group :=
  let later (u : Undo) : Bool := u.cell.markedBy m && decide (u.order > order)
  if g.undo.any later then
    { g with undo := modFirst later (fun u => { u with cell := match u.cell with | .v k _ => .v k (some none) | .g k _ => .g k (some none) | c => c }) g.undo }
  else if m.1 then { g with vregs := g.vregs.set m.2 none }
  else { g with ctx := { g.ctx with gregs := g.ctx.gregs.set m.2 none } }

/-- An instruction retires: its marks take effect, and what it wrote is past (R139, R169). -/
def Group.retireOne (g : Group) (a : Ahead) : Group :=
  let g := { g with ahead := g.ahead.filter fun x => x.order != a.order }
  let g := a.marks.foldl (fun g m => g.markAt a.order m) g
  let mine := g.undo.filter fun u => u.order == a.order
  { g with
    undo := g.undo.filter fun u => u.order != a.order && !(decide (u.order < a.order) && mine.any fun w => w.cell.meets u.cell)
    ahead := g.ahead.map fun x => if x.order < a.order then
      { x with marks := x.marks.filter fun m => !mine.any fun w => w.cell.markedBy m } else x }

/-- Instructions of a group behind which no unpassed memory instruction of their path stands retire, in order (R139). -/
def trimUndo (s : State) (uid who : Nat) : State :=
  if who = bmsWho then s
  else modGroup s uid who fun g =>
    (g.ahead.filter fun a => !g.ctx.window.any fun p => p.path == a.path && !p.passed && decide (p.id ≤ a.order)).foldl Group.retireOne g

/-- The register that the operand buffer holds after an instruction (R167): a reuse field leaves its register there; a
write to it or a last-use mark of it drops it. A load's reply drops it when it arrives. -/
def opbufAfter (i : Instr) (h : Hdr) (held : Option Nat) : Option Nat :=
  let u := uses i
  let named := match h.reuse.toNat with
    | 1 => some (useSpan u.a).1 | 2 => some (useSpan u.b).1 | 3 => some (useSpan u.c).1 | _ => held
  let writes := match i with
    | .ld .. | .st .. | .acst .. | .aadd .. => []
    | .acrnd .. => [useSpan u.d, useSpan u.c]
    | _ => [useSpan u.d]
  let gone := if h.g then [] else writes ++ lastUses i h
  named.filter fun n => !gone.any fun sp => decide (sp.1 ≤ n ∧ n < sp.1 + sp.2)

/-- The operand buffer takes what an executing instruction leaves in it. -/
def noteOpbuf (s : State) (x : Ex) (i : Instr) (h : Hdr) : State :=
  if x.cur.who = bmsWho || x.slots.isEmpty then s
  else modGroup s x.cur.blk x.cur.who fun g => { g with opbuf := opbufAfter i h g.opbuf }

/-- The instruction's registers written: sources were read before, marks come first, writes last. Behind an unpassed memory
instruction of its path it waits to retire: its marks wait with it, and its writes can be given back (R139, R169). -/
def commit (s : State) (x : Ex) (i : Instr) (h : Hdr) (new : Regs → Regs) : State :=
  let c := x.cur
  if c.who ≠ bmsWho && unpassed s c.blk c.who c.path then
    let cells := writtenCells x.r new
    let marks := (marksOf i h x.slots x.r).filter fun m => !cells.any fun q => q.markedBy m
    let o := orderOf s c.blk c.who
    noteOpbuf (modGroup (putRegs s c.blk c.who (new x.r)) c.blk c.who fun g =>
      { g.recorded c.path o cells with ahead := g.ahead ++ [⟨c.path, o, marks⟩] }) x i h
  else
    let all (r : Regs) : Regs := new (markDeadRegs i h x.slots r)
    let s := putRegs s c.blk c.who (all x.r)
    noteOpbuf (if c.who = bmsWho then s else modGroup s c.blk c.who fun g => g.settled (writtenCells x.r all)) x i h

/-- A register instruction retires: its writes, then the next instruction. -/
def retire (s : State) (x : Ex) (i : Instr) (h : Hdr) (new : Regs → Regs) : State :=
  pass (commit s x i h new) x.cur

/-! ### Counters (R135, R136) -/

/-- A register mark of an armed instruction when it retires. -/
def killGs (s : State) (uid who : Nat) (ks : List Nat) : State :=
  if ks.isEmpty then s else putFinal s uid who fun r => ks.foldl (fun r k => r.kill .ctl k) r

/-- The delay already paid by a group that comes out of a wait (R390). -/
def payWait (s : State) (uid g : Nat) : State :=
  match blockOf s uid with
  | some b =>
    match launchOf s b.launch with
    | some l => modGroup s uid g fun gr => { gr with paid := l.cxd.getD b.die 0 }
    | none => s
  | none => s

/-- An armed wait fires (R136): a WAITC retires; a SUSPEND goes on to wait for its cohort (R325). -/
def fireWait (s : State) (uid who p : Nat) : State :=
  if who = bmsWho then
    match (blockOf s uid).bind (·.bms) with
    | some m => killGs (modBms s uid fun m => { m with st := .run, wait := .none, kills := [], pc := (m.pc + 12) % 2 ^ 48 }) uid who m.kills
    | none => s
  else
    match pathOf s uid who p with
    | some q =>
      (match q.wait with
       | .ctr _ _ (some (o, c)) =>
         modPath s uid who p fun q => { q with st := .barw, wait := .suspend o c }
       | _ =>
         payWait (killGs (modPath s uid who p fun q =>
           { q with st := .ready, wait := .none, kills := [], pc := (q.pc + 12) % 2 ^ 48 }) uid who q.kills) uid who)
    | none => s

/-- The wait an armed entry of a context holds. -/
def armedWait (s : State) (uid who p : Nat) : Wait :=
  if who = bmsWho then (((blockOf s uid).bind (·.bms)).map (·.wait)).getD .none
  else ((pathOf s uid who p).map (·.wait)).getD .none

/-- The armed waits that a fall of a counter reaches, thresholds from high to low, ties in arming order (R136). -/
def firing (s : State) (uid who c : Nat) (new : Int) : List Nat :=
  let hits := (((ctxOf s uid who).map (·.armed)).getD []).filterMap fun p =>
    match armedWait s uid who p with
    | .ctr c' t _ => if c' = c ∧ new ≤ t then some (p, t) else none
    | _ => none
  (sortBy (fun a b => decide (a.2 ≥ b.2)) hits).map (·.1)

def ctrOf (s : State) (uid who c : Nat) : Int := (((ctxOf s uid who).map (·.ctrs)).getD []).getD c 0

/-- A counter takes a value; a fall fires armed waits in unit-step order (R135, R136). -/
def setCtr (s : State) (uid who c : Nat) (v : Int) : State :=
  let old := ctrOf s uid who c
  let s := modCtx s uid who fun x => { x with ctrs := x.ctrs.set c v }
  if v < old then
    let fs := firing s uid who c v
    let s := modCtx s uid who fun x => { x with armed := x.armed.filter fun p => !fs.contains p }
    fs.foldl (fun s p => fireWait s uid who p) s
  else s

/-- The counter of a memory extension, 15 for none (R25). -/
def ctrIndex (m : MemX) : Option Nat := if m.ctr = 15 then none else some m.ctr.toNat

def raiseCtr (s : State) (uid who : Nat) : Option Nat → State
  | none => s
  | some c => setCtr s uid who c (ctrOf s uid who c + 1)

def lowerCtr (s : State) (uid who : Nat) : Option Nat → State
  | none => s
  | some c => setCtr s uid who c (ctrOf s uid who c - 1)

/-- Whether an instruction that raises a counter waits at its limit (R135). -/
def ctrFull (s : State) (uid who : Nat) : Option Nat → Bool
  | none => false
  | some c => decide (ctrOf s uid who c ≥ 32767)

/-! ### Discarding (R139) -/

/-- The memory extension of an instruction. -/
def memxOf : Instr → Option MemX
  | .ld _ _ _ _ _ _ _ m | .st _ _ _ _ _ _ _ m | .pref _ _ _ m | .acld _ _ _ _ m | .acst _ _ _ _ _ m
  | .disc _ _ _ m | .atom _ _ _ _ _ _ _ m | .acas _ _ _ _ _ _ m | .aadd _ _ _ _ _ m | .afin _ _ _ _ _ _ _ _ m => some m
  | _ => none

def pendCtr (p : Pend) : Option Nat := (memxOf p.instr).bind ctrIndex

/-- The pod and host requests of one operation of an issuer are over. -/
def dropPods (s : State) (uid who op : Nat) : State :=
  { s with
    links := { s.links with pods := s.links.pods.filter fun q => !(q.blk == uid && q.who == who && q.op == op) }
    coh := { s.coh with ucs := s.coh.ucs.filter fun u => u.tag != (uid, who, op) } }

/-- The pod requests of a window entry. -/
def podsOf (s : State) (i : Iss) (p : Pend) : List PodPend :=
  s.links.pods.filter fun q => q.blk == i.uid && q.who == i.who && q.op == p.id

/-- What a discarded instruction wrote is given back (R139): to the next instruction that wrote the cell, or to the cell. -/
def undoOne (x : List Undo × Regs) (u : Undo) : List Undo × Regs :=
  let later (w : Undo) : Bool := w.cell.meets u.cell && decide (w.order > u.order)
  if x.1.any later then (modFirst later (fun w => { w with cell := w.cell.withOld u.cell }) x.1, x.2)
  else (x.1, restoreCell x.2 u.cell)

/-- A faulting memory instruction and every later instruction of its path are discarded with their register writes and
marks; their counters fall again (R135, R139, R169). -/
def discardFrom (s : State) (uid g path order : Nat) : State :=
  match groupOf s uid g, regsOf s uid g, issOf s uid g with
  | some gr, some r, some i =>
    let gone (p o : Nat) : Bool := p == path && decide (o ≥ order)
    let mine := gr.undo.filter fun u => gone u.path u.order
    let (undo, r) := mine.foldr (fun u x => undoOne x u) (gr.undo.filter (fun u => !gone u.path u.order), r)
    let late := gr.ctx.window.filter fun p => gone p.path p.id
    let keys := late.flatMap (pendKeys s i)
    let s := putRegs s uid g r
    let s := modGroup s uid g fun gr =>
      { gr with undo := undo
                ahead := gr.ahead.filter (fun a => !gone a.path a.order)
                ctx := { gr.ctx with window := gr.ctx.window.filter fun p => !gone p.path p.id } }
    let kept := ((ctxOf s uid g).map (·.window)).getD []
    let s := { s with coh := { s.coh with
      refused := s.coh.refused.filter fun q => !(q.1 == i.cl && keys.contains q.2.1 && !kept.any fun p => (pendKeys s i p).contains q.2.1) } }
    late.foldl (fun s p => lowerCtr (dropPods s uid g p.id) uid g (pendCtr p)) (endWait s i keys.contains)
  | _, _, _ => s

/-- Whether every request that a path's instructions from one on have sent has ended (R135). -/
def requestsEnded (s : State) (i : Iss) (path order : Nat) : Bool :=
  (windowOf s i.uid i.who).all fun p => !(p.path == path && decide (p.id ≥ order))
    || (!((pendKeys s i p).any (reqOut s i.cl)) && !((podsOf s i p).any fun q => q.done == none)
        && !s.coh.ucs.any fun u => u.tag == (i.uid, i.who, p.id) && u.done.isNone)

/-! ### Completing issued accesses (R137 to R139) -/

/-- Registers that a completed access writes: for good, unless its path still has an older instruction that has not passed
its fault point (R139). -/
def putDone (s : State) (i : Iss) (p : Pend) (new : Regs → Regs) : State :=
  match regsOf s i.uid i.who with
  | none => s
  | some r =>
    let cells := writtenCells r new
    let behind := (windowOf s i.uid i.who).any fun q => q.path == p.path && !q.passed && decide (q.id < p.id)
    let drop (g : Group) : Group := { g with opbuf := g.opbuf.filter fun n => !cells.any fun c => match c with
      | .v k _ => k / 64 % max 1 r.span == n | _ => false }
    modGroup (putRegs s i.uid i.who (new r)) i.uid i.who fun g =>
      drop (if behind then g.recorded p.path p.id cells else g.settled cells)

/-- An access is complete: its entry, its requests and its waits are gone, its counter falls, and what stood behind it may
retire. -/
def endPend (s : State) (i : Iss) (p : Pend) : State :=
  let s := dropPods (dropPend s i.uid i.who p.id) i.uid i.who p.id
  trimUndo (lowerCtr s i.uid i.who (pendCtr p)) i.uid i.who

/-- A load's values reach D (R137, R138). -/
def finishLoad (s : State) (i : Iss) (p : Pend) (got : List (Nat × Line)) : State :=
  match p.instr with
  | .ld _ sp t _ _ d _ _ =>
    let w := tyBytes t
    endPend (putDone s i p fun r => p.acc.foldl (fun r a =>
      match locOf s i sp a.slot a.addr w with
      | some l => r.wrN a.slot d.toNat ((w + 3) / 4) (loadValue s i got w l)
      | none => r) r) i p
  | _ => s

/-- What trying to complete a window entry comes to. -/
inductive Done where
  | yes
  | fault (cause addr : Nat)
  | wait
  deriving DecidableEq, Repr

/-- Tries to complete a load with what its cluster holds now, asking for the rest. -/
def tryLoad (s : State) (i : Iss) (p : Pend) : State × Done :=
  let keys := pendKeys s i p
  let blockedScr := keys.isEmpty && olderConflict s i p fun _ => false
  let (s, got, f) := captureGo i p keys s p.got none
  match f with
  | some (c, a) => (modPend s i.uid i.who p.id fun q => { q with got := got }, .fault c a)
  | none =>
    if !blockedScr && keys.all (fun k => got.any fun g => g.1 == k.line) then (finishLoad s i p got, .yes)
    else (modPend s i.uid i.who p.id fun q => { q with got := got }, .wait)

/-! ### Releases (R127, R137, R155, R161) -/

/-- The classes of an entry's accesses (R153); what a window holds beside loads and stores is a pod atomic. -/
def pendClasses (s : State) (i : Iss) (p : Pend) : List StorClass :=
  match memShape p.instr with
  | some (sp, _, _) => (pendLocs s i p).map fun x => classOf s i sp x.2.2
  | none => [.host]

/-- Whether a store's bytes are still on their way: in the write-combining buffer, with a peer, or with the host. -/
def storeOpen (s : State) (i : Iss) (p : Pend) : Bool :=
  wcOwes s i p.id || (podsOf s i p).any (fun q => q.done == none)
    || s.coh.ucs.any fun u => u.tag == (i.uid, i.who, p.id) && u.done.isNone

/-- Whether a store is performed at a scope (R137): its bytes are where every other party reads them, or the scope covers no
other party. -/
def performedAt (s : State) (i : Iss) (sc : Scope) (p : Pend) : Bool :=
  p.passed && (match p.instr with | .st .. => true | _ => false) && (!storeOpen s i p || !coversOther s i sc p.thr)

/-- Whether a release of some threads waits for an earlier access of theirs to a class of its mask (R155, R161). -/
def releaseWaits (s : State) (i : Iss) (thr : List LaneMask) (m : Stor) (sc : Scope) (before : Nat) : Bool :=
  (windowOf s i.uid i.who).any fun q => decide (q.id < before) && masksMeet q.thr thr
    && (pendClasses s i q).any (storHolds m) && !performedAt s i sc q

/-- Makes a release of some threads (R127, R155, R161): a mask with GLB or HOST drains the cluster's write-combining buffer;
whether every earlier access it orders is performed. -/
def release (s : State) (i : Iss) (thr : List LaneMask) (m : Stor) (sc : Scope) (before : Nat) : State × Bool :=
  let s := if storWide m then wcDrainAll s i.cl fun _ => true else s
  (s, !releaseWaits s i thr m sc before && (!storWide m || wcEmpty s i.cl))

/-- `release` of an instruction at issue: every access in the window is earlier. -/
def releaseAt (s : State) (i : Iss) (x : Ex) (group : Bool) (m : Stor) (sc : Scope) : State × Bool :=
  release s i (threadsOf group x.mask x.slots) m sc (orderOf s i.uid i.who)

/-- SCR and GLB, over which barriers and deposits release (R155). -/
def storScrGlb : Stor := ⟨false, true, true, false⟩

/-- SCR, GLB and HOST, over which signals release (R293, R326). -/
def storSys : Stor := ⟨true, true, true, false⟩

/-- The pod writes of a store that is performed (R266, R267): one a slot, but for pages that combine writes. -/
def sendPodStores (s : State) (i : Iss) (p : Pend) (w : Nat) : State :=
  (List.range p.acc.length).foldl (fun s ix =>
    match (p.acc[ix]?).bind fun a => (memShape p.instr).bind fun m => locOf s i m.1 a.slot a.addr w with
    | some (.mem va) =>
      (match pteOf s (locKey i va) with
       | some pte => (match pageKind (locKey i va) pte with
           | .pod o => if pteMt pte == .wc then s
               else podSend s i p.id 0 true o (.write ((o - o % 128 + va % 128) % 2 ^ 38) (toBytes w (p.datum ix ((w + 3) / 4))))
           | _ => s)
       | none => s)
    | _ => s) s

/-- A store that is performed leaves its window, or stays as passed while its bytes are on their way (R137). -/
def passStore (s : State) (i : Iss) (p : Pend) (sc : Scope) : State :=
  let q := { p with passed := true }
  if performedAt s i sc q then endPend s i p
  else trimUndo (modPend s i.uid i.who p.id fun q => { q with passed := true }) i.uid i.who

/-- Tries to perform a store (R137, R139): every line granted, every earlier instruction of its path past its fault
point; a release after every earlier access it orders. A combined, pod or host write completes later. -/
def tryStore (s : State) (i : Iss) (p : Pend) : State × Done :=
  match p.instr with
  | .st _ _ t rel _ _ _ m =>
    let w := tyBytes t
    let keys := pendKeys s i p
    if p.passed then
      if performedAt s i m.scope p then (endPend s i p, .yes) else (s, .wait)
    else
      let older := (windowOf s i.uid i.who).any fun q => decide (q.id < p.id) && q.path == p.path && !q.passed
      let (s, free) := if rel && !older then release s i p.thr m.stor m.scope p.id else (s, true)
      if older || !free then (s, .wait)
      else match grantGo i keys s true with
      | (s, _, some (c, a)) => (s, .fault c a)
      | (s, false, none) => (s, .wait)
      | (s, true, none) =>
        match uncachedReady s keys with
        | (s, some k) =>
          (match takeRefusal s i.cl k with
           | some (c, s) => (s, .fault c (vaOf k))
           | none => (noteWait s i k, .wait))
        | (s, none) =>
          match performStore (endWait s i keys.contains) i p w with
          | none => (s, .wait)
          | some s => (passStore (sendPodStores s i p w) i p m.scope, .yes)
  | _ => (s, .wait)

/-! ### Pod atomics (R246, R267) -/

/-- What an atomic does to a location with two operands of its slot (R248). -/
def rmwOf : Instr → Nat → Nat → Nat → Rmw
  | .atom _ op _ t _ _ _ _, v, b, old => atomRmw op (tyW t) old v b
  | .acas .., c, n, old => casRmw old c n
  | _, _, _, old => ⟨old, false, false⟩

/-- D, registers of a value, and whether a success flag is written, of an atomic (R248). -/
def atomShape : Instr → Option (Reg × Nat × Bool × Bool)
  | .atom _ op far t _ d _ _ => some (d, tyRegs t, op == .badd, far)
  | .acas _ far t _ d _ _ => some (d, tyRegs t, false, far)
  | _ => none

/-- The two operands of a slot of an issued atomic, by its place in the entry. -/
def Pend.operand (p : Pend) (n ix j : Nat) : Nat :=
  (List.range n).foldr (fun k v => (p.data.getD (2 * n * ix + j * n + k) 0).toNat + 2 ^ 32 * v) 0

/-- The place of a slot in an entry. -/
def Pend.slotIx (p : Pend) (sl : Slot) : Nat := p.acc.findIdx fun a => a.slot == sl

/-- Tries to complete an atomic whose pod requests are out (R246, R267): every answer there, its other lanes are performed and
D takes the old values; a failed request gives poison, cause 8. -/
def tryPod (s : State) (i : Iss) (p : Pend) : State × Done :=
  match atomShape p.instr with
  | none => (s, .wait)
  | some (d, n, badd, far) =>
    let qs := podsOf s i p
    if qs.any (fun q => q.done == none) then (s, .wait)
    else match qs.find? (fun q => match q.done with | some (ok, _) => !ok | none => false) with
    | some q => (s, .fault 8 (((p.acc[q.at_]?).map (·.addr)).getD 0))
    | none =>
      let op (sl : Slot) : Nat → Rmw := rmwOf p.instr (p.operand n (p.slotIx sl) 0) (p.operand n (p.slotIx sl) 1)
      let ps := placeAll s i far (locsOf s i .glb (4 * n) p.acc)
      match atomGather s i ps with
      | (s, .wait) => (s, .wait)
      | (s, .fault c a) => (s, .fault c a)
      | (s, .ok) =>
        match recordAll s i ((keysAt i .near ps) ++ keysAt i .home ps) true with
        | none => (s, .wait)
        | some s =>
          let (s, vs) := atomLocal s i (streams p.instr) (4 * n) op ps
          let far_ := qs.map fun q =>
            (((p.acc[q.at_]?).map (·.slot)).getD .ctl, match q.done with | some (_, b) => ofBytes b % 2 ^ (32 * n) | none => 0)
          (endPend (putDone s i p (writeOld badd d n (fun sl old => (op sl old).flag) (vs ++ far_))) i p, .yes)

/-- Tries to complete a window entry by the data it waits for. -/
def tryData (s : State) (i : Iss) (p : Pend) : State × Done :=
  match p.instr with
  | .ld .. => tryLoad s i p
  | .atom .. | .acas .. => tryPod s i p
  | _ => (s, .wait)

/-! ### Prefetches that are out (R140) -/

/-- One more dropped or poisoned prefetch (R140). -/
def prefDrop (s : State) : State := { s with coh := { s.coh with prefDrop := s.coh.prefDrop + 1 } }

/-- One line of a PREF that is out: whether its request has been granted or dropped, and the line as it now stands (R128,
R140). A `.wbi` gives the line up once, and is granted by its WBAck. For `.s` on a line in A, R116 sends RdS and R128 nothing: the
model's choice is R128's (assumption log 110). -/
def prefLine (s : State) (cl : Nat) (mode : PrefMode) (k : Key) (sent : Bool) : State × Option Bool :=
  match mode with
  | .wbi =>
    if sent then (s, if wbPending s cl k then some true else none)
    else if reqOut s cl k then (s, some false)
    else
      let bad := (lineOf s cl k).any (·.poison)
      let s := evictLine s cl k
      (if bad then prefDrop s else s, if wbPending s cl k then some true else none)
  | _ =>
    match takeRefusal s cl k with
    | some (_, s) => (prefDrop s, none)
    | none =>
      match mode, lineOf s cl k with
      | .s, some c => (if sent && c.poison then prefDrop s else s, none)
      | _, _ =>
        match (if mode == .x then held s cl k .wr else none) with
        | some c => (if sent && c.poison then prefDrop (setLine s c) else setLine s c, none)
        | none => (ask s cl k (needReq (lineOf s cl k) (if mode == .x then .wr else .rd)), some true)

/-- The lines of a PREF go on as far as they can; those still out. -/
def prefGo (cl : Nat) (mode : PrefMode) : List (Key × Bool) → State → State × List (Key × Bool)
  | [], s => (s, [])
  | (k, sent) :: r, s =>
    match prefLine s cl mode k sent with
    | (s, some b) => let (s, l) := prefGo cl mode r s; (s, (k, b) :: l)
    | (s, none) => prefGo cl mode r s

/-- PREFs whose requests have all been granted or dropped lower their counters (R140). -/
def flushPrefs (s : State) : State :=
  s.coh.prefs.foldl (fun s p =>
    let (s, left) := prefGo p.cl p.mode p.keys s
    let others := s.coh.prefs.erase p
    if left.isEmpty then lowerCtr { s with coh := { s.coh with prefs := others } } p.blk p.who p.ctr
    else { s with coh := { s.coh with prefs := s.coh.prefs.map fun q => if q = p then { p with keys := left } else q } }) s

/-! ### Draining (R355) -/

/-- Runs a window entry's lines to their end, then tries to complete it. -/
def drainOne (s : State) (i : Iss) (p : Pend) : State × Done :=
  let store := match p.instr with | .st .. => true | _ => false
  let s := (pendKeys s i p).foldl (fun s k =>
    match pteOf s k with
    | some pte => (match pageKind k pte with
        | .cached => (match obtain s i.cl k (if store then .wr else .rd) with
            | (s, .fault c) => { s with coh := { s.coh with refused := s.coh.refused ++ [(i.cl, k, c)] } }
            | (s, _) => s)
        | _ => s)
    | none => s) s
  if store then
    let s := if p.passed then wcDrainAll s i.cl fun w => w.from_.any fun f => f.2 == (i.uid, i.who, p.id) else s
    match tryStore s i p with
    | (s, .yes) =>
      if (windowOf s i.uid i.who).any (fun q => q.id == p.id) then
        tryStore (wcDrainAll s i.cl fun w => w.from_.any fun f => f.2 == (i.uid, i.who, p.id)) i { p with passed := true }
      else (s, .yes)
    | r => r
  else tryData s i p

/-- The PREFs of an issuer run to their end. -/
def drainPrefs (s : State) (i : Iss) : State × Bool :=
  let mine (p : Pref) : Bool := p.blk == i.uid && p.who == i.who
  if !s.coh.prefs.any mine then (s, true)
  else
    let s := flushPrefs (((s.coh.prefs.filter mine).flatMap (·.keys)).foldl (fun s k => settle settleFuel s k.1) s)
    (s, !s.coh.prefs.any mine)

/-- Drains the window of an issuer in issue order. A fault of a path keeps its cause, and discards what follows. -/
def drainGo (i : Iss) : Nat → State → List (Nat × Nat × Nat × Nat) → State × List (Nat × Nat × Nat × Nat) × Bool
  | 0, s, fs => (s, fs, false)
  | n + 1, s, fs =>
    match windowOf s i.uid i.who with
    | [] => let (s, done) := drainPrefs s i; (s, fs, done)
    | p :: _ =>
      match drainOne s i p with
      | (s, .yes) => drainGo i n s fs
      | (s, .wait) => (s, fs, false)
      | (s, .fault c a) =>
        if requestsEnded s i p.path p.id then
          drainGo i n (discardFrom s i.uid i.who p.path p.id) (fs ++ [(p.path, p.pc, c, a)])
        else (s, fs, false)

/-! ### Queues and JOIN signals (R291, R293, R324, R326) -/

/-- Whether a queue has room for a record. -/
def queueRoom (s : State) (q : Nat) : Bool :=
  let n := (s.work.qsize.get? q).getD 0
  n != 0 && ((s.work.qtail.get? q).getD 0 + 1) % n != (s.work.qhead.get? q).getD 0

/-- Appends a 32-byte record to a queue (R291); false when it is full or its memory makes it wait. -/
def queueAppend (s : State) (q record asid prv : Nat) : State × Bool :=
  if !queueRoom s q then (s, false)
  else
    let n := (s.work.qsize.get? q).getD 0
    let t := (s.work.qtail.get? q).getD 0
    match engWrite s ((s.work.qbase.get? q).getD 0 + 32 * t) 32 record with
    | (s, false) => (s, false)
    | (s, true) =>
      ({ s with work := { s.work with
        qtail := s.work.qtail.set q ((t + 1) % n)
        enq := (s.work.enq.filter fun e => !(e.1 == q && e.2.1 == t)) ++ [(q, t, s.sched.cycle)]
        origin := (s.work.origin.filter fun e => !(e.1 == q && e.2.1 == t)) ++ [(q, t, asid, prv)] } }, true)

/-- SIGNAL's update at the object's home (R326): COUNT falls by the delta; at or below 0 a waiting record is enqueued in
the same step. False when it must wait; what it has asked for stays asked for. -/
def joinUpdate (s : State) (asid va : Nat) (delta : Int) : State × Bool :=
  let k := keyOf asid va
  match joinLine s asid va with
  | (s, .wait) => (s, false)
  | (s, .bad _) => (s, true)
  | (s, .ok l p) =>
    let o := va % 128
    let v := lineGet l o 64
    let cnt := truncN 32 ((bitsAt v 0 32 : Nat) - delta)
    let fires := decide (sextN 32 cnt ≤ 0) && bitAt v 64
    let v' := putBits v 0 32 cnt
    let v' := if fires then putBits v' 64 1 0 else v'
    let put (s : State) : State := farDone (homeAbsorb s k (linePut l o 64 v') p) k
    if fires then
      match queueAppend s (bitsAt v 66 6) (bitsAt v 256 256) asid 0 with
      | (s, true) => (put s, true)
      | (s, false) => (s, false)
    else (put s, true)

/-- JOIN signals that the distributor still owes are made, each after the stores of its launch's blocks (R293). -/
def flushJoins (s : State) : State :=
  s.work.joins.foldl (fun s j =>
    let mine (w : WcLine) : Bool := w.from_.any fun f => some f.1 == j.2.2
    let s := (s.coh.wc.filter mine).foldl (fun s w => (wcDrainLine s w).1) s
    if s.coh.wc.any mine then s
    else match joinUpdate s j.1 j.2.1 1 with
      | (s, true) => { s with work := { s.work with joins := s.work.joins.erase j } }
      | (s, false) => s) s

/-- The distributor signals a launch's JOIN, 0 for none (R293). -/
def joinSignal (s : State) (asid va : Nat) (launch : Option Nat) : State :=
  if va = 0 then s
  else flushJoins { s with work := { s.work with joins := s.work.joins ++ [(asid, va, launch)] } }

/-! ### The end of a launch or task (R293, R95) -/

/-- A launch whose last block has ended signals its JOIN and gives up its leases, once. -/
def launchCheck (s : State) (id : Nat) : State :=
  match launchOf s id with
  | none => s
  | some l =>
    let left := s.work.blocks.any (fun b => b.launch == id) || s.work.away.any fun a => a.launch == id
    if l.finished || left || !(l.failed || decide (l.next ≥ l.nblk)) then s
    else joinSignal (modLaunch s id fun l => { l with finished := true, leased := false }) l.asid l.join (some id)

/-- The head of a queue passes records that were taken before their turn (R293). -/
def passTaken : Nat → State → Nat → State
  | 0, s, _ => s
  | fuel + 1, s, q =>
    let n := max 1 ((s.work.qsize.get? q).getD 0)
    let h := (s.work.qhead.get? q).getD 0
    if s.work.taken.contains (q, h) then
      passTaken fuel { s with work := { s.work with qhead := s.work.qhead.set q ((h + 1) % n), taken := s.work.taken.erase (q, h) } } q
    else s

/-- A record leaves its queue: the head goes on past it, and past what was taken before; another one is taken where it
stands (R291, R293). -/
def popAt (s : State) (q ix : Nat) : State :=
  let n := max 1 ((s.work.qsize.get? q).getD 0)
  let mine (a b : Nat) : Bool := a == q && b == ix
  let s := { s with work := { s.work with
    origin := s.work.origin.filter fun e => !mine e.1 e.2.1
    enq := s.work.enq.filter fun e => !mine e.1 e.2.1 } }
  if (s.work.qhead.get? q).getD 0 = ix then
    let s := { s with work := { s.work with qhead := s.work.qhead.set q ((ix + 1) % n) } }
    passTaken (s.work.taken.length + 1) s q
  else { s with work := { s.work with taken := s.work.taken ++ [(q, ix)] } }

/-- The head leaves its queue. -/
def popHead (s : State) (q : Nat) : State := popAt s q ((s.work.qhead.get? q).getD 0)

/-- A launch record that hands out no further blocks leaves the head of its queue (R293). -/
def dequeueLaunch (s : State) (id : Nat) : State :=
  match launchOf s id with
  | some l => if l.queued then modLaunch (popHead s l.queue) id fun l => { l with queued := false } else s
  | none => s

/-- What a cohort held is free again: its blocks, its barriers, its TASK values after a purge (R256, R351). -/
def dropCohort (s : State) (coh : Nat) : State :=
  let tasks := ((s.work.blocks.filter fun b => b.cohort == coh).map (·.task))
    ++ ((s.work.away.filter fun a => a.cohort == coh).map (·.task))
  { s with work := { s.work with
      blocks := s.work.blocks.filter (fun b => b.cohort != coh)
      away := s.work.away.filter (fun a => a.cohort != coh)
      cohorts := s.work.cohorts.filter (fun c => c.uid != coh)
      deposits := s.work.deposits.filter (fun d => d.cohort != coh)
      purge := tasks.foldl (fun l t => insertNat t l) s.work.purge } }

/-- The issuers of a block. -/
def issuersOf (b : Block) : List Nat := List.range b.groups.length ++ (if b.bms.isSome then [bmsWho] else [])

/-- Issued memory instructions of a cohort drain (R355); what an outside party still owes is left. -/
def drainCohort (s : State) (coh : Nat) : State :=
  (cohortBlocks s coh).foldl (fun s b =>
    (issuersOf b).foldl (fun s who =>
      match issOf s b.uid who with
      | some i => (drainGo i 200 s []).1
      | none => s) s) s

/-- A trap record (R352). -/
def trapRecord (pc addr asid block kdesc die core ctx cause code kind : Nat) : List Byte :=
  toBytes 32 (kind % 16 + code % 2 ^ 16 * 2 ^ 16 + cause % 256 * 2 ^ 32 + ctx % 4 * 2 ^ 45 + core % 64 * 2 ^ 47
    + die % 8 * 2 ^ 53 + kdesc % 2 ^ 48 * 2 ^ 64 + block % 2 ^ 32 * 2 ^ 112 + asid % 2 ^ 16 * 2 ^ 144
    + addr % 2 ^ 48 * 2 ^ 160 + pc % 2 ^ 48 * 2 ^ 208)

/-- The TRAP code and cause of a cause word (R346). -/
def causeOf (w : Word) : Nat := w.toNat % 256
def codeOf (w : Word) : Nat := w.toNat / 2 ^ 16

/-- A cohort ends on a trap (R351): it halts and drains, one record is written unless a command ends it, everything it
holds is released, its launch fails and hands out nothing more. -/
def endCohort (s : State) (coh launch : Nat) (record : Option (List Byte)) : State :=
  let s := drainCohort s coh
  let s := match record with | some e => ringPush s .trq e | none => s
  let s := dropCohort s coh
  let s := modLaunch s launch fun l => { l with failed := true }
  launchCheck (dequeueLaunch s launch) launch

/-- Ends a task on a trap with a record of a kind (R351, R352). -/
def endTask (s : State) (uid : Nat) (t : PTrap) (kind : Nat) : State :=
  match blockOf s uid, launchOfBlock s uid with
  | some b, some l =>
    endCohort s b.cohort b.launch (some (trapRecord t.pc t.addr l.asid b.index l.kdesc b.die b.core 0 (causeOf t.cause)
      (if kind = 1 then codeOf t.cause else 0) kind))
  | _, _ => s

/-! ### Taking an exception (R344 to R348) -/

/-- What a check finds: a cause, the faulting address, and the failing slot. -/
structure Flt where
  cause : Nat
  addr : Nat
  slot : Option Slot
  deriving DecidableEq, Repr

/-- A trap as SR_TRAPCAUSE (R346), g121 (R347), the address, the PC and the word give it. -/
def mkTrap (f : Flt) (laneForm after : Bool) (code pc : Nat) (word : IWord) : PTrap :=
  let cw := f.cause + (if after then 2 ^ 8 else 0) + (if laneForm then 2 ^ 9 else 0) + code % 2 ^ 16 * 2 ^ 16
  let g := match f.slot with | some (.lane j l) => l + j * 2 ^ 6 | _ => 2 ^ 9
  let addr := if [5, 6, 7, 8, 0x12].contains f.cause then f.addr else 0
  ⟨BitVec.ofNat 32 cw, addr, BitVec.ofNat 32 g, pc, word⟩

/-- Causes that a user handler may take (R345). -/
def userCause (c : Nat) : Bool := c == 9 || c == 0x0E || c == 0x0F || c == 0x10

/-- The registers a handler is entered with (R347). -/
def handlerRegs (r : Regs) (t : PTrap) (cw : Word) (mask : LaneMask) : Regs :=
  let r := r.wrG 120 cw
  let r := r.wrG 121 t.g121
  let r := r.wrG 122 (BitVec.ofNat 32 t.addr)
  let r := r.wrG 123 (BitVec.ofNat 32 (t.addr / 2 ^ 32))
  let r := r.wrG 124 (BitVec.ofNat 32 mask.toNat)
  let r := r.wrG 125 (BitVec.ofNat 32 (mask.toNat / 2 ^ 32))
  let r := r.wrG 126 (t.word.truncate 32)
  let r := r.wrG 127 ((t.word >>> 32).truncate 32)
  (r.wrK 6 (bitAt cw.toNat 9)).wrK 7 false

/-- TAKES A TRAP of a group's path (R344, R347, R348): the shadow set keeps g120–g127, k6, k7, the cause, the trap PC and
the resume PC; the handler's registers are written; the path goes on at the handler. A trap inside the runtime handler,
and a lease violation, end the task (R348, R351). -/
def enterHandler (s : State) (uid g path : Nat) (t : PTrap) (resume : Nat) : State :=
  match groupOf s uid g, regsOf s uid g, pathOf s uid g path with
  | some gr, some r, some q =>
    let c := causeOf t.cause
    if gr.inRuntime then endTask s uid t 3
    else if c = 6 then endTask s uid t 0
    else
      let nested := !gr.shadows.isEmpty
      let user := userCause c && !nested && gr.utrap != 0
      let cw := if nested then t.cause ||| 0x400#32 else t.cause
      let sh : Shadow := ⟨!user, (List.range 8).map fun n => r.rdG (120 + n), r.rdK 6, r.rdK 7, cw, t.pc, resume⟩
      let j := bitsAt t.g121.toNat 6 3
      let s := putFinal s uid g fun r => handlerRegs r t cw (q.mask.getD j 0)
      let s := modGroup s uid g fun gr => { gr with shadows := sh :: gr.shadows, hpath := some path, running := path, runLen := 0 }
      let s := modPath s uid g path fun q =>
        { q with pc := if user then gr.utrap.toNat % 2 ^ 48 else s.mgmt.rth % 2 ^ 48, st := .ready, wait := .none, trap := none
                 step := false }
      traceUnreport s uid g path
  | _, _, _ => s

/-- The debug stop of MODE 0 in place of causes 0x10 and 0x11 (R374). -/
def debugStop (s : State) (uid g path kind pc : Nat) : State :=
  pathRecords (modPath s uid g path fun q => { q with pc := pc, st := .ready, held := true, step := false }) uid g path kind

/-- A BMS trap halts the BMS and writes a KIND 2 record (R353). -/
def bmsTrap (s : State) (uid : Nat) (t : PTrap) : State :=
  match blockOf s uid, launchOfBlock s uid with
  | some b, some l =>
    let s := modBms s uid fun m => { m with st := .trapped, trap := some t, wait := .none }
    ringPush s .trq (trapRecord t.pc t.addr l.asid b.index l.kdesc b.die b.core ((b.bms.map (·.bctx)).getD 0)
      (causeOf t.cause) 0 2)
  | _, _ => s

/-- The kind of path record a debug stop writes (R371). -/
def stopKind (t : PTrap) : Nat := if causeOf t.cause = 0x11 then 3 else if bitAt t.cause.toNat 8 then 1 else 2

/-- What the memory reports for a trap: poison consumed by a program (R74), of whose line the model names the first 64 bytes
(assumption log 107), and what a failed walk met in the page tables (R72, R73). -/
def trapReports (s : State) (uid cause addr : Nat) : State :=
  match blockOf s uid, launchOfBlock s uid with
  | some b, some l =>
    let k := keyOf l.asid addr
    if cause = 8 then
      match pteOf s k with
      | some pte => faqPush s 3 0 (keyPa k pte)
      | none => s
    else if cause = 7 && decide (addr < 2 ^ 48) && (walk s k.asid (vaOf k)).isNone then
      noteReads s b.die (walkReads s k.asid (vaOf k))
    else s
  | _, _ => s

/-- A trap of any issuer, taken with its resume PC (R344). A path that another path's handler holds back keeps it
pending (R344). -/
def takeTrap (s : State) (uid who path : Nat) (t : PTrap) (resume : Nat) : State :=
  let c := causeOf t.cause
  let s := trapReports s uid c t.addr
  if who = bmsWho then bmsTrap s uid t
  else
    let mode := (launchOfBlock s uid).bind (·.dbg)
    if (c = 0x10 || c = 0x11) && mode == some false then debugStop s uid who path (stopKind t) resume
    else enterHandler s uid who path t resume

/-- The fault that a check of an instruction's page has found; none while its walk waits for a table behind a stack in
self-refresh or a die in reset, and cause 0x12 when that has taken 2 ms (R78, R79). -/
def walkedFault (s : State) (c : Cur) (f : Flt) : State × Option Flt :=
  match (if f.cause = 7 && decide (f.addr < 2 ^ 48) then issOf s c.blk c.who else none) with
  | none => (s, some f)
  | some i =>
    let k := keyOf i.l.asid f.addr
    if !walkHeld s k.asid (vaOf k) then (s, some f)
    else match takeRefusal s i.cl k with
    | some (n, s) => (s, some { f with cause := n })
    | none => (noteWait s i k, none)

/-- A fault trap at the instruction in hand (R344): it has no effect. Behind an unpassed memory instruction of its path
it waits at issue (R139). -/
def trapAt (s : State) (c : Cur) (laneForm : Bool) (f : Flt) : State :=
  if unpassed s c.blk c.who c.path then s
  else match walkedFault s c f with
  | (s, some f) => takeTrap s c.blk c.who c.path (mkTrap f laneForm false 0 c.pc c.word) c.pc
  | (s, none) => s

/-- An after trap of the instruction in hand, which has retired (R344). -/
def trapAfter (s : State) (c : Cur) (cause code : Nat) : State :=
  let resume := ((pathOf s c.blk c.who c.path).map (·.pc)).getD (nextPc c)
  takeTrap s c.blk c.who c.path (mkTrap ⟨cause, 0, none⟩ false true code c.pc c.word) resume

/-- RETURNS FROM THE INNERMOST HANDLER (R350); `none` outside one. -/
def leaveHandler (s : State) (uid g path : Nat) (skip : Bool) : Option State :=
  match groupOf s uid g with
  | some gr =>
    if gr.hpath ≠ some path then none
    else match gr.shadows with
    | [] => none
    | sh :: rest =>
      let s := putFinal s uid g fun r =>
        (((List.range 8).foldl (fun r n => r.wrG (120 + n) (sh.g.getD n 0)) r).wrK 6 sh.k6).wrK 7 sh.k7
      let s := modGroup s uid g fun gr => { gr with shadows := rest, hpath := if rest.isEmpty then none else some path }
      let s := modPath s uid g path fun q => { q with pc := if skip then (sh.trapPc + 12) % 2 ^ 48 else sh.resume }
      some (traceUnreport s uid g path)
  | none => none

end Sys2Proof.Machine
end

