-- ==== Sys2Proof/Machine/Fresh.lean ====
section
/-!
DEFINITION. Units as they start (15 R286, R296; 12 R218, R242; 07 R135; 11 R162 of the register file): contexts, paths,
groups, BMS contexts and blocks at dispatch.
-/

namespace Sys2Proof.Machine

/-- A context at start: counters 0, SEQ 0, HWM 2,047, the whole energy budget (R135, R242, R256). -/
def freshCtx (ecap : Int) : Ctx :=
  ⟨[], [], List.replicate 16 0, 0, [], [], 0, 2047, ecap, false, [], 1, [], none⟩

/-- A FREE path-table entry. -/
def freePath (f : Nat) : Path :=
  ⟨0, mZero f, .free, false, none, none, false, 0, .none, [], none, false, false⟩

/-- A READY path at a PC with a mask; its entry is not yet reported for trace (R382). -/
def readyPath (pc : Nat) (mask : List LaneMask) (tref : Option Nat) : Path :=
  ⟨pc, mask, .ready, false, tref, none, true, 0, .none, [], none, false, false⟩

/-- The valid lanes of set `j` of group `g` (R286). -/
def validMask (ltpb groups g j : Nat) : LaneMask :=
  maskOf ((List.range 64).filter fun l => decide (64 * (groups * j + g) + l < ltpb))

/-- The valid masks of a group. -/
def validMasks (v : Variant) (ltpb g : Nat) : List LaneMask :=
  (List.range v.fold).map fun j => validMask ltpb v.groups g j

/-- Initial registers of a group at a first dispatch (R319): v2 of each valid lane holds the lane's private size, g1 the
control thread's, g2 and g3 the argument pointer. -/
def startVregs (v : Variant) (masks : List LaneMask) (prv : Nat) : SMap (Option Word) :=
  (slotsOf masks).map fun sl => match sl with
    | .lane j l => ((2 + j * (v.regs / v.fold)) * 64 + l, some (BitVec.ofNat 32 prv))
    | .ctl => (0, none)

/-- The 64-bit pointer in registers 2 and 3 (R218, R319). -/
def startArgs (args : Nat) : SMap (Option Word) :=
  [(2, some (BitVec.ofNat 32 args)), (3, some (BitVec.ofNat 32 (args / 2 ^ 32)))]

def startGregs (prv args : Nat) : SMap (Option Word) := (1, some (BitVec.ofNat 32 prv)) :: startArgs args

/-- A group at start: one path at a PC, the rest FREE (R285, R301). A path with no lane is FREE. -/
def freshGroup (v : Variant) (ecap : Int) (seed : Option Nat) (gslot pc : Nat) (mask : List LaneMask) : Group where
  ctx := freshCtx ecap
  seed := seed
  vregs := []
  preds := []
  paths := (if mEmpty mask then freePath v.fold else readyPath pc mask none) :: List.replicate 7 (freePath v.fold)
  tokens := []
  recent := []
  running := 0
  runLen := 0
  shadows := []
  hpath := none
  utrap := 0
  unwind := 0
  region := []
  opbuf := none
  undo := []
  ahead := []
  gclk := 0
  redc := []
  replayed := 0
  paid := 0
  score := 0
  excluded := 0
  mayIssue := true
  gslot := gslot
  stray := false

/-- A BMS context at start (R218). -/
def freshBms (ecap : Int) (pc bctx args : Nat) : Bms :=
  ⟨{ freshCtx ecap with gregs := startArgs args }, pc, .run, .none, [], none, none, false, [], bctx, []⟩

/-- The free seed of a unit of a block (assumption log 3). -/
def seedOf (uid n : Nat) : Nat := 64 * uid + n

/-- A block at its first dispatch (R296, R218, R224): scratchpad zero; registers, predicates and tiles unwritten. -/
def freshBlock (uid coh launch index inCoh die core : Nat) (spans : List (Nat × Nat)) (vidx : Nat) (v : Variant) (slot ltpb prv args : Nat)
    (ecap : Int) (gslots : List Nat) (bctx task : Nat) : Block where
  uid := uid
  cohort := coh
  launch := launch
  index := index
  inCoh := inCoh
  die := die
  core := core
  scrSpans := spans
  vidx := vidx
  v := v
  slot := slot
  save := 0
  task := task
  frame := 0
  groups := (List.range v.groups).map fun g =>
    let m := validMasks v ltpb g
    let gr := freshGroup v ecap (some (seedOf uid g)) (gslots.getD g 0) v.entry m
    { gr with vregs := startVregs v m prv, ctx := { gr.ctx with gregs := startGregs prv args } }
  bms := if v.seq = 0 then none else some (freshBms ecap v.seq bctx args)
  scr := []
  ytiles := (List.range v.zt).map fun n => ⟨some (seedOf uid (32 + n)), []⟩
  ztiles := (List.range v.zt).map fun n => ⟨false, seedOf uid (48 + n), []⟩
  bars := List.replicate 16 ⟨v.groups + (if v.seq = 0 then 0 else 1), 0, 0, []⟩
  absent := []
  halted := false
  broken := false

end Sys2Proof.Machine
end

