-- ==== Sys2Proof/Machine/Issue.lean ====
section
/-!
DEFINITION. Issue: fetching an instruction's bytes (01 R13, 06 R114, 05 R86), what an instruction waits for (09 R168,
07 R139, R151, 12 R242), path arbitration (15 R303), address breakpoints and single step (22 R374, R375), the time a
turn lets pass, and the turn that is taken when the agenda names none (assumption log 1).
-/

namespace Sys2Proof.Machine

/-! ### Fetch -/

/-- What a fetch comes to. -/
inductive Fetched where
  | word (w : IWord)
  | trap (cause : Nat)
  | wait
  deriving DecidableEq, Repr

/-- A full set of an instruction cache loses its oldest line before it takes another (R111; assumption log 103). -/
def codeRoom (s : State) (ci : Nat) (k : Key) : State :=
  if s.coh.icache.length < 4 then s
  else
    let mine (e : Nat × Key × Line × Bool) : Bool :=
      e.1 == ci && Config.codeSet e.2.1.line e.2.1.asid == Config.codeSet k.line k.asid
    if (s.coh.icache.filter mine).length < 4 then s
    else { s with coh := { s.coh with icache := dropFirst mine s.coh.icache } }

/-- A code line for a core: from its instruction cache, else filled through its cluster (R114). -/
def fetchLine (s : State) (i : Iss) (k : Key) : State × Option (Line ⊕ Nat) :=
  let ci := coreIndex i.b.die i.b.core
  match s.coh.icache.find? (fun e => e.1 == ci && e.2.1 == k) with
  | some e => if e.2.2.2 || i.runtime then (s, some (.inl e.2.2.1)) else (s, some (.inr 7))
  | none =>
    match walk s k.asid (vaOf k) with
    | none =>
      if !walkHeld s k.asid (vaOf k) then (s, some (.inr 7))
      else (match takeRefusal s i.cl k with
        | some (n, s) => (s, some (.inr n))
        | none => (noteWait s i k, none))
    | some w =>
      let a := pteAttr w.pte
      if !a.permits .exec i.runtime then (s, some (.inr 7))
      else
        match agentLine s i.cl k with
        | (s, .ok l p) =>
          if p then (s, some (.inr 8))
          else
            let s := codeRoom s ci k
            ({ s with coh := { s.coh with icache := s.coh.icache ++ [(ci, k, l, a.u)] } }, some (.inl l))
        | (s, .bad c) => (s, some (.inr c))
        | (s, .wait) => (s, none)

/-- The 12 bytes at a PC (R13): they may straddle two lines, and pages. -/
def fetchWord (s : State) (i : Iss) (pc : Nat) : State × Fetched :=
  if pc % 4 != 0 then (s, .trap 5)
  else
    match fetchLine s i (keyOf i.l.asid pc) with
    | (s, none) => (s, .wait)
    | (s, some (.inr c)) => (s, .trap c)
    | (s, some (.inl l)) =>
      let o := pc % 128
      if o + 12 ≤ 128 then (s, .word (BitVec.ofNat 96 (lineGet l o 12)))
      else
        let n := 128 - o
        match fetchLine s i (keyOf i.l.asid ((pc + 12) % 2 ^ 48)) with
        | (s, none) => (s, .wait)
        | (s, some (.inr c)) => (s, .trap c)
        | (s, some (.inl l')) => (s, .word (BitVec.ofNat 96 (lineGet l o n + lineGet l' 0 (12 - n) * 256 ^ n)))

/-! ### What an instruction waits for at issue -/

/-- Whether a memory-issue throttle holds an instruction (R151). -/
def throttled : Instr → Bool
  | .ld .. | .st .. | .pref .. | .atom .. | .acas .. | .aadd .. | .afin .. | .acld .. | .acst .. => true
  | _ => false

/-- Instructions that may issue behind an unpassed memory instruction of their path: they have no effect beyond the
group's registers, or retire later (R139). -/
def runsAhead : Instr → Bool
  | .acld .. | .acst .. => false
  | .ld .. | .st .. | .bra .. | .nop .. => true
  | i => match opcodeOf i with | some o => decide (o < 0x180) | none => false

/-- A span of the vector file or of the group's own: whether vector, first, count. -/
def opndSpan (g : Bool) (u : Option Use) : Bool × Nat × Nat :=
  let (r, n) := useSpan u
  match u with
  | some ⟨.vec, _, _⟩ | some ⟨.la, _, _⟩ => (true, r, n)
  | _ => (!g, r, n)

def spansMeet (a b : Bool × Nat × Nat) : Bool :=
  a.1 == b.1 && decide (a.2.1 < b.2.1 + b.2.2 ∧ b.2.1 < a.2.1 + a.2.2)

/-- The registers an instruction names. -/
def spansOf (i : Instr) : List (Bool × Nat × Nat) :=
  match hdrOf i with
  | none => []
  | some h =>
    let u := uses i
    [opndSpan h.g u.d, opndSpan h.g u.a, opndSpan h.g u.b, opndSpan h.g u.c]

/-- The registers a window entry has yet to write (R168). -/
def pendSpan (p : Pend) : List (Bool × Nat × Nat) :=
  match p.instr with
  | .ld h .. | .atom h .. | .acas h .. => [opndSpan h.g (uses p.instr).d]
  | _ => []

/-- The mask of an acquire that an issued instruction still makes (R155). -/
def acquireOf : Instr → Option Stor
  | .ld _ _ _ true _ _ _ m => some m.stor
  | .atom _ _ _ _ o _ _ m | .acas _ _ _ o _ _ m => if o == .acq || o == .acqrel then some m.stor else none
  | _ => none

/-- Whether an instruction may access a class of a mask, by its space (R153): a `.glb` page may lie anywhere. -/
def mayTouch (m : Stor) (i : Instr) : Bool :=
  match i with
  | .ld _ sp .. | .st _ sp .. =>
    (match sp with
     | .prv => m.prv
     | .scr | .coh | .win => m.scr
     | .glb => m.scr || m.glb || m.host)
  | i => (memxOf i).isSome && (m.scr || m.glb || m.host)

/-- Whether an acquire of the path's threads that is not complete holds an instruction back (R155, R161). -/
def heldByAcquire (s : State) (c : Cur) (i : Instr) : Bool :=
  (windowOf s c.blk c.who).any fun p =>
    masksMeet p.thr (maskAt s c) && ((acquireOf p.instr).any fun m => mayTouch m i)

/-- Instructions of a group that have issued and not retired (R139). -/
def aheadOf (s : State) (uid who : Nat) : Nat := ((groupOf s uid who).map (·.ahead.length)).getD 0

/-- Whether an instruction waits at issue (R139, R151, R168; acquires R155). -/
def issueWaits (s : State) (c : Cur) (i : Instr) : Bool :=
  decide (aheadOf s c.blk c.who ≥ 64)
    || (windowOf s c.blk c.who).any (fun p => (pendSpan p).any fun a => (spansOf i).any fun b => spansMeet a b)
    || (!runsAhead i && unpassed s c.blk c.who c.path)
    || heldByAcquire s c i
    || (throttled i && ((groupOf s c.blk c.who).any fun g => !g.mayIssue))

/-! ### Energy (R242) -/

/-- The cost of an instruction's energy class (R22, R242). -/
def costOf (s : State) (i : Instr) : Int :=
  match hdrOf i with
  | some h => s.power.ecost.getD h.ecl.toNat 1
  | none => 0

def debit (s : State) (c : Cur) (n : Int) : State :=
  modCtx s c.blk c.who fun x => { x with energy := x.energy - n }

/-! ### Causal experiments at issue (R390) -/

/-- Whether a launch's trial has a PC in its range. -/
def cxInRange (s : State) (l : Launch) (pc : Nat) : Bool :=
  let r := s.mgmt.cxRange.getD (bitsAt l.cx.toNat 29 2) (0, 0)
  decide (r.1 ≤ pc ∧ pc < r.2)

/-- What issuing at a PC does to the delay totals of a running trial: a counted issue in the range adds delay; outside
it the group pays what it owes. -/
def cxIssue (s : State) (i : Iss) (pc : Nat) : State :=
  if i.who = bmsWho || !bitAt i.l.cx.toNat 31 then s
  else if cxInRange s i.l pc then
    let ci := coreIndex i.b.die i.b.core
    let n := (i.l.cxc.get? ci).getD 0 + 1
    let per := 2 ^ bitsAt i.l.cx.toNat 12 4
    let s := modLaunch s i.l.id fun l => { l with cxc := l.cxc.set ci n }
    if n % per = 0 then
      let d := bitsAt i.l.cx.toNat 16 13 * per
      let s := modLaunch s i.l.id fun l => { l with
        cxn := l.cxn + 1, cxd := l.cxd.set i.b.die (l.cxd.getD i.b.die 0 + d) }
      modGroup s i.uid i.who fun g => { g with paid := g.paid + d }
    else s
  else modGroup s i.uid i.who fun g => { g with paid := max g.paid (i.l.cxd.getD i.b.die 0) }

/-! ### Path arbitration (R303) -/

/-- Whether a path can issue: READY and not held, or held with a step to run (R373, R375). -/
def Path.canIssue (p : Path) : Bool := p.st == .ready && (!p.held || p.step)

/-- The lowest-indexed path above `from_` that can issue, wrapping (R303). -/
def nextPath (ps : List Path) (from_ : Nat) : Option Nat :=
  let order := (List.range 8).map fun d => (from_ + 1 + d) % 8
  order.find? fun i => (ps[i]?).any Path.canIssue

/-- Picks the path that issues; a run that ended gives way to the next (R303). Only the handler's path runs while a
handler is active (R344). -/
def arbitrate (s : State) (uid g : Nat) : State × Option Nat :=
  match groupOf s uid g with
  | none => (s, none)
  | some gr =>
    let cont := (gr.paths[gr.running]?).any Path.canIssue && decide (gr.runLen < 32)
    match gr.hpath with
    | some p =>
      if (gr.paths[p]?).any Path.canIssue then
        (modGroup s uid g fun gr => { gr with running := p, runLen := gr.runLen % 32 }, some p)
      else (s, none)
    | none =>
      if cont then (s, some gr.running)
      else match nextPath gr.paths gr.running with
        | none => (s, none)
        | some p =>
          let s := traceRunEnd s uid
          let s := modGroup s uid g fun gr => { gr with running := p, runLen := 0 }
          (traceRunStart s uid g p, some p)

/-! ### Time -/

/-- TASK values in use: those of resident and of waiting blocks, and those being purged (R256). -/
def tasksHeld (s : State) : List Nat := s.work.blocks.map (·.task) ++ s.work.away.map (·.task) ++ s.work.purge

/-- Cycles in which a record waits at a distributor for a TASK value count in PERF_TAGWAIT (R256). -/
def noteTagwaits (s : State) (cyc : Nat) : State :=
  if (tasksHeld s).length < 65536 then s
  else
    let w := (List.range 4).map fun d => s.work.tagwait.getD d 0 + (if s.work.tagwaits.contains d then cyc else 0)
    { s with work := { s.work with tagwait := w } }

/-- The time a turn lets pass (R283): the core clock and the limits in seconds stand still in a freeze, the die counters
run (R4, R78). -/
def advance (s : State) (ns cyc : Nat) : State :=
  let run (n : Nat) : Nat := if s.power.frozen then 0 else n
  let s := { s with sched := { s.sched with
    cycle := s.sched.cycle + run cyc, ns := s.sched.ns + run ns, tick := s.sched.tick + 1, time := s.sched.time.map (· + ns) } }
  noteTagwaits s (run cyc)

/-- Whether the firmware chain stopped: BOOT_STATUS holds a reason (R400). -/
def bootHalted (s : State) : Bool := s.boot.status % 16 != 0

/-- Whether nothing but status and reset answers (R363, R400). -/
def fatalStops (s : State) (i : Instr) : Bool :=
  (s.power.fatal.isSome || bootHalted s) && (match i with | .mailboxStatus | .packageReset => false | _ => true)

/-! ### Before and after one instruction -/

/-- Whether an issuer is stopped: the package is frozen or fatally stopped, or the block halted (R78, R363, R354). -/
def issuerStopped (s : State) (b : Block) : Bool :=
  s.power.frozen || s.power.fatal.isSome || b.halted

/-- The issuer for an instruction is set. -/
def withCur (s : State) (c : Option Cur) : State := { s with sched := { s.sched with cur := c } }

/-- An address breakpoint of an attached launch stands at a PC (R374). -/
def breakAt (i : Iss) (q : Path) (pc : Nat) : Bool :=
  i.who != bmsWho && i.l.dbg.isSome && !q.bpSkip && i.l.bps.any fun b => b.2 == pc

/-- An instruction that has issued behind an unpassed memory instruction of its path is one of those that have not retired, though
it writes no register (R139). -/
def noteAhead (s : State) (c : Cur) : State :=
  let o := orderOf s c.blk c.who - 1
  if !unpassed s c.blk c.who c.path then s
  else modGroup s c.blk c.who fun g => if g.ahead.any (fun a => a.order == o) then g else { g with ahead := g.ahead ++ [⟨c.path, o, []⟩] }

/-- What follows an issued instruction of a group: the run's length, the yield hint (R23, R303), the core's sample
source (R371), and the end of a single step (R375). `before` lists the entries that existed. -/
def afterIssue (s : State) (c : Cur) (h : Hdr) (before : List Bool) (stepping : Bool) : State :=
  if c.who = bmsWho then s
  else
    let s := modGroup (noteAhead s c) c.blk c.who fun g => { g with runLen := if h.hints.yield then 32 else g.runLen + 1 }
    let s := modPath s c.blk c.who c.path fun q => { q with bpSkip := false }
    let s := match blockOf s c.blk, groupOf s c.blk c.who with
      | some b, some g =>
        modCore s (coreIndex b.die b.core) fun k => { k with lastIssue := k.lastIssue.set (g.gslot / 8 % 4) (some (c.blk, c.who, c.path)) }
      | _, _ => s
    if !stepping then s
    else
      let mode := (launchOfBlock s c.blk).bind (·.dbg)
      let s := modGroup s c.blk c.who fun g =>
        { g with paths := (List.range g.paths.length).zipWith (fun ix q =>
            if ix = c.path then { q with held := true, step := false }
            else if q.st != .free && before.getD ix false == false then { q with held := true } else q) g.paths }
      if mode == some true then
        trapAfter (modPath s c.blk c.who c.path fun q => { q with held := false }) c 0x11 0
      else pathRecords s c.blk c.who c.path 3

end Sys2Proof.Machine
end

