-- ==== Sys2Proof/Machine/Place.lean ====
section
/-!
DEFINITION. A test word placed where the next step fetches it (assumption log 1): a launch of one block of one group is
added, with the word as the first code of its instruction cache; this stands for the host's load and a dispatch.
-/

namespace Sys2Proof.Machine

/-- The launch of a placed word: ASID 0, one block, no ranges. -/
def placedLaunch (id : Nat) (v : Variant) : Launch where
  id := id
  isTask := false
  queue := 0
  record := 0
  kdesc := 0
  k := ⟨[v], 1, false, 0, 64, 0, 0, 0, 0, 0, []⟩
  asid := 0
  args := 0
  prv := 0
  nblk := 1
  cohb := 0
  join := 0
  pin := false
  next := 1
  ended := 0
  failed := false
  queued := false
  finished := false
  leased := false
  ranges := []
  ppcnt := List.replicate 16 0
  cx := 0
  cxd := List.replicate 5 0
  cxn := 0
  cxc := []
  dbg := none
  bps := []
  rr := none

/-- Stores the word where the next step fetches it: a new block's code at PC 0, in its core's instruction cache, and the
next turn is that block's. A word that only the BMS stream fetches is the BMS's (R46). -/
def placeWord (s : State) (nbits w : Nat) : State :=
  let word := BitVec.ofNat 96 (w % 2 ^ nbits)
  let bms := bmsOnly (fieldsOf word).opc.toNat
  let uid := s.work.nextUid
  let v : Variant := ⟨512, 1, 1, 2048, if bms then 8 else 0, 0, 0⟩
  let b := freshBlock uid uid uid 0 0 0 0 [(0, 2048)] 0 v 0 64 0 0 1024 [0] 0 0
  let b := if bms then { b with bms := some (freshBms 1024 0 0 0), bars := List.replicate 16 ⟨2, 0, 0, []⟩ } else b
  let line : Line := BitVec.ofNat 1024 word.toNat
  let k := keyOf 0 0
  let turn : Turn := ⟨0, 0, .issue uid (if bms then bmsWho else 0)⟩
  { s with
    sched := { s.sched with agenda := turn :: s.sched.agenda, cur := none }
    work := { s.work with
      blocks := b :: s.work.blocks
      cohorts := ⟨uid, uid, 0, 0, 1, List.replicate 16 ⟨1, 0, 0, []⟩, false, none, false, [⟨uid, 0, 0, 0, 2048⟩]⟩ :: s.work.cohorts
      launches := placedLaunch uid v :: s.work.launches
      nextUid := uid + 1 }
    coh := { s.coh with icache := (0, k, line, true) :: s.coh.icache.filter fun e => !(e.1 == 0 && e.2.1 == k) }
    power := { s.power with frozen := false, fatal := none }
    cores := s.cores.set 0 { coreState s 0 with picked := [7, 7, 7, 7] } }

end Sys2Proof.Machine
end

