-- ==== Sys2Proof/Machine/LineOps.lean ====
section
/-!
DEFINITION. Accesses that an instruction makes whole in its own step (13 R246 to R254, 11 R215, 07 R140): the checks of its
slots in order (R134), the lines it needs held together (R139), and what an earlier access of the issuer still owes.
-/

namespace Sys2Proof.Machine

/-- The first slot that fails a check of R134, in ascending order. -/
def firstFault (s : State) (i : Iss) (r : Regs) (sp : Space) (a : Reg) (ofs : BitVec 21) (w : Nat) (p : PageRule)
    (slots : List Slot) : Option Flt :=
  slots.findSome? fun sl =>
    let ad := addrOf r sp sl a ofs
    (checkAccess s i sp sl ad w p).map fun c => ⟨c, ad, some sl⟩

/-- Whether an issued access of this issuer that is still outstanding touches the same lines (R138, R158). -/
def windowMeets (s : State) (i : Iss) (keys : List Key) (scr : Bool) : Bool :=
  (windowOf s i.uid i.who).any fun p =>
    (pendKeys s i p).any (fun k => keys.contains k)
      || (scr && (pendLocs s i p).any fun x => match x.2.2 with | .mem _ => false | _ => true)

/-- Whether an issuer has any access outstanding. -/
def owesAccess (s : State) (i : Iss) : Bool := !(windowOf s i.uid i.who).isEmpty

/-- `n` bytes at a location, with poison. -/
def readLoc (s : State) (i : Iss) (n : Nat) : Loc → State × MemRes × Nat × Option Nat
  | .mem va => agentRead s i.cl i.l.asid va n
  | .scr uid o => (s, .ok 0 false, scrRead s uid o n, none)
  | .free d c o => (s, .ok 0 false, freeRead s d c o n, none)

/-- Values read at locations, or why not. -/
inductive Vals where
  | ok (vs : List (Slot × Nat))
  | fault (f : Flt)
  | wait
  deriving DecidableEq, Repr

/-- Reads `n` bytes for each slot; poison is cause 8 (R129). -/
def readLocs (i : Iss) (n : Nat) : List (Slot × Nat × Loc) → State → List (Slot × Nat) → State × Vals
  | [], s, vs => (s, .ok vs)
  | (sl, ad, loc) :: r, s, vs =>
    match readLoc s i n loc with
    | (s, .ok _ _, v, none) => readLocs i n r s (vs ++ [(sl, v)])
    | (s, .ok _ _, _, some _) => (s, .fault ⟨8, ad, some sl⟩)
    | (s, .bad c, _, _) => (s, .fault ⟨c, ad, some sl⟩)
    | (s, .wait, _, _) => (s, .wait)

/-- `n` bytes stored at a location whose lines are held. -/
def writeLoc (s : State) (i : Iss) (n v : Nat) (stream : Bool) : Loc → State
  | .mem va =>
    (pieces (pieceFuel n) va n 0).foldl (fun s p =>
      storeAt s i 0 (fun _ => p.2.1 == 128) stream .dflt (.mem p.1) p.2.1 (v / 256 ^ p.2.2 % 256 ^ p.2.1)) s
  | l => storeAt s i 0 (fun _ => false) stream .dflt l n v

/-- A late fault of a line, at the first slot that names it (R139, R347). -/
def lateFault (i : Iss) (n : Nat) (locs : List (Slot × Nat × Loc)) (cause addr : Nat) : Flt :=
  match locs.find? (fun x => match x.2.2 with | .mem va => (spanKeys i va n).contains (locKey i addr) | _ => false) with
  | some (sl, ad, _) => ⟨cause, ad, some sl⟩
  | none => ⟨cause, addr, none⟩

/-- The 12-byte fetches' neighbour: `n` bytes of code-like tables through the instruction cache (R114, R166). -/
def fetchBytes (s : State) (i : Iss) : List (Nat × Nat × Nat) → Nat → State × Option (Nat ⊕ Nat)
  | [], v => (s, some (.inl v))
  | (va, m, o) :: r, v =>
    match fetchLine s i (keyOf i.l.asid va) with
    | (s, none) => (s, none)
    | (s, some (.inr c)) => (s, some (.inr c))
    | (s, some (.inl l)) => fetchBytes s i r (v + lineGet l (va % 128) m * 256 ^ o)

end Sys2Proof.Machine
end

