-- ==== Sys2Proof/Machine/Contrib.lean ====
section
/-!
DEFINITION. Contributions to memory accumulator lines (13 R251 to R258): tags and sequence numbers, partials of a cluster,
replay contributions to the home, and the hold after a fault.
-/

namespace Sys2Proof.Machine

/-- One contribution: its slot and address, its line, and what it does to an accumulator. -/
structure Contribution where
  slot : Slot
  addr : Nat
  key : Key
  f : La → La

/-- The tag of an issuer's instruction (R255). -/
def tagOf (b : Block) (who seq : Nat) : Nat := b.task % 65536 * 2 ^ 16 + who % 32 * 2 ^ 11 + seq % 2 ^ 11

/-- Whether an instruction's contributions are replay contributions (R257). -/
def isReplay (c : Ctx) : Bool := decide ((c.hwm + 2048 - c.seq % 2048) % 2048 < 1024)

/-- HWM takes the instruction's SEQ when it issues, unless a higher one has left before (R256). -/
def noteHwm (s : State) (uid who : Nat) : State :=
  modCtx s uid who fun c => if isReplay c then c else { c with hwm := c.seq }

/-- SEQ advances when the instruction retires, and its own hold ends (R256, R258). -/
def seqRetired (s : State) (c : Cur) : State :=
  modCtx s c.blk c.who fun k => { k with
    seq := (k.seq + 1) % 2048
    hold := match k.hold with
      | some (p, pc, ks) => if p = c.path && pc == c.pc then none else some (p, pc, ks)
      | none => none }

/-! ### Lines held after a fault (R258) -/

/-- The contexts of a block, by issuer. -/
def ctxsOf (b : Block) : List (Nat × Ctx) :=
  ((List.range b.groups.length).filterMap fun g => (b.groups[g]?).map fun gr => (g, gr.ctx))
    ++ (match b.bms with | some m => [(bmsWho, m.ctx)] | none => [])

/-- Blocks whose tasks have not ended, resident or saved. -/
def liveBlocks (s : State) : List Block := s.work.blocks ++ s.work.away.filterMap (·.kept)

/-- Whether a faulted instruction of a cluster holds a line (R258), other than one of an issuer's own path. -/
def lineHeld (s : State) (cl : Nat) (k : Key) (own : Nat × Nat × Nat) : Bool :=
  (liveBlocks s).any fun b => b.cluster == cl && (ctxsOf b).any fun c =>
    match c.2.hold with
    | some (p, _, hs) => !((b.uid, c.1, p) == own) && hs.contains k
    | none => false

/-- Whether contributions of a cluster to a line wait there: it is held, or earlier ones still wait (R258). -/
def waitsAtCluster (s : State) (cl : Nat) (k : Key) (own : Nat × Nat × Nat) : Bool :=
  lineHeld s cl k own || s.coh.held.any fun h => h.cl == cl && h.key == k

/-- Whether an instruction is one that a handler of a faulted path may not make progress with (R258). -/
def ownHeld (s : State) (c : Cur) (ks : List Key) : Bool :=
  match (ctxOf s c.blk c.who).bind (·.hold) with
  | some (p, pc, hs) => p == c.path && pc != c.pc && hs.any ks.contains
  | none => false

/-! ### Sending contributions -/

/-- A contribution enters the cluster's partial (R251, R257). -/
def addPartial (s : State) (cl tag : Nat) (x : Contribution) : State :=
  match lineOf s cl x.key with
  | some c => setLine s { c with part := ⟨x.f c.part.la, tagAdd c.part.tags tag 1⟩ }
  | none => s

/-- What sending contributions comes to: all sent or held, or the first fault with its slot, or the instruction waits. -/
inductive Sent where
  | ok
  | fault (f : Flt)
  | wait
  deriving DecidableEq, Repr

/-- The distinct lines of contributions in order. -/
def contribKeys (cs : List Contribution) : List Key :=
  cs.foldl (fun ks c => if ks.contains c.key then ks else ks ++ [c.key]) []

/-- The contributions before the first to a line. -/
def beforeKey (k : Key) : List Contribution → List Contribution
  | [] => []
  | c :: r => if c.key = k then [] else c :: beforeKey k r

/-- Replay contributions, sent to the home alone, one by one (R257). -/
def replayGo (cl tag : Nat) : List Contribution → State → State × Sent
  | [], s => (s, .ok)
  | x :: r, s =>
    let s := settle settleFuel (arrive s cl x.key (.replay (x.f La.zero) tag)) x.key
    match takeRefusal s cl x.key with
    | some (c, s) => (s, .fault ⟨c, x.addr, some x.slot⟩)
    | none => replayGo cl tag r s

/-- The lines of contributions made ready together: in the accumulate state, or for replays at their homes (R251, R257). -/
def contribGather (s : State) (i : Iss) (replay : Bool) (ks : List Key) : State × Lines :=
  if replay then gatherHomes s i ks else gather s i.cl .acc ks

/-- Contributions whose lines are ready leave in order (R251, R257). -/
def contribGo (s : State) (cl tag : Nat) (replay : Bool) (cs : List Contribution) : State × Sent :=
  if replay then replayGo cl tag cs s
  else (cs.foldl (fun s x => addPartial s cl tag x) s, .ok)

/-- The first contribution of a line, for a fault found there. -/
def faultAt (cs : List Contribution) (c a : Nat) : Flt :=
  match cs.find? fun x => vaOf x.key == a with
  | some x => ⟨c, x.addr, some x.slot⟩
  | none => ⟨c, a, none⟩

/-- Sends the contributions of one instruction of an issuer (R251, R257, R258): those to held lines wait at the cluster; the
lines of the others are obtained together; those before a faulting line are sent. Each line is recorded first (R386). -/
def sendContribs (s : State) (i : Iss) (own : Nat × Nat × Nat) (tag : Nat) (replay : Bool) (ctr : Option Nat)
    (cs : List Contribution) : State × Sent :=
  let late := cs.filter fun x => waitsAtCluster s i.cl x.key own
  let now := cs.filter fun x => !waitsAtCluster s i.cl x.key own
  match contribGather s i replay (contribKeys now) with
  | (s, .wait) => (s, .wait)
  | (s, .fault c a) =>
    let pre := match cs.find? (fun x => vaOf x.key == a) with | some x => beforeKey x.key now | none => []
    (match contribGather s i replay (contribKeys pre) with
     | (s, .ok) => ((contribGo s i.cl tag replay pre).1, .fault (faultAt cs c a))
     | (s, _) => (s, .fault (faultAt cs c a)))
  | (s, .ok) =>
    match recordAll s i (contribKeys cs) true with
    | none => (s, .wait)
    | some s =>
      let order := orderOf s i.uid i.who
      let s := { s with coh := { s.coh with
        held := s.coh.held ++ late.map fun x => ⟨i.cl, x.key, tag, replay, x.f La.zero, i.uid, i.who, order, ctr⟩ } }
      contribGo s i.cl tag replay now

/-- Whether a check that fails is one that only the walk or the page finds, after issue (R139). -/
def walkFault (e : Flt) : Bool := e.cause == 7 && decide (e.addr < 2 ^ 48)

/-! ### Held contributions go out (R258) -/

/-- One held contribution goes out if its line is held no more, and no earlier one to the line waits; false while it stays. A
line that cannot be had loses it. -/
def sendHeld (s : State) (before : List Held) (h : Held) : State × Bool :=
  if lineHeld s h.cl h.key (0, 32, 0) || before.any (fun g => g.cl == h.cl && g.key == h.key) then (s, false)
  else
    let x : Contribution := ⟨.ctl, vaOf h.key, h.key, fun a => La.merge a h.la⟩
    if h.replay then
      match recallLine s h.key enginePty false with
      | (s, true) => if homeBusy s h.key then (s, false) else ((replayGo h.cl h.tag [x] s).1, true)
      | (s, false) => (s, false)
    else match obtain s h.cl h.key .acc with
      | (s, .line _) => (addPartial s h.cl h.tag x, true)
      | (s, .fault _) => (s, true)
      | (s, .wait) => (s, false)

def heldGo : List Held → State → List Held → State × List Held
  | [], s, kept => (s, kept)
  | h :: r, s, kept =>
    match sendHeld s kept h with
    | (s, true) => heldGo r s kept
    | (s, false) => heldGo r s (kept ++ [h])

/-- What clusters hold goes out in issue order as far as it can; an instruction whose last contribution has gone is performed
and lowers its counter (R252, R258). -/
def flushHeld (s : State) : State :=
  let all := s.coh.held
  if all.isEmpty then s
  else
    let (s, kept) := heldGo all s []
    let s := { s with coh := { s.coh with held := kept } }
    let ops := all.foldl (fun l h => if l.contains (h.blk, h.who, h.order, h.ctr) then l else l ++ [(h.blk, h.who, h.order, h.ctr)]) []
    (ops.filter fun o => !kept.any fun h => (h.blk, h.who, h.order, h.ctr) == o).foldl (fun s o => lowerCtr s o.1 o.2.1 o.2.2.2) s

/-- Whether an instruction's contributions wait at its cluster. -/
def holdsBack (s : State) (i : Iss) (order : Nat) : Bool :=
  s.coh.held.any fun h => h.blk == i.uid && h.who == i.who && h.order == order

end Sys2Proof.Machine
end

