-- ==== Sys2Proof/Machine/Motion.lean ====
section
/-!
DEFINITION. Granules in motion (05 R97 to R103, R340) and the leaves that the map engine writes (05 R91, R92, R99): the
mappings of a frame, a move's acceptance, abort and commit, and the engines' records.
-/

namespace Sys2Proof.Machine

/-! ### The leaves of the page tables -/

/-- A leaf as the tables hold it: ASID, VA, log2 of the page size, where it stands, its bits. -/
structure Leaf where
  asid : Nat
  va : Nat
  size : Nat
  at_ : Nat
  pte : Nat
  deriving DecidableEq, Repr

/-- Addresses of valid entries of a table of `n` bytes: bit 0 of the first byte is V (R82, R84, R85). -/
def validEntries (s : State) (table n : Nat) : List Nat :=
  (s.mem.cells.filter fun c => decide (table ≤ c.1 ∧ c.1 < table + n) && (c.1 - table) % 8 == 0 && c.2.getLsbD 0).map (·.1)

/-- The bits of a VA that lie below one entry of a level, and the bytes of a table (R83). -/
def levelSpan (level : Nat) : Nat := match level with | 1 => 39 | 2 => 30 | 3 => 21 | _ => 16

def levelBytes (level : Nat) : Nat := if level = 4 then 256 else 4096

/-- What a table and those below it hold: leaves, or the tables themselves. -/
def treeFrom (s : State) (asid : Nat) : Nat → Nat → Nat → Nat → List (Leaf ⊕ Nat)
  | 0, _, _, _ => []
  | fuel + 1, level, table, va =>
    .inr table :: (validEntries s table (levelBytes level)).flatMap fun a =>
      match readEntry s a with
      | none => []
      | some e =>
        let va := va + (a - table) / 8 * 2 ^ levelSpan level
        if !pteV e then []
        else if pteLeaf e then
          if leafOk asid level e then [.inl ⟨asid, va, levelSize level, a, e⟩] else []
        else if tableOk level e then treeFrom s asid fuel (level + 1) (bitsAt e 8 44 * 256) va
        else []

def treeAll (s : State) : List (Leaf ⊕ Nat) :=
  (validEntries s s.mgmt.asidt 524288).flatMap fun a =>
    match readEntry s a with
    | none => []
    | some e =>
      if bitsAt e 52 12 != 0 || bitsAt e 1 11 != 0 then []
      else treeFrom s ((a - s.mgmt.asidt) / 8) 4 1 (bitsAt e 12 40 * 4096) 0

/-- Every leaf of every ASID's tables. -/
def leavesOf (s : State) : List Leaf := (treeAll s).filterMap fun x => match x with | .inl l => some l | .inr _ => none

def tablesOf (s : State) : List Nat := (treeAll s).filterMap fun x => match x with | .inl _ => none | .inr t => some t

/-- Whether a leaf maps a frame. -/
def Leaf.maps (l : Leaf) (frame : Nat) : Bool :=
  decide (pteFrame l.pte ≤ frame ∧ frame < pteFrame l.pte + 2 ^ (l.size - 16))

/-- The mappings of a frame (R92). -/
def mappingsOf (s : State) (frame : Nat) : List Leaf := (leavesOf s).filter fun l => l.maps frame

/-- A table entry written by the map engine. -/
def putEntry (s : State) (at_ e : Nat) : State :=
  { s with mem := { s.mem with cells := Memory.write s.mem.cells at_ 8 e } }

/-! ### Places, destinations, offers (R44, R71, R102, R108) -/

/-- The tier and place of a frame: tier 0 H, 1 L, 2 X (R71, R86). -/
def placeOfFrame (f : Nat) : Nat × Nat :=
  let t := paTarget (f * 65536)
  if t ≤ 3 then (0, t) else if t ≤ 5 then (1, t - 4) else if t ≤ 7 then (2, t - 6) else (3, 0)

/-- The destination of a move, `.x` resolved by the page's home (R108). -/
def destOf (s : State) (asid va : Nat) : TierPlace → Nat × Nat
  | .h n => (0, n.toNat)
  | .l f => (1, f.toNat)
  | .x (some f) => (2, f.toNat)
  | .x none =>
    match walk s (tabAsid asid va) va with
    | some w => (2, if pteHome w.pte = 7 then bitsAt va 16 1 else pteHome w.pte % 2)
    | none => (2, 0)

/-- The Tansy that serves a destination: that of its F-die, or of the F-die its N-die is attached to (R97, R1). -/
def engineOf (d : Nat × Nat) : Nat := d.2 % 2

/-- What became of a granule offered for a move (R97, R102, R108). -/
inductive Offer where
  | ignored
  | taken (s : State)
  | full (engine : Nat)
  deriving DecidableEq, Repr

/-- Offers one granule for a move: unmapped, retired, moving or already there, it is ignored. -/
def offerMove (s : State) (asid va : Nat) (tp : TierPlace) (retry : Bool) : Offer :=
  match walk s (tabAsid asid va) va with
  | none => .ignored
  | some w =>
    let f := w.pa va / 65536
    let d := destOf s asid va tp
    let vpn := va / 65536
    let busy := s.motion.moves.any fun m => m.src == f
    if s.mem.retired.contains f || busy || placeOfFrame f == d || decide (paTarget (f * 65536) > 7) then .ignored
    else
      let e := engineOf d
      if (s.motion.queue.filter fun q => q.engine == e).length ≥ 256 then .full e
      else
        let tp' : TierPlace := match tp with | .x _ => .x (some (d.2 == 1)) | t => t
        .taken { s with motion := { s.motion with queue := s.motion.queue ++ [⟨e, tabAsid asid va, vpn, tp', retry⟩] } }

/-! ### Records (R101, R102) -/

/-- Records that an engine holds. -/
def recsHeld (s : State) (engine : Nat) : Nat := (s.motion.recs.filter fun r => r.1 == engine).length

/-- The oldest record goes to the ring while it takes records. -/
def recFlush : Nat → State → State
  | 0, s => s
  | n + 1, s =>
    match s.motion.recs with
    | [] => s
    | r :: rest =>
      let t := ringFlush 1 (setRing s .mgr { s.mgmt.mgr with buf := [r.2] }) .mgr
      if t.mgmt.mgr.buf.isEmpty then recFlush n { t with motion := { t.motion with recs := rest } } else s

def recPut (s : State) (engine kind : Nat) (retry : Bool) (dst asid vpn : Nat) : State :=
  let t := s.sched.time.getD (4 + engine) 0
  let v := vpn % 2 ^ 32 + asid % 65536 * 2 ^ 32 + dst % 2 ^ 36 * 2 ^ 52 + retry.toNat * 2 ^ 91 + kind * 2 ^ 92
    + t % 2 ^ 32 * 2 ^ 96
  recFlush 65 { s with motion := { s.motion with recs := s.motion.recs ++ [(engine, toBytes 16 v)] } }

/-! ### Moves -/

def modMove (s : State) (m : Move) (f : Move → Move) : State :=
  { s with motion := { s.motion with moves := s.motion.moves.map fun n => (if n.src = m.src then f n else n) } }

/-- Whether a granule is being copied now. -/
def Move.copying (m : Move) : Bool := m.begun && !m.dead && decide (m.cursor < 512)

/-- Granules in motion at once (R97). -/
def moveSlots : Nat := 8

/-- Further granules of accepted pages begin, in ascending order, while the engine has a slot. -/
def beginMore (s : State) (engine : Nat) : State :=
  let used := (s.motion.moves.filter fun m => m.engine == engine && m.copying).length
  let next := ((s.motion.moves.filter fun m => m.engine == engine && !m.begun).take (moveSlots - used)).map (·.src)
  { s with motion := { s.motion with
      moves := s.motion.moves.map fun m => if next.contains m.src then { m with begun := true, since := s.sched.ns } else m } }

/-- The granules that move with a page. -/
def pageMoves (s : State) (m : Move) : List Move :=
  s.motion.moves.filter fun n => n.engine == m.engine && n.asid == m.asid && n.page == m.page

/-- The tier a PTE names (R85). -/
def withFrame (pte frame tier : Nat) : Nat := putBits (putBits pte 16 36 frame) 60 2 tier

/-- A frame goes back to the free-frame ring of its tier and place, unless it is retired. -/
def freeFrameBack (s : State) (f : Nat) : State :=
  if s.mem.retired.contains f then s
  else { s with motion := { s.motion with free := s.motion.free ++ [((placeOfFrame f).1, (placeOfFrame f).2, f)] } }

/-- The granules of a page switch to their destinations: in every mapping, then in every MTLB (R99). -/
def commitPage (s : State) (m : Move) : State :=
  let ms := pageMoves s m
  let s := ms.foldl (fun s n =>
    let tier := (placeOfFrame n.dst).1
    let s := (mappingsOf s n.src).foldl (fun s l =>
      if pteFrame l.pte = n.src then putEntry s l.at_ (withFrame l.pte n.dst tier) else s) s
    { s with coh := { s.coh with mtlb := s.coh.mtlb.map fun e =>
        (if pteFrame e.pte = n.src then { e with pte := withFrame e.pte n.dst tier } else e) } }) s
  let srcs := ms.map (·.src)
  let s := { s with motion := { s.motion with moves := s.motion.moves.filter fun n => !srcs.contains n.src } }
  let s := srcs.foldl freeFrameBack s
  recPut s m.engine 0 m.retry ((ms.head?.map (·.dst)).getD m.dst) m.asid m.page

/-- Commits the pages whose granules are all copied or dead, while the engine's buffer takes a record (R99, R102). -/
def commitPages (s : State) : State :=
  s.motion.moves.foldl (fun s m =>
    if m.src == ((pageMoves s m).head?.map (·.src)).getD 0 && (s.motion.moves.any fun n => n.src == m.src)
        && (pageMoves s m).all (fun n => n.begun && (n.dead || decide (n.cursor ≥ 512))) && decide (recsHeld s m.engine < 64) then
      commitPage s m
    else s) s

/-- A page's move ends without effect (R100, R340): frames go back but for a failed or retired one; one retry. -/
def abortPage (s : State) (m : Move) (kind : Nat) : State :=
  let ms := pageMoves s m
  let srcs := ms.map (·.src)
  let s := { s with motion := { s.motion with moves := s.motion.moves.filter fun n => !srcs.contains n.src } }
  let s := (ms.filter fun n => !(kind == 1 && n.src == m.src)).foldl (fun s n => freeFrameBack s n.dst) s
  let s := recPut s m.engine kind m.retry m.dst m.asid m.page
  let s := if kind != 5 && !m.retry then
      { s with motion := { s.motion with queue := ⟨m.engine, m.asid, m.page, m.dest, true⟩ :: s.motion.queue } } else s
  beginMore s m.engine

/-! ### Tansy's own policy (R105) -/

/-- Granule `j` of an entry, whose counter has crossed a threshold of its tier, is queued for a move. -/
def policyMove (s : State) (up : Bool) (e : Mtlb) (j : Nat) : State :=
  let t := (placeOfFrame (pteFrame e.pte + j)).1
  match tierOf (Config.tansyTarget up t e.asid (e.vpn + j)) with
  | none => s
  | some tp => match offerMove s e.asid ((e.vpn + j) * 65536) tp false with | .taken s => s | _ => s

/-- A counter that went from `old` to `new` has crossed its tier's threshold, upward for promotion, downward for demotion. -/
def crossed (s : State) (tier old new : Nat) : Option Bool :=
  if (s.motion.promote.get? tier).any fun p => decide (old < p ∧ p ≤ new) then some true
  else if (s.motion.demote.get? tier).any fun d => decide (new < d ∧ d ≤ old) then some false
  else none

/-- The counters that have crossed their thresholds since an earlier state. -/
def policyScan (old s : State) : State :=
  if !s.motion.policy then s
  else s.coh.mtlb.foldl (fun s e =>
    match old.coh.mtlb.find? (fun o => o.die == e.die && o.asid == e.asid && o.vpn == e.vpn) with
    | none => s
    | some o =>
      if o.hot == e.hot then s
      else (List.range e.hot.length).foldl (fun s j =>
        match crossed s (placeOfFrame (pteFrame e.pte + j)).1 (o.hot.getD j 0) (e.hot.getD j 0) with
        | some up => policyMove s up e j
        | none => s) s) s

end Sys2Proof.Machine
end

