-- ==== Sys2Proof/Machine/Flags.lean ====
section
/-!
DEFINITION. Results that are conditions, and narrowing (10 R175 to R189): comparisons, truth tables, saturation, votes.
-/

namespace Sys2Proof.Machine

/-- Whether an integer type is signed. -/
def tySigned : Ty → Bool
  | .s32 | .s64 => true
  | _ => false

/-- Int(x, T) (R175). -/
def intOf (t : Ty) (x : Nat) : Int := if tySigned t then sextN (tyW t) x else ((x % 2 ^ tyW t : Nat) : Int)

/-- Clamp(x, T) (R175). -/
def clampT (t : Ty) (x : Int) : Int :=
  if tySigned t then max (-(2 ^ (tyW t - 1))) (min (2 ^ (tyW t - 1) - 1) x) else max 0 (min (2 ^ tyW t - 1) x)

/-- The exact result narrowed, with or without saturation (R175). -/
def narrow (t : Ty) (sat : Bool) (x : Int) : Nat := truncN (tyW t) (if sat then clampT t x else x)

/-- ICMP's condition (R185). -/
def cmpHolds (c : CmpI) (a b : Int) : Bool :=
  match c with
  | .eq => decide (a = b) | .ne => decide (a ≠ b) | .lt => decide (a < b)
  | .le => decide (a ≤ b) | .gt => decide (a > b) | .ge => decide (a ≥ b)

/-- PLOP's truth table (R186): bit 2a + b of t. -/
def tableBit (tt : BitVec 4) (a b : Bool) : Bool := tt.getLsbD (2 * a.toNat + b.toNat)

/-- VOTE over the values of a predicate in the active lanes (R189). -/
def voteHolds (m : VoteMode) (vs : List Bool) : Bool :=
  match m with
  | .all => vs.all id
  | .any => vs.any id
  | .uni => vs.all id || vs.all not
  | .ballot => false

end Sys2Proof.Machine
end

