-- ==== Sys2Proof/Machine/Operands.lean ====
section
/-!
DEFINITION. Operand forms (01 R15, R26; 03 R50; 10 R172, R173): sources by slot, immediates by type, and the shared
shapes of register instructions: one result per slot, one predicate per slot.
-/

namespace Sys2Proof.Machine

/-- The FP64 bits of an FP32 immediate (R26): converted exactly, a NaN canonical. -/
def immF64 (x : Word) : Nat := fcvtBits f64 f32 .rne false x.toNat

/-- The value an imm32 stands for (R26). -/
def immVal (t : Ty) (x : Word) : Nat :=
  match t with
  | .s64 => truncN 64 (sextN 32 x.toNat)
  | .f64 => immF64 x
  | _ => x.toNat

/-- A register source of a type: W bits (R172); a 16-bit scalar ignores bits [31:16] (R50). -/
def src (r : Regs) (sl : Slot) (t : Ty) (a : Reg) : Nat := r.rdW sl a.toNat (tyRegs t) % 2 ^ tyW t

/-- A last source of a type that may be an immediate. -/
def srcO (r : Regs) (sl : Slot) (t : Ty) : Opnd → Nat
  | .reg a => src r sl t a
  | .imm x => immVal t x % 2 ^ tyW t

/-- A 32-bit last source: a count, an index or a scale, an immediate unchanged (R172). -/
def src32 (r : Regs) (sl : Slot) : Opnd → Nat
  | .reg a => (r.rd sl a.toNat).toNat
  | .imm x => x.toNat

/-- D := f in each slot, all sources read first (R173). -/
def writeSlots (slots : List Slot) (d : Reg) (n : Nat) (f : Slot → Nat) (r : Regs) : Regs :=
  slots.foldl (fun r sl => r.wrN sl d.toNat n (f sl)) r

/-- pD := f in each slot. -/
def writePreds (slots : List Slot) (d : Reg) (f : Slot → Bool) (r : Regs) : Regs :=
  slots.foldl (fun r sl => r.wrPred sl d.toNat (f sl)) r

/-- An instruction that gives each slot a value of `n` registers in D. -/
def valueOp (s : State) (i : Instr) (h : Hdr) (d : Reg) (n : Nat) (f : Regs → Slot → Nat) : Host.Outcome State Fault Refusal :=
  match exOf s h with
  | none => .next s
  | some x => .next (retire s x i h (writeSlots x.slots d n (f x.r)))

/-- An instruction that gives each slot a predicate. -/
def predOp (s : State) (i : Instr) (h : Hdr) (d : Reg) (f : Regs → Slot → Bool) : Host.Outcome State Fault Refusal :=
  match exOf s h with
  | none => .next s
  | some x => .next (retire s x i h (writePreds x.slots d (f x.r)))

/-- The active slots of one register set, in ascending lane order (R287). -/
def slotsOfSet (slots : List Slot) (sl : Slot) : List Slot :=
  match sl with
  | .lane j _ => slots.filter fun q => match q with | .lane j' _ => j' == j | .ctl => false
  | .ctl => [.ctl]

/-- The lowest active slot of a slot's set. -/
def lowestOf (slots : List Slot) (sl : Slot) : Slot := (slotsOfSet slots sl).headD sl

/-- The slot of another lane of the same set. -/
def laneAt (sl : Slot) (l : Nat) : Slot :=
  match sl with
  | .lane j _ => .lane j l
  | .ctl => .ctl

/-- The lane index of a slot. -/
def laneIx : Slot → Nat
  | .lane _ l => l
  | .ctl => 0

end Sys2Proof.Machine
end

