-- ==== Sys2Proof/Machine/Spans.lean ====
section
/-!
DEFINITION. Spans of global memory as an engine of an issuer reads and writes them (07 R143 to R147, R150; 12 R235; 14 R267,
R274): line by line, by its page in memory, on the chip, or at a peer of the pod; up to the first line that fails.
-/

namespace Sys2Proof.Machine

/-- What an engine access comes to. -/
inductive Eng where
  | ok
  | fail (cause addr : Nat)
  | wait
  deriving DecidableEq, Repr

/-- Where a byte range of one global line lies (R134, R150, R266). -/
inductive GPlace where
  | mem
  | loc (l : Loc)
  | pod (o : Nat)
  | bad (cause : Nat)
  deriving DecidableEq, Repr

def gPlace (s : State) (i : Iss) (va n : Nat) (w : Want) : GPlace :=
  if va + n > 2 ^ 48 then .bad 7
  else match pageCheck s i va n ⟨w, false, false⟩ with
  | some c => .bad c
  | none =>
    match walk s (tabAsid i.l.asid va) va with
    | none => .bad 7
    | some wk =>
      let pa := wk.pa va
      if paTarget pa = 9 then (match winLoc s i pa n with | some l => .loc l | none => .bad 7)
      else if paTarget pa = 15 then .pod (pa % 2 ^ 48)
      else .mem

/-- Bytes at an on-chip location. -/
def locGet (s : State) (n : Nat) : Loc → Nat
  | .scr uid o => scrRead s uid o n
  | .free d c o => freeRead s d c o n
  | .mem _ => 0

def locPut (s : State) (n v : Nat) : Loc → State
  | .scr uid o => scrWrite s uid o n v
  | .free d c o => freeWrite s d c o n v
  | .mem _ => s

/-- A pod line that an operation reads: the answer, or the request is sent (R266, R267). -/
def podFetch (s : State) (i : Iss) (op va o : Nat) : State × MemRes :=
  match podRead s i op (locKey i va) with
  | some q =>
    (match q.done with
     | some (true, b) => (s, .ok (BitVec.ofNat 1024 (ofBytes b)) false)
     | some (false, _) => (s, .ok 0 true)
     | none => (s, .wait))
  | none => (podSend s i op (locKey i va).line false o (.read (o % 2 ^ 38 / 128 * 128) 128), .wait)

/-- A line of memory read or written by an operation of an issuer: a wait at an uncached line's home is remembered (R132). -/
def memTry (s : State) (i : Iss) (k : Key) (f : State → State × MemRes) : State × MemRes :=
  match takeRefusal s i.cl k with
  | some (c, s) => (s, .bad c)
  | none =>
    match f s with
    | (s, .wait) => (if plainUncached s k then noteWait s i k else s, .wait)
    | (s, r) => (endWait s i (· == k), r)

/-- Reads `n` bytes of one line. -/
def spanGet (s : State) (i : Iss) (op va n : Nat) : State × Eng × Nat :=
  match gPlace s i va n .read with
  | .bad c => (s, .fail c va, 0)
  | .loc l => (s, .ok, locGet s n l)
  | .pod o =>
    (match podFetch s i op va o with
     | (s, .ok l false) => (s, .ok, lineGet l (va % 128) n)
     | (s, .ok _ true) => (s, .fail 8 va, 0)
     | (s, .bad c) => (s, .fail c va, 0)
     | (s, .wait) => (s, .wait, 0))
  | .mem =>
    match memTry s i (locKey i va) (fun s => lineAs s (i.uid, i.who, op) i.cl (locKey i va)) with
    | (s, .ok l false) =>
      (match recordAccess s i (locKey i va) false with | some s => (s, .ok, lineGet l (va % 128) n) | none => (s, .wait, 0))
    | (s, .ok _ true) => (s, .fail 8 va, 0)
    | (s, .bad c) => (s, .fail c va, 0)
    | (s, .wait) => (s, .wait, 0)

/-- Reads pieces; with a failure, the bytes before it count. -/
def spanReadGo (i : Iss) (op : Nat) : List (Nat × Nat × Nat) → State → Nat → Nat → State × Eng × Nat × Nat
  | [], s, v, k => (s, .ok, v, k)
  | (va, m, o) :: r, s, v, k =>
    match spanGet s i op va m with
    | (s, .ok, w) => spanReadGo i op r s (v + w * 256 ^ o) (k + m)
    | (s, e, _) => (s, e, v, k)

/-- `n` bytes from a VA: the outcome, the value, and how many bytes of it were read. -/
def spanRead (s : State) (i : Iss) (op va n : Nat) : State × Eng × Nat × Nat :=
  spanReadGo i op (pieces (pieceFuel n) va n 0) s 0 0

/-- Pieces of a value written in order, those at peers left for later; the pieces passed, up to a failing one. -/
def spanWriteGo (i : Iss) (op v : Nat) :
    List (Nat × Nat × Nat) → State → List (Nat × Nat × Nat) → State × Eng × List (Nat × Nat × Nat)
  | [], s, past => (s, .ok, past)
  | (va, m, o) :: r, s, past =>
    match gPlace s i va m .write with
    | .bad c => (s, .fail c va, past)
    | .loc l => spanWriteGo i op v r (locPut s m (v / 256 ^ o % 256 ^ m) l) past
    | .pod _ => spanWriteGo i op v r s (past ++ [(va, m, o)])
    | .mem =>
      match memTry s i (locKey i va) (fun s =>
          putAs s (i.uid, i.who, op) i.cl (locKey i va) (m == 128) fun l => linePut l (va % 128) m (v / 256 ^ o)) with
      | (s, .ok _ _) =>
        (match recordAccess s i (locKey i va) true with
         | some s => spanWriteGo i op v r s past
         | none => (s, .wait, past))
      | (s, .bad c) => (s, .fail c va, past)
      | (s, .wait) => (s, .wait, past)

/-- Pieces on pod pages go to their peers (R266, R267). -/
def spanPods (s : State) (i : Iss) (op v : Nat) (ps : List (Nat × Nat × Nat)) : State :=
  ps.foldl (fun s p =>
    match gPlace s i p.1 p.2.1 .write with
    | .pod o => podSend s i op p.1 true o (.write (o % 2 ^ 38) (toBytes p.2.1 (v / 256 ^ p.2.2 % 256 ^ p.2.1)))
    | _ => s) s

/-- Writes `n` bytes from a VA, up to a failing line. What waits has sent nothing to a peer. -/
def spanWrite (s : State) (i : Iss) (op va n v : Nat) : State × Eng :=
  match spanWriteGo i op v (pieces (pieceFuel n) va n 0) s [] with
  | (s, .wait, _) => (s, .wait)
  | (s, e, past) => (spanPods s i op v past, e)

/-- The pod writes of an operation: whether it has any, and whether one has not been answered. -/
def podWrites (s : State) (uid who op : Nat) : Bool × Bool :=
  let qs := s.links.pods.filter fun q => q.blk == uid && q.who == who && q.op == op && q.write
  (!qs.isEmpty, qs.any fun q => q.done == none)

end Sys2Proof.Machine
end

