-- ==== Sys2Proof/Machine/MemOps.lean ====
section
/-!
DEFINITION. Class 3 (07 R134 to R148, 08 R161, 09 R166, 05 R106 to R109): loads and stores at issue, PREF, counters, fences,
copies at issue and their batches, deposits, discards, hints and region buffers. What was issued completes in later steps.
-/

namespace Sys2Proof.Machine

/-! ### LD and ST at issue (R137 to R139) -/

/-- The memory rule of a plain access. -/
def plainRule (w : Want) : PageRule := ⟨w, false, false⟩

/-- A store's datum registers, slot by slot: read at issue (R169). -/
def dataOf (r : Regs) (d : Reg) (n : Nat) (slots : List Slot) : List Word :=
  slots.flatMap fun sl => (List.range n).map fun j => BitVec.ofNat 32 (r.rdW sl d.toNat n / 2 ^ (32 * j))

/-- The registers that an issued memory instruction writes when it completes (R137, R248). -/
def pendDest (i : Instr) (slots : List Slot) (r : Regs) : Regs :=
  match i with
  | .ld _ _ t _ _ d _ _ => slots.foldl (fun r sl => r.wrN sl d.toNat (tyRegs t) 0) r
  | i => match atomShape i with
    | some (d, n, badd, _) => slots.foldl (fun r sl => r.wrN sl d.toNat (if badd then 2 * n else n) 0) r
    | none => r

/-- Enters an instruction into its issuer's window, raises its counter, and goes on (R135, R139). Its marks wait until it
retires, and spare what it writes (R169). -/
def issuePend (s : State) (x : Ex) (i : Instr) (h : Hdr) (m : MemX) (acc : List Access) (data : List Word) : State :=
  let c := x.cur
  let o := orderOf s c.blk c.who
  let p : Pend := ⟨o, c.path, c.pc, c.word, i, acc, threadsOf h.g x.mask x.slots, data, [], false, s.sched.cycle⟩
  let own := writtenCells x.r (pendDest i x.slots)
  let marks := (marksOf i h x.slots x.r).filter fun k => !own.any fun q => q.markedBy k
  let s := raiseCtr s c.blk c.who (ctrIndex m)
  let s := modCtx s c.blk c.who fun k => { k with window := k.window ++ [p] }
  let s := if c.who = bmsWho then s else modGroup s c.blk c.who fun g => { g with ahead := g.ahead ++ [⟨c.path, o, marks⟩] }
  pass (noteOpbuf s x i h) c

/-- Sends the requests a window entry can send now: reads for a load, ownership for a store (R116). -/
def sendPend (s : State) (i : Iss) (p : Pend) : State :=
  let store := match p.instr with | .st .. => true | _ => false
  (pendKeys s i p).foldl (fun s k =>
    match pteOf s k with
    | none => s
    | some pte =>
      match pageKind k pte with
      | .cached =>
        if (held s i.cl k (if store then .wr else .rd)).isSome then s
        else ask s i.cl k (needReq (lineOf s i.cl k) (if store then .wr else .rd))
      | _ => s) s

/-- LD and ST at issue: checks, then the window. -/
def issueAccess (s : State) (ins : Instr) (h : Hdr) (sp : Space) (t : Ty) (d a : Reg) (m : MemX) (store : Bool) :
    Host.Outcome State Fault Refusal :=
  match exOf s h with
  | none => .next s
  | some x =>
    match issOf s x.cur.blk x.cur.who with
    | none => .next s
    | some i =>
      if x.slots.isEmpty then .next (pass s x.cur)
      else if ctrFull s i.uid i.who (ctrIndex m) then .next s
      else match firstFault s i x.r sp a m.ofs (tyBytes t) (plainRule (if store then .write else .read)) x.slots with
      | some f => .next (trapAt s x.cur (!h.g) f)
      | none =>
        let id := orderOf s i.uid i.who
        let s := issuePend s x ins h m (accessesOf x.r sp a m.ofs x.slots)
          (if store then dataOf x.r d (tyRegs t) x.slots else [])
        match (windowOf s i.uid i.who).find? (fun p => p.id == id) with
        | some p => .next (sendPend s i p)
        | none => .next s

/-- LD (R138): its checks and its issue; the data arrives by LOAD_DATA_RETURN. -/
def execLd (h : Hdr) (sp : Space) (t : Ty) (acq : Bool) (al : Alloc) (d a : Reg) (m : MemX) (s : State) :
    Host.Outcome State Fault Refusal :=
  issueAccess s (.ld h sp t acq al d a m) h sp t d a m false

/-- ST (R138): its checks and its issue; it is performed by STORE_PERFORMED. A release drains the cluster's
write-combining buffer (R127). -/
def execSt (h : Hdr) (sp : Space) (t : Ty) (rel : Bool) (al : Alloc) (d a : Reg) (m : MemX) (s : State) :
    Host.Outcome State Fault Refusal :=
  let s' := match s.sched.cur with
    | some c => if rel && storWide m.stor then
        (match issOf s c.blk c.who with | some i => wcDrainAll s i.cl fun _ => true | none => s) else s
    | none => s
  issueAccess s' (.st h sp t rel al d a m) h sp t d a m true

/-! ### PREF (R128, R140) -/

/-- What a PREF does with one line at issue (R128, R140): a walk or page that does not permit it, or an unbacked address, drops
the request; uncached pages take none; else the line is out. -/
def prefStart (s : State) (i : Iss) (mode : PrefMode) (k : Key) : State × List (Key × Bool) :=
  match pteOf s k with
  | none => (prefDrop s, [])
  | some pte =>
    let a := pteAttr pte
    let want := match mode with | .x => Want.both | _ => Want.read
    if !a.permits want i.runtime || !s.mem.backed (keyPa k pte) then (prefDrop s, [])
    else match pageKind k pte with
    | .cached => prefGo i.cl mode [(k, false)] s
    | _ => (s, [])

/-- The lines of a PREF at issue, in slot order. -/
def prefAll (i : Iss) (mode : PrefMode) : List Key → State → State × List (Key × Bool)
  | [], s => (s, [])
  | k :: r, s =>
    let (s, l) := prefStart s i mode k
    let (s, l') := prefAll i mode r s
    (s, l ++ l')

/-- The first check of a PREF or a one-byte query that fails (R80, R96, R140). -/
def rangeFault (i : Iss) (r : Regs) (a : Reg) (ofs : BitVec 21) (slots : List Slot) : Option Flt :=
  slots.findSome? fun sl =>
    let ad := addrOf r .glb sl a ofs
    if ad ≥ 2 ^ 48 then some ⟨7, ad, some sl⟩ else if !i.l.covers ad 1 then some ⟨6, ad, some sl⟩ else none

/-- PREF (R140): its requests are sent; CTR falls when every one has been granted or dropped. -/
def execPref (h : Hdr) (mode : PrefMode) (a : Reg) (m : MemX) (s : State) : Host.Outcome State Fault Refusal :=
  match exOf s h with
  | none => .next s
  | some x =>
    match issOf s x.cur.blk x.cur.who with
    | none => .next s
    | some i =>
      if x.slots.isEmpty then .next (pass s x.cur)
      else if ctrFull s i.uid i.who (ctrIndex m) then .next s
      else match rangeFault i x.r a m.ofs x.slots with
      | some f => .next (trapAt s x.cur (!h.g) f)
      | none =>
        let keys := (x.slots.map fun sl => locKey i (addrOf x.r .glb sl a m.ofs)).foldl
          (fun ks k => if ks.contains k then ks else ks ++ [k]) []
        let (s, out) := prefAll i mode keys s
        let ctr := ctrIndex m
        let s := if out.isEmpty then s
          else raiseCtr { s with coh := { s.coh with prefs := s.coh.prefs ++ [⟨i.uid, i.who, i.cl, ctr, mode, i.runtime, out⟩] } }
            i.uid i.who ctr
        .next (retire s x (.pref h mode a m) h id)

/-! ### Counters and waits (R136, R141, R142) -/

/-- Whether some live path of a group can still act (R141). -/
def Path.acts (p : Path) : Bool := p.st == .ready || p.st == .sleep || (p.held && p.st != .free)

/-- The counter an armed wait of a path watches, with its threshold. -/
def ctrWait : Wait → Option (Nat × Int)
  | .ctr c t _ => some (c, t)
  | _ => none

/-- Whether anything outstanding names a counter of an issuer: a memory instruction, a copy (15 names none), a PREF, a held
contribution, a deposit (R141, R143). -/
def ctrOwed (s : State) (b : Block) (who c : Nat) : Bool :=
  (windowOf s b.uid who).any (fun p => pendCtr p == some c)
    || (c != 15 && (((ctxOf s b.uid who).map (·.copies)).getD []).any fun k => bitsAt k.desc.toNat 180 4 == c)
    || s.coh.prefs.any (fun p => p.blk == b.uid && p.who == who && p.ctr == some c)
    || s.coh.held.any (fun h => h.blk == b.uid && h.who == who && h.ctr == some c)
    || s.work.deposits.any fun d => d.cohort == b.cohort && d.inCoh == b.inCoh && d.grp == who && d.ctr == c && who != bmsWho

/-- Whether a group has exited: no live lane and no deferred record (R318). -/
def Group.gone (g : Group) : Bool := g.paths.all fun p => p.st == .free

/-- Whether every other group of the cohort has exited, or for a BMS every group of its block (R141). -/
def othersGone (s : State) (b : Block) (who : Nat) : Bool :=
  if who = bmsWho then b.groups.all Group.gone
  else (cohortBlocks s b.cohort).all fun q =>
    (List.range q.groups.length).all fun g => (q.uid == b.uid && g == who) || ((q.groups[g]?).any Group.gone)

/-- Whether a barrier phase can still complete by a party that has not exited and has a path out of BARW (R322). -/
def barStuck (s : State) (b : Block) (coh : Bool) : Bool :=
  let parties := if coh then cohortBlocks s b.cohort else [b]
  parties.all fun q =>
    q.groups.all (fun g => g.paths.all fun p => p.st == .free || (p.st == .barw && !p.held))
      && (coh || (match q.bms with | some m => m.st == .exited || (match m.wait with | .bar _ _ _ _ => true | _ => false) | none => true))

/-- Whether one waiting path of a group is decided unsatisfiable, its siblings supposed stuck (R141, R322). -/
def waitDead (s : State) (b : Block) (who : Nat) (w : Wait) : Bool :=
  match w with
  | .ctr c _ _ => !ctrOwed s b who c && othersGone s b who
  | .bar coh _ _ _ => barStuck s b coh
  | _ => false

/-- The paths of a group whose waits no party can end, when all its paths are stuck (R141, R322). -/
def deadPaths (s : State) (b : Block) (g : Nat) : List Nat :=
  match b.groups[g]? with
  | none => []
  | some gr =>
    let live := (List.range gr.paths.length).filter fun p => (gr.paths[p]?).any fun q => q.st != .free
    let stuck := live.all fun p => (gr.paths[p]?).any fun q =>
      !q.acts && (q.st == .joinw || waitDead s b g q.wait)
    let own := live.filter fun p => (gr.paths[p]?).any fun q =>
      !q.held && (match q.wait with | .ctr .. => stuck && waitDead s b g q.wait | .bar .. => waitDead s b g q.wait | _ => false)
    own

/-- An arrival of a party leaves the open phase of a barrier. -/
def Bar.leave (r : Bar) (party : Nat × Nat) (n : Nat) : Bar :=
  { r with a := r.a - n, who := dropFirst (· == party) r.who }

/-- An orphan wait of an issuer traps: its arrival is withdrawn and the instruction has no effect (R322). -/
def withdraw (s : State) (uid who : Nat) (w : Wait) : State :=
  match blockOf s uid, w with
  | some _, .bar false nb _ n => modBlock s uid fun b => { b with bars := b.bars.modify nb fun r => r.leave (b.index, who) n }
  | some b, .bar true nb _ n => modCohort s b.cohort fun c => { c with bars := c.bars.modify nb fun r => r.leave (b.index, who) n }
  | _, _ => s

/-- The word of a waiting path's instruction as the instruction cache of its core holds it (R347). -/
def wordAt (s : State) (uid who pc : Nat) : IWord :=
  match issOf s uid who with
  | some i => (match fetchWord s i pc with | (_, .word w) => w | _ => 0)
  | none => 0

/-- Raises 0x0A at one waiting path (R322). -/
def orphanPath (s : State) (uid g p : Nat) : State :=
  match pathOf s uid g p with
  | none => s
  | some q =>
    let s := withdraw s uid g q.wait
    let s := modCtx s uid g fun c => { c with armed := c.armed.filter fun a => a != p }
    let s := modPath s uid g p fun q => { q with st := .ready, wait := .none, kills := [] }
    let t := mkTrap ⟨0x0A, 0, none⟩ false false 0 q.pc (wordAt s uid g q.pc)
    let busy := (groupOf s uid g).any fun gr => gr.hpath.isSome
    if busy then modPath s uid g p fun q => { q with trap := some t } else takeTrap s uid g p t q.pc

/-- Raises 0x0A at a BMS wait that no party can end (R141, R221). -/
def orphanBms (s : State) (b : Block) : State :=
  match b.bms with
  | none => s
  | some m =>
    let dead := m.st == .wait && (match m.wait with
      | .ctr .. => waitDead s b bmsWho m.wait
      | .bar .. => b.groups.all Group.gone
      | _ => false)
    if dead then
      let s := withdraw s b.uid bmsWho m.wait
      let s := modCtx s b.uid bmsWho fun c => { c with armed := [] }
      bmsTrap (modBms s b.uid fun m => { m with wait := .none }) b.uid
        (mkTrap ⟨0x0A, 0, none⟩ false false 0 m.pc (wordAt s b.uid bmsWho m.pc))
    else s

/-- Decides the orphan waits of a cohort, in ascending block and group index (R141, R322). -/
def orphanCheck (s : State) (coh : Nat) : State :=
  let hits := (cohortBlocks s coh).flatMap fun b =>
    (List.range b.groups.length).flatMap fun g => (deadPaths s b g).map fun p => (b.uid, g, p)
  let s := hits.foldl (fun s x => orphanPath s x.1 x.2.1 x.2.2) s
  (cohortBlocks s coh).foldl orphanBms s

/-- `orphanCheck` for the cohort of a block. -/
def orphanAt (s : State) (uid : Nat) : State :=
  match blockOf s uid with
  | some b => orphanCheck s b.cohort
  | none => s

/-- Arms a path or the BMS on a condition; its register marks wait for retirement (R136, R169). -/
def armWait (s : State) (x : Ex) (i : Instr) (h : Hdr) (st : PState) (w : Wait) : State :=
  let c := x.cur
  let ks := (lastUses i h).flatMap fun u => (List.range u.2).map fun n => u.1 + n
  let s := bumpOrder s c.blk c.who
  if c.who = bmsWho then modBms s c.blk fun m => { m with st := .wait, wait := w, kills := ks }
  else modPath s c.blk c.who c.path fun p => { p with st := st, wait := w, kills := ks }

/-- WAITC (R141): retires when the counter is low enough, else arms. -/
def execWaitc (h : Hdr) (d : Reg) (b : Opnd) (s : State) : Host.Outcome State Fault Refusal :=
  match exOf s h with
  | none => .next s
  | some x =>
    if x.slots.isEmpty then .next (pass s x.cur)
    else
      let c := x.cur
      let t := sextN 32 (src32 x.r .ctl b)
      if ctrOf s c.blk c.who d.toNat ≤ t then .next (retire s x (.waitc h d b) h id)
      else
        let s := armWait s x (.waitc h d b) h .waitc (.ctr d.toNat t none)
        let s := modCtx s c.blk c.who fun k => { k with armed := k.armed ++ [if c.who = bmsWho then 0 else c.path] }
        .next (orphanAt s c.blk)

/-- CADD (R142): a result outside the counter's range is 0x03. -/
def execCadd (h : Hdr) (d : Reg) (b : Opnd) (s : State) : Host.Outcome State Fault Refusal :=
  match exOf s h with
  | none => .next s
  | some x =>
    if x.slots.isEmpty then .next (pass s x.cur)
    else
      let c := x.cur
      let v := ctrOf s c.blk c.who d.toNat + sextN 32 (src32 x.r .ctl b)
      if v < -32768 ∨ v > 32767 then .next (trapAt s c false ⟨3, 0, none⟩)
      else .next (setCtr (retire s x (.cadd h d b) h id) c.blk c.who d.toNat v)

/-! ### FENCE (R161) -/

/-- Whether an acquire waits for an earlier read of its threads to a class of its mask (R155): a later access must not come
before what it read. -/
def readsWait (s : State) (i : Iss) (thr : List LaneMask) (m : Stor) : Bool :=
  (windowOf s i.uid i.who).any fun q => masksMeet q.thr thr && (match q.instr with | .st .. => false | _ => true)
    && (pendClasses s i q).any (storHolds m)

/-- A FENCE that waits holds up no other path of its group (R161): its run ends. -/
def fenceYields (s : State) (c : Cur) : State :=
  if c.who = bmsWho then s else modGroup s c.blk c.who fun g => { g with runLen := 32 }

/-- FENCE (R161): a release waits until every earlier access of its threads to a class in STOR is performed at SCOPE, and for
GLB or HOST until the cluster's write-combining buffer is empty; an acquire until their reads have their values. One step is
one place in the package fence order. -/
def execFence (h : Hdr) (o : FenceOrd) (m : MemX) (s : State) : Host.Outcome State Fault Refusal :=
  match exOf s h with
  | none => .next s
  | some x =>
    match issOf s x.cur.blk x.cur.who with
    | none => .next s
    | some i =>
      if x.slots.isEmpty then .next (pass s x.cur)
      else
        match (if o == .acq then (s, true) else releaseAt s i x h.g m.stor m.scope) with
        | (s, false) => .next (fenceYields s x.cur)
        | (s, true) =>
          if o != .rel && readsWait s i (threadsOf h.g x.mask x.slots) m.stor then .next (fenceYields s x.cur)
          else .next (retire s x (.fence h o m) h id)

/-! ### Copies at issue (R143, R144) -/

/-- The fields of a copy descriptor (R143). -/
structure CopyD where
  src : Nat
  ssp : Nat
  dst : Nat
  dsp : Nat
  rowb : Nat
  rows : Nat
  conv : Nat
  ctr : Nat
  sp : Int
  dp : Int
  reserved : Nat
  deriving DecidableEq, Repr

def copyOf (w : Nat) : CopyD where
  src := bitsAt w 0 48
  ssp := bitsAt w 48 3
  dst := bitsAt w 64 48
  dsp := bitsAt w 112 3
  rowb := bitsAt w 128 24
  rows := bitsAt w 160 16
  conv := bitsAt w 176 3
  ctr := bitsAt w 180 4
  sp := sextN 32 (bitsAt w 192 32)
  dp := sextN 32 (bitsAt w 224 32)
  reserved := bitsAt w 51 13 + bitsAt w 115 13 + bitsAt w 152 8 + bitsAt w 179 1 + bitsAt w 184 8

/-- Source bytes of a row (R57, R144, R145). -/
def CopyD.srcBytes (c : CopyD) : Nat :=
  match c.conv with
  | 1 => c.rowb / 16 * 8
  | 2 => c.rowb / 16 * 12
  | 3 => c.rowb / 16 * 18
  | _ => c.rowb

/-- Where a `creg` address points: block in the cohort, group, register, lane (R143); none outside the cohort. -/
def cregAt (s : State) (b : Block) (a : Nat) : Option (Nat × Nat × Nat × Nat) :=
  match memberOf s b.cohort (bitsAt a 24 4) with
  | none => none
  | some q =>
    if bitsAt a 28 20 != 0 || bitsAt a 17 3 != 0 || bitsAt a 20 4 ≥ q.groups.length || bitsAt a 8 9 ≥ q.v.regs then none
    else some (q.uid, bitsAt a 20 4, bitsAt a 8 9, bitsAt a 2 6)

/-- Whether `n` bytes at an address of a local copy space lie inside it (R144). -/
def copySpanOk (s : State) (i : Iss) (sp : Nat) (a : Int) (n : Nat) : Bool :=
  if a < 0 then false
  else
    let a := a.toNat
    match sp with
    | 1 => decide (a + n ≤ i.b.v.scr)
    | 2 => (List.range (n / 4)).all fun j => (cohLoc s i (a + 4 * j) 4).isSome
    | 3 => decide (a + n ≤ 24576 * i.b.ytiles.length)
    | 4 => (List.range (n / 4)).all fun j => (winLoc s i (a + 4 * j) 4).isSome
    | 5 => (List.range (n / 4)).all fun j => (cregAt s i.b (a + 4 * j)).isSome
    | _ => true

/-- The rows of a rectangle. -/
def copyRows (c : CopyD) (base : Nat) (pitch : Int) : List Int :=
  (List.range c.rows).map fun (r : Nat) => (base : Int) + r * pitch

/-- The checks of R144 in their order: the cause and the address of the first that fails. -/
def copyCheck (s : State) (i : Iss) (c : CopyD) : Option (Nat × Nat) :=
  let noY := i.b.ytiles.isEmpty && (c.ssp == 3 || c.dsp == 3)
  let badConv := c.conv != 0 && (c.ssp != 0 || (c.dsp != 1 && c.dsp != 3))
  if c.reserved != 0 || c.ssp > 4 || c.dsp > 5 || c.conv > 3 || badConv || noY
      || (c.conv != 0 && decide (c.dp < c.rowb)) then some (3, 0)
  else if c.conv = 0 && (c.src % 4 != 0 || c.dst % 4 != 0 || c.rowb % 4 != 0 || c.sp % 4 != 0 || c.dp % 4 != 0) then
    some (5, if c.src % 4 != 0 then c.src else c.dst)
  else if c.conv != 0 && (c.src % 2 != 0 || c.sp % 2 != 0 || c.rowb % 16 != 0 || c.dst % 4 != 0 || c.dp % 4 != 0) then
    some (5, if c.src % 2 != 0 then c.src else c.dst)
  else if c.rows = 0 || c.rowb = 0 then none
  else
    let rects := [(c.ssp, c.src, c.sp, c.srcBytes), (c.dsp, c.dst, c.dp, c.rowb)]
    let lease := rects.findSome? fun r =>
      if r.1 != 0 then none
      else (copyRows c r.2.1 r.2.2.1).findSome? fun a =>
        if i.l.hasRange && (decide (a < 0) || !i.l.covers a.toNat r.2.2.2) then some (6, (a % 2 ^ 48).toNat) else none
    let local_ := rects.findSome? fun r =>
      if r.1 = 0 then none
      else (copyRows c r.2.1 r.2.2.1).findSome? fun a =>
        if copySpanOk s i r.1 a r.2.2.2 then none else some (7, (a % 2 ^ 48).toNat)
    let side := if c.conv != 0 && c.dsp == 1 then
        (if copySpanOk s i 1 ((c.dst : Int) + c.rows * c.dp) (2 * c.rows * (c.rowb / 16)) then none else some (7, c.dst)) else none
    match lease with
    | some x => some x
    | none => match local_ with | some x => some x | none => side

/-- CPY (R144): the copy joins the open batch; the engine performs it later. -/
def execCpy (h : Hdr) (a : Reg) (s : State) : Host.Outcome State Fault Refusal :=
  match exOf s h with
  | none => .next s
  | some x =>
    match issOf s x.cur.blk x.cur.who, ctxOf s x.cur.blk x.cur.who with
    | some i, some k =>
      if x.slots.isEmpty then .next (pass s x.cur)
      else
        let w := x.r.rdN .ctl a.toNat 8
        let c := copyOf w
        match copyCheck s i c with
        | some (cause, ad) => .next (trapAt s x.cur false ⟨cause, ad, none⟩)
        | none =>
          let ctr := if c.ctr = 15 then none else some c.ctr
          if k.copies.length ≥ 64 || ctrFull s i.uid i.who ctr then .next s
          else
            let rec_ : CopyRec := ⟨orderOf s i.uid i.who, BitVec.ofNat 256 w, (k.batch + 1) % 2 ^ 32, 0, false, s.sched.ns, i.runtime⟩
            let s := raiseCtr s i.uid i.who ctr
            let s := modCtx s i.uid i.who fun k => { k with copies := k.copies ++ [rec_] }
            .next (retire s x (.cpy h a) h id)
    | _, _ => .next s

/-! ### Batches (R146, R147) -/

/-- The sealed batches of a context that are not complete. -/
def sealedOpen (k : Ctx) : List Nat :=
  (k.copies.foldl (fun l c => insertNat c.batch l) []).filter fun b => b != (k.batch + 1) % 2 ^ 32

/-- SEAL (R146). -/
def execSeal (h : Hdr) (d : Reg) (s : State) : Host.Outcome State Fault Refusal :=
  match exOf s h with
  | none => .next s
  | some x =>
    match ctxOf s x.cur.blk x.cur.who with
    | none => .next s
    | some k =>
      if x.slots.isEmpty then .next (pass s x.cur)
      else if (sealedOpen k).length ≥ 16 then .next s
      else
        let n := (k.batch + 1) % 2 ^ 32
        let s := modCtx s x.cur.blk x.cur.who fun k => { k with batch := n }
        .next (retire s x (.seal h d) h (writeSlots x.slots d 1 fun _ => n))

/-- Whether batch `m` is among those that `CBW n` covers (R147). -/
def batchCovered (n m : Nat) : Bool := decide ((n + 2 ^ 32 - m % 2 ^ 32) % 2 ^ 32 < 2 ^ 31)

/-- The failure a CBW or EXIT raises first: oldest batch, then issue order (R147). `n` is the reference batch. -/
def oldestFail (n : Nat) (fs : List CopyFail) : Option CopyFail :=
  (sortBy (fun a b =>
    let da := (n + 2 ^ 32 - a.batch) % 2 ^ 32
    let db := (n + 2 ^ 32 - b.batch) % 2 ^ 32
    decide (da > db) || (da == db && decide (a.id ≤ b.id))) fs).head?

/-- A failure is raised once (R147). -/
def consumeFail (s : State) (uid who : Nat) (f : CopyFail) : State :=
  modCtx s uid who fun k => { k with fails := k.fails.erase f }

/-- CBW (R147). -/
def execCbw (h : Hdr) (b : Opnd) (s : State) : Host.Outcome State Fault Refusal :=
  match exOf s h with
  | none => .next s
  | some x =>
    match ctxOf s x.cur.blk x.cur.who with
    | none => .next s
    | some k =>
      if x.slots.isEmpty then .next (pass s x.cur)
      else
        let n := src32 x.r .ctl b
        let ahead := (n + 2 ^ 32 - k.batch) % 2 ^ 32
        if ahead ≠ 0 ∧ ahead < 2 ^ 31 then .next (trapAt s x.cur false ⟨3, 0, none⟩)
        else if (sealedOpen k).any (batchCovered n) then .next s
        else match oldestFail n (k.fails.filter fun f => batchCovered n f.batch && f.batch != (k.batch + 1) % 2 ^ 32) with
        | some f =>
          if unpassed s x.cur.blk x.cur.who x.cur.path then .next s
          else .next (trapAt (consumeFail s x.cur.blk x.cur.who f) x.cur false ⟨f.cause, f.addr, none⟩)
        | none => .next (retire s x (.cbw h b) h id)

/-! ### DEP (R148) -/

/-- Whether a target word of DEP is well formed for a cohort (R148). -/
def depTargetOk (s : State) (b : Block) (wide : Bool) (w : Nat) : Bool :=
  bitsAt w 28 4 == 0 && bitsAt w 7 9 == 0 && !(wide && bitAt w 0)
    && (planOf s b.cohort).any (fun m => m.inCoh == bitsAt w 16 4) && decide (bitsAt w 20 4 < b.groups.length)

/-- DEP (R148): a release at `.coh` over SCR and GLB of every earlier access of the group, then the deposit is on its way. -/
def execDep (h : Hdr) (t : Ty) (a : Reg) (b : Opnd) (s : State) : Host.Outcome State Fault Refusal :=
  match exOf s h with
  | none => .next s
  | some x =>
    match issOf s x.cur.blk x.cur.who with
    | none => .next s
    | some i =>
      if x.slots.isEmpty then .next (pass s x.cur)
      else
        let w := (x.r.rd .ctl a.toNat).toNat
        let wide := t == .b64
        if !depTargetOk s i.b wide w then .next (trapAt s x.cur false ⟨3, 0, none⟩)
        else match release s i (x.mask.map fun _ => BitVec.allOnes 64) storScrGlb .coh (orderOf s i.uid i.who) with
        | (s, false) => .next s
        | (s, true) =>
          let d : Deposit := ⟨s.work.nextUid, i.uid, i.who, i.b.cohort, bitsAt w 16 4, bitsAt w 20 4, bitsAt w 0 7, wide,
            BitVec.ofNat 64 (srcO x.r .ctl t b), bitsAt w 24 4⟩
          let s := { s with work := { s.work with nextUid := s.work.nextUid + 1, deposits := s.work.deposits ++ [d] } }
          .next (retire s x (.dep h t a b) h id)

/-! ### DISC, MHINT, LQRY (05 R106 to R109) -/

/-- Whether a line lies in a granule. -/
def inGranule (k : Key) (asid va : Nat) : Bool := k.asid == tabAsid asid va && k.line / 512 == va % 2 ^ 48 / 65536

/-- The lines of a granule that any cache, home or window knows. -/
def granuleKeys (s : State) (asid va : Nat) : List Key :=
  let mine (k : Key) : Bool := inGranule k asid va
  ((s.coh.dir.map (·.key)) ++ (s.coh.lines.map (·.key)) ++ (s.coh.wins.map (·.key)) ++ (s.coh.wc.map (·.key))
    ++ (s.coh.net.map (·.key))).foldl (fun l k => if mine k && !l.contains k then l ++ [k] else l) []

/-- The frame of a granule becomes dead (R77, R97): of a granule in motion, copying stops, the destination is dead too, and
its page may now commit. -/
def killGranule (s : State) (asid va : Nat) : State :=
  match translate s (keyOf asid va) true with
  | (s, none) => s
  | (s, some pte) =>
    let f := pteFrame pte
    match s.motion.moves.find? fun m => m.src == f with
    | some m =>
      commitPages (beginMore (modMove (markDead (markDead s f) m.dst) m fun n => { n with dead := true, begun := true }) m.engine)
    | none => markDead s f

/-- A discard of a granule begins (R109): its frame is dead, or takes zeros where it is no frame of tiers H, L and X; the lines
that homes are to drop, all of them on a host frame. -/
def discStart (i : Iss) (op : Nat) (s : State) (va : Nat) : State × List Key :=
  let gone (k : Key) : Bool := inGranule k i.l.asid va
  let keys := granuleKeys s i.l.asid va
  let s := l2Drop { s with coh := { s.coh with
    wc := s.coh.wc.filter (fun w => !gone w.key), icache := s.coh.icache.filter fun e => !gone e.2.1 } } gone
  match (pteOf s (keyOf i.l.asid va)).map fun pte => paTarget (pteFrame pte * 65536) with
  | none => (s, keys)
  | some 8 => (s, (List.range 512).map fun n => keyOf i.l.asid (va + 128 * n))
  | some t => if t ≤ 7 then (killGranule s i.l.asid va, keys) else ((spanWrite s i op va 65536 0).1, [])

/-- Whether a home still has a discard to serve for a line. -/
def discOut (s : State) (k : Key) : Bool :=
  let mine (src : Nat) (r : Req) : Bool := src == enginePty && r == .far true
  let e := dirOf s k
  e.queue.any (fun x => mine x.1 x.2) || e.txn.any fun t => mine t.src t.req

/-- One line of a discard goes on: its home is asked once, in its queue (R408), and serves it; a host then takes zeros. None when
it is over. -/
def discOne (i : Iss) (op : Nat) (s : State) (x : Key × Bool) : State × Option (Key × Bool) :=
  let k := x.1
  let ask := !x.2 && !sliceFull s k
  let s := if ask then settle settleFuel (arrive s enginePty k (.far true)) k else s
  let sent := x.2 || ask
  if !sent || discOut s k then (if homeUp s k then s else noteWait s i k, some (k, sent))
  else match hostAddr s k with
  | none => (s, none)
  | some hpa =>
    match ucTake s (i.uid, i.who, op) k true with
    | (s, some (some _)) => (s, none)
    | (s, some none) => (s, some (k, true))
    | (s, none) => (ucSend (hostNoted s k) (i.uid, i.who, op) k hpa (some (0, BitVec.allOnes 128)), some (k, true))

/-- A DISC goes on with the lines it has left; true when every granule is dead and what went to the host or to peers has been
answered. -/
def discGo (s : State) (i : Iss) (d : Disc) : State × Bool :=
  let (s, left) := d.left.foldl (fun y x => match discOne i d.op y.1 x with
    | (s, some k) => (s, y.2 ++ [k])
    | (s, none) => (s, y.2)) (s, [])
  let rest := s.coh.discs.filter fun e => !(e.blk == d.blk && e.who == d.who && e.path == d.path)
  if left.isEmpty && !(podWrites s i.uid i.who d.op).2 then
    (dropPods (endWait { s with coh := { s.coh with discs := rest } } i fun k => d.left.any fun x => x.1 == k) i.uid i.who d.op, true)
  else ({ s with coh := { s.coh with discs := rest ++ [{ d with left := left }] } }, false)

/-- A home that has not answered a DISC's request in 2 ms (R132): the DISC is given up. -/
def discRefused (s : State) (i : Iss) (d : Disc) : Option (Nat × Nat × State) :=
  d.left.findSome? fun x => (takeRefusal s i.cl x.1).map fun r =>
    (r.1, vaOf x.1, dropPods (endWait { r.2 with coh := { r.2.coh with discs := r.2.coh.discs.erase d } } i fun k =>
      d.left.any fun y => y.1 == k) i.uid i.who d.op)

/-- The checks of DISC in their order (R109). -/
def discCheck (s : State) (i : Iss) (va n : Nat) : Option (Nat × Nat) :=
  if n > 4096 then some (3, 0)
  else if n = 0 then none
  else if va ≥ 2 ^ 48 then some (7, va)
  else if va % 65536 != 0 then some (5, va)
  else if !i.l.covers va (65536 * n) then some (6, va)
  else (List.range n).findSome? fun q =>
    let a := va + 65536 * q
    if a ≥ 2 ^ 48 then some (7, a)
    else match walk s (tabAsid i.l.asid a) a with
    | none => some (7, a)
    | some w => if (pteAttr w.pte).permits .write i.runtime && !inTables s (w.pa a) then none else some (7, a)

/-- DISC (R109). Past its checks the granules are dead; it retires when every line of the range has been dropped. -/
def execDisc (h : Hdr) (a b : Reg) (m : MemX) (s : State) : Host.Outcome State Fault Refusal :=
  match exOf s h with
  | none => .next s
  | some x =>
    match issOf s x.cur.blk x.cur.who with
    | none => .next s
    | some i =>
      if x.slots.isEmpty then .next (pass s x.cur)
      else
        let va := addrOf x.r .glb .ctl a m.ofs
        let n := (x.r.rd .ctl b.toNat).toNat
        let go (s : State) (d : Disc) : State :=
          match discGo s i d with
          | (s, false) => s
          | (s, true) => retire s x (.disc h a b m) h id
        match s.coh.discs.find? fun d => d.blk == i.uid && d.who == i.who && d.path == x.cur.path with
        | some d =>
          (match discRefused s i d with
           | some (c, ad, s) => .next (trapAt s x.cur false ⟨c, ad, none⟩)
           | none => .next (go s d))
        | none =>
          match discCheck s i va n with
          | some (c, ad) => .next (trapAt s x.cur false ⟨c, ad, none⟩)
          | none =>
            if ctrFull s i.uid i.who (ctrIndex m) || owesAccess s i then .next s
            else
              let op := orderOf s i.uid i.who
              let (s, keys) := (List.range n).foldl (fun y q =>
                let (s, ks) := discStart i op y.1 (va + 65536 * q)
                (s, y.2 ++ ks)) (s, [])
              .next (go s ⟨i.cl, i.uid, i.who, x.cur.path, op, keys.map fun k => (k, false)⟩)

/-- One granule of an MHINT; a drop is counted (R108). -/
def hintGranule (s : State) (asid va : Nat) (tp : TierPlace) : State :=
  let drop (e : Nat) : State := { s with motion := { s.motion with drops := s.motion.drops.modify e (· + 1) } }
  match offerMove s asid va tp false with
  | .ignored => s
  | .full e => drop e
  | .taken s' => if s.motion.hints.contains asid then s' else drop (engineOf (destOf s asid va tp))

/-- MHINT (R108). -/
def execMhint (h : Hdr) (tp : TierPlace) (a b : Reg) (m : MemX) (s : State) : Host.Outcome State Fault Refusal :=
  match exOf s h with
  | none => .next s
  | some x =>
    match issOf s x.cur.blk x.cur.who with
    | none => .next s
    | some i =>
      if x.slots.isEmpty then .next (pass s x.cur)
      else
        let va := addrOf x.r .glb .ctl a m.ofs
        let n := (x.r.rd .ctl b.toNat).toNat
        let bad : Option (Nat × Nat) :=
          if n = 0 then none
          else if va ≥ 2 ^ 48 then some (7, va)
          else if va % 65536 != 0 then some (5, va)
          else if !i.l.covers va (65536 * n) then some (6, va)
          else none
        match bad with
        | some (c, ad) => .next (trapAt s x.cur false ⟨c, ad, none⟩)
        | none =>
          let s := (List.range (min n (2 ^ 32 - va / 65536))).foldl (fun s q => hintGranule s i.l.asid (va + 65536 * q) tp) s
          .next (retire s x (.mhint h tp a b m) h id)

/-- LQRY (R107). -/
def execLqry (h : Hdr) (d a : Reg) (m : MemX) (s : State) : Host.Outcome State Fault Refusal :=
  let l := (s.sched.cur.bind fun c => launchOfBlock s c.blk)
  predOp s (.lqry h d a m) h d fun r sl =>
    let va := addrOf r .glb sl a m.ofs
    decide (va < 2 ^ 48) && (l.all fun l => !l.hasRange || l.inRange va)

/-! ### REGION (R166) -/

/-- The registers of a region table entry, or none where a slot is not allowed. R166 ignores a slot with V = 0 and raises 0x03 for
a reserved bit of a slot: the model's choice is that a slot with V = 0 raises it too (assumption log 110). -/
def regionSlots (budget : Nat) (v : Nat) : Option (List Nat) :=
  (List.range 64).foldl (fun (o : Option (List Nat)) n => o.bind fun l =>
    let sl := bitsAt v (16 * n) 16
    if bitsAt sl 9 6 != 0 then none
    else if !bitAt sl 15 then some l
    else if bitsAt sl 0 9 ≥ budget then none
    else some (insertNat (bitsAt sl 0 9) l)) (some [])

/-- REGION (R166). -/
def execRegion (h : Hdr) (idx : BitVec 12) (s : State) : Host.Outcome State Fault Refusal :=
  match exOf s h with
  | none => .next s
  | some x =>
    match issOf s x.cur.blk x.cur.who with
    | none => .next s
    | some i =>
      if x.slots.isEmpty then .next (pass s x.cur)
      else if idx.toNat ≥ i.l.k.rcnt then .next (trapAt s x.cur false ⟨3, 0, none⟩)
      else
        let va := i.l.k.rtab + 128 * idx.toNat
        match fetchBytes s i (pieces (pieceFuel 128) va 128 0) 0 with
        | (s, none) => .next s
        | (s, some (.inr c)) => .next (trapAt s x.cur false ⟨c, va, none⟩)
        | (s, some (.inl v)) =>
          match regionSlots (i.b.v.regs / i.b.v.fold) v with
          | none => .next (trapAt s x.cur false ⟨3, 0, none⟩)
          | some l =>
            let s := retire s x (.region h idx) h id
            .next (modGroup s i.uid i.who fun g => { g with region := l, opbuf := none })

end Sys2Proof.Machine
end

