-- ==== Sys2Proof/Machine/AtomicOps.lean ====
section
/-!
DEFINITION. Class 4 (13 R245 to R254): ATOM and ACAS near or at the home, AADD, AFIN. Each is whole in its step, but for
lanes on pod pages, whose UALink atomics complete by LOAD_DATA_RETURN (14 R267).
-/

namespace Sys2Proof.Machine

/-- Whether an ordering waits for earlier accesses (R250). -/
def ordReleases : Ord → Bool
  | .rel | .acqrel => true
  | _ => false

/-- The page rule of ATOM and ACAS (R246). -/
def atomRule : PageRule := ⟨.both, false, true⟩

/-- The operands of every lane of an atomic, as its entry keeps them: the value or comparand, then the bound or new value. -/
def atomData (r : Regs) (d : Reg) (n : Nat) (slots : List Slot) : List Word :=
  slots.flatMap fun sl => (List.range (2 * n)).map fun j =>
    BitVec.ofNat 32 ((if j < n then r.rdW sl d.toNat n / 2 ^ (32 * j) else r.rdN sl (d.toNat + n) n / 2 ^ (32 * (j - n))))

/-- ATOM and ACAS (R246 to R250): whole in the step but for lanes on pod pages, before whose answers no other lane is
performed (R139). `req` is the UALink request of a slot's operands. -/
def atomic (s : State) (ins : Instr) (h : Hdr) (far : Bool) (t : Ty) (o : Ord) (d a : Reg) (m : MemX) (badd : Bool)
    (req : Nat → Nat → Nat → PodReq) : Host.Outcome State Fault Refusal :=
  match exOf s h with
  | none => .next s
  | some x =>
    match issOf s x.cur.blk x.cur.who with
    | none => .next s
    | some i =>
      if x.slots.isEmpty then .next (pass s x.cur)
      else match firstFault s i x.r .glb a m.ofs (tyBytes t) atomRule x.slots with
      | some f => .next (trapAt s x.cur (!h.g) f)
      | none =>
        let n := tyBytes t
        let acc := accessesOf x.r .glb a m.ofs x.slots
        let locs := locsOf s i .glb n acc
        let keys := keysOf i n locs
        let v (sl : Slot) : Nat := x.r.rdW sl d.toNat (tyRegs t)
        let b (sl : Slot) : Nat := x.r.rdN sl (d.toNat + tyRegs t) (tyRegs t)
        let op (sl : Slot) : Nat → Rmw := rmwOf ins (v sl) (b sl)
        if ctrFull s i.uid i.who (ctrIndex m) || windowMeets s i keys (anyScr locs) then .next s
        else
        match (if ordReleases o then releaseAt s i x h.g m.stor m.scope else (s, true)) with
        | (s, false) => .next s
        | (s, true) =>
        let ps := placeAll s i far locs
        let pods : List (Nat × Nat) := (List.range ps.length).filterMap fun ix => match (ps[ix]?).map (·.2.2) with
          | some (AtomPlace.pod q) => some (ix, q)
          | _ => none
        if !pods.isEmpty then
          let id := orderOf s i.uid i.who
          let s := issuePend s x ins h m acc (atomData x.r d (tyRegs t) x.slots)
          .next (pods.foldl (fun s p => match x.slots[p.1]? with
            | some sl => podSend s i id p.1 false p.2 (req (p.2 % 2 ^ 38) (v sl) (b sl))
            | none => s) s)
        else match atomGather s i ps with
        | (s, .wait) => .next s
        | (s, .fault c ad) => .next (trapAt s x.cur (!h.g) (lateFault i n locs c ad))
        | (s, .ok) =>
          match recordAll s i keys true with
          | none => .next s
          | some s =>
            let (s, vs) := atomLocal s i h.hints.stream n op ps
            .next (retire s x ins h (writeOld badd d (tyRegs t) (fun sl old => (op sl old).flag) vs))

/-- ATOM (R248). -/
def execAtom (h : Hdr) (op : AtomOp) (far : Bool) (t : Ty) (o : Ord) (d a : Reg) (m : MemX) (s : State) :
    Host.Outcome State Fault Refusal :=
  atomic s (.atom h op far t o d a m) h far t o d a m (op == .badd) fun q v b => .atom op (tyRegs t == 2) q v b

/-- ACAS (R248). -/
def execAcas (h : Hdr) (far : Bool) (t : Ty) (o : Ord) (d a : Reg) (m : MemX) (s : State) : Host.Outcome State Fault Refusal :=
  atomic s (.acas h far t o d a m) h far t o d a m false fun q v b => .cas (tyRegs t == 2) q v b

/-! ### AADD (R251, R252) -/

/-- What one slot contributes (R251). -/
def contribOf (r : Regs) (sl : Slot) (d : Reg) : AForm → La → La
  | .val t, a => a.contribute (fdecode (fmtOf t) (src r sl t d))
  | .prod t, a => a.contribute (vmul (fdecode (fmtOf t) (src r sl t d))
      (fdecode (fmtOf t) (r.rdN sl (d.toNat + tyRegs t) (tyRegs t) % 2 ^ tyW t)))
  | .la, a => La.merge a (r.rdLa sl d.toNat)

/-- AADD (R251, R252, R255 to R258). -/
def execAadd (h : Hdr) (f : AForm) (rel : Bool) (d a : Reg) (m : MemX) (s : State) : Host.Outcome State Fault Refusal :=
  match exOf s h with
  | none => .next s
  | some x =>
    match issOf s x.cur.blk x.cur.who, ctxOf s x.cur.blk x.cur.who with
    | some i, some k =>
      if x.slots.isEmpty then .next (pass s x.cur)
      else
        match firstFault s i x.r .glb a m.ofs 128 ⟨.write, true, false⟩ x.slots with
        | some e => .next (trapAt s x.cur (!h.g) e)
        | none =>
          let cs : List Contribution := x.slots.map fun sl =>
            let ad := addrOf x.r .glb sl a m.ofs
            ⟨sl, ad, locKey i ad, contribOf x.r sl d f⟩
          let ks := contribKeys cs
          if ctrFull s i.uid i.who (ctrIndex m) || windowMeets s i ks false || ownHeld s x.cur ks then .next s
          else
            match (if rel then releaseAt s i x h.g m.stor m.scope else (s, true)) with
            | (s, false) => .next s
            | (s, true) =>
            let order := orderOf s i.uid i.who
            match sendContribs s i (x.cur.blk, x.cur.who, x.cur.path) (tagOf i.b i.who k.seq) (isReplay k) (ctrIndex m) cs with
            | (s, .wait) => .next s
            | (s, .fault e) =>
              let s := noteHwm s i.uid i.who
              let s := modCtx s i.uid i.who fun k => { k with hold := some (x.cur.path, x.cur.pc, ks) }
              .next (trapAt s x.cur (!h.g) e)
            | (s, .ok) =>
              let s := if holdsBack s i order then raiseCtr s i.uid i.who (ctrIndex m) else s
              .next (seqRetired (retire (noteHwm s i.uid i.who) x (.aadd h f rel d a m) h id) x.cur)
    | _, _ => .next s

/-! ### AFIN (R253, R254) -/

/-- One lane of AFIN at the home: the rounded value, and the line cleared with `.clr` (R253). -/
def afinLane (s : State) (k : Key) (t : Ty) (rm : Rm) (mean clr : Bool) : State × Nat :=
  match homeTake s k with
  | (s, .ok l _) =>
    let v := (La.round (lineLa l) (fmtOf t) rm false mean (.fin false 1 0)).1
    (if clr then homeAbsorb s k 0 false else countFar s k, v)
  | (s, _) => (s, 0)

def afinGo (t : Ty) (rm : Rm) (mean clr : Bool) : List (Slot × Key) → State → List (Slot × Nat) → State × List (Slot × Nat)
  | [], s, vs => (s, vs)
  | (sl, k) :: r, s, vs =>
    let (s, v) := afinLane s k t rm mean clr
    afinGo t rm mean clr r s (vs ++ [(sl, v)])

/-- AFIN (R253, R254). -/
def execAfin (h : Hdr) (mean clr : Bool) (t : Ty) (rm : Rm) (acq : Bool) (d a : Reg) (m : MemX) (s : State) :
    Host.Outcome State Fault Refusal :=
  match exOf s h with
  | none => .next s
  | some x =>
    match issOf s x.cur.blk x.cur.who with
    | none => .next s
    | some i =>
      if x.slots.isEmpty then .next (pass s x.cur)
      else match firstFault s i x.r .glb a m.ofs 128 ⟨if clr then .both else .read, true, false⟩ x.slots with
      | some f => .next (trapAt s x.cur (!h.g) f)
      | none =>
        let lanes := x.slots.map fun sl => (sl, locKey i (addrOf x.r .glb sl a m.ofs))
        let locs := locsOf s i .glb 128 (accessesOf x.r .glb a m.ofs x.slots)
        let ks := keysOf i 128 locs
        if ctrFull s i.uid i.who (ctrIndex m) || windowMeets s i ks false then .next s
        else match gatherHomes s i ks with
        | (s, .wait) => .next s
        | (s, .fault c ad) => .next (trapAt s x.cur (!h.g) (lateFault i 128 locs c ad))
        | (s, .ok) =>
          match ks.find? (fun k => match homeTake s k with | (_, .ok _ p) => p | _ => false) with
          | some k => .next (trapAt s x.cur (!h.g) (lateFault i 128 locs 8 (vaOf k)))
          | none =>
            match recordAll s i ks clr with
            | none => .next s
            | some s =>
              let (s, vs) := afinGo t rm mean clr lanes s []
              let s := ks.foldl farDone s
              .next (retire s x (.afin h mean clr t rm acq d a m) h fun r =>
                vs.foldl (fun r v => r.wrN v.1 d.toNat (tyRegs t) v.2) r)

end Sys2Proof.Machine
end

