-- ==== Sys2Proof/Machine/CoherenceEvents.lean ====
section
/-!
DEFINITION. Coherence messages as steps (06 R116 to R124; 13 R257): each delivers the oldest message of its kind for its
line and party; when none can be delivered nothing happens.
-/

namespace Sys2Proof.Machine

/-- Delivers the first message that satisfies a test, if there is one that can be delivered. -/
def deliver (s : State) (p : Msg → Bool) : State := (deliverFirst s p).getD s

/-- A message of a party about a line. -/
def fromTo (src dst : Nat → Bool) (k : Key) (b : Body → Bool) (m : Msg) : Bool := src m.src && dst m.dst && m.key == k && b m.body

/-- A request or answer of a party to the line's home. -/
def toHome (src : Nat) (k : Key) (b : Body → Bool) : Msg → Bool := fromTo (· == src) (· == homeParty) k b

/-- A message of the home to a cluster. -/
def toCluster (dst : Nat) (k : Key) (b : Body → Bool) : Msg → Bool := fromTo (fun _ => true) (· == dst) k b

/-- RDS (R120): a read request reaches its home. -/
def execRds (src : Nat) (k : Key) (s : State) : Host.Outcome State Fault Refusal :=
  .next (deliver s (toHome src k fun b => match b with | .req .rds => true | _ => false))

/-- RDX (R120): a read with ownership reaches its home. -/
def execRdx (src : Nat) (k : Key) (s : State) : Host.Outcome State Fault Refusal :=
  .next (deliver s (toHome src k fun b => match b with | .req .rdx => true | _ => false))

/-- UPG (R120, R122): an upgrade reaches its home. -/
def execUpg (src : Nat) (k : Key) (s : State) : Host.Outcome State Fault Refusal :=
  .next (deliver s (toHome src k fun b => match b with | .req .upg => true | _ => false))

/-- WB (R120, R123): a write-back reaches its home. -/
def execWb (src : Nat) (k : Key) (s : State) : Host.Outcome State Fault Refusal :=
  .next (deliver s (toHome src k fun b => match b with | .wb _ => true | _ => false))

/-- ACCA (R120, R125): a request to accumulate reaches its home. -/
def execAccA (src : Nat) (k : Key) (s : State) : Host.Outcome State Fault Refusal :=
  .next (deliver s (toHome src k fun b => match b with | .req .accA => true | _ => false))

/-- MRG (R120, R124, R125): a partial reaches its home. -/
def execMrg (src : Nat) (k : Key) (s : State) : Host.Outcome State Fault Refusal :=
  .next (deliver s (toHome src k fun b => match b with | .mrg _ => true | _ => false))

/-- FWD_S (R116): a forward reaches the owner. -/
def execFwdS (dst : Nat) (k : Key) (s : State) : Host.Outcome State Fault Refusal :=
  .next (deliver s (toCluster dst k fun b => match b with | .fwdS => true | _ => false))

/-- FWD_INV (R116): a forward that invalidates reaches the owner. -/
def execFwdInv (dst : Nat) (k : Key) (s : State) : Host.Outcome State Fault Refusal :=
  .next (deliver s (toCluster dst k fun b => match b with | .fwdInv => true | _ => false))

/-- INV (R116, R124): an invalidation reaches a holder. -/
def execInv (dst : Nat) (k : Key) (s : State) : Host.Outcome State Fault Refusal :=
  .next (deliver s (toCluster dst k fun b => match b with | .inv => true | _ => false))

/-- DATA (R116): a line, or the refusal of a request, reaches the requester. -/
def execData (dst : Nat) (k : Key) (s : State) : Host.Outcome State Fault Refusal :=
  .next (deliver s (toCluster dst k fun b => match b with | .data .. | .refuse _ => true | _ => false))

/-- ACK (R116): ownership or the accumulate state is granted. -/
def execAck (dst : Nat) (k : Key) (s : State) : Host.Outcome State Fault Refusal :=
  .next (deliver s (toCluster dst k fun b => match b with | .ack _ => true | _ => false))

/-- FWDDATA (R120): an owner's line reaches its home. -/
def execFwdData (src : Nat) (k : Key) (s : State) : Host.Outcome State Fault Refusal :=
  .next (deliver s (toHome src k fun b => match b with | .fwdData .. => true | _ => false))

/-- FWD_MISS (R123): an owner no longer holds the line. -/
def execFwdMiss (src : Nat) (k : Key) (s : State) : Host.Outcome State Fault Refusal :=
  .next (deliver s (toHome src k fun b => match b with | .fwdMiss _ => true | _ => false))

/-- INVACK (R120, R124): an invalidation is done. -/
def execInvAck (src : Nat) (k : Key) (s : State) : Host.Outcome State Fault Refusal :=
  .next (deliver s (toHome src k fun b => match b with | .invAck => true | _ => false))

/-- WBACK (R116): a write-back is absorbed or discarded. -/
def execWbAck (dst : Nat) (k : Key) (s : State) : Host.Outcome State Fault Refusal :=
  .next (deliver s (toCluster dst k fun b => match b with | .wbAck => true | _ => false))

/-- FAR_OPERATION (R120, R247): a far operation that waits in a line's queue is taken up by its home as far as it can. -/
def execFarOperation (k : Key) (s : State) : Host.Outcome State Fault Refusal :=
  .next (homeGo s k)

/-- REPLAY_CONTRIBUTION (R257): a replay contribution of a cluster that waits in a line's queue is taken up by its home. -/
def execReplayContribution (src : Nat) (k : Key) (s : State) : Host.Outcome State Fault Refusal :=
  let e := dirOf s k
  let mine (x : Nat × Req) : Bool := x.1 == src && (match x.2 with | .replay .. => true | _ => false)
  if e.queue.any mine || (e.txn.any fun t => mine (t.src, t.req)) then .next (homeGo s k) else .next s

end Sys2Proof.Machine
end

