-- ==== Sys2Proof/Machine/Tiles.lean ====
section
/-!
DEFINITION. z and y tiles (12 R218, R222 to R226), GS elements in expanded form (03 R58, R59), matrix operands in tiles and
in scratchpad (R225, R228, R230).
-/

namespace Sys2Proof.Machine

/-! ### z tiles (R223) -/

/-- Bits of a free value of `n` words (assumption log 3). -/
def freeBits (seed base : Nat) : Nat → Nat
  | 0 => 0
  | n + 1 => (Config.freeWord seed base).toNat + 2 ^ 32 * freeBits seed (base + 1) n

/-- An element that nothing has written: zero after MZ, else free (R218, R223). -/
def ZTile.blank (t : ZTile) (e : Nat) : ZEl :=
  if t.zeroed then ⟨0, ⟨0, false, false, 0, 0⟩⟩
  else ⟨wrapS (freeBits t.seed (32 * e) 21), LaStatus.ofNat (Config.freeWord t.seed (32 * e + 21)).toNat⟩

/-- Element (i, j) of a tile. -/
def ZTile.el (t : ZTile) (i j : Nat) : ZEl := (t.els.get? (64 * i + j)).getD (t.blank (64 * i + j))

def ZTile.put (t : ZTile) (i j : Nat) (e : ZEl) : ZTile := { t with els := t.els.set (64 * i + j) e }

/-- A zeroed tile (R227). -/
def ZTile.clear (t : ZTile) : ZTile := { t with zeroed := true, els := [] }

/-- An element as an accumulator: S and its status (R223). -/
def ZEl.la (e : ZEl) : La := La.canonOf e.s e.st

def ZEl.ofLa (a : La) : ZEl := ⟨a.s, a.st⟩

/-- The z tile of a block by name. -/
def zTileOf (b : Block) (n : Nat) : ZTile := b.ztiles.getD n ⟨true, 0, []⟩

def setZTile (s : State) (uid n : Nat) (f : ZTile → ZTile) : State :=
  modBlock s uid fun b => { b with ztiles := b.ztiles.modify n f }

/-! ### Shapes (R226) -/

/-- M/64 and N/64 of a shape. -/
def shapeDims : Shape → Nat × Nat
  | .m64n64 => (1, 1)
  | .m128n64 => (2, 1)
  | .m64n128 => (1, 2)
  | .m128n128 => (2, 2)

/-- The tiles a shape covers, with (mi, ni), in the order of R229. -/
def shapeTiles (sh : Shape) : List (Nat × Nat × Nat) :=
  let (m, n) := shapeDims sh
  (List.range n).flatMap fun ni => (List.range m).map fun mi => (mi + m * ni, mi, ni)

/-- Element (i, j) of a shape from tile zD. -/
def shapeEl (b : Block) (sh : Shape) (d i j : Nat) : ZEl :=
  (zTileOf b (d + i / 64 + (shapeDims sh).1 * (j / 64))).el (i % 64) (j % 64)

def setShapeEl (s : State) (uid : Nat) (sh : Shape) (d i j : Nat) (e : ZEl) : State :=
  setZTile s uid (d + i / 64 + (shapeDims sh).1 * (j / 64)) fun t => t.put (i % 64) (j % 64) e

def clearShape (s : State) (uid : Nat) (sh : Shape) (d : Nat) : State :=
  (shapeTiles sh).foldl (fun s t => setZTile s uid (d + t.1) ZTile.clear) s

/-- The indices of a shape's elements in row order. -/
def shapeIndices (sh : Shape) : List (Nat × Nat) :=
  let (m, n) := shapeDims sh
  (List.range (64 * m)).flatMap fun i => (List.range (64 * n)).map fun j => (i, j)

/-! ### y tiles (R224, R145) -/

/-- One byte of a y tile: 24,576 bytes of rows, then 3,072 of side store. -/
def YTile.byte (t : YTile) (o : Nat) : Byte :=
  match t.bytes.get? o with
  | some b => b
  | none => match t.seed with
    | some q => (Config.freeWord q o).truncate 8
    | none => 0

/-- `n` bytes of a y tile, little-endian. -/
def YTile.read (t : YTile) (o : Nat) : Nat → Nat
  | 0 => 0
  | n + 1 => (t.byte o).toNat + 256 * YTile.read t (o + 1) n

def YTile.write (t : YTile) (o : Nat) : Nat → Nat → YTile
  | 0, _ => t
  | n + 1, v => YTile.write { t with bytes := t.bytes.set o (BitVec.ofNat 8 v) } (o + 1) n (v / 256)

def yTileOf (b : Block) (n : Nat) : YTile := b.ytiles.getD n ⟨none, []⟩

def setYTile (s : State) (uid n : Nat) (f : YTile → YTile) : State :=
  modBlock s uid fun b => { b with ytiles := b.ytiles.modify n f }

/-! ### Formats (R224, R59) -/

/-- Bytes of an element. -/
def mfmtBytes : MFmt → Nat
  | .f64 => 8
  | .f32 => 4
  | .f16 | .bf16 => 2
  | _ => 1

/-- Elements of a 384-byte row (R224). -/
def mfmtK (f : MFmt) : Nat := 384 / mfmtBytes f

def mfmtFp : MFmt → Fmt
  | .f64 => f64
  | .f32 => f32
  | .f16 => f16
  | _ => bf16

/-- The format of a descriptor's code (R225); none for a reserved one. -/
def mfmtOfCode : Nat → Option MFmt
  | 0 => some .f64
  | 1 => some .f32
  | 2 => some .f16
  | 3 => some .bf16
  | 4 => some .gs4
  | 5 => some .gs6
  | 6 => some .gs9
  | _ => none

/-- A GS element from its byte, its side entry and its index in the block (R58, R59). -/
def gsValue (f : MFmt) (b side ix : Nat) : FVal :=
  let e := side % 256
  if e = 255 then .nan
  else if f == .gs9 then .fin (bitAt b 7) (b % 128) ((e : Int) - 127 - bitsAt side (8 + ix / 2) 1 - 6)
  else .fin (bitAt b 7) (b % 64) ((e : Int) - 127 - bitsAt b 6 1 - 5)

/-- An operand as an instruction names it, its descriptor read (R225, R228): elements of a logical row, and of a stored
row. -/
inductive MOp where
  | tile (y : Nat) (f : MFmt)
  | desc (base rpitch tpitch : Nat) (f : MFmt)
  deriving DecidableEq, Repr

def MOp.fmt : MOp → MFmt
  | .tile _ f => f
  | .desc _ _ _ f => f

/-- The byte and side entry, or the bits, of an element of a y tile's row. -/
def tileEl (b : Block) (y : Nat) (f : MFmt) (r k : Nat) : FVal :=
  let t := yTileOf b y
  let n := mfmtBytes f
  let v := t.read (384 * r + k * n) n
  if n = 1 then gsValue f v (t.read (24576 + 2 * (24 * r + k / 16)) 2) (k % 16) else fdecode (mfmtFp f) v

/-- The same of a descriptor's row `r` of tile `t`: stored element `k`, whose side entry is that of logical element `q` of a
row of `e` blocks (R225, R230). -/
def descEl (b : Block) (base rpitch tpitch : Nat) (f : MFmt) (e t r k q : Nat) : FVal :=
  let n := mfmtBytes f
  let row := base + 128 * t * tpitch
  let v := scrGet b.scr (row + r * rpitch + k * n) n
  if n = 1 then gsValue f v (scrGet b.scr (row + 64 * rpitch + 2 * (r * e + q / 16)) 2) (q % 16) else fdecode (mfmtFp f) v

end Sys2Proof.Machine
end

