-- ==== Sys2Proof/Machine/Schedule.lean ====
section
/-!
DEFINITION. The schedules of collectives (14 R275): chunks, positions, steps, what a member completes; and the tiles that
incomplete collectives hold (R282).
-/

namespace Sys2Proof.Machine

/-- The chunks of an object (R275). -/
def chunkCount (elems chunk : Nat) : Nat := if chunk = 0 then 0 else ceilDiv elems chunk

def Coll.chunks (c : Coll) : Nat := chunkCount c.elems c.chunk

/-- First element and length of a chunk. -/
def Coll.span (c : Coll) (k : Nat) : Nat × Nat := (k * c.chunk, min c.chunk (c.elems - k * c.chunk))

/-! ### Schedules (R275) -/

/-- Whether an operation reduces. -/
def Coll.reduces (c : Coll) : Bool := c.op == .ared || c.op == .rscat

/-- The rank at which a chunk is decided, around which its schedule lies. -/
def Coll.center (c : Coll) (k : Nat) : Nat :=
  match c.op with
  | .bcast => c.root
  | .ared => if c.tree then c.root else k % c.n
  | _ => k % c.n

/-- A rank's position in a chunk's schedule; the deciding rank is 0. -/
def Coll.pos (c : Coll) (k rank : Nat) : Nat := (rank + c.n - c.center k % c.n) % c.n

/-- The rank at a position. -/
def Coll.rankAt (c : Coll) (k pos : Nat) : Nat := (pos + c.center k) % c.n

/-- Depth of a position in a tree of fan-in `f`, at least 2 (R275). -/
def treeDepth (f : Nat) : Nat → Nat → Nat
  | 0, _ => 0
  | fuel + 1, q => if q = 0 then 0 else 1 + treeDepth f fuel ((q - 1) / f)

def Coll.depth (c : Coll) (q : Nat) : Nat := treeDepth (c.fanin + 1) 11 q

/-- The children of a position. -/
def Coll.children (c : Coll) (q : Nat) : List Nat :=
  ((List.range (c.fanin + 1)).map fun i => q * (c.fanin + 1) + 1 + i).filter fun i => decide (i < c.n)

/-- Steps of a reduction. -/
def Coll.reduceSteps (c : Coll) : Nat :=
  if !c.reduces then 0 else if c.tree then c.depth (c.n - 1) else c.n - 1

/-- Steps of a whole schedule. -/
def Coll.steps (c : Coll) : Nat :=
  c.reduceSteps + (if c.op == .rscat then 0 else if c.tree then c.depth (c.n - 1) else c.n - 1)

/-- The positions whose partials a position takes in. -/
def Coll.inputs (c : Coll) (q : Nat) : List Nat :=
  if !c.reduces then []
  else if c.tree then c.children q
  else if q = 0 then [c.n - 1] else if q = 1 then [] else [q - 1]

/-- Where a position sends its partial. -/
def Coll.up (c : Coll) (q : Nat) : Nat := if c.tree then (q - 1) / (c.fanin + 1) else (q + 1) % c.n

/-- The step with which a position's part in the reduction ends. -/
def Coll.closes (c : Coll) (q : Nat) : Nat :=
  if c.tree then min (c.depth (c.n - 1)) (c.depth (c.n - 1) + 1 - c.depth q) else if q = 0 then c.n - 1 else q

/-- Where a position passes a final value on. -/
def Coll.down (c : Coll) (q : Nat) : List Nat :=
  if c.op == .rscat then [] else if c.tree then c.children q else if q + 1 < c.n then [q + 1] else []

/-- The step in which a position receives the final value. -/
def Coll.arrives (c : Coll) (q : Nat) : Nat := c.reduceSteps + (if c.tree then c.depth q else q)

/-- The position from which a position receives the final value. -/
def Coll.giver (c : Coll) (q : Nat) : Nat := if c.tree then (q - 1) / (c.fanin + 1) else q - 1

/-- Chunks that this member completes (R275). -/
def Coll.expected (c : Coll) : Nat :=
  if c.op == .rscat then ((List.range c.chunks).filter fun k => c.center k == c.rank).length else c.chunks

/-- Steps completed here, and FINAL (R278). -/
def Coll.at_ (c : Coll) (k : Nat) : Nat × Bool := (c.prog.get? k).getD (0, false)

/-- Whether a member's part is incomplete (R274, R282). -/
def Coll.open_ (c : Coll) : Bool := !c.aborted && decide ((c.prog.filter fun p => p.2.2).length < c.expected)

/-- Whether a member has done all it does for a chunk (R275): its final value is there, or, where only the owner receives it,
the partial has been passed on. -/
def Coll.over_ (c : Coll) (k : Nat) : Bool :=
  (c.at_ k).2 || (c.op == .rscat && c.pos k c.rank != 0 && decide ((c.at_ k).1 ≥ c.closes (c.pos k c.rank)))

/-- Whether the engine still works at a member's part, be its own chunks complete or not (R275, R277). -/
def Coll.working (c : Coll) : Bool := !c.aborted && (c.recovering || !(List.range c.chunks).all c.over_)

/-- Tiles that incomplete collectives hold (R282): whether a y tile, and which. -/
def heldTiles (b : Block) : List (Bool × Nat) :=
  ((b.bms.map (·.colls)).getD []).filterMap fun c =>
    if !c.open_ then none
    else match c.x.obj with
      | .memory _ => none
      | .zTile n => some (false, n.toNat)
      | .yTile n => some (true, n.toNat)

/-- Whether a matrix instruction names a tile that an incomplete collective holds (R282). -/
def tilesBusy (b : Block) (zs ys : List Nat) : Bool :=
  (heldTiles b).any fun t => if t.1 then ys.contains t.2 else zs.contains t.2

/-- The z tiles of a shape. -/
def shapeZs (sh : Shape) (d : Nat) : List Nat := (shapeTiles sh).map fun t => d + t.1

end Sys2Proof.Machine
end

