-- ==== Sys2Proof/Machine/Matrix.lean ====
section
/-!
DEFINITION. The matrix instructions (12 R227 to R241): MZ, MMA and MMAS, MDRAIN with its drain generator, MSPILL and MFILL.
Their checks are made at issue; a pass of a multiply and a row of the others is a step of its own.
-/

namespace Sys2Proof.Machine

/-! ### Checks (R227, R231) -/

/-- Whether a shape from zD lies in the block's tiles. -/
def shapeFits (b : Block) (sh : Shape) (d : Nat) : Bool :=
  let (m, n) := shapeDims sh
  decide (d + m * n ≤ b.ztiles.length)

/-- The operand of a matrix source, its descriptor read from the s registers (R225); none for a reserved format. -/
def operandOf (r : Regs) : MSrc → Option MOp
  | .tile y f => some (.tile y.toNat f)
  | .desc q =>
    let w := r.rdN .ctl q.toNat 2
    (mfmtOfCode (bitsAt w 28 4)).map fun f => .desc (bitsAt w 0 24) (bitsAt w 32 16) (bitsAt w 48 16) f

/-- Whether two formats may meet (R224). -/
def pairOk (a b : MFmt) : Bool := if mfmtBytes a = 1 then mfmtBytes b = 1 else a == b

/-- How one operand is laid out: stored row bytes, logical blocks of 16 a row, tiles. -/
structure Lay where
  row : Nat
  e : Nat
  tiles : Nat
  /-- y tiles to a slice: a pair for MMAS's B (R230) -/
  ys : Nat
  deriving DecidableEq, Repr

/-- Whether a source's tiles belong to the block, or its rows do not overlap (R231, fifth row). -/
def operandOk (b : Block) (o : MOp) (l : Lay) : Bool :=
  match o with
  | .tile y _ => decide (y + l.tiles * l.ys ≤ b.ytiles.length)
  | .desc _ rp _ _ => decide (l.row ≤ rp)

def operandAligned : MOp → Bool
  | .tile _ _ => true
  | .desc base rp _ _ => base % 16 == 0 && rp % 16 == 0

/-- The first byte past a descriptor's tiles and side arrays that the block lacks (R231, last row). -/
def operandInside (b : Block) (o : MOp) (l : Lay) : Bool :=
  match o with
  | .tile _ _ => true
  | .desc base rp tp f => (List.range l.tiles).all fun t =>
      let o := base + 128 * t * tp
      decide (o + 63 * rp + l.row ≤ b.v.scr) && (mfmtBytes f != 1 || decide (o + 64 * rp + 2 * 64 * l.e ≤ b.v.scr))

/-- MMAS's kept elements per 128 (R228). -/
def nkOf : NK → Nat
  | .k16 => 16
  | .k32 => 32
  | .k64 => 64

/-- The groups of a logical row of MMAS: start and length (R230). -/
def sparseGroups (k : Nat) : List (Nat × Nat) :=
  (List.range (ceilDiv k 128)).map fun g => (128 * g, min 128 (k - 128 * g))

/-- The kept elements of a row in order: the start and length of their groups (R230). -/
def keptOf (nk k : Nat) : List (Nat × Nat) :=
  (sparseGroups k).flatMap fun g => List.replicate (nk * g.2 / 128) g

/-- A matrix multiply as issued: its operands, its layout, and the sparse metadata (nk, MBASE). -/
structure MulOp where
  sh : Shape
  d : Nat
  a : MOp
  b : MOp
  la : Lay
  lb : Lay
  sparse : Option (Nat × Nat)
  deriving DecidableEq, Repr

/-- The checks made at issue, in order (R231). -/
def mulCheck (b : Block) (m : MulOp) (metaHigh : Bool) : Option Nat :=
  let keep := match m.sparse with | some (nk, _) => (keptOf nk (2 * mfmtK m.a.fmt)).length | none => 0
  let metaBad := match m.sparse with
    | some (_, mb) => !decide (mb + 64 * m.la.tiles * keep ≤ b.v.scr)
    | none => false
  let metaOdd := match m.sparse with | some (_, mb) => mb % 16 != 0 | none => false
  if !shapeFits b m.sh m.d || !pairOk m.a.fmt m.b.fmt || !operandOk b m.a m.la || !operandOk b m.b m.lb || metaHigh then some 3
  else if !operandAligned m.a || !operandAligned m.b || metaOdd then some 5
  else if !operandInside b m.a m.la || !operandInside b m.b m.lb || metaBad then some 7
  else none

/-- MMA's operands from the registers (R228, R229). -/
def mulOf (r : Regs) : Instr → Option MulOp
  | .mma _ sh d a b => (operandOf r a).bind fun oa => (operandOf r b).map fun ob =>
      let (m, n) := shapeDims sh
      ⟨sh, d.toNat, oa, ob, ⟨384, 24, m, 1⟩, ⟨384, 24, n, 1⟩, none⟩
  | .mmas _ sh nk d sa b => (operandOf r (.desc sa)).bind fun oa => (operandOf r b).map fun ob =>
      let (m, n) := shapeDims sh
      let k := nkOf nk
      ⟨sh, d.toNat, oa, ob, ⟨384 * k / 64, 48, m, 1⟩, ⟨768, 48, n, 2⟩,
        some (k, bitsAt (r.rd .ctl (sa.toNat + 2)).toNat 0 24)⟩
  | _ => none

/-! ### Passes (R229, R230, R232) -/

/-- Element `k` of row `i` of an operand's slice `t`, dense or a logical row of a pair (R229, R230). -/
def denseEl (b : Block) (o : MOp) (l : Lay) (t i k : Nat) : FVal :=
  match o with
  | .tile y f =>
    let per := mfmtK f
    tileEl b (y + l.ys * t + k / per) f i (k % per)
  | .desc base rp tp f => descEl b base rp tp f l.e t i k k

/-- The contributions to one element of a pass, in order: dense by k, sparse by kept element (R229, R230). -/
def passTerms (b : Block) (m : MulOp) (mi ni i j : Nat) : List FVal :=
  match m.sparse with
  | none => (List.range (mfmtK m.a.fmt)).map fun k => vmul (denseEl b m.a m.la mi i k) (denseEl b m.b m.lb ni j k)
  | some (nk, mb) =>
    let kept := keptOf nk (2 * mfmtK m.a.fmt)
    (List.range kept.length).filterMap fun e =>
      match kept[e]? with
      | none => none
      | some (g0, len) =>
        let x := scrGet b.scr (mb + (64 * mi + i) * kept.length + e) 1 % 128
        if x ≥ len then none
        else
          let av := match m.a with
            | .desc base rp tp f => descEl b base rp tp f 48 mi i e (g0 + x)
            | .tile _ _ => .nan
          some (vmul av (denseEl b m.b m.lb ni j (g0 + x)))

/-- One pass: every element of one z tile (R229). -/
def runPass (s : State) (uid : Nat) (m : MulOp) (t : Nat × Nat × Nat) : State :=
  match blockOf s uid with
  | none => s
  | some b =>
    let old := zTileOf b (m.d + t.1)
    let els := (List.range 64).flatMap fun i => (List.range 64).map fun j =>
      (64 * i + j, ZEl.ofLa ((passTerms b m t.2.1 t.2.2 i j).foldl La.contribute (old.el i j).la))
    setZTile s uid (m.d + t.1) fun z => { z with els := els }

/-- A unit takes the mode of the alarm at a pass boundary (R244). -/
def passBoundary (s : State) (b : Block) : State :=
  modCore s (coreIndex b.die b.core) fun c => { c with narrow := s.power.alarm }

/-- The y tiles an operand names. -/
def mopTiles (o : MOp) (l : Lay) : List Nat :=
  match o with
  | .tile y _ => (List.range (l.tiles * l.ys)).map fun n => y + n
  | .desc .. => []

/-- Issue of MMA or MMAS: checks, then the passes (R229 to R232). -/
def issueMul (s : State) (ins : Instr) (h : Hdr) (metaHigh : Regs → Bool) : Host.Outcome State Fault Refusal :=
  match exOf s h with
  | none => .next s
  | some x =>
    match blockOf s x.cur.blk with
    | none => .next s
    | some b =>
      if x.slots.isEmpty then .next (pass s x.cur)
      else match mulOf x.r ins with
      | none => .next (trapAt s x.cur false ⟨3, 0, none⟩)
      | some m =>
        match mulCheck b m (metaHigh x.r) with
        | some c => .next (trapAt s x.cur false ⟨c, 0, none⟩)
        | none =>
          if tilesBusy b (shapeZs m.sh m.d) (mopTiles m.a m.la ++ mopTiles m.b m.lb) then .next s
          else
          let s := bumpOrder s x.cur.blk x.cur.who
          .next (passBoundary (modBms s x.cur.blk fun k => { k with prog := some (0, ins) }) b)

/-- MMA (R229). -/
def execMma (h : Hdr) (sh : Shape) (d : Reg) (a b : MSrc) (s : State) : Host.Outcome State Fault Refusal :=
  issueMul s (.mma h sh d a b) h fun _ => false

/-- MMAS (R230). -/
def execMmas (h : Hdr) (sh : Shape) (nk : NK) (d sa : Reg) (b : MSrc) (s : State) : Host.Outcome State Fault Refusal :=
  issueMul s (.mmas h sh nk d sa b) h fun r => bitsAt (r.rd .ctl (sa.toNat + 2)).toNat 24 8 != 0

/-- MZ (R227). -/
def execMz (h : Hdr) (d n : Reg) (s : State) : Host.Outcome State Fault Refusal :=
  match exOf s h with
  | none => .next s
  | some x =>
    match blockOf s x.cur.blk with
    | none => .next s
    | some b =>
      if x.slots.isEmpty then .next (pass s x.cur)
      else if d.toNat + n.toNat > b.ztiles.length then .next (trapAt s x.cur false ⟨3, 0, none⟩)
      else if tilesBusy b ((List.range n.toNat).map fun q => d.toNat + q) [] then .next s
      else
        let s := (List.range n.toNat).foldl (fun s q => setZTile s b.uid (d.toNat + q) ZTile.clear) s
        .next (retire s x (.mz h d n) h id)

/-! ### MDRAIN (R233 to R236) -/

/-- The drain generator (R236). -/
def keepBit (k0 k1 thresh row col : Nat) : Bool :=
  let x := (row * 65536 + col) % 2 ^ 32
  let x := (List.range 4).foldl (fun x i =>
    let y := (x * 0x2C9277B5 + (if i % 2 = 0 then k0 else k1)) % 2 ^ 32
    y ^^^ y / 2 ^ 15) x
  decide (x ≥ thresh)

/-- The exact term of an element under a scale: the special cases of R212 unrounded (R235). -/
def drainTerm (e : ZEl) (scale : FVal) : FVal :=
  let st := e.st
  let neg := decide (e.s < 0)
  if st.nan || (st.pinf != 0 && st.ninf != 0) then .nan
  else if st.pinf != 0 || st.ninf != 0 then
    match scale with
    | .nan => .nan
    | .inf s => .inf (s != (st.pinf == 0))
    | .fin s m _ => if m = 0 then .nan else .inf (s != (st.pinf == 0))
  else if e.la.outOfRange then .nan
  else match scale with
    | .nan => .nan
    | .inf s => if e.s = 0 then .nan else .inf (s != neg)
    | .fin s m k => .fin (s != neg) (e.s.natAbs * m) (k - 300)

/-- One output of MDRAIN (R235): an exact zero sum gives +0. -/
def drainOut (t : Ty) (rm : Rm) (sat : Bool) (r term : FVal) : Nat :=
  let f := fmtOf t
  let v := match vadd rm r term with
    | .fin _ 0 _ => .fin false 0 0
    | v => v
  fsat f sat (fencode f rm v)

/-- The drain block (R233). -/
structure Drain where
  daddr : Nat
  dpitch : Nat
  rpitch : Nat
  scale : Nat
  raddr : Nat
  row0 : Nat
  col0 : Nat
  k0 : Nat
  k1 : Nat
  thresh : Nat
  top : Nat
  deriving DecidableEq, Repr

def drainOf (w : Nat) : Drain where
  daddr := bitsAt w 0 64
  dpitch := bitsAt w 64 16
  rpitch := bitsAt w 80 16
  scale := bitsAt w 96 32
  raddr := bitsAt w 128 64
  row0 := bitsAt w 192 32
  col0 := bitsAt w 224 32
  k0 := bitsAt w 256 32
  k1 := bitsAt w 288 32
  thresh := bitsAt w 320 32
  top := bitsAt w 352 32

/-- Element bytes and format of a residual code (R234). -/
def ffmtBytes : FFmt → Nat
  | .f64 => 8
  | .f32 => 4
  | _ => 2

def ffmtFp : FFmt → Fmt
  | .f64 => f64
  | .f32 => f32
  | .f16 => f16
  | .bf16 => bf16

/-- Rows and columns of a shape in elements. -/
def shapeSize (sh : Shape) : Nat × Nat := ((shapeDims sh).1 * 64, (shapeDims sh).2 * 64)

/-- The first check of R134 that fails in a rectangle of rows: cause and address (R235). -/
def rectCheck (s : State) (i : Iss) (glb : Bool) (addr pitch rows n : Nat) (w : Want) : Option (Nat × Nat) :=
  (List.range rows).findSome? fun r =>
    let a := addr + r * pitch
    if !glb then (if a + n > i.b.v.scr then some (7, a) else none)
    else (pieces (pieceFuel n) a n 0).findSome? fun p =>
      if p.1 + p.2.1 > 2 ^ 48 then some (7, p.1)
      else if !i.l.covers p.1 p.2.1 then some (6, p.1)
      else (pageCheck s i p.1 p.2.1 (plainRule w)).map fun c => (c, p.1)

/-- MDRAIN's checks at issue, in their order (R235). -/
def drainCheck (s : State) (i : Iss) (x : DrainX) (t : Ty) (d : Nat) (k : Drain) : Option (Nat × Nat) :=
  let (m, n) := shapeSize x.shape
  let w := tyBytes t
  let wr := match x.res with | some (_, f) => ffmtBytes f | none => 1
  let res := x.res.isSome
  let high := k.top != 0 || (!x.glb && bitsAt k.daddr 24 40 != 0)
    || (match x.res with | some (false, _) => bitsAt k.raddr 24 40 != 0 | _ => false)
  if !shapeFits i.b x.shape d || high || k.dpitch < n * w || (res && decide (k.rpitch < n * wr)) then some (3, 0)
  else if k.daddr % w != 0 || k.dpitch % w != 0 then some (5, k.daddr)
  else if res && (k.raddr % wr != 0 || k.rpitch % wr != 0) then some (5, k.raddr)
  else match rectCheck s i x.glb k.daddr k.dpitch m (n * w) .write with
  | some e => some e
  | none =>
    match x.res with
    | some (g, _) => rectCheck s i g k.raddr k.rpitch m (n * wr) .read
    | none => none

/-- What one row of an instruction comes to. -/
inductive Row where
  | done
  | fault (f : Flt)
  | wait
  deriving DecidableEq, Repr

/-- A row of bytes read from the scratchpad or global memory. -/
def rowRead (s : State) (i : Iss) (op : Nat) (glb : Bool) (a n : Nat) : State × Eng × Nat :=
  if glb then (match spanRead s i op a n with | (s, e, v, _) => (s, e, v)) else (s, .ok, scrRead s i.uid a n)

/-- A row of bytes written. -/
def rowWrite (s : State) (i : Iss) (op : Nat) (glb : Bool) (a n v : Nat) : State × Eng :=
  if glb then spanWrite s i op a n v else (scrWrite s i.uid a n v, .ok)

/-- The requests of a row are over. -/
def rowDone (s : State) (i : Iss) (op : Nat) : State × Row := (dropPods s i.uid i.who op, .done)

/-- The outputs of one row as bytes (R235). -/
def drainRow (b : Block) (x : DrainX) (t : Ty) (rm : Rm) (sat : Bool) (d : Nat) (k : Drain) (i resid : Nat) : Nat :=
  let w := tyBytes t
  let n := (shapeSize x.shape).2
  (List.range n).foldr (fun j v =>
    let r : FVal := match x.res with
      | some (_, f) => fdecode (ffmtFp f) (bitsAt resid (8 * ffmtBytes f * j) (8 * ffmtBytes f))
      | none => .fin false 0 0
    let keep := !x.mask || keepBit k.k0 k.k1 k.thresh ((k.row0 + i) % 2 ^ 32) ((k.col0 + j) % 2 ^ 32)
    let term := if keep then drainTerm (shapeEl b x.shape d i j) (fdecode f32 k.scale) else .fin false 0 0
    drainOut t rm sat r term % 256 ^ w + 256 ^ w * v) 0

/-- One row of a drain: read, then written; a row with pod writes is done when they are answered (R235, R239, R267). -/
def drainStep (s : State) (i : Iss) (op : Nat) (x : DrainX) (t : Ty) (rm : Rm) (sat : Bool) (d : Nat) (k : Drain) (r : Nat) :
    State × Row :=
  let n := (shapeSize x.shape).2
  let (sent, open_) := podWrites s i.uid i.who op
  if sent then (if open_ then (s, .wait) else rowDone s i op)
  else
    match (match x.res with
      | some (g, f) => rowRead s i op g (k.raddr + r * k.rpitch) (n * ffmtBytes f)
      | none => (s, .ok, 0)) with
    | (s, .fail c a, _) => (s, .fault ⟨c, a, none⟩)
    | (s, .wait, _) => (s, .wait)
    | (s, .ok, v) =>
      match rowWrite s i op x.glb (k.daddr + r * k.dpitch) (n * tyBytes t) (drainRow i.b x t rm sat d k r v) with
      | (s, .fail c a) => (s, .fault ⟨c, a, none⟩)
      | (s, .wait) => (s, .wait)
      | (s, .ok) => if (podWrites s i.uid i.who op).1 then (s, .wait) else rowDone s i op

/-- A row-wise instruction begins: its rows follow, one a step (R241). -/
def startRows (s : State) (c : Cur) (ins : Instr) (replay : Bool) : State :=
  modBms (bumpOrder s c.blk c.who) c.blk fun m => { m with prog := some (0, ins), replay := replay, fill := [] }

/-- MDRAIN (R233 to R236, R239): its checks at issue. -/
def execMdrain (h : Hdr) (t : Ty) (rm : Rm) (sat : Bool) (x : DrainX) (d a : Reg) (s : State) :
    Host.Outcome State Fault Refusal :=
  match exOf s h with
  | none => .next s
  | some e =>
    match issOf s e.cur.blk e.cur.who with
    | none => .next s
    | some i =>
      if e.slots.isEmpty then .next (pass s e.cur)
      else
        match drainCheck s i x t d.toNat (drainOf (e.r.rdN .ctl a.toNat 12)) with
        | some (c, ad) => .next (trapAt s e.cur false ⟨c, ad, none⟩)
        | none =>
          if tilesBusy i.b (shapeZs x.shape d.toNat) [] then .next s
          else .next (startRows s e.cur (.mdrain h t rm sat x d a) false)

/-! ### MSPILL and MFILL (R237 to R239) -/

/-- The line address of an element (R237). -/
def spillAt (base p i j : Nat) : Nat := base + i * p + 128 * j

/-- BASE and P (R237). -/
def spillBase (r : Regs) (a : Reg) : Nat × Nat := (r.rdN .ctl a.toNat 2, (r.rd .ctl (a.toNat + 2)).toNat)

/-- The elements of one row of a shape. -/
def rowIndices (sh : Shape) (r : Nat) : List (Nat × Nat) := (List.range (shapeSize sh).2).map fun j => (r, j)

/-- The first check of R134 that fails among the lines of elements. -/
def spillLines (s : State) (i : Iss) (base p : Nat) (w : Want) (es : List (Nat × Nat)) : Option Flt :=
  es.findSome? fun e =>
    let a := spillAt base p e.1 e.2
    (checkAccess s i .glb .ctl a 128 ⟨w, true, false⟩).map fun c => ⟨c, a, none⟩

/-- The checks of MSPILL and MFILL (R237). -/
def spillCheck (s : State) (i : Iss) (sh : Shape) (d base p : Nat) (w : Want) : Option Flt :=
  if !shapeFits i.b sh d || decide (p < 128 * (shapeSize sh).2) then some ⟨3, 0, none⟩
  else if base % 128 != 0 || p % 128 != 0 then some ⟨5, base, none⟩
  else spillLines s i base p w (shapeIndices sh)

/-- What elements contribute to their lines (R238). -/
def spillContribs (i : Iss) (sh : Shape) (d base p : Nat) (es : List (Nat × Nat)) : List Contribution :=
  es.map fun q =>
    let ad := spillAt base p q.1 q.2
    ⟨.ctl, ad, locKey i ad, fun la => La.merge la (shapeEl i.b sh d q.1 q.2).la⟩

/-- MSPILL (R238): its checks and its SEQ at issue (R256); a failing walk or page is met at its row. -/
def execMspill (h : Hdr) (sh : Shape) (clr : Bool) (d a : Reg) (s : State) : Host.Outcome State Fault Refusal :=
  match exOf s h with
  | none => .next s
  | some e =>
    match issOf s e.cur.blk e.cur.who, ctxOf s e.cur.blk e.cur.who with
    | some i, some k =>
      if e.slots.isEmpty then .next (pass s e.cur)
      else
        let (base, p) := spillBase e.r a
        match (spillCheck s i sh d.toNat base p .write).filter fun f => !walkFault f with
        | some f => .next (trapAt s e.cur false f)
        | none =>
          let ks := contribKeys (spillContribs i sh d.toNat base p (shapeIndices sh))
          if ownHeld s e.cur ks || tilesBusy i.b (shapeZs sh d.toNat) [] then .next s
          else .next (startRows (noteHwm s i.uid i.who) e.cur (.mspill h sh clr d a) (isReplay k))
    | _, _ => .next s

/-- One row of MSPILL: its contributions, up to a line whose walk or page fails (R238, R239). -/
def spillStep (s : State) (i : Iss) (seq : Nat) (replay : Bool) (sh : Shape) (d base p r : Nat) : State × Row :=
  let es := rowIndices sh r
  let send (s : State) (es : List (Nat × Nat)) : State × Sent :=
    sendContribs s i (i.uid, i.who, 0) (tagOf i.b i.who seq) replay none (spillContribs i sh d base p es)
  match spillLines s i base p .write es with
  | some f =>
    (match send s (es.takeWhile fun e => spillAt base p e.1 e.2 != f.addr) with
     | (s, .wait) => (s, .wait)
     | (s, .fault g) => (s, .fault { g with slot := none })
     | (s, .ok) => (s, .fault f))
  | none =>
    match send s es with
    | (s, .wait) => (s, .wait)
    | (s, .fault g) => (s, .fault { g with slot := none })
    | (s, .ok) => (s, .done)

/-- MFILL (R238): its checks at issue. -/
def execMfill (h : Hdr) (sh : Shape) (d a : Reg) (s : State) : Host.Outcome State Fault Refusal :=
  match exOf s h with
  | none => .next s
  | some e =>
    match issOf s e.cur.blk e.cur.who with
    | none => .next s
    | some i =>
      if e.slots.isEmpty then .next (pass s e.cur)
      else
        let (base, p) := spillBase e.r a
        match spillCheck s i sh d.toNat base p .read with
        | some f => .next (trapAt s e.cur false f)
        | none =>
          if tilesBusy i.b (shapeZs sh d.toNat) [] then .next s
          else .next (startRows s e.cur (.mfill h sh d a) false)

/-- The lines of a row read into a list of elements; poison is 0x08 (R238). -/
def fillStep (i : Iss) (op base p : Nat) : List (Nat × Nat) → State → List (Nat × Nat × ZEl) → State × Row × List (Nat × Nat × ZEl)
  | [], s, vs => (s, .done, vs)
  | (r, c) :: rest, s, vs =>
    match spanGet s i op (spillAt base p r c) 128 with
    | (s, .ok, v) => fillStep i op base p rest s (vs ++ [(r, c, ZEl.ofLa (La.ofImage (BitVec.ofNat 768 v)))])
    | (s, .fail k a, _) => (s, .fault ⟨k, a, none⟩, vs)
    | (s, .wait, _) => (s, .wait, vs)

/-! ### Rows in progress (R239, R241) -/

/-- The row that a row-wise instruction has reached, done as far as it can be. -/
def rowStep (s : State) (i : Iss) (m : Bms) (n : Nat) (ins : Instr) : State × Row :=
  let r := m.regs
  let op := m.ctx.order
  match ins with
  | .mdrain _ t rm sat x d a => drainStep s i op x t rm sat d.toNat (drainOf (r.rdN .ctl a.toNat 12)) n
  | .mspill _ sh _ d a => spillStep s i m.ctx.seq m.replay sh d.toNat (spillBase r a).1 (spillBase r a).2 n
  | .mfill _ sh _ a =>
    (match fillStep i op (spillBase r a).1 (spillBase r a).2 (rowIndices sh n) s [] with
     | (s, .done, vs) => (modBms s i.uid fun m => { m with fill := m.fill ++ vs }, .done)
     | (s, r, _) => (s, r))
  | _ => (s, .wait)

/-- Rows of a row-wise instruction. -/
def rowsOf : Instr → Nat
  | .mdrain _ _ _ _ x _ _ => (shapeSize x.shape).1
  | .mspill _ sh _ _ _ | .mfill _ sh _ _ => (shapeSize sh).1
  | _ => 0

/-- What a row-wise instruction does when its last row is done: `.clr`, MFILL's elements (R235, R238, R239). -/
def lastRow (s : State) (uid : Nat) (m : Bms) : Instr → State
  | .mdrain _ _ _ _ x d _ => if x.clr then clearShape s uid x.shape d.toNat else s
  | .mspill _ sh clr d _ =>
    let s := if clr then clearShape s uid sh d.toNat else s
    seqRetired s ⟨uid, bmsWho, 0, m.pc, 0⟩
  | .mfill _ sh d _ => m.fill.foldl (fun s v => setShapeEl s uid sh d.toNat v.1 v.2.1 v.2.2) s
  | _ => s

/-- Registers of a BMS marked by an instruction's last-use hints (R169). -/
def markBms (s : State) (uid : Nat) (ins : Instr) : State :=
  match regsOf s uid bmsWho, hdrOf ins with
  | some r, some h => putRegs s uid bmsWho (markDeadRegs ins h [.ctl] r)
  | _, _ => s

/-- The matrix instruction in progress retires. -/
def retireProg (s : State) (uid : Nat) (ins : Instr) : State :=
  modBms (markBms s uid ins) uid fun m => { m with prog := none, replay := false, fill := [], pc := (m.pc + 12) % 2 ^ 48 }

/-- A row fails: the trap is taken at the instruction (R239, R353); a faulted MSPILL holds its lines (R258). -/
def rowFault (s : State) (i : Iss) (m : Bms) (ins : Instr) (f : Flt) : State :=
  let s := modBms s i.uid fun m => { m with prog := none, replay := false, fill := [] }
  let s := match ins with
    | .mspill _ sh _ d a =>
      let (base, p) := spillBase m.regs a
      modCtx s i.uid bmsWho fun k =>
        { k with hold := some (0, m.pc, contribKeys (spillContribs i sh d.toNat base p (shapeIndices sh))) }
    | _ => s
  let c : Cur := ⟨i.uid, bmsWho, 0, m.pc, wordAt s i.uid bmsWho m.pc⟩
  trapAt s c false f

/-- One row of the instruction in progress; after the last it retires (R239, R241). -/
def matrixRow (s : State) (i : Iss) (m : Bms) (n : Nat) (ins : Instr) : State :=
  match rowStep s i m n ins with
  | (s, .wait) => s
  | (s, .fault f) => rowFault s i m ins f
  | (s, .done) =>
    if n + 1 < rowsOf ins then modBms s i.uid fun m => { m with prog := some (n + 1, ins) }
    else match (blockOf s i.uid).bind (·.bms) with
      | some m => retireProg (lastRow s i.uid m ins) i.uid ins
      | none => s

end Sys2Proof.Machine
end

