-- ==== Sys2Proof/Machine/Packed.lean ====
section
/-!
DEFINITION. Packed partials (14 R268, R269): 32 elements as a link carries them, packed and expanded.
-/

namespace Sys2Proof.Machine

/-- Bytes of a packed partial before its escaped elements (R268). -/
def packHead : Nat := 272

/-- ANCHOR as the packer takes it (R269): the lowest set bit position over the S that are not zero, or 300. -/
def packAnchor (ss : List Int) : Nat :=
  match ss.filter (· != 0) with
  | [] => 300
  | x :: r => r.foldl (fun n y => min n (lowBit y.natAbs)) (lowBit x.natAbs)

/-- Whether an element must be escaped (R269). -/
def mustEscape (anchor count : Nat) (a : La) : Bool :=
  a.st != ⟨count, false, false, 0, 0⟩ || a.s % 2 ^ anchor != 0
    || decide (a.s / 2 ^ anchor < -(2 ^ 63)) || decide (a.s / 2 ^ anchor ≥ 2 ^ 63)

/-- Up to 32 elements packed (R268, R269). COUNT is that of the first; places past the last element hold a zero window. -/
def packEls (xs : List LaImage) : List Byte :=
  let as := xs.map La.ofImage
  let anchor := packAnchor (as.map La.s)
  let count := (as.head?.map (·.st.count)).getD 0
  let windows := (List.range 32).flatMap fun e => match as[e]? with
    | some a => if mustEscape anchor count a then toBytes 8 0 else toBytes 8 (truncN 64 (a.s / 2 ^ anchor))
    | none => toBytes 8 0
  let esc := (List.range 32).filter fun e => (as[e]?).any (mustEscape anchor count)
  toBytes 2 anchor ++ toBytes 2 count ++ toBytes 4 0 ++ windows ++ toBytes 4 ((esc.map (2 ^ ·)).sum) ++ toBytes 4 0
    ++ esc.flatMap fun e => toBytes 96 (((as[e]?).map fun a => (La.toImage a.canon).toNat).getD 0)

/-- `n` bytes of a packet from an offset. -/
def packField (b : List Byte) (o n : Nat) : Nat := ofBytes ((b.drop o).take n)

/-- Whether a packet is well formed (R269): its length, ANCHOR, and the reserved bytes. -/
def packOk (b : List Byte) : Bool :=
  let esc := packField b 264 4
  b.length == packHead + 96 * ((List.range 32).filter (bitAt esc)).length
    && decide (packField b 0 2 ≤ 647) && packField b 4 4 == 0 && packField b 268 4 == 0

/-- Element `e` of a packet, as an image (R268, R269). -/
def unpackEl (b : List Byte) (e : Nat) : LaImage :=
  let esc := packField b 264 4
  if bitAt esc e then
    let n := ((List.range e).filter (bitAt esc)).length
    La.toImage (La.ofImage (BitVec.ofNat 768 (packField b (packHead + 96 * n) 96))).canon
  else
    La.toImage (La.canonOf (sextN 64 (packField b (8 + 8 * e) 8) * 2 ^ packField b 0 2) ⟨packField b 2 2, false, false, 0, 0⟩)

/-- Elements packed 32 at a time, in packets counted by fuel. -/
def packGo : Nat → List LaImage → List (List Byte)
  | 0, _ => []
  | n + 1, xs => if xs.isEmpty then [] else packEls (xs.take 32) :: packGo n (xs.drop 32)

/-- The packets of a chunk's partials. -/
def packAll (xs : List LaImage) : List (List Byte) := packGo xs.length xs

/-- The `n` elements of a chunk from its packets; none when a packet is malformed or there are not as many as it takes. -/
def unpackAll (ps : List (List Byte)) (n : Nat) : Option (List LaImage) :=
  if ps.all packOk && ps.length == (n + 31) / 32 then
    some ((ps.flatMap fun b => (List.range 32).map (unpackEl b)).take n)
  else none

end Sys2Proof.Machine
end

