-- ==== Sys2Proof/Machine/Admit.lean ====
section
/-!
DEFINITION. What fits where (15 R289, R295, R296; 09 R163; 12 R218; 20 R356): the resources of a core, eligible variants,
the placement test, and the yield requests that freed resources raise (R297).
-/

namespace Sys2Proof.Machine

/-! ### Resources (R296) -/

/-- What a core's resident blocks hold: group slots with their units, scratchpad spans, tiles, BMS contexts, blocks. -/
structure Load where
  slots : List (Nat × Nat)
  scr : List (Nat × Nat)
  zt : Nat
  bctx : List Nat
  blocks : Nat
  deriving DecidableEq, Repr

/-- Units of main file of a group (R163). -/
def Variant.units (v : Variant) : Nat := v.regs / 128

def Load.add (l : Load) (b : Block) : Load :=
  { slots := l.slots ++ b.groups.map fun g => (g.gslot, b.v.units)
    scr := l.scr ++ b.scrSpans
    zt := l.zt + b.v.zt
    bctx := match b.bms with | some m => l.bctx ++ [m.bctx] | none => l.bctx
    blocks := l.blocks + 1 }

def coreLoad (s : State) (die core : Nat) : Load :=
  (s.work.blocks.filter fun b => b.die == die && b.core == core).foldl Load.add ⟨[], [], 0, [], 0⟩

/-- Units held of a quadrant. -/
def Load.quad (l : Load) (q : Nat) : Nat := ((l.slots.filter fun x => x.1 / 8 == q).map (·.2)).sum

/-- The group slots of `n` more groups of `u` units, eight slots to a quadrant. -/
def takeSlots (u : Nat) : Nat → Load → List Nat → Option (Load × List Nat)
  | 0, l, gs => some (l, gs)
  | n + 1, l, gs =>
    match (List.range 32).find? fun g => !(l.slots.any fun x => x.1 == g) && decide (l.quad (g / 8) + u ≤ 8) with
    | some g => takeSlots u n { l with slots := l.slots ++ [(g, u)] } (gs ++ [g])
    | none => none

/-- The free spans of a scratchpad from a byte on, below spans in rising order. -/
def freeSpans : Nat → List (Nat × Nat) → List (Nat × Nat)
  | o, [] => [(o, 262144 - o)]
  | o, (b, n) :: r => (o, b - o) :: freeSpans (b + n) r

/-- The first `n` bytes of spans. -/
def takeSpans : List (Nat × Nat) → Nat → Option (List (Nat × Nat))
  | [], n => if n = 0 then some [] else none
  | (b, m) :: r, n =>
    if n = 0 then some [] else if m = 0 then takeSpans r n else if n ≤ m then some [(b, n)]
    else (takeSpans r (n - m)).map fun l => (b, m) :: l

/-- Free bytes of scratchpad for an allocation (R296): the lowest span that holds it, else the lowest bytes (assumption log
105). -/
def takeScr (l : Load) (n : Nat) : Option (List (Nat × Nat)) :=
  let free := freeSpans 0 (sortBy (fun a b => decide (a.1 ≤ b.1)) l.scr)
  match free.find? fun x => decide (n ≤ x.2) with
  | some x => takeSpans [x] n
  | none => takeSpans free n

/-- Where a block of a variant goes on a core: group slots, scratchpad spans, BMS context. -/
structure Spot where
  gslots : List Nat
  spans : List (Nat × Nat)
  bctx : Nat
  deriving DecidableEq, Repr

/-- A block of a variant taken onto a core (R296). -/
def takeCore (l : Load) (v : Variant) : Option (Load × Spot) :=
  if l.blocks ≥ 16 || l.zt + v.zt > 8 then none
  else
    let bc := if v.seq = 0 then some 0 else (List.range 4).find? fun c => !l.bctx.contains c
    match takeSlots v.units v.groups l [], takeScr l v.scr, bc with
    | some (l, gs), some spans, some c =>
      some ({ l with scr := l.scr ++ spans
                     zt := l.zt + v.zt
                     bctx := if v.seq = 0 then l.bctx else l.bctx ++ [c]
                     blocks := l.blocks + 1 }, ⟨gs, spans, c⟩)
    | _, _, _ => none

/-- Loads of cores that a plan has changed so far; the others are as the state has them. -/
abbrev Loads := List (Nat × Load)

def loadAt (s : State) (m : Loads) (die core : Nat) : Load :=
  ((m.find? fun x => x.1 == coreIndex die core).map (·.2)).getD (coreLoad s die core)

def setLoad (m : Loads) (die core : Nat) (l : Load) : Loads :=
  (coreIndex die core, l) :: m.filter fun x => x.1 != coreIndex die core

/-- Whether a die takes blocks: its cores are not in reset (R362). -/
def dieUp (s : State) (d : Nat) : Bool := !s.power.coresDown.contains d && decide (d < 4)

/-- A block taken onto a given core. -/
def takeAt (s : State) (m : Loads) (v : Variant) (die core : Nat) : Option (Loads × Spot) :=
  if !dieUp s die || core ≥ 64 then none
  else (takeCore (loadAt s m die core) v).map fun x => (setLoad m die core x.1, x.2)

/-! ### Cohorts on dies (R295) -/

/-- The dies and pairs of the placement test in its order (R295). -/
def diesTried : List (List Nat) := [[0], [1], [2], [3], [0, 1], [0, 2], [1, 3], [2, 3]]

/-- Whether dies may hold one cohort (R285, R295). -/
def diesAllowed (ds : List Nat) : Bool := diesTried.any fun t => ds.all t.contains

/-- The first core of some dies that takes a block (R295 step 4). -/
def firstCore (s : State) (v : Variant) (ds : List Nat) (m : Loads) : Option (Nat × Nat × Loads × Spot) :=
  (ds.flatMap fun d => (List.range 64).map fun c => (d, c)).findSome? fun dc =>
    (takeAt s m v dc.1 dc.2).map fun x => (dc.1, dc.2, x.1, x.2)

/-- A placed block: die, core and spot. -/
abbrev Placed := Nat × Nat × Spot

/-- `n` blocks on the first cores of some dies that fit. -/
def placeOn (s : State) (v : Variant) (ds : List Nat) : Nat → Loads → List Placed → Option (Loads × List Placed)
  | 0, m, ps => some (m, ps)
  | n + 1, m, ps =>
    match firstCore s v ds m with
    | some (d, c, m, sp) => placeOn s v ds n m (ps ++ [(d, c, sp)])
    | none => none

/-- A cohort of `n` blocks where the placement test puts it (R295 steps 3 and 4). -/
def placeCohort (s : State) (v : Variant) (n : Nat) (m : Loads) : Option (Loads × List Placed) :=
  diesTried.findSome? fun ds => placeOn s v ds n m []

/-- The first variant of a list in which a cohort fits, with its place. -/
def placeVars (s : State) (n : Nat) (m : Loads) : List (Nat × Variant) → Option (Nat × Loads × List Placed)
  | [] => none
  | (ix, v) :: r =>
    match placeCohort s v n m with
    | some (m, ps) => some (ix, m, ps)
    | none => placeVars s n m r

/-- Blocks on given cores, in order. -/
def placeGiven (s : State) (v : Variant) : List (Nat × Nat) → Loads → List Placed → Option (Loads × List Placed)
  | [], m, ps => some (m, ps)
  | (d, c) :: r, m, ps =>
    match takeAt s m v d c with
    | some (m, sp) => placeGiven s v r m (ps ++ [(d, c, sp)])
    | none => none

/-! ### Variants (R289, R356) -/

/-- Bytes of a variant's save area (R357). -/
def Variant.saveBytes (v : Variant) : Nat :=
  512 + v.groups * (73728 + v.regs * 264) + v.scr + (if v.seq = 0 then 0 else 4096) + v.zt * (27648 + 393216)

/-- Whether a variant is eligible (R289, R356). -/
def Variant.eligible (s : State) (v : Variant) : Bool :=
  decide (v.groups * v.units ≤ 32) && (v.zt == 0 || v.seq != 0) && decide (v.saveBytes ≤ s.work.csaSlotb)

/-- The eligible variants of a kernel in table order, with their indices. -/
def Kernel.eligible (s : State) (k : Kernel) : List (Nat × Variant) :=
  ((List.range k.vars.length).zip k.vars).filter fun x => x.2.eligible s

/-! ### Slots (R294, R356) -/

def slotsHeld (s : State) : List Nat := s.work.blocks.map (·.slot) ++ s.work.away.map (·.slot)
def savesHeld (s : State) : List Nat := s.work.blocks.map (·.save) ++ s.work.away.map (·.save)

/-- `n` free values below a bound, counted upward from one and wrapping; none when there are too few. -/
def freeFrom (bound start n : Nat) (held : List Nat) : Option (List Nat) :=
  let l := (((List.range bound).map fun i => (start + i) % bound).filter fun i => !held.contains i).take n
  if l.length = n then some l else none

/-! ### Yield requests (R297) -/

/-- Whether freed resources could hold a cohort in an eligible variant before its own. -/
def yieldFits (s : State) (c : Cohort) : Bool :=
  match launchOf s c.launch, (cohortBlocks s c.uid).head? with
  | some l, some b =>
    l.k.prog != 0
      && (placeVars s c.size [] ((l.k.eligible s).filter fun x => decide (x.1 < b.vidx))).isSome
  | _, _ => false

/-- Whether the record that caused a request still waits at the head of its queue. -/
def stillStarved (s : State) (c : Cohort) : Bool :=
  match c.starve with
  | some (q, ix) => (s.work.qhead.get? q).getD 0 == ix && (s.work.qtail.get? q).getD 0 != ix
  | none => false

/-- Raises the requests whose cause has come, on every resident cohort of the launch, and withdraws those whose cause has gone
(R297, R368). -/
def yieldCheck (s : State) : State :=
  let fits := (s.work.cohorts.filter (yieldFits s)).map (·.launch)
  { s with work := { s.work with cohorts := s.work.cohorts.map fun c =>
      let st := stillStarved s c
      { c with yield := st || (fits.contains c.launch && s.work.blocks.any fun b => b.cohort == c.uid)
               starve := if st then c.starve else none } } }

/-! ### The end of a block (R219, R293, R318) -/

/-- Whether an issuer owes nothing: its window and its copies are empty. -/
def Ctx.done (c : Ctx) : Bool := c.window.isEmpty && c.copies.isEmpty

/-- Whether a block has ended: every group and the BMS have exited, and what they issued has completed,
collectives included. -/
def blockDone (s : State) (b : Block) : Bool :=
  b.groups.all (fun g => (g.paths.all fun p => p.st == .free) && g.ctx.done)
    && (match b.bms with | some m => m.st == .exited && m.ctx.done && m.prog.isNone && !(m.colls.any fun c => c.open_ || c.working) | none => true)
    && !s.work.deposits.any fun d => d.src == b.uid

/-- A cohort whose blocks have all ended is gone. -/
def cohortCheck (s : State) (coh : Nat) : State :=
  if s.work.blocks.any (fun b => b.cohort == coh) || s.work.away.any fun a => a.cohort == coh then s else dropCohort s coh

/-- A block that has ended gives up what it held; the last of a launch signals its JOIN (R293). -/
def blockCheck (s : State) (uid : Nat) : State :=
  match blockOf s uid with
  | none => s
  | some b =>
    if !blockDone s b then s
    else
      let s := { s with work := { s.work with
        blocks := s.work.blocks.filter fun q => q.uid != uid
        purge := insertNat b.task s.work.purge } }
      let s := modLaunch (cohortCheck s b.cohort) b.launch fun l => { l with ended := l.ended + 1 }
      launchCheck s b.launch

end Sys2Proof.Machine
end

