-- ==== Sys2Proof/Machine/Paths.lean ====
section
/-!
DEFINITION. Paths and tokens of a group (16 R307 to R318, R409): pushing tokens, giving up an entry, lanes that leave
tokens, completions from the innermost token outward; and what follows when a path or an operation has ended.
-/

namespace Sys2Proof.Machine

/-! ### Tokens (R307, R308) -/

/-- The most tokens of a group, DEFER records included (R308). -/
def tokenLimit : Nat := 400

/-- A token id that is not in use; none at the limit (R308). -/
def newToken (g : Group) : Option Nat :=
  if g.tokens.length ≥ tokenLimit then none
  else (List.range tokenLimit).find? fun n => (g.tokens.get? n).isNone

def Group.putToken (g : Group) (id : Nat) (t : Token) : Group := { g with tokens := g.tokens.set id t }

def Group.dropToken (g : Group) (id : Nat) : Group := { g with tokens := g.tokens.erase id }

def Group.modPath (g : Group) (p : Nat) (f : Path → Path) : Group := { g with paths := g.paths.modify p f }

/-- The token chain of a path, innermost first (R307). -/
def chainFrom (g : Group) : Nat → Option Nat → List Nat
  | 0, _ => []
  | _, none => []
  | n + 1, some t =>
    match g.tokens.get? t with
    | some k => t :: chainFrom g n k.parent
    | none => []

def chainOf (g : Group) (p : Nat) : List Nat := chainFrom g tokenLimit ((g.paths[p]?).bind (·.tref))

/-- The lowest FREE entry. -/
def freeEntry (g : Group) : Option Nat := findIdx? (fun p => p.st == .free) g.paths

/-- An entry becomes a new READY path; its DLIST stays when it keeps one. -/
def startPath (g : Group) (e pc : Nat) (mask : List LaneMask) (tref dlist : Option Nat) (unrep : Bool) : Group :=
  g.modPath e fun q => { q with pc := pc, mask := mask, st := .ready, tref := tref, dlist := dlist, unrep := unrep
                                wake := 0, wait := .none, kills := [], trap := none, bpSkip := false }

/-- A DEFER record at the head of an entry's DLIST (R311, R313). -/
def pushDefer (g : Group) (e pc : Nat) (mask : List LaneMask) (parent : Option Nat) : Group :=
  match newToken g with
  | none => g
  | some id =>
    let d := (g.paths[e]?).bind (·.dlist)
    (g.putToken id ⟨.defer, pc, mask, mZero mask.length, parent, d⟩).modPath e fun q => { q with dlist := some id }

/-- Entries become FREE. -/
def freeAll (g : Group) (es : List Nat) : Group :=
  es.foldl (fun g e => g.modPath e fun q =>
    { q with st := .free, mask := mZero q.mask.length, tref := none, dlist := none, held := false }) g

/-- An entry is given up (R313): the head of its DLIST becomes its path, or it becomes FREE. -/
def giveUp (g : Group) (e : Nat) : Group :=
  match (g.paths[e]?).bind (·.dlist) with
  | some d =>
    (match g.tokens.get? d with
     | some t => { startPath (g.dropToken d) e t.pc t.exp t.parent t.next true with runLen := 32 }
     | none => freeAll g [e])
  | none => freeAll g [e]

/-- Entries parked in JOINW on a token. -/
def parkedOn (g : Group) (t : Nat) : List Nat :=
  (List.range g.paths.length).filter fun e => (g.paths[e]?).any fun q => q.st == .joinw && q.tref == some t

/-! ### Completions (R312, R314, R315, R409) -/

/-- A completion as the trace sees it (R380): the merged entry, none for a deferred one, and the entries made FREE. -/
structure Joined where
  entry : Option Nat
  freed : List Nat
  deriving DecidableEq, Repr

/-- Completing tokens while the issuing path's entry may still be free to give (R409 step 1). -/
structure Completing where
  g : Group
  /-- the issuing entry is given up and no merged path has taken it -/
  open_ : Bool
  done : List Joined
  deriving DecidableEq, Repr

/-- A merged path that is not the issuing path's own takes its entry (R409). -/
def placeMerged (c : Completing) (e pc : Nat) (mask : List LaneMask) (tref : Option Nat) : Completing :=
  if c.open_ then
    let d := (c.g.paths[e]?).bind (·.dlist)
    ⟨startPath c.g e pc mask tref d true, false, c.done ++ [⟨some e, []⟩]⟩
  else match freeEntry c.g with
    | some f => ⟨startPath c.g f pc mask tref none true, false, c.done ++ [⟨some f, []⟩]⟩
    | none => ⟨pushDefer c.g e pc mask tref, false, c.done ++ [⟨none, []⟩]⟩

/-- One token of the chain: removed when its EXP is empty, completed when every lane has arrived. -/
def completeOne (e : Nat) (c : Completing) (id : Nat) : Completing :=
  match c.g.tokens.get? id with
  | none => c
  | some t =>
    if mEmpty t.exp then { c with g := c.g.dropToken id }
    else if t.arr != t.exp || t.kind == .defer then c
    else
      let parked := parkedOn c.g id
      let g := c.g.dropToken id
      let pc := match t.kind with | .join => (t.pc + 12) % 2 ^ 48 | _ => t.pc
      match t.kind, parked with
      | .join, f :: rest =>
        { c with g := startPath (freeAll g rest) f pc t.exp t.parent none true, done := c.done ++ [⟨some f, rest⟩] }
      | _, _ => placeMerged { c with g := g } e pc t.exp t.parent

/-- Completions along a chain, from the innermost token outward (R315). -/
def completeChain (g : Group) (e : Nat) (given : Bool) (chain : List Nat) : Completing :=
  chain.foldl (completeOne e) ⟨g, given, []⟩

/-- Lanes leave EXP of tokens (R315, R317, R318). -/
def leaveTokens (g : Group) (m : List LaneMask) (ids : List Nat) : Group :=
  ids.foldl (fun g id => match g.tokens.get? id with
    | some t => g.putToken id { t with exp := mSub t.exp m }
    | none => g) g

/-- The issuing path gives up its entry and tokens complete (R409, R313). -/
def leaveEntry (g : Group) (e : Nat) (chain : List Nat) : Completing :=
  let c := completeChain g e true chain
  if c.open_ then { c with g := giveUp c.g e } else c

/-! ### Switch points reached (R323, R300) -/

/-- The ids of the SWPTs that a group's paths wait at, when every live lane of the group waits at one. -/
def swptIds (g : Group) : Option (List Nat) :=
  if g.tokens.any (fun t => t.2.kind == .defer || !mEmpty t.2.arr) then none
  else g.paths.foldl (fun (o : Option (List Nat)) q => o.bind fun l =>
    if q.st == .free then some l
    else match q.wait with
      | .swpt id => if q.st == .barw then some (l ++ [id]) else none
      | _ => none) (some [])

/-- The ids of a whole block, when every live lane of it is at an SWPT; a block without a live lane has none. -/
def blockSwpt (b : Block) : Option (List Nat) :=
  match b.groups.foldl (fun (o : Option (List Nat)) g => o.bind fun l => (swptIds g).map fun m => l ++ m) (some []) with
  | some [] => none
  | r => r

/-- Every path of a block that waits at an SWPT goes on (R323). -/
def passSwpt (s : State) (b : Block) : State :=
  (List.range b.groups.length).foldl (fun s g =>
    (List.range 8).foldl (fun s p =>
      match pathOf s b.uid g p with
      | some q => (match q.wait with | .swpt _ => fireWait s b.uid g p | _ => s)
      | none => s) s) s

/-- A path that waits at an SWPT or SUSPEND traps there: the instruction does not retire (R323, R300, R325). -/
def trapWaiting (s : State) (uid g p cause addr : Nat) : State :=
  match pathOf s uid g p with
  | none => s
  | some q =>
    let s := modPath s uid g p fun q => { q with st := .ready, wait := .none, kills := [] }
    let t := mkTrap ⟨cause, addr, none⟩ false false 0 q.pc (wordAt s uid g q.pc)
    if (groupOf s uid g).any (fun gr => gr.hpath.isSome) then modPath s uid g p fun q => { q with trap := some t }
    else takeTrap s uid g p t q.pc

/-- The switch-point trap (R323, R300). -/
def trapSwpt (s : State) (uid g p : Nat) : State := trapWaiting s uid g p 0x0C 0

/-- Whether every block of a cohort waits at the same switch point with its BMS exited (R300): the suspension can begin. -/
def cohortAtSwpt (s : State) (coh : Nat) : Bool :=
  let bs := cohortBlocks s coh
  let ids := bs.map blockSwpt
  match ids.head? with
  | some (some (id :: _)) =>
    ids.all (fun o => match o with | some l => l.all (· == id) | none => false)
      && bs.all fun b => match b.bms with | some m => m.st == .exited | none => true
  | _ => false

/-- What a block whose live lanes are all at an SWPT does (R323, R300): differing ids trap, no yield goes on, a yield
waits for the cohort. -/
def swptCheck (s : State) (b : Block) : State :=
  match blockSwpt b with
  | none => s
  | some ids =>
    let id := ids.headD 0
    if !ids.all (· == id) then
      ((List.range b.groups.length).flatMap fun g => (List.range 8).map fun p => (g, p)).foldl (fun s x =>
        match pathOf s b.uid x.1 x.2 with
        | some q => (match q.wait with | .swpt n => if n = id then s else trapSwpt s b.uid x.1 x.2 | _ => s)
        | none => s) s
    else if !((cohortOf s b.cohort).any (·.yield)) then passSwpt s b
    else
      let bs := cohortBlocks s b.cohort
      if bs.all (fun q => (blockSwpt q).isSome) && !cohortAtSwpt s b.cohort then bs.foldl passSwpt s else s

def swptAll (s : State) : State := s.work.blocks.foldl swptCheck s

/-! ### After a path or an operation has ended -/

/-- Switch points that are now reached or let go, orphan waits, the end of the block (R323, R322, R219). -/
def afterUnit (s : State) (uid : Nat) : State := swptAll (blockCheck (orphanAt (swptAll s) uid) uid)

/-- A group is changed by a computation on its paths and tokens. -/
def modTokens (s : State) (c : Cur) (f : Group → Completing) : State :=
  modGroup s c.blk c.who fun g => (f g).g

/-- JOINP packets of completions that a JOIN did not cause (R380, R381); a deferred merged path writes none. -/
def traceJoined (s : State) (c : Cur) (mask : List LaneMask) (js : List Joined) : State :=
  js.foldl (fun s j => match j.entry with
    | some e =>
      let freed := j.freed.foldl (fun n e => n + 2 ^ e) 0
      traceJoin s c.blk c.who c.path c.pc mask [BitVec.ofNat 8 (0x58 + e), BitVec.ofNat 8 freed]
    | none => s) s

/-- A handler whose path has ended leaves with it. -/
def endHandler (s : State) (c : Cur) : State :=
  modGroup s c.blk c.who fun g =>
    match g.hpath with
    | some p => if (g.paths[p]?).any (fun q => q.st == .free) then { g with hpath := none, shadows := [] } else g
    | none => g

/-- The issuing entry, if it is unreported after its instruction, is reported by a PATH with F = 1 (R382). -/
def traceRenew (s : State) (c : Cur) : State :=
  match pathOf s c.blk c.who c.path with
  | some q => if q.unrep && q.st == .ready then traceUnreport s c.blk c.who c.path else s
  | none => s

/-- A control instruction has changed its group: one more has issued, and what waits is looked at. -/
def settleGroup (s : State) (c : Cur) : State := afterUnit (bumpOrder s c.blk c.who) c.blk

end Sys2Proof.Machine
end

