-- ==== Sys2Proof/Machine/Collective.lean ====
section
/-!
DEFINITION. Collectives (14 R271 to R282): descriptors, the async barrier object, schedules, the die's collective engine as
it works on one member's part, and COLL, ABW and CREC. What a peer sends arrives by COLL_MESSAGE.
-/

namespace Sys2Proof.Machine

/-! ### The async barrier object (R273) -/

def aboGet (s : State) (uid abo : Nat) : Nat := scrRead s uid abo 16

def aboPut (s : State) (uid abo lo w v : Nat) : State := scrWrite s uid abo 16 (putBits (aboGet s uid abo) lo w v)

def aboExpected (v : Nat) : Nat := bitsAt v 0 32
def aboDone (v : Nat) : Nat := bitsAt v 32 32
def aboPartial (v : Nat) : Bool := bitAt v 64
def aboAbort (v : Nat) : Bool := bitAt v 65
def aboEpoch (v : Nat) : Nat := bitsAt v 96 32

/-- One more late partial (R275, R277). -/
def aboLate (s : State) (uid abo : Nat) : State :=
  aboPut s uid abo 80 16 (min 65535 (bitsAt (aboGet s uid abo) 80 16 + 1))

/-- PARTIAL set when a flag says so (R277), in a barrier object that is still of the collective's epoch. -/
def aboMark (s : State) (uid abo epoch : Nat) (flag : Bool) : State :=
  if flag && aboEpoch (aboGet s uid abo) == epoch then aboPut s uid abo 64 1 1 else s

/-- One more chunk completed here. -/
def aboStep (s : State) (uid abo : Nat) : State := aboPut s uid abo 32 32 (aboDone (aboGet s uid abo) + 1)

/-! ### Elements (R274) -/

/-- Bytes of an element in a memory object. -/
def collBytes (f : CollFmt) : Nat :=
  match f with
  | .fp g => ffmtBytes g
  | .la => 128

/-- Elements of an object. -/
def collElems (x : CollX) (count : Nat) : Nat :=
  match x.obj with
  | .memory _ => count
  | .zTile _ => 4096
  | .yTile _ => 24576 / collBytes x.fmt

/-! ### Values of a member's own object -/

/-- What reading or writing the object comes to. -/
inductive Raw where
  | ok (vs : List Nat)
  | fault (cause addr : Nat)
  | wait
  deriving DecidableEq, Repr

/-- An element's canonical image from a line or a z element. -/
def canonImage (v : Nat) : Nat := (La.toImage (La.ofImage (BitVec.ofNat 768 v)).canon).toNat

/-- The number of an access of a collective's engine, apart from every instruction's: 0 the member table, 2k + 2 the object's
chunk k, 2k + 3 the progress vector's entry k. -/
def Coll.access (c : Coll) (n : Nat) : Nat := (2 ^ 60 + c.epoch * 2 ^ 20 + c.abo) * 2 ^ 20 + n

/-- What the engine's accesses of some numbers have asked for, at peers and at the host, is over. -/
def dropAccess (s : State) (i : Iss) (c : Coll) (p : Nat → Bool) : State :=
  let mine (uid who op : Nat) : Bool := uid == i.uid && who == i.who && op / 2 ^ 20 == c.access 0 / 2 ^ 20 && p (op % 2 ^ 20)
  { s with
    links := { s.links with pods := s.links.pods.filter fun q => !mine q.blk q.who q.op }
    coh := { s.coh with ucs := s.coh.ucs.filter fun u => !mine u.tag.1 u.tag.2.1 u.tag.2.2 } }

/-- The accesses of one chunk. -/
def ofChunk (k n : Nat) : Bool := n / 2 == k + 1

/-- The elements of one chunk as they stand: float bits, or canonical images. -/
def chunkRaw (s : State) (i : Iss) (c : Coll) (k : Nat) : State × Raw :=
  let (e0, n) := c.span k
  let w := collBytes c.x.fmt
  match c.x.obj with
  | .zTile z => (s, .ok ((List.range n).map fun j =>
      let e := e0 + j
      (La.toImage ((zTileOf i.b z.toNat).el (e / 64) (e % 64)).la).toNat))
  | .yTile y => (s, .ok ((List.range n).map fun j => (yTileOf i.b y.toNat).read ((e0 + j) * w) w))
  | .memory _ =>
    match spanRead s i (c.access (2 * k + 2)) (c.base + e0 * w) (n * w) with
    | (s, .wait, _, _) => (s, .wait)
    | (s, .fail q a, _, _) => (s, .fault q a)
    | (s, .ok, v, _) => (s, .ok ((List.range n).map fun j =>
        if w = 128 then canonImage (bitsAt v (1024 * j) 768) else bitsAt v (8 * w * j) (8 * w)))

/-- A member's own contribution of one element (R205, R276). -/
def ownTerm (f : CollFmt) (v : Nat) : LaImage :=
  match f with
  | .la => BitVec.ofNat 768 v
  | .fp g => La.toImage (La.contribute La.zero (fdecode (ffmtFp g) v))

/-- Partials added element by element, exactly (R64, R66, R270). -/
def addParts (a b : List LaImage) : List LaImage :=
  a.zipWith (fun x y => La.toImage (La.merge (La.ofImage x) (La.ofImage y))) b

/-- The final value of a sum, where it is decided (R276). -/
def decideEl (x : CollX) (a : LaImage) : Nat :=
  match x.fmt with
  | .la => (La.toImage (La.ofImage a).canon).toNat
  | .fp g => (La.round (La.ofImage a) (ffmtFp g) x.rm false x.mean (.fin false 1 0)).1

/-- Bytes that the engine writes: a line that no page takes any more is left out; false while a line, a peer or the host makes
it wait. -/
def objPut (s : State) (i : Iss) (op va n v : Nat) : State × Bool :=
  match podWrites s i.uid i.who op with
  | (true, out) => (s, !out)
  | (false, _) =>
    let (s, waits, past) := (pieces (pieceFuel n) va n 0).foldl (fun r p =>
      if r.2.1 then r
      else match spanWriteGo i op v [p] r.1 r.2.2 with
        | (s, .wait, past) => (s, true, past)
        | (s, _, past) => (s, false, past)) (s, false, [])
    if waits then (s, false) else (spanPods s i op v past, past.isEmpty)

/-- Final values written to the object (R276); false while they wait. -/
def writeFinal (s : State) (i : Iss) (c : Coll) (k : Nat) (vs : List Nat) : State × Bool :=
  let (e0, n) := c.span k
  let w := collBytes c.x.fmt
  match c.x.obj with
  | .zTile z => (setZTile s i.uid z.toNat fun t => (List.range n).foldl (fun t j =>
      t.put ((e0 + j) / 64) ((e0 + j) % 64) (ZEl.ofLa (La.ofImage (BitVec.ofNat 768 (vs.getD j 0))))) t, true)
  | .yTile y => (setYTile s i.uid y.toNat fun t => (List.range n).foldl (fun t j => t.write ((e0 + j) * w) w (vs.getD j 0)) t, true)
  | .memory _ => objPut s i (c.access (2 * k + 2)) (c.base + e0 * w) (n * w) (vs.foldr (fun v r => v % 256 ^ w + 256 ^ w * r) 0)

/-! ### The engine's steps -/

/-- What a step of the engine comes to: the collective as it then stands, or none when something makes it wait: then only what
the step has asked for is kept (`asked`). -/
abbrev Went := State × Option Coll

/-- One step after another. -/
def Went.andThen (x : Went) (f : State → Coll → Went) : Went :=
  match x with
  | (s, some c) => f s c
  | (s, none) => (s, none)

/-- The die's counter, and the time that limits are measured in. -/
def nowAt (s : State) (i : Iss) : Nat × Nat := (s.sched.time.getD i.b.die 0, s.sched.ns)

/-- A step of a chunk is complete here: its entry of the progress vector is stored (R278). -/
def noteProg (s : State) (i : Iss) (c : Coll) (k st : Nat) (fin : Bool) : Went :=
  match objPut s i (c.access (2 * k + 3)) (c.pvec + 4 * k) 4 (st % 65536 + (if fin then 2 ^ 31 else 0)) with
  | (s, true) => (s, some { c with prog := c.prog.set k (st, fin), opened := c.opened.set k (nowAt s i) })
  | (s, false) => (s, none)

/-- A message of this collective (R275). -/
def Coll.msg (c : Coll) (k st : Nat) (b : CollBody) : CollMsg := ⟨c.commid, c.epoch, c.n, k, st, c.rank, b⟩

/-- Messages handed to the links for ranks of the collective (R272, R275). -/
def sendRanks (s : State) (c : Coll) (rs : List Nat) (f : Nat → CollMsg) : State :=
  { s with links := { s.links with out := s.links.out ++ rs.map fun r => (c.members.getD r 0, f r) } }

/-- A final value goes to the next hops of a position. -/
def passOn (s : State) (i : Iss) (c : Coll) (k : Nat) (vs : List Nat) : State :=
  let flag := aboPartial (aboGet s i.uid c.abo)
  sendRanks s c ((c.down (c.pos k c.rank)).map (c.rankAt k)) fun r =>
    c.msg k (c.arrives (c.pos k r)) (.final (vs.map fun v => BitVec.ofNat 768 v) flag)

/-- A chunk is complete here (R275): DONE rises. -/
def chunkDone (s : State) (i : Iss) (c : Coll) (k st : Nat) : Went := noteProg (aboStep s i.uid c.abo) i c k st true

/-- The tag of a member's contributions to a chunk (R255, R281). -/
def Coll.tag (c : Coll) (b : Block) (k : Nat) : Nat := tagOf b (17 + c.rank % 15) k

/-- A member's partials of a chunk go up its schedule, packed (R268, R276). -/
def sendUp (s : State) (i : Iss) (c : Coll) (k : Nat) : State :=
  let q := c.pos k c.rank
  sendRanks s c [c.rankAt k (c.up q)] fun _ => c.msg k (c.closes q)
    (.partials (packAll ((c.parts.get? k).getD [])) (aboPartial (aboGet s i.uid c.abo)) (c.tag i.b k) [])

/-- The reduce step of a chunk closes here: its sum is decided, or passed up (R275 to R277). -/
def closeReduce (s : State) (i : Iss) (c : Coll) (k : Nat) : Went :=
  if c.pos k c.rank = 0 then
    let vs := ((c.parts.get? k).getD []).map (decideEl c.x)
    match writeFinal s i c k vs with
    | (s, true) => chunkDone (passOn s i c k vs) i { c with parts := c.parts.erase k } k (c.closes 0)
    | (s, false) => (s, none)
  else noteProg (sendUp s i c k) i c k (c.closes (c.pos k c.rank)) false

/-- Whether every input of the member's reduce step has come. -/
def Coll.allIn (c : Coll) (k : Nat) : Bool :=
  (c.inputs (c.pos k c.rank)).all fun q => ((c.srcs.get? k).getD []).any fun x => x.2 == c.rankAt k q

/-- A chunk starts at this member with its own elements (R275): `raw` is empty where it contributes none. -/
def startChunk (s : State) (i : Iss) (c : Coll) (k : Nat) (raw : List Nat) : Went :=
  let c := { c with opened := c.opened.set k (nowAt s i) }
  if c.reduces then
    let c := { c with parts := c.parts.set k (raw.map (ownTerm c.x.fmt)), srcs := c.srcs.erase k }
    if c.allIn k then closeReduce s i c k else (s, some c)
  else if c.pos k c.rank = 0 then chunkDone (passOn s i c k raw) i c k 0
  else (s, some c)

/-- Whether a member reads a chunk of its own object. -/
def Coll.readsOwn (c : Coll) (k : Nat) : Bool := c.reduces || c.pos k c.rank == 0

/-- The member's elements of the chunks of a list that it contributes. -/
def rawGo (i : Iss) (c : Coll) : List Nat → State → List (Nat × List Nat) → State × (List (Nat × List Nat) ⊕ Raw)
  | [], s, vs => (s, .inl vs)
  | k :: r, s, vs =>
    if c.readsOwn k then
      match chunkRaw s i c k with
      | (s, .ok v) => rawGo i c r s (vs ++ [(k, v)])
      | (s, e) => (s, .inr e)
    else rawGo i c r s (vs ++ [(k, [])])

/-- Chunks start in ascending order. -/
def startAll (i : Iss) : List (Nat × List Nat) → State → Coll → Went
  | [], s, c => (s, some c)
  | (k, v) :: r, s, c => (startChunk s i c k v).andThen (startAll i r)

/-! ### Recovery (R281) -/

/-- Every survivor's vector, this member's included; none until all have come. -/
def Coll.allVecs (c : Coll) : Option (List (List (Nat × Bool))) :=
  (List.range c.n).foldr (fun r o => o.bind fun l =>
    if r = c.rank then some (((List.range c.chunks).map c.at_) :: l) else (c.vecs.get? r).map fun v => v :: l) (some [])

/-- The ranks that hold a chunk's final value. -/
def holders (vs : List (List (Nat × Bool))) (k : Nat) : List Nat :=
  (List.range vs.length).filter fun r => ((vs.getD r []).getD k (0, false)).2

/-- The minimum STEP of a chunk. -/
def minStep (vs : List (List (Nat × Bool))) (k : Nat) : Nat :=
  vs.foldl (fun m v => min m (v.getD k (0, false)).1) 65535

/-- One chunk restarts by the first rule that applies (R281). -/
def restartChunk (s : State) (i : Iss) (c : Coll) (vs : List (List (Nat × Bool))) (k : Nat) : Went :=
  match holders vs k with
  | r :: hs =>
    if r = c.rank then
      match chunkRaw s i c k with
      | (s, .ok v) =>
        (sendRanks s c ((List.range c.n).filter fun q => !(r :: hs).contains q) fun _ =>
          c.msg k 0 (.final (v.map fun x => BitVec.ofNat 768 x) (aboPartial (aboGet s i.uid c.abo))), some c)
      | (s, .wait) => (s, none)
      | (s, .fault _ _) => (s, some c)
    else (s, some c)
  | [] =>
    if c.same then
      if c.reduces && decide ((c.at_ k).1 > minStep vs k) && c.pos k c.rank != 0 then (sendUp s i c k, some c) else (s, some c)
    else
      match (if c.readsOwn k then chunkRaw s i c k else (s, .ok [])) with
      | (s, .ok v) => startChunk s i { c with prog := c.prog.erase k } k v
      | (s, .wait) => (s, none)
      | (s, .fault _ _) => (s, some c)

/-- Recovery goes on once every survivor's vector is there; a lost member sets PARTIAL (R281). -/
def recoverGo (s : State) (i : Iss) (c : Coll) : Went :=
  match c.allVecs with
  | none => (s, some c)
  | some vs =>
    (List.range c.chunks).foldl (fun (x : Went) k => x.andThen fun s c => restartChunk s i c vs k)
      (aboMark s i.uid c.abo c.epoch !c.same, some { c with recovering := false })

/-! ### Messages (R275 to R277, R281) -/

/-- Whether an epoch is earlier than another, modulo 2^32. -/
def earlier (a b : Nat) : Bool := decide (a ≠ b ∧ (b + 2 ^ 32 - a % 2 ^ 32) % 2 ^ 32 < 2 ^ 31)

/-- A partial arrives, from one source or, added by a switch, from several (R270). A packet that is not well formed is dropped,
and the links' error counter counts it (R269). -/
def takePartial (s : State) (i : Iss) (c : Coll) (m : CollMsg) (p : List (List Byte)) (flag : Bool) (merged : List Nat) : Went :=
  let k := m.chunk
  let q := c.pos k c.rank
  let seen := (c.srcs.get? k).getD []
  let from_ := m.src :: merged
  let input (r : Nat) : Bool := (c.inputs q).contains (c.pos k r) && m.step == c.closes (c.pos k r)
  if !c.reduces || k ≥ c.chunks || !from_.all input || (!c.swacc && !merged.isEmpty) then (s, some c)
  else match unpackAll p (c.span k).2 with
  | none => ({ s with links := { s.links with errors := s.links.errors + 1 } }, some c)
  | some v =>
    if from_.any fun r => seen.contains (m.step, r) then
      ({ s with links := { s.links with collDup := s.links.collDup + 1 } }, some c)
    else if (c.at_ k).2 || decide ((c.at_ k).1 ≥ c.closes q) then (aboLate s i.uid c.abo, some c)
    else
      let s := aboMark s i.uid c.abo c.epoch flag
      let c := { c with parts := c.parts.set k (addParts ((c.parts.get? k).getD []) v)
                        srcs := c.srcs.set k (seen ++ from_.map fun r => (m.step, r)) }
      if c.allIn k then closeReduce s i c k else (s, some c)

/-- A final value arrives: written here, and passed on unless a survivor sent it (R281). -/
def takeFinal (s : State) (i : Iss) (c : Coll) (m : CollMsg) (v : List LaImage) (flag : Bool) : Went :=
  let k := m.chunk
  let q := c.pos k c.rank
  if k ≥ c.chunks || (c.at_ k).2 || (c.op == .rscat && q != 0) || v.length != (c.span k).2
      || (m.step != 0 && (q == 0 || m.step != c.arrives q || c.pos k m.src != c.giver q)) then (s, some c)
  else
    let vs := v.map BitVec.toNat
    match writeFinal (aboMark s i.uid c.abo c.epoch flag) i c k vs with
    | (s, true) =>
      chunkDone (if m.step = 0 then s else passOn s i c k vs) i { c with parts := c.parts.erase k } k
        (if m.step = 0 then c.steps else m.step)
    | (s, false) => (s, none)

/-- What a message of this collective's communicator does; none while it must be held. -/
def takeMsg (s : State) (i : Iss) (c : Coll) (m : CollMsg) : Went :=
  if earlier m.epoch c.epoch then (aboLate s i.uid c.abo, some c)
  else if m.epoch ≠ c.epoch || c.aborted then (s, none)
  else if m.n ≠ c.n || m.src ≥ c.n then (s, some c)
  else match m.body with
    | .progress v =>
      if c.recovering then recoverGo s i { c with vecs := c.vecs.set m.src v } else (s, some c)
    | .partials p flag _ merged => if c.recovering then (s, none) else takePartial s i c m p flag merged
    | .final v flag => if c.recovering then (s, none) else takeFinal s i c m v flag

def setColl (s : State) (uid : Nat) (c : Coll) : State :=
  modBms s uid fun m => { m with colls := m.colls.map fun q =>
    if q.abo = c.abo ∧ q.commid = c.commid ∧ q.epoch = c.epoch then c else q }

/-- The collective of a block that a message concerns. -/
def collFor (b : Block) (commid epoch : Nat) : Option Coll :=
  let cs := ((b.bms.map (·.colls)).getD []).filter fun c => c.commid == commid
  match cs.find? (fun c => c.epoch == epoch) with
  | some c => some c
  | none => cs.getLast?

/-- Takes in one message for a block, or holds it (R275). -/
def offerMsg (s : State) (i : Iss) (m : CollMsg) : State :=
  let hold (s : State) : State :=
    if s.links.heldMsgs.contains (i.uid, m) then s else { s with links := { s.links with heldMsgs := s.links.heldMsgs ++ [(i.uid, m)] } }
  match blockOf s i.uid with
  | none => s
  | some b =>
    match collFor b m.commid m.epoch with
    | none => hold s
    | some c =>
      match takeMsg s { i with b := b } c m with
      | (t, none) => hold (asked s t)
      | (s, some c) =>
        let s := setColl (dropAccess s i c (ofChunk m.chunk)) i.uid c
        { s with links := { s.links with heldMsgs := s.links.heldMsgs.filter fun h => h != (i.uid, m) } }

/-- Held messages of a communicator are applied at issue (R275), in the order of their arrival. -/
def offerHeld (s : State) (i : Iss) (commid : Nat) : State :=
  (s.links.heldMsgs.filter fun h => h.1 == i.uid && h.2.commid == commid).foldl (fun s h => offerMsg s i h.2) s

/-! ### Issue (R271 to R274) -/

/-- The first byte range that the pages or the lease do not allow: cause and address. -/
def rangeCheck (s : State) (i : Iss) (va n : Nat) (p : PageRule) : Option (Nat × Nat) :=
  if va + n > 2 ^ 48 then some (7, va)
  else (pieces (pieceFuel n) va n 0).findSome? fun q => (pageCheck s i q.1 q.2.1 p).map fun c => (c, q.1)

/-- The collective a descriptor describes (R271), its member table not yet read. -/
def collOf (op : CollOp) (x : CollX) (w abo base count epoch : Nat) : Coll where
  op := op
  x := x
  abo := abo
  n := bitsAt w 0 11
  rank := bitsAt w 16 10
  root := bitsAt w 32 10
  chunk := bitsAt w 48 16
  tree := bitAt w 64
  fanin := bitsAt w 66 4
  swacc := bitAt w 65
  deadline := bitsAt w 128 32
  commid := bitsAt w 96 32
  mtab := bitsAt w 192 64
  pvec := bitsAt w 256 64
  base := base
  elems := collElems x count
  epoch := epoch
  members := []
  aborted := false
  recovering := false
  same := true
  vecs := []
  prog := []
  parts := []
  srcs := []
  opened := []

/-- Reserved fields and ranges of a descriptor (R271, R274). -/
def descOk (w : Nat) (c : Coll) : Bool :=
  bitsAt w 320 192 == 0 && bitsAt w 160 32 == 0 && bitsAt w 70 26 == 0 && bitsAt w 42 6 == 0 && bitsAt w 26 6 == 0
    && bitsAt w 11 5 == 0
    && decide (2 ≤ c.n ∧ c.n ≤ 1024 ∧ c.rank < c.n ∧ c.root < c.n)
    && c.chunk % 32 == 0 && decide (32 ≤ c.chunk ∧ c.chunk ≤ 2048)
    && (if c.tree then c.fanin != 0 else c.fanin == 0) && decide (c.chunks ≤ 65536)

/-- Whether the object's tile belongs to the block. -/
def tileOk (b : Block) (x : CollX) : Bool :=
  match x.obj with
  | .memory _ => true
  | .zTile n => decide (n.toNat < b.ztiles.length)
  | .yTile n => decide (n.toNat < b.ytiles.length)

/-- The memory object of a collective: address and bytes. -/
def Coll.object (c : Coll) : Nat × Nat :=
  match c.x.obj with
  | .memory _ => (c.base, c.elems * collBytes c.x.fmt)
  | _ => (0, 0)

/-- COLL's and CREC's issue traps in their order (R274, R281): cause and address. -/
def collCheck (s : State) (i : Iss) (c : Coll) (w desc : Nat) (rec : Bool) : Option (Nat × Nat) :=
  let (oa, on) := c.object
  let la := c.x.fmt == .la
  if desc % 64 != 0 then some (5, desc)
  else if c.abo % 16 != 0 then some (5, c.abo)
  else if oa % collBytes c.x.fmt != 0 then some (5, oa)
  else if c.mtab % 8 != 0 then some (5, c.mtab)
  else if c.pvec % 4 != 0 then some (5, c.pvec)
  else if desc + 64 > i.b.v.scr then some (7, desc)
  else if c.abo + 16 > i.b.v.scr then some (7, c.abo)
  else match rangeCheck s i oa on ⟨.both, la, false⟩ with
  | some e => some e
  | none =>
    match rangeCheck s i c.mtab (8 * c.n) (plainRule .read) with
    | some e => some e
    | none =>
      match rangeCheck s i c.pvec (4 * c.chunks) (plainRule .write) with
      | some e => some e
      | none =>
        if !i.l.covers oa on then some (6, oa)
        else if !i.l.covers c.mtab (8 * c.n) then some (6, c.mtab)
        else if !i.l.covers c.pvec (4 * c.chunks) then some (6, c.pvec)
        else if !descOk w c || !tileOk i.b c.x
            || ((i.b.bms.map (·.colls)).getD []).any (fun q => q.open_ && q.abo == c.abo)
            || (rec && !aboAbort (aboGet s i.uid c.abo)) then some (3, 0)
        else none

/-- The operands of COLL and CREC, and the collective they describe. -/
def collRead (s : State) (x : Ex) (op : CollOp) (cx : CollX) (a : Reg) : Nat × Nat × Coll :=
  let uid := x.cur.blk
  let desc := (x.r.rd .ctl a.toNat).toNat
  let abo := (x.r.rd .ctl (a.toNat + 1)).toNat
  let w := scrRead s uid desc 64
  let (base, count) := match cx.obj with
    | .memory b => (x.r.rdN .ctl b.toNat 2, (x.r.rd .ctl (b.toNat + 2)).toNat)
    | _ => (0, 0)
  (desc, w, collOf op cx w abo base count (aboEpoch (aboGet s uid abo)))

/-- The collectives of a context with a new one in place of those of its barrier object or its communicator at which the engine
no longer works. -/
def addColl (m : Bms) (c : Coll) : Bms :=
  { m with colls := (m.colls.filter fun q => !(q.abo == c.abo || q.commid == c.commid) || (q.working && q.epoch != c.epoch)) ++ [c] }

/-- The member table, entry by entry (R272). -/
def membersOf (v n : Nat) : List Nat := (List.range n).map fun r => bitsAt v (64 * r) 21

/-- The shared issue of COLL and CREC: checks, the limit of four, the member table, the member's own elements; `go` then
starts the collective. -/
def issueColl (s : State) (ins : Instr) (h : Hdr) (op : CollOp) (cx : CollX) (a : Reg) (rec : Bool)
    (go : State → Iss → Coll → Went) : Host.Outcome State Fault Refusal :=
  match exOf s h with
  | none => .next s
  | some x =>
    match issOf s x.cur.blk x.cur.who with
    | none => .next s
    | some i =>
      if x.slots.isEmpty then .next (pass s x.cur)
      else
        let (desc, w, c) := collRead s x op cx a
        match collCheck s i c w desc rec with
        | some (k, ad) => .next (trapAt s x.cur false ⟨k, ad, none⟩)
        | none =>
          if (((i.b.bms.map (·.colls)).getD []).filter (·.open_)).length ≥ 4 then .next s
          else match spanRead s i (c.access 0) c.mtab (8 * c.n) with
          | (t, .wait, _, _) => .next (asked s t)
          | (t, .fail k ad, _, _) => .next (trapAt (dropAccess t i c fun _ => true) x.cur false ⟨k, ad, none⟩)
          | (t, .ok, v, _) =>
            let c := { c with members := membersOf v c.n }
            match rawGo i c (if rec then [] else List.range c.chunks) t [] with
            | (t, .inr .wait) => .next (asked s t)
            | (t, .inr (.fault k ad)) => .next (trapAt (dropAccess t i c fun _ => true) x.cur false ⟨k, ad, none⟩)
            | (_, .inr (.ok _)) => .next s
            | (t, .inl _) =>
              match go t i c with
              | (t, none) => .next (asked s t)
              | (t, some c) =>
                let t := dropAccess (dropAccess t i c fun _ => true) i { c with epoch := aboEpoch (aboGet s i.uid c.abo) } fun _ => true
                let t := modBms t i.uid fun m => addColl m c
                .next (retire (offerHeld t i c.commid) x ins h id)

/-- COLL sets up the barrier object and starts every chunk (R275). -/
def startColl (s : State) (i : Iss) (c : Coll) : Went :=
  match rawGo i c (List.range c.chunks) s [] with
  | (s, .inl vs) =>
    let c := { c with epoch := (c.epoch + 1) % 2 ^ 32 }
    startAll i vs (scrWrite s i.uid c.abo 16 (c.expected + c.epoch * 2 ^ 96)) c
  | (s, .inr _) => (s, none)

/-- COLL (R274, R275). -/
def execColl (h : Hdr) (op : CollOp) (x : CollX) (a : Reg) (s : State) : Host.Outcome State Fault Refusal :=
  issueColl s (.coll h op x a) h op x a false startColl

/-- CREC takes up what the aborted collective had (R281): this member's vector goes to every other survivor. -/
def startRecovery (s : State) (i : Iss) (c : Coll) : Went :=
  let old := ((i.b.bms.map (·.colls)).getD []).find? fun q => q.abo == c.abo
  let same := old.any fun q => q.n == c.n && q.members == c.members && q.rank == c.rank
  let c := match old with
    | some q => { c with prog := q.prog, parts := if same then q.parts else [], srcs := if same then q.srcs else [] }
    | none => c
  let c := { c with recovering := true, same := same }
  let v := aboGet s i.uid c.abo
  let v := putBits (putBits (putBits v 65 1 0) 66 2 0) 0 32 c.expected
  let s := scrWrite s i.uid c.abo 16 (putBits v 32 32 (c.prog.filter fun p => p.2.2).length)
  let c := { c with opened := (List.range c.chunks).foldl (fun o k => o.set k (nowAt s i)) [] }
  let s := sendRanks s c ((List.range c.n).filter fun r => r != c.rank) fun _ =>
    c.msg 0 0 (.progress ((List.range c.chunks).map c.at_))
  recoverGo s i c

/-- CREC (R281). -/
def execCrec (h : Hdr) (op : CollOp) (x : CollX) (a : Reg) (s : State) : Host.Outcome State Fault Refusal :=
  issueColl s (.crec h op x a) h op x a true startRecovery

/-- ABW (R280). -/
def execAbw (h : Hdr) (a : Reg) (s : State) : Host.Outcome State Fault Refusal :=
  match exOf s h with
  | none => .next s
  | some x =>
    match issOf s x.cur.blk x.cur.who with
    | none => .next s
    | some i =>
      if x.slots.isEmpty then .next (pass s x.cur)
      else
        let abo := (x.r.rd .ctl a.toNat).toNat
        let v := aboGet s i.uid abo
        if abo % 16 != 0 then .next (trapAt s x.cur false ⟨5, abo, none⟩)
        else if abo + 16 > i.b.v.scr then .next (trapAt s x.cur false ⟨7, abo, none⟩)
        else if aboAbort v then .next (trapAt s x.cur false ⟨0x13, 0, none⟩)
        else if aboExpected v = 0 || aboDone v == aboExpected v then .next (retire s x (.abw h a) h id)
        else .next s

end Sys2Proof.Machine
end

