-- ==== Sys2Proof/Machine/SaveArea.lean ====
section
/-!
DEFINITION. The context save area (20 R357 to R359): its sections, what each field of a block is written as, and a block
rebuilt from it. What the area does not lay out (what a path waits for, who has arrived at a barrier) the saved block keeps.
-/

namespace Sys2Proof.Machine

/-- A field: byte offset, bytes, value. -/
abbrev Field := Nat × Nat × Nat

/-- Fields as one little-endian value; the bytes between are zero. -/
def imageOf (fs : List Field) : Nat := (fs.map fun f => f.2.2 % 256 ^ f.2.1 * 256 ^ f.1).sum

/-- A field of a value. -/
def field (v o n : Nat) : Nat := v / 256 ^ o % 256 ^ n

/-! ### Paths and tokens (R359, R373, R308) -/

def pstateCode : PState → Nat
  | .free => 0 | .ready => 1 | .waitc => 2 | .barw => 3 | .joinw => 4 | .sleep => 5

def pstateOf : Nat → PState
  | 1 => .ready | 2 => .waitc | 3 => .barw | 4 => .joinw | 5 => .sleep | _ => .free

/-- A token id, 0x1FF for none. -/
def idCode (o : Option Nat) : Nat := o.getD 0x1FF

def idOf (n : Nat) : Option Nat := if n = 0x1FF then none else some n

/-- The 80 bytes of a path entry, at an offset. -/
def pathFields (o : Nat) (p : Path) : List Field :=
  [(o, 8, p.pc % 2 ^ 48 + pstateCode p.st * 2 ^ 48 + p.held.toNat * 2 ^ 51),
   (o + 8, 8, idCode p.tref + idCode p.dlist * 2 ^ 16)]
    ++ (List.range p.mask.length).map fun j => (o + 16 + 8 * j, 8, (p.mask.getD j 0).toNat)

def tkindCode : TKind → Nat
  | .join => 1 | .loop => 2 | .defer => 3

def tkindOf : Nat → TKind
  | 1 => .join | 2 => .loop | _ => .defer

/-- The 160 bytes of a token, at an offset. -/
def tokenFields (o : Nat) (id : Nat) (t : Token) : List Field :=
  [(o, 8, t.pc % 2 ^ 48 + tkindCode t.kind * 2 ^ 48),
   (o + 8, 8, id + idCode t.parent * 2 ^ 16 + idCode t.next * 2 ^ 32)]
    ++ (List.range t.exp.length).map (fun j => (o + 16 + 8 * j, 8, (t.exp.getD j 0).toNat))
    ++ (List.range t.arr.length).map (fun j => (o + 80 + 8 * j, 8, (t.arr.getD j 0).toNat))

/-- A path as an entry gives it; what it waits for stays. -/
def pathFrom (v o sets now : Nat) (old : Path) : Path :=
  let w := field v o 8
  let t := field v (o + 8) 8
  { old with
    pc := w % 2 ^ 48
    st := pstateOf (bitsAt w 48 3)
    held := bitAt w 51
    tref := idOf (bitsAt t 0 9)
    dlist := idOf (bitsAt t 16 9)
    mask := (List.range sets).map fun j => BitVec.ofNat 64 (field v (o + 16 + 8 * j) 8)
    wake := now
    unrep := true }

def tokenFrom (v o sets : Nat) : Nat × Token :=
  let w := field v o 8
  let t := field v (o + 8) 8
  (bitsAt t 0 9,
   { kind := tkindOf (bitsAt w 48 2), pc := w % 2 ^ 48
     exp := (List.range sets).map fun j => BitVec.ofNat 64 (field v (o + 16 + 8 * j) 8)
     arr := if tkindOf (bitsAt w 48 2) = .defer then mZero sets else (List.range sets).map fun j => BitVec.ofNat 64 (field v (o + 80 + 8 * j) 8)
     parent := idOf (bitsAt t 16 9), next := idOf (bitsAt t 32 9) })

/-! ### Group state (R359) -/

/-- Handler level. -/
def levelOf (sh : List Shadow) : Nat :=
  match sh with
  | [] => 0
  | s :: r => if s.runtime then (if r.isEmpty then 2 else 3) else 1

/-- One shadow set of 64 bytes: g120 to g127, k6 and k7, the cause, the trap PC, the resume PC. -/
def shadowFields (o : Nat) (s : Shadow) : List Field :=
  (List.range 8).map (fun n => (o + 4 * n, 4, (s.g.getD n 0).toNat))
    ++ [(o + 32, 4, s.k6.toNat + 2 * s.k7.toNat), (o + 36, 4, s.cause.toNat), (o + 40, 8, s.trapPc), (o + 48, 8, s.resume)]

def shadowFrom (v o : Nat) (runtime : Bool) : Shadow :=
  ⟨runtime, (List.range 8).map fun n => BitVec.ofNat 32 (field v (o + 4 * n) 4), bitAt (field v (o + 32) 4) 0,
    bitAt (field v (o + 32) 4) 1, BitVec.ofNat 32 (field v (o + 36) 4), field v (o + 40) 8, field v (o + 48) 8⟩

/-- Copy records of 48 bytes: descriptor, batch, rows completed. -/
def copyFields (o : Nat) (ks : List CopyRec) : List Field :=
  (List.range (min 64 ks.length)).flatMap fun n =>
    match ks[n]? with
    | some k => [(o + 48 * n, 32, k.desc.toNat), (o + 48 * n + 32, 4, k.batch), (o + 48 * n + 36, 4, k.rows)]
    | none => []

def copiesFrom (v o : Nat) (ks : List CopyRec) : List CopyRec :=
  (List.range ks.length).filterMap fun n => (ks[n]?).map fun k =>
    if n < 64 then { k with desc := BitVec.ofNat 256 (field v (o + 48 * n) 32), batch := field v (o + 48 * n + 32) 4, rows := field v (o + 48 * n + 36) 4 }
    else k

/-- Sixteen signed counters. -/
def ctrFields (o : Nat) (c : Ctx) : List Field := (List.range 16).map fun n => (o + 2 * n, 2, truncN 16 (c.ctrs.getD n 0))

def ctrsFrom (v o : Nat) : List Int := (List.range 16).map fun n => sextN 16 (field v (o + 2 * n) 2)

/-- The section of a group. -/
def groupImage (now : Nat) (g : Group) (v : Variant) : Nat :=
  let r := g.regs v
  let c := g.ctx
  let sh := g.shadows
  imageOf (
    (List.range 128).map (fun n => (4 * n, 4, (r.rdG n).toNat))
      ++ [(512, 1, ((List.range 8).map fun n => (r.rdK n).toNat * 2 ^ n).sum)]
      ++ ctrFields 514 c
      ++ [(546, 4, c.seq % 2 ^ 11 + c.hwm % 2 ^ 11 * 2 ^ 16), (550, 2, levelOf sh + g.tokens.length * 2 ^ 3), (556, 4, c.batch)]
      ++ sh.flatMap (fun s => shadowFields (if s.runtime then 640 else 576) s)
      ++ (List.range 8).flatMap (fun i => match g.paths[i]? with | some p => pathFields (704 + 80 * i) p | none => [])
      ++ (List.range v.fold).flatMap (fun j => (List.range 15).map fun i =>
          (1344 + 120 * j + 8 * i, 8, (maskOf ((List.range 64).filter fun l => r.rdP j l (i + 1))).toNat))
      ++ copyFields 2304 c.copies
      ++ [(5376, 8, g.utrap.toNat), (5384, 8, g.unwind.toNat), (5392, 4, truncN 32 c.energy)]
      ++ (List.range 8).flatMap (fun i => match g.paths[i]? with
          | some p =>
            (5400 + 32 * i, 4, if p.st = .sleep then p.wake - now else 0) ::
              (match p.trap with
               | some t => [(5408 + 32 * i, 8, t.addr), (5416 + 32 * i, 4, t.cause.toNat), (5420 + 32 * i, 4, t.g121.toNat), (5424 + 32 * i, 4, 1)]
               | none => [])
          | none => [])
      ++ (List.range g.tokens.length).flatMap (fun n => match g.tokens[n]? with
          | some (id, t) => tokenFields (8192 + 160 * n) id t
          | none => []))

/-- A group rebuilt from its section. -/
def groupFrom (x now : Nat) (g : Group) (v : Variant) : Group :=
  let lv := bitsAt (field x 550 2) 0 2
  let sh := if lv = 0 then [] else if lv = 1 then [shadowFrom x 576 false] else if lv = 2 then [shadowFrom x 640 true]
    else [shadowFrom x 640 true, shadowFrom x 576 false]
  let paths := (List.range 8).map fun i =>
    let p := pathFrom x (704 + 80 * i) v.fold (now + field x (5400 + 32 * i) 4) (g.paths.getD i (freePath v.fold))
    let t : PTrap := ⟨BitVec.ofNat 32 (field x (5416 + 32 * i) 4), field x (5408 + 32 * i) 8, BitVec.ofNat 32 (field x (5420 + 32 * i) 4),
      p.pc, (p.trap.map (·.word)).getD 0⟩
    { p with trap := if bitAt (field x (5424 + 32 * i) 4) 0 then some t else none }
  { g with
    ctx := { g.ctx with
      gregs := (List.range 127).map fun n => (n + 1, some (BitVec.ofNat 32 (field x (4 * n + 4) 4)))
      kpreds := (List.range 7).map fun n => (n + 1, bitAt (field x 512 1) (n + 1))
      ctrs := ctrsFrom x 514
      seq := bitsAt (field x 546 4) 0 11
      hwm := bitsAt (field x 546 4) 16 11
      batch := field x 556 4
      copies := copiesFrom x 2304 g.ctx.copies
      energy := sextN 32 (field x 5392 4) }
    preds := (List.range v.fold).flatMap fun j => (List.range 15).flatMap fun i => (List.range 64).map fun l =>
      ((j * 16 + i + 1) * 64 + l, bitAt (field x (1344 + 120 * j + 8 * i) 8) l)
    tokens := ((List.range (bitsAt (field x 550 2) 3 9)).map fun n => tokenFrom x (8192 + 160 * n) v.fold).foldl (fun m t => m.set t.1 t.2) []
    paths := paths
    shadows := sh
    utrap := BitVec.ofNat 64 (field x 5376 8)
    unwind := BitVec.ofNat 64 (field x 5384 8)
    region := []
    opbuf := none
    undo := []
    ahead := [] }

/-! ### Registers, scratchpad, BMS, tiles (R357) -/

/-- The vector file of a group: physical registers, then the dead bitmap. -/
def regsImage (g : Group) (v : Variant) : Nat :=
  let cell (n l : Nat) : Option Word :=
    match g.vregs.get? (n * 64 + l) with
    | some w => w
    | none => g.seed.map fun q => Config.freeWord q (n * 64 + l)
  imageOf ((List.range v.regs).flatMap fun n => (List.range 64).map fun l => (256 * n + 4 * l, 4, ((cell n l).getD 0).toNat))
    + imageOf ((List.range v.regs).map fun n =>
        (256 * v.regs + 8 * n, 8, (maskOf ((List.range 64).filter fun l => (cell n l).isNone)).toNat))

def regsFrom (x : Nat) (v : Variant) : SMap (Option Word) :=
  (List.range v.regs).flatMap fun n => (List.range 64).map fun l =>
    (n * 64 + l, if bitAt (field x (256 * v.regs + 8 * n) 8) l then none else some (BitVec.ofNat 32 (field x (256 * n + 4 * l) 4)))

/-- The BMS section: PC, s registers and predicates, counters, SEQ and HWM, batch, an interrupted instruction, copies. -/
def bmsImage (m : Bms) : Nat :=
  let r := m.regs
  imageOf ([(0, 8, m.pc)] ++ (List.range 32).map (fun n => (8 + 4 * n, 4, (r.rdG n).toNat))
    ++ [(136, 1, ((List.range 8).map fun n => (r.rdK n).toNat * 2 ^ n).sum)]
    ++ ctrFields 138 m.ctx
    ++ [(170, 4, m.ctx.seq % 2 ^ 11 + m.ctx.hwm % 2 ^ 11 * 2 ^ 16), (174, 4, m.ctx.batch)]
    ++ (match m.prog with | some (n, _) => [(192, 4, n % 2 ^ 16 + 2 ^ 16)] | none => [])
    ++ copyFields 256 m.ctx.copies)

def bmsFrom (x : Nat) (m : Bms) : Bms :=
  { m with
    pc := field x 0 8 % 2 ^ 48
    prog := m.prog.map fun p => (bitsAt (field x 192 4) 0 16, p.2)
    ctx := { m.ctx with
      gregs := (List.range 31).map fun n => (n + 1, some (BitVec.ofNat 32 (field x (12 + 4 * n) 4)))
      kpreds := (List.range 7).map fun n => (n + 1, bitAt (field x 136 1) (n + 1))
      ctrs := ctrsFrom x 138
      seq := bitsAt (field x 170 4) 0 11
      hwm := bitsAt (field x 170 4) 16 11
      batch := field x 174 4
      copies := copiesFrom x 256 m.ctx.copies } }

/-- Bytes of a z tile's section. -/
def zBytes : Nat := 393216

/-- Bytes of a y tile's section with its side store. -/
def yBytes : Nat := 27648

def zImage (t : ZTile) : Nat :=
  imageOf ((List.range 4096).map fun e => (96 * e, 96, (La.toImage (t.el (e / 64) (e % 64)).la.canon).toNat))

def zFrom (x : Nat) (t : ZTile) : ZTile :=
  { t with zeroed := true, els := (List.range 4096).filterMap fun e =>
      let z := ZEl.ofLa (La.ofImage (BitVec.ofNat 768 (field x (96 * e) 96)))
      if z = ZEl.ofLa La.zero then none else some (e, z) }

def yFrom (x : Nat) : YTile := ⟨none, (List.range yBytes).map fun o => (o, BitVec.ofNat 8 (field x o 1))⟩

/-! ### Where the sections lie -/

def groupOfs (g : Nat) : Nat := 512 + 73728 * g
def regsOfs (v : Variant) (g : Nat) : Nat := groupOfs v.groups + 264 * v.regs * g
def scrOfs (v : Variant) : Nat := regsOfs v v.groups
def bmsOfs (v : Variant) : Nat := scrOfs v + v.scr
def yOfs (v : Variant) (n : Nat) : Nat := bmsOfs v + (if v.seq = 0 then 0 else 4096) + yBytes * n
def zOfs (v : Variant) (n : Nat) : Nat := yOfs v v.zt + zBytes * n

/-- The address of a block's save area (R356). -/
def saveVa (s : State) (slot : Nat) : Nat := s.work.csaBase + slot * s.work.csaSlotb

/-- SEQ and HWM of an issuer index of a block; what an index that its variant lacks had before, or 0 and 2,047 (R256). -/
def seqHwm (b : Block) (n : Nat) : Nat × Nat :=
  match (if n = bmsWho then b.bms.map (·.ctx) else (b.groups[n]?).map (·.ctx)) with
  | some c => (c.seq, c.hwm)
  | none => (b.absent.get? n).getD (0, 2047)

/-- HWM of issuer indices 0 to 16 (R358). -/
def hwmFields (b : Block) : List Field :=
  (List.range 17).map fun n =>
    (296 + 2 * n, 2, (seqHwm b n).2)

/-- Barriers as the header holds them (R358). -/
def barFields (o : Nat) (bars : List Bar) : List Field :=
  (List.range 16).flatMap fun n => match bars[n]? with
    | some b => [(o + 8 * n, 4, b.a), (o + 8 * n + 4, 4, b.phase)]
    | none => []

/-- The header; the launch state that the distributor keeps is the launch's number. -/
def headerImage (s : State) (b : Block) (next : Nat) : Nat :=
  let l := launchOf s b.launch
  imageOf ([(0, 8, ((l.map (·.kdesc)).getD 0) % 2 ^ 48 + b.vidx % 8 * 2 ^ 48), (8, 4, b.index),
      (12, 4, (l.map (·.asid)).getD 0 % 2 ^ 16 + b.inCoh % 16 * 2 ^ 16), (16, 8, b.launch), (24, 8, b.v.saveBytes), (288, 8, next)]
    ++ barFields 32 b.bars ++ barFields 160 (((cohortOf s b.cohort).map (·.bars)).getD []) ++ hwmFields b)

/-- Bytes written one section after another; false when one of them must wait or fails. What is written stays written. -/
def writeSections (cl : Nat) : List (Nat × Nat × Nat) → State → State × Bool
  | [], s => (s, true)
  | (va, n, v) :: r, s =>
    match agentWrite s cl 0 va n v with
    | (s, .ok _ _, _) => writeSections cl r s
    | (s, _) => (s, false)

/-- The sections of a block's save area (R357). -/
def saveSections (s : State) (b : Block) (next : Nat) : List (Nat × Nat × Nat) :=
  let va := saveVa s b.save
  let v := b.v
  [(va, 512, headerImage s b next)]
    ++ (List.range v.groups).filterMap (fun g => (b.groups[g]?).map fun gr => (va + groupOfs g, 73728, groupImage s.sched.cycle gr v))
    ++ (List.range v.groups).filterMap (fun g => (b.groups[g]?).map fun gr => (va + regsOfs v g, 264 * v.regs, regsImage gr v))
    ++ [(va + scrOfs v, v.scr, scrGet b.scr 0 v.scr)]
    ++ (match b.bms with | some m => [(va + bmsOfs v, 4096, bmsImage m)] | none => [])
    ++ (List.range v.zt).map (fun n => (va + yOfs v n, yBytes, (yTileOf b n).read 0 yBytes))
    ++ (List.range v.zt).map (fun n => (va + zOfs v n, zBytes, zImage (zTileOf b n)))

/-- What a read of a save area gives. -/
inductive Loaded where
  | ok (v : Nat)
  | poison (va : Nat)
  | wait
  deriving DecidableEq, Repr

/-- Bytes of a frame or save area, read by an agent of a cluster. -/
def readArea (s : State) (cl asid va n : Nat) : State × Loaded :=
  match agentRead s cl asid va n with
  | (s, .ok _ _, v, none) => (s, .ok v)
  | (s, .ok _ _, _, some a) => (s, .poison a)
  | (s, .bad _, _, _) => (s, .poison va)
  | (s, .wait, _, _) => (s, .wait)

/-- A scratchpad from its bytes. -/
def scrFrom (x n : Nat) : SMap Byte := scrPut [] 0 n x

/-- A whole save area as one value. -/
def readSave (s : State) (cl save : Nat) (v : Variant) : State × Loaded := readArea s cl 0 (saveVa s save) v.saveBytes

/-- The barriers of a header, their counts as they were. -/
def barsFrom (x o : Nat) (bars : List Bar) : List Bar :=
  (List.range bars.length).filterMap fun n => (bars[n]?).map fun b => { b with a := field x (o + 8 * n) 4, phase := field x (o + 8 * n + 4) 4 }

/-- A block rebuilt from its save area (R361); `old` is what it was. -/
def blockFrom (now x : Nat) (old : Block) : Block :=
  let v := old.v
  { old with
    groups := (List.range v.groups).filterMap fun g => (old.groups[g]?).map fun gr =>
      { groupFrom (field x (groupOfs g) 73728) now gr v with vregs := regsFrom (field x (regsOfs v g) (264 * v.regs)) v, seed := none }
    bars := barsFrom x 32 old.bars
    scr := scrFrom (field x (scrOfs v) v.scr) v.scr
    bms := old.bms.map fun m => bmsFrom (field x (bmsOfs v) 4096) m
    ytiles := (List.range v.zt).map fun n => yFrom (field x (yOfs v n) yBytes)
    ztiles := (List.range v.zt).map fun n => zFrom (field x (zOfs v n) zBytes) (zTileOf old n) }

end Sys2Proof.Machine
end

