-- ==== Sys2Proof/Machine/Saved.lean ====
section
/-!
DEFINITION. What reaches a block while it is saved (20 R360): deposits and collective writes are applied to its save area, by
its die's distributor, in arrival order.
-/

namespace Sys2Proof.Machine

/-- The saved block with a number, and its entry. -/
def savedBlock (s : State) (uid : Nat) : Option (Away × Block) :=
  s.work.away.findSome? fun a => match a.kept with
    | some b => if a.saved && b.uid == uid then some (a, b) else none
    | none => none

/-- The sections of a save area that hold a block's scratchpad and tiles. -/
def tileSections (va : Nat) (b : Block) : List (Nat × Nat × Nat) :=
  let v := b.v
  [(va + scrOfs v, v.scr, scrGet b.scr 0 v.scr)]
    ++ (List.range v.zt).map (fun n => (va + yOfs v n, yBytes, (yTileOf b n).read 0 yBytes))
    ++ (List.range v.zt).map (fun n => (va + zOfs v n, zBytes, zImage (zTileOf b n)))

/-- Applies an operation to a saved block as if it were resident, on the scratchpad and tiles that its save area holds, and
writes them back there; false when the area makes it wait: the lines are obtained before the operation is applied. -/
def onSaved (s : State) (uid : Nat) (f : State → State) : State × Bool :=
  match savedBlock s uid with
  | none => (s, false)
  | some (a, b) =>
    let v := b.v
    let va := saveVa s a.save
    match readSave s b.cluster a.save v with
    | (s, .ok x) =>
      let b' := { b with
        scr := scrFrom (field x (scrOfs v) v.scr) v.scr
        ytiles := (List.range v.zt).map fun n => yFrom (field x (yOfs v n) yBytes)
        ztiles := (List.range v.zt).map fun n => zFrom (field x (zOfs v n) zBytes) (zTileOf b n) }
      match writeSections b.cluster (tileSections va b') s with
      | (s, false) => (s, false)
      | (s, true) =>
        let t := f { s with work := { s.work with blocks := s.work.blocks ++ [b'] } }
        match blockOf t uid with
        | none => (t, true)
        | some c =>
          let t := { t with work := { t.work with
            blocks := t.work.blocks.filter fun q => q.uid != uid
            away := t.work.away.map fun q => if q.save = a.save ∧ q.saved then { q with kept := some c } else q } }
          match writeSections b.cluster (tileSections va c) t with
          | (t, true) => (t, true)
          | (_, false) => (s, false)
    | (s, _) => (s, false)

/-- A deposit to a saved target (R148, R360): the register and the counter in the group's section; at −32,768 it waits (R135). -/
def depositSaved (s : State) (d : Deposit) (a : Away) (b : Block) : State × Bool :=
  let o := saveVa s a.save + groupOfs d.grp
  let w (n v : Nat) : List (Nat × Nat × Nat) := if n = 0 then [] else [(o + 4 * n, 4, v % 2 ^ 32)]
  match readArea s b.cluster 0 (o + 514 + 2 * d.ctr) 2 with
  | (s, .ok c) =>
    if sextN 16 c ≤ -32768 then (s, false)
    else
      writeSections b.cluster
        (w d.reg d.val.toNat ++ (if d.wide && d.reg != 0 then w (d.reg + 1) (d.val.toNat / 2 ^ 32) else [])
          ++ [(o + 514 + 2 * d.ctr, 2, truncN 16 (sextN 16 c - 1))]) s
  | (s, _) => (s, false)

/-- The saved member of a cohort with an index in it. -/
def savedMember (s : State) (coh ix : Nat) : Option (Away × Block) :=
  s.work.away.findSome? fun a => match a.kept with
    | some b => if a.saved && a.cohort == coh && a.inCoh == ix then some (a, b) else none
    | none => none

end Sys2Proof.Machine
end

