-- ==== Sys2Proof/Machine/CollectiveEvents.lean ====
section
/-!
DEFINITION. What reaches a collective from outside its member (14 R275 to R282): messages, a step's deadline, a member that
does not answer, and reports that abort. A saved block takes them in its save area (20 R360).
-/

namespace Sys2Proof.Machine

/-! ### Where a message goes (R272) -/

/-- Whether a member table's entry names a place of this device. -/
def onDevice (entry : Nat) : Bool := entry % 1024 == Config.deviceId

/-- Whether an entry names a block: by its own entry of the communicator, else by the place it is on. -/
def entryIs (b : Block) (entry commid : Nat) : Bool :=
  match (((b.bms.map (·.colls)).getD []).filter fun c => c.commid == commid).getLast? with
  | some c => c.members.getD c.rank 0 == entry
  | none => bitsAt entry 10 3 == b.die && bitsAt entry 13 6 == b.core && (b.bms.any fun m => bitsAt entry 19 2 == m.bctx)

/-- A message on its way to a block, taken from the links; one of a peer's is there by arriving. -/
def takeSent (s : State) (b : Block) (m : CollMsg) : Option State :=
  let p := fun (x : Nat × CollMsg) => onDevice x.1 && x.2 == m && entryIs b x.1 m.commid
  if s.links.out.any p then some { s with links := { s.links with out := dropFirst p s.links.out } }
  else if s.links.heldMsgs.contains (b.uid, m) then some s
  else
    let own := match (((b.bms.map (·.colls)).getD []).filter fun c => c.commid == m.commid).getLast? with
      | some c => onDevice (c.members.getD m.src 0)
      | none => false
    if own then none else some s

/-- An operation on a block, resident or saved; false when a save area makes it wait. -/
def onBlock (s : State) (uid : Nat) (f : Iss → State → State) : State × Bool :=
  let run (s : State) : State := match issOf s uid bmsWho with | some i => f i s | none => s
  match blockOf s uid with
  | some _ => (afterUnit (run s) uid, true)
  | none => onSaved s uid run

/-- The outcome of an operation on a block: what waits keeps what it has asked for. -/
def onBlockOut (s : State) (x : State × Bool) : Host.Outcome State Fault Refusal :=
  .next (match x with | (t, true) => t | (t, false) => asked s t)

/-- COLL_MESSAGE (R275 to R277, R281, R282): applied, held until its COLL, or dropped as late. -/
def execCollMessage (blk : Nat) (m : CollMsg) (s : State) : Host.Outcome State Fault Refusal :=
  match (blockOf s blk).orElse fun _ => (savedBlock s blk).map (·.2) with
  | none => .next s
  | some b =>
    match takeSent s b m with
    | none => .next s
    | some t => onBlockOut s (onBlock t blk fun i s => offerMsg s i m)

/-! ### Time (R277, R279) -/

/-- Whether a member waits in an open reduce step of a chunk for an input. -/
def Coll.waiting (c : Coll) (k : Nat) : Bool :=
  c.working && !c.recovering && c.reduces && decide (k < c.chunks) && !(c.at_ k).2 && decide ((c.at_ k).1 < c.closes (c.pos k c.rank))
    && !c.allIn k

/-- The collectives at which the engine works for a block, resident or saved. -/
def workingColls (s : State) (blk : Nat) : List Coll :=
  match (blockOf s blk).orElse fun _ => (savedBlock s blk).map (·.2) with
  | some b => ((b.bms.map (·.colls)).getD []).filter (·.working)
  | none => []

/-- Those of a communicator. -/
def openColls (s : State) (blk commid : Nat) : List Coll := (workingColls s blk).filter fun c => c.commid == commid

/-- The die on which a block's engine runs. -/
def engineDie (s : State) (blk : Nat) : Nat :=
  ((blockOf s blk).orElse fun _ => (savedBlock s blk).map (·.2)).elim 0 (·.die)

/-- STEP_DEADLINE (R277): the step closes with the inputs it has, and PARTIAL is set. -/
def execStepDeadline (blk commid chunk : Nat) (s : State) : Host.Outcome State Fault Refusal :=
  match (openColls s blk commid).find? fun c => c.waiting chunk with
  | none => .next s
  | some c =>
    let t := ((c.opened.get? chunk).getD (0, 0)).1
    if c.deadline = 0 || s.sched.time.getD (engineDie s blk) 0 < t + c.deadline then .next s
    else onBlockOut s (onBlock s blk fun i s =>
      match closeReduce (aboMark s i.uid c.abo c.epoch true) i c chunk with
      | (s, some c) => setColl (dropAccess s i c (ofChunk chunk)) i.uid c
      | (t, none) => asked s t)

/-- A collective stops (R279): ABORT and the cause, in its barrier object while that is still its own. -/
def abortColl (s : State) (i : Iss) (c : Coll) (cause : Nat) : State :=
  let s := if aboEpoch (aboGet s i.uid c.abo) = c.epoch then aboPut (aboPut s i.uid c.abo 65 1 1) i.uid c.abo 66 2 cause else s
  setColl s i.uid { c with aborted := true, recovering := false }

/-- The blocks of a die, resident or saved, whose engine works at a collective with a member. -/
def blocksWith (s : State) (die entry : Nat) : List Nat :=
  let uids := s.work.blocks.map (·.uid) ++ s.work.away.filterMap fun a => if a.saved then a.kept.map (·.uid) else none
  uids.filter fun u => engineDie s u == die && (workingColls s u).any fun c => c.members.contains entry

/-- The engine of a die stops every collective of one block that involves a member (R279). -/
def abortOn (s : State) (blk entry cause : Nat) : State :=
  match onBlock s blk fun i s =>
      ((workingColls s blk).filter fun c => c.members.contains entry).foldl (fun s c => abortColl s i c cause) s with
  | (t, true) => t
  | (t, false) => asked s t

/-- Every incomplete collective of a die that involves one of some members stops (R279). -/
def abortMembers (s : State) (die cause : Nat) (entries : List Nat) : State :=
  entries.foldl (fun s e => (blocksWith s die e).foldl (fun s u => abortOn s u e cause) s) s

/-- Nanoseconds of 1 ms; a freeze stops this device's detection (R78, R279). -/
def memberLimit : Nat := 1000000

/-- The members whose input a collective waits for in a chunk (R279): sources of its open reduce step, the giver of its final
value, or the survivors whose vector has not come. -/
def Coll.owing (c : Coll) (k : Nat) : List Nat :=
  let q := c.pos k c.rank
  let ranks :=
    if c.recovering then (List.range c.n).filter fun r => r != c.rank && (c.vecs.get? r).isNone
    else if c.waiting k then
      ((c.inputs q).map (c.rankAt k)).filter fun r => !((c.srcs.get? k).getD []).any fun x => x.2 == r
    else if c.over_ k || q == 0 then [] else [c.rankAt k (c.giver q)]
  ranks.map fun r => c.members.getD r 0

/-- MEMBER_TIMEOUT (R279): members owe an input, and 1 ms has passed without it. -/
def execMemberTimeout (blk commid : Nat) (s : State) : Host.Outcome State Fault Refusal :=
  let late (c : Coll) (k : Nat) : Bool := decide (((c.opened.get? k).getD (0, s.sched.ns)).2 + memberLimit ≤ s.sched.ns)
  let silent := (openColls s blk commid).flatMap fun c => ((List.range c.chunks).filter (late c)).flatMap c.owing
  .next (if s.power.frozen then s else abortMembers s (engineDie s blk) 1 silent)

/-- COLL_ABORT_REPORT (R279): the die of a block learns of a peer's reset (1), of a link down on the path to it (2), or of a
switch's failure there (3); every collective that involves the peer stops. -/
def execCollAbortReport (blk entry cause : Nat) (s : State) : Host.Outcome State Fault Refusal :=
  .next (if cause < 1 || cause > 3 then s else abortMembers s (engineDie s blk) cause [entry])

end Sys2Proof.Machine
end

