-- ==== Sys2Proof/Machine/Copy.lean ====
section
/-!
DEFINITION. The copy engine (07 R143 to R147; 03 R57, R59): rows read and written line by line, up to a failing one; GS
expansion; what a copy comes after, and what stops it for a while.
-/

namespace Sys2Proof.Machine

/-- `n` bytes of a source: the outcome, the value, and how many bytes of it were read (R143). -/
def copyRead (s : State) (i : Iss) (op sp : Nat) (a : Int) (n : Nat) : State × Eng × Nat × Nat :=
  let w (f : Nat → Nat) : Nat := ofBytes ((List.range (n / 4)).flatMap fun j => toBytes 4 (f (a.toNat + 4 * j)))
  match sp with
  | 0 => if a < 0 then (s, .fail 7 (a % 2 ^ 48).toNat, 0, 0) else spanRead s i op a.toNat n
  | 1 => (s, .ok, scrRead s i.uid a.toNat n, n)
  | 2 => (s, .ok, w fun x => ((cohLoc s i x 4).map (locGet s 4)).getD 0, n)
  | 3 => (s, .ok, w fun x => (yTileOf ((blockOf s i.uid).getD i.b) (x / 24576)).read (x % 24576) 4, n)
  | _ => (s, .ok, w fun x => ((winLoc s i x 4).map (locGet s 4)).getD 0, n)

/-- A register word of a group written by the engine: its operand buffer entry is dropped (R167). -/
def cregPut (s : State) (i : Iss) (a v : Nat) : State :=
  match cregAt s i.b a with
  | none => s
  | some (uid, g, r, l) =>
    modGroup s uid g fun gr =>
      let gr := gr.settled [.v (r * 64 + l) none]
      { gr with
        vregs := if r = 0 then gr.vregs else gr.vregs.set (r * 64 + l) (some (BitVec.ofNat 32 v))
        opbuf := if gr.opbuf == some r then none else gr.opbuf }

/-- Words of a local destination. -/
def putWords (s : State) (a n v : Nat) (f : State → Nat → Nat → State) : State :=
  (List.range (n / 4)).foldl (fun s j => f s (a + 4 * j) (v / 2 ^ (32 * j) % 2 ^ 32)) s

/-- Writes `n` bytes at a destination (R143). -/
def copyWrite (s : State) (i : Iss) (op sp : Nat) (a : Int) (n v : Nat) : State × Eng :=
  match sp with
  | 0 =>
    if a < 0 then (s, .fail 7 (a % 2 ^ 48).toNat) else spanWrite s i op a.toNat n v
  | 1 => (scrWrite s i.uid a.toNat n v, .ok)
  | 2 => (putWords s a.toNat n v fun s x w => match cohLoc s i x 4 with | some l => locPut s 4 w l | none => s, .ok)
  | 3 => (putWords s a.toNat n v fun s x w => setYTile s i.uid (x / 24576) fun t => t.write (x % 24576) 4 w, .ok)
  | 4 => (putWords s a.toNat n v fun s x w => match winLoc s i x 4 with | some l => locPut s 4 w l | none => s, .ok)
  | _ => (putWords s a.toNat n v fun s x w => cregPut s i x w, .ok)

/-! ### Expansion (R57, R59, R145) -/

/-- Block bytes and magnitude bits of a conversion (R57). -/
def gsShape (conv : Nat) : Nat × Nat := match conv with | 1 => (8, 2) | 2 => (12, 4) | _ => (18, 7)

/-- The 16 bytes of an expanded block (R59). -/
def gsBytes (conv blk : Nat) : Nat :=
  let (_, m) := gsShape conv
  ofBytes ((List.range 16).map fun e =>
    let x := bitsAt blk (16 + e * (m + 1)) (m + 1)
    let s := x / 2 ^ m
    let mag := x % 2 ^ m
    let u := bitsAt blk (8 + e / 2) 1
    BitVec.ofNat 8 (if conv = 3 then s * 128 + mag else s * 128 + u * 64 + mag * 2 ^ (6 - m)))

/-- The side entry of a block (R59). -/
def gsSide (blk : Nat) : Nat := bitsAt blk 0 16

/-- One expanded row: bytes and side entries of the blocks within the first `k` source bytes (R145). A block of a row for
which a tile's side store has no entry leaves none: blocks from 24 on; rows from 64 on are the next tile's (assumption log
68). -/
def expandRow (s : State) (i : Iss) (c : CopyD) (r v k : Nat) : State :=
  let n := c.rowb / 16
  let w := (gsShape c.conv).1
  let d := ((c.dst : Int) + r * c.dp).toNat
  (List.range (k / w)).foldl (fun s b =>
    let blk := bitsAt v (8 * w * b) (8 * w)
    let s := (copyWrite s i 0 c.dsp (d + 16 * b : Nat) 16 (gsBytes c.conv blk)).1
    if c.dsp = 1 then scrWrite s i.uid (((c.dst : Int) + c.rows * c.dp).toNat + 2 * (r * n + b)) 2 (gsSide blk)
    else if b < 24 then
      setYTile s i.uid (c.dst / 24576 + r / 64) fun t => t.write (24576 + 2 * (24 * (r % 64) + b)) 2 (gsSide blk)
    else s) s

/-! ### Rows -/

/-- One row (R144, R145): with a source failure, what was read before it is written. -/
def copyRow (s : State) (i : Iss) (op : Nat) (c : CopyD) (r : Nat) : State × Eng :=
  let sa := (c.src : Int) + r * c.sp
  let da := (c.dst : Int) + r * c.dp
  match copyRead s i op c.ssp sa c.srcBytes with
  | (s, .wait, _, _) => (s, .wait)
  | (s, e, v, k) =>
    if c.conv != 0 then (expandRow s i c r v k, e)
    else
      match copyWrite s i op c.dsp da k v with
      | (s, .ok) => (s, e)
      | x => x

def copyRecOf (s : State) (uid who id : Nat) : Option CopyRec :=
  ((ctxOf s uid who).bind fun x => x.copies.find? fun k => k.id == id)

def modCopy (s : State) (uid who id : Nat) (f : CopyRec → CopyRec) : State :=
  modCtx s uid who fun x => { x with copies := x.copies.map fun k => if k.id = id then f k else k }

/-- A row of a copy is whole: what was asked for it alone is over; its writes to peers may still be out. -/
def copiedRow (s : State) (i : Iss) (id r : Nat) : State :=
  let s := ucDrop s (i.uid, i.who, id)
  let pods := s.links.pods.filter fun q => q.blk != i.uid || q.who != i.who || q.op != id || q.write
  let s := { s with links := { s.links with pods := pods } }
  modCopy s i.uid i.who id fun k => { k with rows := r + 1 }

/-- Rows one after another, each noted when it is whole. -/
def copyGo (i : Iss) (id : Nat) (c : CopyD) : List Nat → State → State × Eng
  | [], s => (s, .ok)
  | r :: rest, s =>
    match copyRow s i id c r with
    | (s, .ok) => copyGo i id c rest (copiedRow s i id r)
    | x => x

/-- The rows of a copy that are not done, up to one. -/
def copyTo (s : State) (i : Iss) (k : CopyRec) (upto : Nat) : State × Eng :=
  let c := copyOf k.desc.toNat
  if c.rowb = 0 then (s, .ok) else copyGo i k.id c ((List.range (min upto c.rows)).drop k.rows) s

/-- A copy is over (R135, R146): its counter falls. -/
def endCopy (s : State) (uid who : Nat) (k : CopyRec) : State :=
  let c := copyOf k.desc.toNat
  let s := modCtx (dropPods s uid who k.id) uid who fun x => { x with copies := x.copies.filter fun q => q.id != k.id }
  lowerCtr s uid who (if c.ctr = 15 then none else some c.ctr)

/-- Whether a copy's issuer has an earlier access that is not performed (R156); its bytes in the write-combining buffer
drain. -/
def copyReady (s : State) (i : Iss) (k : CopyRec) : State × Bool :=
  let mine (w : WcLine) : Bool := w.from_.any fun f => f.2.1 == i.uid && f.2.2.1 == i.who && decide (f.2.2.2 < k.id)
  if (windowOf s i.uid i.who).any fun p => decide (p.id < k.id) then (s, false)
  else
    let s := wcDrainAll s i.cl mine
    (s, !s.coh.wc.any mine)

/-- The engine works at a copy to its end, with the rights that its CPY had (R144); a copy whose pod writes are still out
completes later, and a freeze pauses the engine (R78). What a waiting copy has done and asked for stands. -/
def runCopy (s : State) (i : Iss) (k : CopyRec) : State × Eng :=
  if s.power.frozen then (s, .wait)
  else if k.sent then (if (podWrites s i.uid i.who k.id).2 then (s, .wait) else (endCopy s i.uid i.who k, .ok))
  else match copyReady s i k with
  | (s, false) => (s, .wait)
  | (s, true) =>
    match copyTo s { i with runtime := k.runtime } k 65535 with
    | (s, .ok) =>
      if (podWrites s i.uid i.who k.id).2 then (modCopy s i.uid i.who k.id fun q => { q with sent := true }, .wait)
      else (endCopy s i.uid i.who k, .ok)
    | x => x

/-- A failed copy (R147): its batch is complete but for the failure that a CBW or EXIT raises. -/
def failCopy (s : State) (i : Iss) (k : CopyRec) (cause addr : Nat) : State :=
  endCopy (modCtx s i.uid i.who fun x => { x with fails := x.fails ++ [⟨k.id, k.batch, cause, addr⟩] }) i.uid i.who k

end Sys2Proof.Machine
end

