-- ==== Sys2Proof/Machine/Completion.lean ====
section
/-!
DEFINITION. Completions (07 R135 to R148, 12 R232, 16 R310): the steps in which loads, stores, copies, deposits, sleeps and
passes complete. A completion that cannot happen yet changes nothing but the requests it has sent on.
-/

namespace Sys2Proof.Machine

/-- The window entry of an operation, with its issuer. -/
def pendOf (s : State) (uid who op : Nat) : Option (Iss × Pend) :=
  match issOf s uid who with
  | none => none
  | some i => ((windowOf s uid who).find? fun p => p.id == op).map fun p => (i, p)

/-- Whether an entry is a store. -/
def Pend.isStore (p : Pend) : Bool := match p.instr with | .st .. => true | _ => false

/-- LOAD_DATA_RETURN (R137 to R139): data has reached every line of a load, or of a pod atomic. -/
def execLoadDataReturn (blk who op : Nat) (s : State) : Host.Outcome State Fault Refusal :=
  match pendOf s blk who op with
  | none => .next s
  | some (i, p) =>
    if p.isStore then .next s
    else match tryData s i p with
    | (t, .yes) => .next (afterUnit t blk)
    | (t, .wait) => .next t
    | (_, .fault _ _) => .next s

/-- STORE_PERFORMED (R137, R138). -/
def execStorePerformed (blk who op : Nat) (s : State) : Host.Outcome State Fault Refusal :=
  match pendOf s blk who op with
  | none => .next s
  | some (i, p) =>
    if !p.isStore then .next s
    else match tryStore s i p with
    | (t, .yes) => .next (afterUnit t blk)
    | (t, .wait) => .next t
    | (_, .fault _ _) => .next s

/-- The fault of a window entry, if its lines have one now. -/
def faultOf (s : State) (i : Iss) (p : Pend) : Option (State × Nat × Nat) :=
  match (if p.isStore then tryStore s i p else tryData s i p) with
  | (s, .fault c a) => some (s, c, a)
  | _ => none

/-- The first slot that a fault's line concerns (R347). -/
def slotOfFault (s : State) (i : Iss) (p : Pend) (cause addr : Nat) : Flt :=
  match memShape p.instr with
  | some (_, w, _) => lateFault i w (pendLocs s i p) cause addr
  | none =>
    match p.acc.find? (fun a => a.addr == addr) with
    | some a => ⟨cause, addr, some a.slot⟩
    | none => ⟨cause, addr, none⟩

/-- A memory fault is taken (R139, R344): later instructions of the path are discarded with what they wrote, and the trap is
taken at the faulting instruction, or kept while another path's handler runs or the path is held. -/
def memoryFault (s : State) (i : Iss) (p : Pend) (f : Flt) : State :=
  let laneForm := match hdrOf p.instr with | some h => !h.g | none => false
  let t := mkTrap f laneForm false 0 p.pc p.word
  let s := modCtx s i.uid i.who fun c => { c with armed := c.armed.filter fun a => a != p.path }
  let s := discardFrom s i.uid i.who p.path p.id
  let s := modPath s i.uid i.who p.path fun q => { q with pc := p.pc, st := .ready, wait := .none, kills := [] }
  let busy := (groupOf s i.uid i.who).any fun g => g.hpath.any fun h => h != p.path
  let held := (pathOf s i.uid i.who p.path).any (·.held)
  if busy || held then modPath s i.uid i.who p.path fun q => { q with trap := some t }
  else takeTrap s i.uid i.who p.path t p.pc

/-- What a fault that cannot be taken yet leaves: the refusals it met stay with the cluster. -/
def faultKept (s t : State) : State :=
  { t with coh := { t.coh with refused := s.coh.refused ++ t.coh.refused.filter fun r => !s.coh.refused.contains r } }

/-- MEMORY_FAULT_ARRIVAL (R139): of the oldest instruction of its path that has not passed; it is taken when every request that
it and the instructions it discards have sent has ended (R135). -/
def execMemoryFaultArrival (blk who op : Nat) (s : State) : Host.Outcome State Fault Refusal :=
  match pendOf s blk who op with
  | none => .next s
  | some (i, p) =>
    let older := (windowOf s blk who).any fun q => decide (q.id < p.id) && q.path == p.path && !q.passed
    if older || p.passed then .next s
    else match faultOf s i p with
    | none => .next s
    | some (t, c, a) =>
      if requestsEnded t i p.path p.id then .next (afterUnit (memoryFault t i p (slotOfFault t i p c a)) blk)
      else .next (faultKept s t)

/-- COPY_COMPLETE (R144 to R146). -/
def execCopyComplete (blk who copy : Nat) (s : State) : Host.Outcome State Fault Refusal :=
  match issOf s blk who, copyRecOf s blk who copy with
  | some i, some k =>
    match runCopy s i k with
    | (t, .ok) => .next (afterUnit t blk)
    | (t, .wait) => .next t
    | (_, .fail _ _) => .next s
  | _, _ => .next s

/-- COPY_FAILURE (R147): a line fails, or no answer has come within the time-out of R132. -/
def execCopyFailure (blk who copy : Nat) (timeout : Bool) (s : State) : Host.Outcome State Fault Refusal :=
  match issOf s blk who, copyRecOf s blk who copy with
  | some i, some k =>
    match runCopy s i k with
    | (t, .fail c a) => if timeout then .next s else .next (afterUnit (failCopy t i k c a) blk)
    | (t, .wait) =>
      if timeout && !k.sent && !s.power.frozen && decide (s.sched.ns ≥ k.issued + Config.timeoutNs) then
        .next (afterUnit (failCopy t i k 0x12 (copyOf k.desc.toNat).src) blk)
      else .next t
    | (_, .ok) => .next s
  | _, _ => .next s

/-- A deposit reaches a resident target: the register and the counter together (R148). -/
def applyDeposit (s : State) (d : Deposit) (b : Block) : State :=
  let s := putFinal s b.uid d.grp fun r =>
    let r := r.wrG d.reg (BitVec.ofNat 32 d.val.toNat)
    if d.wide && d.reg != 0 then r.wrG (d.reg + 1) (BitVec.ofNat 32 (d.val.toNat / 2 ^ 32)) else r
  lowerCtr s b.uid d.grp (some d.ctr)

def dropDeposit (s : State) (id : Nat) : State :=
  { s with work := { s.work with deposits := s.work.deposits.filter fun d => d.id != id } }

/-- Whether a deposit is the oldest of its source group for its target. -/
def depositFirst (s : State) (d : Deposit) : Bool :=
  !(s.work.deposits.any fun e => decide (e.id < d.id) && e.src == d.src && e.who == d.who && e.inCoh == d.inCoh && e.grp == d.grp)

/-- DEPOSIT_APPLIED (R148, R360): the oldest deposit of its group for its target; a counter at its limit makes it wait. A
saved target takes it in its save area; one that has ended takes none. -/
def execDepositApplied (dep : Nat) (s : State) : Host.Outcome State Fault Refusal :=
  match s.work.deposits.find? fun d => d.id == dep with
  | none => .next s
  | some d =>
    if !depositFirst s d then .next s
    else match memberOf s d.cohort d.inCoh with
    | some b =>
      if ctrOf s b.uid d.grp d.ctr ≤ -32768 then .next s
      else .next (afterUnit (afterUnit (dropDeposit (applyDeposit s d b) d.id) b.uid) d.src)
    | none =>
      match savedMember s d.cohort d.inCoh with
      | some (a, b) => .next (match depositSaved s d a b with | (s, true) => dropDeposit s d.id | (s, false) => s)
      | none => .next (afterUnit (dropDeposit s d.id) d.src)

/-- SLEEP_EXPIRY (R310): the time of a sleeping path has come. -/
def execSleepExpiry (blk grp path : Nat) (s : State) : Host.Outcome State Fault Refusal :=
  match pathOf s blk grp path with
  | none => .next s
  | some q =>
    if q.st == .sleep && decide (s.sched.cycle ≥ q.wake) && !s.power.frozen then
      .next (afterUnit (modPath s blk grp path fun q => { q with st := .ready }) blk)
    else .next s

/-- MATRIX_PASS_COMPLETE (R229 to R232, R239, R241, R244): one pass, or one row, is whole; after the last the instruction
retires. Escapes count in PERF_MESC by an amount the manual leaves to the array. -/
def execMatrixPassComplete (blk : Nat) (s : State) : Host.Outcome State Fault Refusal :=
  match issOf s blk bmsWho with
  | none => .next s
  | some i =>
    match i.b.bms, i.b.bms.bind (·.prog) with
    | some m, some (n, ins) =>
      if i.b.halted || s.power.frozen then .next s
      else if rowsOf ins != 0 then .next (matrixRow s i m n ins)
      else match mulOf m.regs ins with
      | none => .next s
      | some op =>
        match (shapeTiles op.sh)[n]? with
        | none => .next s
        | some t =>
          let s := passBoundary (runPass s blk op t) i.b
          let s := { s with power := { s.power with mesc := s.power.mesc + (Config.freeWord (3000000 + s.sched.tick) n).toNat } }
          if n + 1 < (shapeTiles op.sh).length then .next (modBms s blk fun m => { m with prog := some (n + 1, ins) })
          else .next (retireProg s blk ins)
    | _, _ => .next s

end Sys2Proof.Machine
end

