-- ==== Sys2Proof/Machine/Control.lean ====
section
/-!
DEFINITION. Class 5 without the task instructions (16 R305 to R323, R409): branches, splits and joins, loops and breaks,
indirect branches and calls, THROW, EXIT, barriers, and the instructions that only end a run.
-/

namespace Sys2Proof.Machine

/-! ### Branches (R306, R309) -/

/-- The direct target of a word (R306). -/
def targetOf (c : Cur) (off : Word) : Nat := truncN 48 ((c.pc : Int) + 12 + sextN 32 off.toNat)

/-- The PC of an indirect target (R306): bits [47:32] are the issuing instruction's. -/
def farTarget (c : Cur) (t : Word) : Nat := c.pc / 2 ^ 32 * 2 ^ 32 + t.toNat

/-- The branch bit of a guarded BRA (R381). -/
def braTrace (s : State) (x : Ex) (h : Hdr) (taken : Bool) : State :=
  if x.cur.who = bmsWho || h.gidx = 0 then s
  else traceBranch s x.cur.blk x.cur.who x.cur.path x.cur.pc x.mask taken

/-- BRA (R309). -/
def execBra (h : Hdr) (off : Word) (s : State) : Host.Outcome State Fault Refusal :=
  match exOf s h with
  | none => .next s
  | some x =>
    if x.slots.isEmpty then .next (pass (braTrace s x h false) x.cur)
    else .next (bumpOrder (goto (braTrace s x h true) x.cur (targetOf x.cur off)) x.cur.blk x.cur.who)

/-- NOP (R310). -/
def execNop (h : Hdr) (s : State) : Host.Outcome State Fault Refusal :=
  match exOf s h with
  | none => .next s
  | some x => .next (pass s x.cur)

/-- The issuing path's run ends (R303). -/
def endRun (s : State) (c : Cur) : State :=
  if c.who = bmsWho then s else modGroup s c.blk c.who fun g => { g with runLen := 32 }

/-- YIELD (R310). -/
def execYield (h : Hdr) (s : State) : Host.Outcome State Fault Refusal :=
  match exOf s h with
  | none => .next s
  | some x => if x.slots.isEmpty then .next (pass s x.cur) else .next (endRun (pass s x.cur) x.cur)

/-- SLEEP (R310). -/
def execSleep (h : Hdr) (b : Opnd) (s : State) : Host.Outcome State Fault Refusal :=
  match exOf s h with
  | none => .next s
  | some x =>
    if x.slots.isEmpty then .next (pass s x.cur)
    else
      let n := src32 x.r .ctl b
      let s := endRun (retire s x (.sleep h b) h id) x.cur
      if n = 0 then .next s
      else .next (modPath s x.cur.blk x.cur.who x.cur.path fun p => { p with st := .sleep, wake := s.sched.cycle + n })

/-! ### Splits and joins (R311 to R313) -/

/-- The lanes of masks for which a predicate, inverted or not, is true. -/
def lanesWhere (r : Regs) (m : List LaneMask) (inv : Bool) (p : BitVec 4) : List LaneMask :=
  (List.range m.length).map fun j =>
    maskOf ((lanesOf (m.getD j 0)).filter fun l => r.rdP j l p.toNat != inv)

/-- Whether tokens have room for `n` more (R308). -/
def roomFor (g : Group) (n : Nat) : Bool := decide (g.tokens.length + n ≤ tokenLimit)

/-- The split of VBR: the group after it and the entry that took Nt, none for a DEFER record. -/
def split (g : Group) (p pc target join : Nat) (tk nt : List LaneMask) : Group × Option Nat :=
  match newToken g with
  | none => (g, some p)
  | some id =>
    let m := ((g.paths[p]?).map (·.mask)).getD []
    let parent := (g.paths[p]?).bind (·.tref)
    let g := g.putToken id ⟨.join, join, m, mZero m.length, parent, none⟩
    if mEmpty tk then (g.modPath p fun q => { q with pc := pc, tref := some id }, some p)
    else
      let g := g.modPath p fun q => { q with pc := target, tref := some id }
      if mEmpty nt then (g, some p)
      else
        let g := g.modPath p fun q => { q with mask := tk }
        match freeEntry g with
        | some e => (startPath g e pc nt (some id) none true, some e)
        | none => (pushDefer g p pc nt (some id), none)

/-- The values of MASK packets: one for each set that holds lanes (R381). -/
def maskValues (m v : List LaneMask) : List Nat :=
  (List.range m.length).filterMap fun j => if m.getD j 0 = 0 then none else some (v.getD j 0).toNat

/-- VBR (R311). -/
def execVbr (h : Hdr) (inv : Bool) (p : BitVec 4) (jofs : BitVec 18) (off : Word) (s : State) :
    Host.Outcome State Fault Refusal :=
  match exOf s h with
  | none => .next s
  | some x =>
    match groupOf s x.cur.blk x.cur.who with
    | none => .next s
    | some g =>
      if x.slots.isEmpty then .next (pass s x.cur)
      else
        let c := x.cur
        let tk := lanesWhere x.r x.mask inv p
        let nt := mSub x.mask tk
        let defer := !mEmpty tk && !mEmpty nt && (freeEntry g).isNone
        if !roomFor g (1 + defer.toNat) then .next (trapAt s c false ⟨0x0D, 0, none⟩)
        else
          let r := split g c.path (nextPc c) (targetOf c off) ((c.pc + 12 * jofs.toNat) % 2 ^ 48) tk nt
          let s := modGroup s c.blk c.who fun _ => r.1
          let s := traceMasks s c.blk c.who c.path c.pc x.mask r.2 (maskValues x.mask nt)
          .next (bumpOrder s c.blk c.who)

/-- The JOIN token that a JOIN at a PC closes (R312). -/
def joinToken (g : Group) (p pc : Nat) : Option (Nat × Token) :=
  match (g.paths[p]?).bind (·.tref) with
  | none => none
  | some id =>
    match g.tokens.get? id with
    | some t => if t.kind == .join && t.pc == pc then some (id, t) else none
    | none => none

/-- A path arrives at its JOIN (R312, R313): whether the token completed, and the entries made FREE. -/
def joinGroup (g : Group) (p id : Nat) (t : Token) : Group × Bool × List Nat :=
  let m := ((g.paths[p]?).map (·.mask)).getD []
  let arr := mOr t.arr m
  if arr = t.exp then
    let parked := (parkedOn g id).filter (· != p)
    let g := freeAll (g.dropToken id) parked
    (g.modPath p fun q => { q with pc := (t.pc + 12) % 2 ^ 48, mask := t.exp, tref := t.parent }, true, parked)
  else
    let g := g.putToken id { t with arr := arr }
    if ((g.paths[p]?).bind (·.dlist)).isSome then (giveUp g p, false, [])
    else (g.modPath p fun q => { q with st := .joinw }, false, [])

/-- The JOINP packet of a JOIN (R380). -/
def joinPacket (p : Nat) (done : Bool) (freed : List Nat) (exp mask : List LaneMask) : List Byte :=
  if !done then [BitVec.ofNat 8 (0x50 + p)]
  else BitVec.ofNat 8 (0x58 + p) :: BitVec.ofNat 8 (freed.foldl (fun n e => n + 2 ^ e) 0)
    :: (exp.zipWith (· ^^^ ·) mask).flatMap fun v => varintOf v.toNat

/-- JOIN (R312). -/
def execJoin (h : Hdr) (s : State) : Host.Outcome State Fault Refusal :=
  match exOf s h with
  | none => .next s
  | some x =>
    match groupOf s x.cur.blk x.cur.who with
    | none => .next s
    | some g =>
      let c := x.cur
      if x.slots.isEmpty then .next (pass s c)
      else match joinToken g c.path c.pc with
      | none => .next (trapAt s c false ⟨0x0B, 0, none⟩)
      | some (id, t) =>
        let r := joinGroup g c.path id t
        let s := traceJoin s c.blk c.who c.path c.pc x.mask (joinPacket c.path r.2.1 r.2.2 t.exp x.mask)
        let s := modGroup s c.blk c.who fun g => (joinGroup g c.path id t).1
        .next (settleGroup (traceRenew s c) c)

/-! ### Loops and breaks (R314, R315) -/

/-- LOOP (R314). -/
def execLoop (h : Hdr) (off : Word) (s : State) : Host.Outcome State Fault Refusal :=
  match exOf s h with
  | none => .next s
  | some x =>
    match groupOf s x.cur.blk x.cur.who with
    | none => .next s
    | some g =>
      let c := x.cur
      if x.slots.isEmpty then .next (pass s c)
      else match newToken g with
      | none => .next (trapAt s c false ⟨0x0D, 0, none⟩)
      | some id =>
        let parent := (g.paths[c.path]?).bind (·.tref)
        let s := modGroup s c.blk c.who fun g =>
          (g.putToken id ⟨.loop, targetOf c off, x.mask, mZero x.mask.length, parent, none⟩).modPath c.path fun q =>
            { q with tref := some id }
        .next (pass s c)

/-- The tokens of a chain below its innermost LOOP, and that LOOP. -/
def toLoop (g : Group) : List Nat → List Nat → Option (List Nat × Nat)
  | [], _ => none
  | id :: r, js =>
    match g.tokens.get? id with
    | some t => if t.kind == .loop then some (js, id) else toLoop g r (js ++ [id])
    | none => none

/-- BRK on a group (R315): lanes leave the joins below the loop and arrive at it; the entry is given up. -/
def breakGroup (e : Nat) (m : List LaneMask) (below : List Nat) (loop_ : Nat) (g : Group) : Completing :=
  let chain := chainOf g e
  let g := leaveTokens g m below
  let g := match g.tokens.get? loop_ with
    | some t => g.putToken loop_ { t with arr := mOr t.arr m }
    | none => g
  leaveEntry g e chain

/-- BRK (R315). -/
def execBrk (h : Hdr) (s : State) : Host.Outcome State Fault Refusal :=
  match exOf s h with
  | none => .next s
  | some x =>
    match groupOf s x.cur.blk x.cur.who with
    | none => .next s
    | some g =>
      let c := x.cur
      if x.slots.isEmpty then .next (pass s c)
      else match toLoop g (chainOf g c.path) [] with
      | none => .next (trapAt s c false ⟨0x0B, 0, none⟩)
      | some (below, l) =>
        let f := breakGroup c.path x.mask below l
        let s := modTokens (traceJoined s c x.mask (f g).done) c f
        .next (settleGroup (traceRenew (endHandler s c) c) c)

/-! ### Indirect branches and calls (R316) -/

/-- The targets of a path's lanes: each distinct one with its lanes, ascending (R316). -/
def targetsOf (m : List LaneMask) (f : Slot → Nat) : List (Nat × List LaneMask) :=
  let ts := sortBy (fun a b => decide (a ≤ b)) ((slotsOf m).foldl (fun l sl => insertNat (f sl) l) [])
  ts.map fun t => (t, (List.range m.length).map fun j =>
    maskOf ((lanesOf (m.getD j 0)).filter fun l => f (.lane j l) == t))

/-- The lanes of a path go to their targets (R316): the first keeps the entry, the next take FREE entries, the rest are
deferred. -/
def spreadGo (g : Group) (e : Nat) (tref : Option Nat) : List (Nat × List LaneMask) → Group × List (Nat × List LaneMask)
  | [] => (g, [])
  | (t, m) :: r =>
    match freeEntry g with
    | some f => spreadGo (startPath g f t m tref none true) e tref r
    | none => (g, (t, m) :: r)

def spread (g : Group) (e : Nat) (ts : List (Nat × List LaneMask)) : Group :=
  match ts with
  | [] => g
  | (t, m) :: r =>
    let tref := (g.paths[e]?).bind (·.tref)
    let g := g.modPath e fun q => { q with pc := t, mask := m, unrep := true }
    let (g, rest) := spreadGo g e tref r
    rest.foldr (fun x g => pushDefer g e x.1 x.2 tref) g

/-- How many of a path's targets must be deferred. -/
def deferred (g : Group) (ts : List (Nat × List LaneMask)) : Nat :=
  ts.length - 1 - (g.paths.filter fun q => q.st == .free).length

/-- A last-use mark of a vector register by a control instruction: in the path's lanes (R169, R305). -/
def markVec (x : Ex) (h : Hdr) (a : Reg) (r : Regs) : Regs :=
  if h.hints.lastA then (slotsOf x.mask).foldl (fun r sl => r.kill sl a.toNat) r else r

/-- The link in v1 of the path's lanes (R316). -/
def linkRegs (x : Ex) (r : Regs) : Regs :=
  (slotsOf x.mask).foldl (fun r sl => r.wr sl 1 (BitVec.ofNat 32 (x.cur.pc + 12))) r

/-- The operand buffer drops registers that are written or marked (R167). -/
def dropOpbuf (s : State) (c : Cur) (ns : List Nat) : State :=
  modGroup s c.blk c.who fun g => { g with opbuf := g.opbuf.filter fun n => !ns.contains n }

/-- BRX, CALLX and RET: lanes go where a vector register says (R316). -/
def indirect (s : State) (h : Hdr) (a : Reg) (link mark : Bool) : Host.Outcome State Fault Refusal :=
  match exOf s h with
  | none => .next s
  | some x =>
    match groupOf s x.cur.blk x.cur.who with
    | none => .next s
    | some g =>
      let c := x.cur
      if x.slots.isEmpty then .next (pass s c)
      else
        let ts := targetsOf x.mask fun sl => farTarget c (x.r.rd sl a.toNat)
        if !roomFor g (deferred g ts) then .next (trapAt s c false ⟨0x0D, 0, none⟩)
        else
          let all (r : Regs) : Regs :=
            let r := if mark then markVec x h a r else r
            if link then linkRegs x r else r
          let s := dropOpbuf (putFinal s c.blk c.who all) c ((if link then [1] else []) ++ (if mark && h.hints.lastA then [a.toNat] else []))
          let s := modGroup s c.blk c.who fun g => spread g c.path ts
          .next (traceRenew (bumpOrder s c.blk c.who) c)

/-- BRX (R316). -/
def execBrx (h : Hdr) (a : Reg) (s : State) : Host.Outcome State Fault Refusal := indirect s h a false true

/-- CALLX (R316). -/
def execCallx (h : Hdr) (a : Reg) (s : State) : Host.Outcome State Fault Refusal := indirect s h a true true

/-- RET (R316): through v1. -/
def execRet (h : Hdr) (s : State) : Host.Outcome State Fault Refusal := indirect s h 1 false false

/-- CALL (R316). -/
def execCall (h : Hdr) (off : Word) (s : State) : Host.Outcome State Fault Refusal :=
  match exOf s h with
  | none => .next s
  | some x =>
    let c := x.cur
    if x.slots.isEmpty then .next (pass s c)
    else
      let s := dropOpbuf (putFinal s c.blk c.who (linkRegs x)) c [1]
      .next (bumpOrder (goto s c (targetOf c off)) c.blk c.who)

/-! ### THROW and EXIT (R317, R318) -/

/-- The thrown lanes become a path at the unwind entry (R317): the group and the entry that took them. -/
def throwPath (g : Group) (p pc unwind : Nat) (th rem : List LaneMask) : Group × Option Nat :=
  if mEmpty rem then (g.modPath p fun q => { q with pc := unwind, tref := none, unrep := true }, some p)
  else
    let g := g.modPath p fun q => { q with pc := pc, mask := rem }
    match freeEntry g with
    | some e => (startPath g e unwind th none none true, some e)
    | none => (pushDefer g p unwind th none, none)

/-- THROW on a group: the thrown lanes leave every token of the chain, and completions follow (R317, R409). -/
def throwGroup (p pc unwind : Nat) (th rem : List LaneMask) (g : Group) : Completing :=
  let chain := chainOf g p
  let g := (throwPath g p pc unwind th rem).1
  completeChain (leaveTokens g th chain) p false chain

/-- THROW (R317). -/
def execThrow (h : Hdr) (inv : Bool) (p : BitVec 4) (s : State) : Host.Outcome State Fault Refusal :=
  match exOf s h with
  | none => .next s
  | some x =>
    match groupOf s x.cur.blk x.cur.who with
    | none => .next s
    | some g =>
      let c := x.cur
      if x.slots.isEmpty then .next (pass s c)
      else if g.unwind = 0 then .next (trapAt s c false ⟨0x0F, 0, none⟩)
      else
        let th := lanesWhere x.r x.mask inv p
        let rem := mSub x.mask th
        if mEmpty th then .next (pass s c)
        else if !mEmpty rem && (freeEntry g).isNone && !roomFor g 1 then .next (trapAt s c false ⟨0x0D, 0, none⟩)
        else
          let un := g.unwind.toNat % 2 ^ 48
          let all (r : Regs) : Regs := (slotsOf th).foldl (fun r sl => r.wr sl 4 (BitVec.ofNat 32 c.pc)) r
          let s := dropOpbuf (putFinal s c.blk c.who all) c [4]
          let dst := (throwPath g c.path (nextPc c) un th rem).2
          let s := traceMasks s c.blk c.who c.path c.pc x.mask dst (maskValues x.mask th)
          let f := throwGroup c.path (nextPc c) un th rem
          let s := modTokens (traceJoined s c x.mask (f g).done) c f
          .next (settleGroup (traceRenew s c) c)

/-- EXIT on a group (R318). -/
def exitGroup (e : Nat) (m : List LaneMask) (g : Group) : Completing :=
  let chain := chainOf g e
  leaveEntry (leaveTokens g m chain) e chain

/-- What an EXIT that ends its issuer waits for, or raises (R147, R219, R318): its copies, then their failures. -/
inductive Last where
  | go
  | wait
  | fail (f : CopyFail)
  deriving DecidableEq, Repr

def lastExit (k : Ctx) : Last :=
  if !k.copies.isEmpty then .wait
  else match oldestFail ((k.batch + 1) % 2 ^ 32) k.fails with
    | some f => .fail f
    | none => .go

/-- A failed copy is raised, and with that consumed (R147). -/
def raiseFail (s : State) (c : Cur) (f : CopyFail) : State :=
  if unpassed s c.blk c.who c.path then s
  else trapAt (consumeFail s c.blk c.who f) c false ⟨f.cause, f.addr, none⟩

/-- EXIT of the BMS (R219): it ends the context. -/
def exitBms (s : State) (x : Ex) : Host.Outcome State Fault Refusal :=
  let c := x.cur
  match ctxOf s c.blk c.who with
  | none => .next s
  | some k =>
    match lastExit k with
    | .wait => .next s
    | .fail f => .next (raiseFail s c f)
    | .go => .next (settleGroup (modBms s c.blk fun m => { m with st := .exited }) c)

/-- EXIT (R318, R219). -/
def execExit (h : Hdr) (s : State) : Host.Outcome State Fault Refusal :=
  match exOf s h with
  | none => .next s
  | some x =>
    let c := x.cur
    if x.slots.isEmpty then .next (pass s c)
    else if c.who = bmsWho then exitBms s x
    else match groupOf s c.blk c.who with
    | none => .next s
    | some g =>
      let f := exitGroup c.path x.mask
      let last := if (f g).g.paths.all (fun q => q.st == .free) then lastExit g.ctx else .go
      match last with
      | .wait => .next s
      | .fail e => .next (raiseFail s c e)
      | .go =>
        let s := modTokens (traceJoined s c x.mask (f g).done) c f
        .next (settleGroup (traceRenew (endHandler s c) c) c)

/-! ### Numbered barriers (R320, R321) -/

/-- A barrier of a block, or of its cohort. -/
def barOf (s : State) (uid : Nat) (coh : Bool) (nb : Nat) : Bar :=
  match blockOf s uid with
  | none => ⟨0, 0, 0, []⟩
  | some b =>
    if coh then (((cohortOf s b.cohort).map (·.bars)).getD []).getD nb ⟨0, 0, 0, []⟩ else b.bars.getD nb ⟨0, 0, 0, []⟩

def setBar (s : State) (uid : Nat) (coh : Bool) (nb : Nat) (v : Bar) : State :=
  match blockOf s uid with
  | none => s
  | some b =>
    if coh then modCohort s b.cohort fun c => { c with bars := c.bars.set nb v }
    else modBlock s uid fun b => { b with bars := b.bars.set nb v }

/-- Whether a wait is one of a barrier's phase. -/
def waitsFor (coh : Bool) (nb phase : Nat) : Wait → Bool
  | .bar h n ph _ => h == coh && n == nb && ph == phase
  | _ => false

/-- Every wait of a phase is released, block by block, group by group, path by path (R321). -/
def releaseBar (s : State) (uid : Nat) (coh : Bool) (nb phase : Nat) : State :=
  match blockOf s uid with
  | none => s
  | some b =>
    (if coh then cohortBlocks s b.cohort else [b]).foldl (fun s q =>
      let s := (List.range q.groups.length).foldl (fun s g =>
        (List.range 8).foldl (fun s p =>
          match pathOf s q.uid g p with
          | some e => if waitsFor coh nb phase e.wait then fireWait s q.uid g p else s
          | none => s) s) s
      match q.bms with
      | some m => if waitsFor coh nb phase m.wait then fireWait s q.uid bmsWho 0 else s
      | none => s) s

/-- The count of an arrival (R321): a register field of 0 means 1. -/
def countOf (x : Ex) : Opnd → Nat
  | .imm n => n.toNat
  | .reg a => if a = 0 then 1 else (x.r.rd .ctl a.toNat).toNat

/-- The three actions of BAR (R320, R321): an arrival that would exceed P is 0x0B; it is a release over SCR and GLB at the
barrier's scope (R155), which it waits for; one that fills P completes the phase. -/
def barrier (s : State) (i : Instr) (h : Hdr) (coh : Bool) (nb : Nat) (count : Ex → Nat) (waits : Bool) :
    Host.Outcome State Fault Refusal :=
  match exOf s h with
  | none => .next s
  | some x =>
    match issOf s x.cur.blk x.cur.who with
    | none => .next s
    | some q =>
      let c := x.cur
      if x.slots.isEmpty then .next (pass s c)
      else
        let v := barOf s c.blk coh nb
        let n := count x
        if v.a + n > v.p then .next (trapAt s c false ⟨0x0B, 0, none⟩)
        else match releaseAt s q x true storScrGlb (if coh then .coh else .blk) with
        | (s, false) => .next s
        | (s, true) =>
        if v.a + n = v.p then
          let s := setBar s c.blk coh nb { v with a := 0, phase := v.phase + 1, who := [] }
          let s := releaseBar (retire s x i h id) c.blk coh nb v.phase
          .next (afterUnit s c.blk)
        else
          let s := setBar s c.blk coh nb { v with a := v.a + n, who := v.who ++ [(q.b.index, c.who)] }
          let s := if waits then armWait s x i h .barw (.bar coh nb v.phase n) else retire s x i h id
          .next (afterUnit s c.blk)

/-- BAR.arrive (R321). -/
def execBarArrive (h : Hdr) (coh : Bool) (nb : Reg) (cnt : Opnd) (s : State) : Host.Outcome State Fault Refusal :=
  barrier s (.barArrive h coh nb cnt) h coh nb.toNat (fun x => countOf x cnt) false

/-- BAR.wait (R321). -/
def execBarWait (h : Hdr) (coh : Bool) (nb : Reg) (s : State) : Host.Outcome State Fault Refusal :=
  barrier s (.barWait h coh nb) h coh nb.toNat (fun _ => 1) true

/-- BAR.sync (R321). -/
def execBarSync (h : Hdr) (coh : Bool) (nb : Reg) (cnt : Opnd) (s : State) : Host.Outcome State Fault Refusal :=
  barrier s (.barSync h coh nb cnt) h coh nb.toNat (fun x => countOf x cnt) true

end Sys2Proof.Machine
end

