-- ==== Sys2Proof/Machine/DebugEvents.lean ====
section
/-!
DEFINITION. Debug commands (22 R371 to R377), the sampler (R371), trace control (R379, R383, R392), and the recording of a launch
(R385 to R388).
-/

namespace Sys2Proof.Machine

/-- The mailbox's answer to a command: 0, or a refusal status (R372). -/
def answer (s : State) (n : Nat) : State := reply s (.status n)

/-! ### Attaching (R372, R374) -/

/-- ATTACH: MODE 0 or 1; status 1 when the launch is attached already. -/
def execAttach (launch : Nat) (mode : Bool) (s : State) : Host.Outcome State Fault Refusal :=
  match launchOf s launch with
  | none => .next s
  | some l => if l.dbg.isSome then .next (answer s 1) else .next (answer (modLaunch s launch fun l => { l with dbg := some mode }) 0)

/-- The blocks of a launch. -/
def launchBlocks (s : State) (launch : Nat) : List Block := s.work.blocks.filter fun b => b.launch == launch

/-- Groups that events may now let go on: orphans, switch points, ends of blocks. -/
def settleBlocks (s : State) (bs : List Block) : State := bs.foldl (fun s b => afterUnit s b.uid) s

/-- Releases every path of every group of a block. -/
def releaseAll (b : Block) : Block :=
  { b with groups := b.groups.map fun g => { g with paths := g.paths.map fun q => { q with held := false, step := false } } }

/-- DETACH: held paths of the launch are released and its breakpoints cleared. -/
def execDetach (launch : Nat) (s : State) : Host.Outcome State Fault Refusal :=
  let bs := launchBlocks s launch
  let s := bs.foldl (fun s b => modBlock s b.uid releaseAll) s
  .next (answer (settleBlocks (modLaunch s launch fun l => { l with dbg := none, bps := [] }) bs) 0)

/-! ### Groups by identifier -/

/-- The resident group with an identifier: block and index. -/
def groupWith (s : State) (gid : Nat) : Option (Nat × Nat) :=
  s.work.blocks.findSome? fun b => (List.range b.groups.length).findSome? fun g =>
    if gidAt s b.uid g = gid then some (b.uid, g) else none

/-- The entries that a command's index names: one, or with 8 every one, that satisfy a test. -/
def entriesFor (g : Group) (idx : Nat) (p : Path → Bool) : List Nat :=
  (if idx = 8 then List.range 8 else [idx]).filter fun i => (g.paths[i]?).any p

/-- Whether an entry holds a path. -/
def Path.live (p : Path) : Bool := p.st != .free

/-- HOLD (R372, R373): a path stops between two instructions, and a KIND 4 record says so. -/
def execHold (gid idx : Nat) (s : State) : Host.Outcome State Fault Refusal :=
  match (groupWith s gid).bind fun x => (groupOf s x.1 x.2).map fun g => (x, entriesFor g idx Path.live) with
  | none => .next (answer s 2)
  | some (_, []) => .next (answer s 2)
  | some ((u, g), es) =>
    .next (answer (es.foldl (fun s e => pathRecords (modPath s u g e fun q => { q with held := true }) u g e 4) s) 0)

/-- RELEASE (R372). -/
def execRelease (gid idx : Nat) (s : State) : Host.Outcome State Fault Refusal :=
  match (groupWith s gid).bind fun x => (groupOf s x.1 x.2).map fun g => (x, entriesFor g idx fun q => q.held) with
  | none => .next (answer s 3)
  | some (_, []) => .next (answer s 3)
  | some ((u, g), es) =>
    .next (answer (afterUnit (es.foldl (fun s e => modPath s u g e fun q => { q with held := false, step := false }) s) u) 0)

/-- STEP (R375): the held path runs one instruction once it is READY. -/
def execStep (gid idx : Nat) (s : State) : Host.Outcome State Fault Refusal :=
  match groupWith s gid with
  | none => .next (answer s 3)
  | some (u, g) =>
    if (pathOf s u g idx).any (·.held) then .next (answer (modPath s u g idx fun q => { q with step := true }) 0)
    else .next (answer s 3)

/-- The group after a split: lanes `m` of register set `set` leave entry `e` for entry `f`, and share what it waits for. -/
def splitHeld (g : Group) (e f set : Nat) (m : LaneMask) : Group :=
  match g.paths[e]? with
  | none => g
  | some q =>
    let one := (List.range q.mask.length).map fun j => if j = set then m else 0
    let g := g.modPath e fun q => { q with mask := mSub q.mask one }
    let g := g.modPath f fun _ => { q with mask := one, dlist := none, unrep := true, kills := [], trap := none, step := false }
    { g with ctx := { g.ctx with armed := if g.ctx.armed.contains e then g.ctx.armed ++ [f] else g.ctx.armed } }

/-- SPLIT (R376): statuses 3, 4 and 5 of R372. It waits for what the path has issued. -/
def execSplit (gid idx set : Nat) (m : LaneMask) (s : State) : Host.Outcome State Fault Refusal :=
  match (groupWith s gid).bind fun x => (groupOf s x.1 x.2).map fun g => (x, g) with
  | none => .next (answer s 3)
  | some ((u, g), gr) =>
    match gr.paths[idx]? with
    | none => .next (answer s 3)
    | some q =>
      let own := q.mask.getD set 0
      if !q.held then .next (answer s 3)
      else if unpassed s u g idx then .next s
      else match freeEntry gr with
      | none => .next (answer s 4)
      | some f =>
        if m = 0 || m &&& own != m || m = own then .next (answer s 5)
        else .next (answer (pathRecords (modGroup s u g fun gr => splitHeld gr idx f set m) u g f 5) 0)

/-- BPSET (R372, R374). -/
def execBpset (launch slot pc : Nat) (s : State) : Host.Outcome State Fault Refusal :=
  match launchOf s launch with
  | none => .next s
  | some l =>
    if l.dbg.isNone then .next (answer s 6)
    else .next (answer (modLaunch s launch fun l => { l with bps := l.bps.set (slot % 8) pc }) 0)

/-- BPCLR (R372). -/
def execBpclr (launch slot : Nat) (s : State) : Host.Outcome State Fault Refusal :=
  match launchOf s launch with
  | none => .next s
  | some l =>
    if l.dbg.isNone then .next (answer s 6)
    else .next (answer (modLaunch s launch fun l => { l with bps := l.bps.erase (slot % 8) }) 0)

/-! ### State of a group (R377) -/

/-- Whether an issued instruction has yet to write what an item names (R168). -/
def itemPending (s : State) (uid g : Nat) (it : Sys2Proof.DbgItem) : Bool :=
  let span : Option (Bool × Nat × Nat) := match it with
    | .vreg _ _ n => some (true, n, 1)
    | .greg n => some (false, n, 1)
    | _ => none
  match span with
  | some x => (windowOf s uid g).any fun p => (pendSpan p).any fun a => spansMeet a x
  | none => false

/-- The words of 8 bytes that a field list fills. -/
def wordsOf (n : Nat) (fs : List Field) : List Nat := (List.range n).map fun i => bitsAt (imageOf fs) (64 * i) 64

/-- What RDSTATE answers of an item. -/
def itemValue (gr : Group) (v : Variant) (it : Sys2Proof.DbgItem) : List Nat :=
  let r := gr.regs v
  match it with
  | .vreg j l n => [(r.rdV j l n).toNat]
  | .greg n => [(r.rdG n).toNat]
  | .lpred j l i => [(r.rdP j l i).toNat]
  | .kpred i => [(r.rdK i).toNat]
  | .counter i => [truncN 16 (gr.ctx.ctrs.getD i 0)]
  | .pathPc i => (match gr.paths[i]? with | some p => wordsOf 2 (pathFields 0 p) | none => [])
  | .pathMask i j => (match gr.paths[i]? with | some p => [(p.mask.getD j 0).toNat] | none => [])
  | .token i => (match gr.tokens.get? i with | some t => wordsOf 20 (tokenFields 0 i t) | none => [])

/-- RDSTATE (R377). -/
def execRdstate (gid : Nat) (it : Sys2Proof.DbgItem) (s : State) : Host.Outcome State Fault Refusal :=
  match groupWith s gid with
  | none => .next (answer s 2)
  | some (u, g) =>
    match groupOf s u g, blockOf s u with
    | some gr, some b => if itemPending s u g it then .next s else .next (reply s (.words (itemValue gr b.v it)))
    | _, _ => .next (answer s 2)

/-- Whether the holds that a write needs are there (R377). -/
def mayWrite (gr : Group) (it : Sys2Proof.DbgItem) : Bool :=
  let lane (j l : Nat) : Bool := gr.paths.any fun q => q.live && q.held && (q.mask.getD j 0).getLsbD l
  match it with
  | .vreg j l _ | .lpred j l _ => lane j l
  | .token _ => false
  | _ => gr.paths.all fun q => !q.live || q.held

/-- The register view after a write. -/
def itemRegs (r : Regs) (it : Sys2Proof.DbgItem) (v : Nat) : Regs :=
  match it with
  | .vreg j l n => r.wrV j l n (BitVec.ofNat 32 v)
  | .greg n => r.wrG n (BitVec.ofNat 32 v)
  | .lpred j l i => r.wrP j l i (bitAt v 0)
  | .kpred i => r.wrK i (bitAt v 0)
  | _ => r

/-- A written item of a group. -/
def writeItem (s : State) (u g : Nat) (it : Sys2Proof.DbgItem) (v : Nat) : State :=
  match it with
  | .counter i => setCtr s u g i (sextN 16 (v % 2 ^ 16))
  | .pathPc i => modPath s u g i fun q => { q with pc := v % 2 ^ 48, unrep := true }
  | .pathMask i j => modPath s u g i fun q => { q with mask := q.mask.set j (BitVec.ofNat 64 v), unrep := true }
  | .token _ => s
  | .vreg _ _ n =>
    modGroup (putFinal s u g fun r => itemRegs r it v) u g fun gr => { gr with opbuf := gr.opbuf.filter fun m => m != n }
  | _ => putFinal s u g fun r => itemRegs r it v

/-- WRSTATE (R377): status 3 without the holds it needs. -/
def execWrstate (gid : Nat) (it : Sys2Proof.DbgItem) (v : Dword) (s : State) : Host.Outcome State Fault Refusal :=
  match groupWith s gid with
  | none => .next (answer s 2)
  | some (u, g) =>
    match groupOf s u g with
    | none => .next (answer s 2)
    | some gr =>
      if !mayWrite gr it then .next (answer s 3)
      else if itemPending s u g it then .next s
      else .next (answer (writeItem s u g it v.toNat) 0)

/-! ### The sampler (R371) -/

/-- PC_SAMPLE: the path that issued last in the quadrant whose turn it is. -/
def execPcSample (die core : Nat) (s : State) : Host.Outcome State Fault Refusal :=
  if s.mgmt.smp = 0 || die ≥ 4 || core ≥ 64 then .next s
  else
    let ci := coreIndex die core
    let q := (s.mgmt.smpQuad.get? ci).getD 0
    let s := { s with mgmt := { s.mgmt with smpQuad := s.mgmt.smpQuad.set ci ((q + 1) % 4) } }
    match (coreState s ci).lastIssue.getD q none with
    | some (u, g, p) => .next (pathRecords s u g p 0)
    | none => .next s

/-! ### Trace control (R379, R383, R392) -/

/-- Trace stops: pending branch bits are written, then in loss mode the LOSS alone, if it fits (R392). -/
def traceOff (s : State) (ci : Nat) (v : Word) : State :=
  let s := yFlush s ci
  let y := yarrowOf s ci
  let s := match y.loss with
    | some c =>
      let p := 0xF0#8 :: varintOf c
      if p.length ≤ y.free then yRaw s ci p else s
    | none => s
  setYarrow s ci { yarrowOf s ci with ctl := v, loss := none, due := false, bits := [], owner := none, last := none }

/-- YTR_CTL. -/
def execYtrCtl (die core : Nat) (v : Word) (s : State) : Host.Outcome State Fault Refusal :=
  if die ≥ 4 || core ≥ 64 then .next s
  else
    let ci := coreIndex die core
    let v := v &&& 0xFFFF0003#32
    let y := yarrowOf s ci
    if !bitAt v.toNat 0 then .next (if bitAt y.ctl.toNat 0 then traceOff s ci v else setYarrow s ci { y with ctl := v })
    else if bitAt y.ctl.toNat 0 then .next (setYarrow s ci { y with ctl := v })
    else
      let s := setYarrow s ci { y with ctl := v, due := true }
      .next (if y.free ≥ 15 then ySync s die core else s)

/-! ### Recording and replay (R385 to R388) -/

/-- RECORD: a launch that declares leases records or replays; MODE 0 stops it. Its groups' clocks start at 0. -/
def execRecord (launch clkt rplBase rplSize mode : Nat) (s : State) : Host.Outcome State Fault Refusal :=
  match launchOf s launch with
  | none => .next s
  | some l =>
    if l.k.nlease = 0 then .next (answer s 1)
    else
      let s := modLaunch s launch fun l => { l with rr := some ⟨mode, clkt, rplBase, rplSize, 0, 0, []⟩ }
      .next (answer ((launchBlocks s launch).foldl (fun s b => modBlock s b.uid fun b =>
        { b with groups := b.groups.map fun g => { g with gclk := 0, redc := [], replayed := 0 } }) s) 0)

/-- What a group has issued goes on where its replay lets it. -/
def retryWindow (s : State) (i : Iss) (p : Pend) : State :=
  match (if p.isStore then tryStore s i p else tryData s i p) with
  | (t, .yes) => t
  | _ => s

/-- REPLAY_WAIT_END (R388): the source group's clock has reached a record's; the accesses that waited for it complete. -/
def execReplayWaitEnd (blk who : Nat) (s : State) : Host.Outcome State Fault Refusal :=
  match issOf s blk who with
  | none => .next s
  | some i =>
    if !(i.l.rr.any fun r => r.mode == 2) then .next s
    else .next (afterUnit ((windowOf s blk who).foldl (fun s p => match issOf s blk who with
      | some i => retryWindow s i p
      | none => s) s) blk)

end Sys2Proof.Machine
end

