-- ==== Sys2Proof/Machine/Dist.lean ====
section
/-!
DEFINITION. The distributors (15 R288 to R297, 13 R256): kernel descriptors and records read and checked, blocks placed and
started, and a cohort resumed from its frames (R301) or its save areas (20 R361).
-/

namespace Sys2Proof.Machine

/-! ### Reading for a launch -/

/-- What a distributor's read comes to: status 8 of R291 when it cannot. -/
inductive DRead where
  | ok (v : Nat)
  | bad
  | wait
  deriving DecidableEq, Repr

def distGo (asid : Nat) : List (Nat × Nat × Nat) → State → Nat → State × DRead
  | [], s, v => (s, .ok v)
  | (va, m, o) :: r, s, v =>
    if va ≥ 2 ^ 48 || !((walk s (tabAsid asid va) va).any fun w => (pteAttr w.pte).rd) then (s, .bad)
    else match uncachedRead s agentTag (keyOf asid va) with
      | (s, .ok l false) => distGo asid r s (v + lineGet l (va % 128) m * 256 ^ o)
      | (s, .wait) => (s, .wait)
      | (s, _) => (s, .bad)

/-- `n` bytes at a VA under an ASID, as a distributor reads them. -/
def distRead (s : State) (asid va n : Nat) : State × DRead := distGo asid (pieces (pieceFuel n) va n 0) s 0

/-! ### Kernel descriptors (R288, R289) -/

def variantOf (w : Nat) : Variant :=
  ⟨128 * 2 ^ bitsAt w 64 2, 2 ^ bitsAt w 66 2, bitsAt w 68 4 + 1, 128 * bitsAt w 80 12, bitsAt w 72 4, bitsAt w 0 48, bitsAt w 128 48⟩

def kernelOf (x : Nat) (pin : Bool) : Kernel where
  vars := (List.range (bitsAt x 0 4)).map fun v => variantOf (bitsAt x (512 + 256 * v) 256)
  prog := bitsAt x 4 2
  divz := bitAt x 6
  nlease := bitsAt x 8 5
  ltpb := bitsAt x 32 11
  fmax := bitsAt x 64 32
  rtab := bitsAt x 112 48
  rcnt := bitsAt x 160 16
  nsw := bitsAt x 176 16
  ftab := bitsAt x 192 48
  place := if pin then (List.range (bitsAt x 240 16)).map fun i =>
      let w := bitsAt x (512 + 256 * bitsAt x 0 4 + 64 * i) 64
      (bitsAt w 0 32, bitsAt w 32 2, bitsAt w 34 6)
    else []

/-- Whether a descriptor sets a reserved field (status 1). -/
def kernelReserved (x : Nat) : Bool :=
  bitsAt x 96 16 != 0 || bitsAt x 43 21 != 0 || bitsAt x 13 19 != 0 || bitAt x 7
    || (List.range (bitsAt x 0 4)).any fun v =>
      let w := bitsAt x (512 + 256 * v) 256
      bitsAt w 176 80 != 0 || bitsAt w 92 36 != 0 || bitsAt w 76 4 != 0 || bitsAt w 48 16 != 0 || bitsAt w 64 2 == 3

/-- Whether a record sets a reserved field, or its kind is reserved (R290). -/
def recordReserved (r : Nat) : Bool :=
  match bitsAt r 252 4 with
  | 3 => bitsAt r 248 3 != 0 || bitsAt r 160 16 != 0 || bitsAt r 48 16 != 0
  | 0 | 2 => bitsAt r 240 12 != 0 || bitsAt r 172 36 != 0 || bitsAt r 164 3 != 0 || bitsAt r 162 2 != 0
  | _ => true

/-- Status 7. -/
def kernelRange (k : Kernel) : Bool :=
  k.vars.isEmpty || decide (k.vars.length > 8) || k.prog == 3 || k.ltpb == 0 || decide (k.ltpb > 1024) || decide (k.nlease > 16)
    || k.vars.any fun v => v.groups * v.fold != ceilDiv k.ltpb 64

/-- Reads a whole descriptor, its placement entries with PIN. -/
def readKernel (s : State) (asid kdesc : Nat) (pin : Bool) : State × DRead :=
  match distRead s asid kdesc 64 with
  | (s, .ok h) => distRead s asid kdesc (64 + 32 * bitsAt h 0 4 + (if pin then 8 * bitsAt h 240 16 else 0))
  | r => r

/-- The lease slots of an argument block: byte offset of slot n (R37, R288). -/
def leaseOfs (x n : Nat) : Nat := 8 * bitsAt x (256 + 16 * n) 16

def readRanges (asid args x : Nat) : List Nat → State → List (Nat × Nat) → State × (List (Nat × Nat) ⊕ DRead)
  | [], s, rs => (s, .inl rs)
  | n :: r, s, rs =>
    match distRead s asid (args + leaseOfs x n) 16 with
    | (s, .ok v) => readRanges asid args x r s (rs ++ [(bitsAt v 0 64, bitsAt v 64 64)])
    | (s, e) => (s, .inr e)

/-- R94. -/
def rangeOk (r : Nat × Nat) : Bool :=
  r.2 == 0 || (r.1 % 65536 == 0 && r.2 % 65536 == 0 && decide (r.1 + r.2 ≤ 2 ^ 48) && (decide (r.1 ≥ 2 ^ 47) || decide (r.1 + r.2 ≤ 2 ^ 47)))

/-! ### Placement (R295, R296) -/

/-- Pinned blocks on their cores, by index (R367). -/
def placePinned (s : State) (v : Variant) (ds : List Nat) :
    List (Nat × Option (Nat × Nat)) → Loads → List (Nat × Placed) → Option (Loads × List (Nat × Placed))
  | [], m, ps => some (m, ps)
  | (i, some (d, c)) :: r, m, ps =>
    if !ds.contains d then none
    else (takeAt s m v d c).bind fun x => placePinned s v ds r x.1 (ps ++ [(i, d, c, x.2)])
  | (_, none) :: r, m, ps => placePinned s v ds r m ps

/-- The other blocks in ascending order, each on the first core of some dies that takes it (R295 step 4). -/
def placeRest (s : State) (v : Variant) (ds : List Nat) :
    List (Nat × Option (Nat × Nat)) → Loads → List (Nat × Placed) → Option (Loads × List (Nat × Placed))
  | [], m, ps => some (m, ps)
  | (_, some _) :: r, m, ps => placeRest s v ds r m ps
  | (i, none) :: r, m, ps => (firstCore s v ds m).bind fun x => placeRest s v ds r x.2.2.1 (ps ++ [(i, x.1, x.2.1, x.2.2.2)])

/-- A cohort whose blocks may be pinned, where the placement test puts it: the pinned ones first, whose cores no other block
may need. -/
def placePins (s : State) (v : Variant) (pins : List (Option (Nat × Nat))) (m : Loads) : Option (Loads × List Placed) :=
  let bs := (List.range pins.length).zip pins
  diesTried.findSome? fun ds =>
    (placePinned s v ds bs m []).bind fun x => (placeRest s v ds bs x.1 x.2).map fun y =>
      (y.1, (sortBy (fun a b => decide (a.1 ≤ b.1)) y.2).map (·.2))

/-- The pins of the blocks of a cohort (R289, R367). -/
def pinsOf (l : Launch) (first n : Nat) : List (Option (Nat × Nat)) :=
  (List.range n).map fun i => (l.k.place.find? fun p => p.1 == first + i).map (·.2)

/-- The first eligible variant in table order in which a cohort fits. -/
def fitCohort (s : State) (l : Launch) (first n : Nat) (m : Loads) : Option (Nat × Variant × Loads × List Placed) :=
  (l.k.eligible s).findSome? fun x => (placePins s x.2 (pinsOf l first n) m).map fun y => (x.1, x.2, y.1, y.2)

/-- Cohorts of a launch: first block and size (R290). -/
def cohortSpans (l : Launch) : List (Nat × Nat) :=
  (List.range (ceilDiv l.nblk (l.cohb + 1))).map fun i => (i * (l.cohb + 1), min (l.cohb + 1) (l.nblk - i * (l.cohb + 1)))

/-- Every cohort of a launch placed at once (R295). -/
def fitAll (s : State) (l : Launch) : List (Nat × Nat) → Loads → List (Nat × Nat × Nat × Variant × List Placed) →
    Option (List (Nat × Nat × Nat × Variant × List Placed))
  | [], _, out => some out
  | (f, n) :: r, m, out =>
    match fitCohort s l f n m with
    | some (ix, v, m, ps) => fitAll s l r m (out ++ [(f, n, ix, v, ps)])
    | none => none

/-- The package with nothing resident (R291 status 3). -/
def emptyPackage (s : State) : State :=
  { s with work := { s.work with blocks := [] }, power := { s.power with coresDown := [] } }

/-- The most blocks that are resident at once. -/
def maxBlocks : Nat := 4096

/-- Status 3. -/
def neverFits (s : State) (l : Launch) : Bool :=
  l.k.prog == 0 && (decide (l.nblk > maxBlocks) || (fitAll (emptyPackage s) l (cohortSpans l) [] []).isNone)

/-- Status 6: placement entries (R289). -/
def pinsBad (x : Nat) (l : Launch) : Bool :=
  let ps := l.k.place
  let reserved := (List.range ps.length).any fun i => bitsAt x (512 + 256 * l.k.vars.length + 64 * i + 40) 24 != 0
  reserved || ps.any (fun p => decide (p.1 ≥ l.nblk) || (ps.filter fun q => q.1 == p.1).length > 1)
    || ps.any fun p => !diesAllowed ((ps.filter fun q => q.1 / (l.cohb + 1) == p.1 / (l.cohb + 1)).map (·.2.1))

/-! ### Records at the head of a queue (R291, R293) -/

/-- Where a queue's head stands; none when it is empty. -/
def queueHead (s : State) (q : Nat) : Option Nat :=
  let h := (s.work.qhead.get? q).getD 0
  if h = (s.work.qtail.get? q).getD 0 || (s.work.qsize.get? q).getD 0 = 0 then none else some h

/-- A record of a queue, by its index. -/
def recordAt (s : State) (q ix : Nat) : State × Option (Nat × Nat) :=
  match engRead s ((s.work.qbase.get? q).getD 0 + 32 * ix) 32 with
  | (s, some v) => (s, some (ix, v))
  | (s, none) => (s, none)

/-- The record at the head of a queue. -/
def headRecord (s : State) (q : Nat) : State × Option (Nat × Nat) :=
  match queueHead s q with
  | none => (s, none)
  | some h => recordAt s q h

/-- The records that a queue holds, in order. -/
def heldRecords (s : State) (q : Nat) : List Nat :=
  match queueHead s q with
  | none => []
  | some h =>
    let n := max 1 ((s.work.qsize.get? q).getD 0)
    ((List.range (((s.work.qtail.get? q).getD 0 + n - h) % n)).map fun i => (h + i) % n).filter fun i => !s.work.taken.contains (q, i)

/-- The launch whose record is at the head of a queue. -/
def queuedLaunch (s : State) (q : Nat) : Option Launch := s.work.launches.find? fun l => l.queued && l.queue == q

/-- Whether distributors pop at all: the rejected-record ring has room (R292). -/
def popsAllowed (s : State) : Bool := decide (s.mgmt.rej.buf.length < 16)

/-- ASID and private bytes under which a record was enqueued; a host's record has none of them (R290, assumption log 11). -/
def originOf (s : State) (q ix : Nat) : Nat × Nat :=
  ((s.work.origin.find? fun e => e.1 == q && e.2.1 == ix).map fun e => (e.2.2.1, e.2.2.2)).getD (0, 0)

/-- A record is refused (R291): its JOIN is signalled as if its work had completed; it has no blocks whose stores would come
first. -/
def rejectAt (s : State) (q ix rec status asid join : Nat) : State :=
  let e := toBytes 64 (rec + status * 2 ^ 256 + q * 2 ^ 264)
  let s := popAt s q ix
  let s := ringPush { s with work := { s.work with rejects := s.work.rejects + 1 } } .rej e
  joinSignal s asid join none

/-! ### Slots and TASK values (R294, R356, R256) -/

/-- The first free TASK value from a hash upward. -/
def freeTask (held : List Nat) : Nat → Nat → Option Nat
  | 0, _ => none
  | fuel + 1, t => if held.contains (t % 65536) then freeTask held fuel (t + 1) else some (t % 65536)

/-- TASK values of blocks, one after the other. -/
def freeTasks (s : State) (launch rec : Nat) : List Nat → List Nat → Option (List Nat)
  | [], out => some out
  | b :: r, out =>
    let held := tasksHeld s ++ out
    if held.length ≥ 65536 then none
    else (freeTask held (held.length + 1) (Config.taskHash launch b rec)).bind fun t => freeTasks s launch rec r (out ++ [t])

/-- What new blocks take besides a core: private slots, save slots, TASK values. -/
structure Taken where
  slots : List Nat
  saves : List Nat
  tasks : List Nat
  deriving DecidableEq, Repr

/-- Slots and values for blocks; the private slots counted from one on. -/
def takeFor (s : State) (launch rec slot : Nat) (blocks : List Nat) : Option Taken :=
  match freeFrom s.work.ppSlots slot blocks.length (slotsHeld s), freeFrom s.work.csaSlots 0 blocks.length (savesHeld s),
    freeTasks s launch rec blocks [] with
  | some a, some b, some c => some ⟨a, b, c⟩
  | _, _, _ => none

/-! ### Starting a cohort (R285, R295, R319, R320) -/

def freshBars (p : Nat) : List Bar := List.replicate 16 ⟨p, 0, 0, []⟩

/-- Where each block of a cohort lies (R149). -/
def planFor (uid0 : Nat) (v : Variant) (ps : List Placed) : List Member :=
  (List.range ps.length).filterMap fun i => (ps[i]?).map fun p => ⟨uid0 + i, i, p.1, p.2.1, v.scr⟩

/-- Work is placed on cores: their instruction caches are invalidated (R114). -/
def clearCode (s : State) (ps : List Placed) : State :=
  let on (ci : Nat) : Bool := ps.any fun p => coreIndex p.1 p.2.1 == ci
  { s with coh := { s.coh with icache := s.coh.icache.filter fun e => !on e.1 } }

/-- A cohort's blocks become resident at their first dispatch. -/
def startCohort (s : State) (l : Launch) (first vidx : Nat) (v : Variant) (ps : List Placed) (t : Taken) (frame : Nat) : State :=
  let uid0 := s.work.nextUid
  let coh := uid0 + ps.length
  let bs := (List.range ps.length).filterMap fun i => (ps[i]?).map fun p =>
    let b := freshBlock (uid0 + i) coh l.id (first + i) i p.1 p.2.1 p.2.2.spans vidx v (t.slots.getD i 0) l.k.ltpb l.prv l.args
      (coreState s (coreIndex p.1 p.2.1)).ecap p.2.2.gslots p.2.2.bctx (t.tasks.getD i 0)
    { b with save := t.saves.getD i 0, frame := frame }
  let s := clearCode s ps
  { s with work := { s.work with
    blocks := s.work.blocks ++ bs
    cohorts := s.work.cohorts ++ [⟨coh, l.id, l.queue, first, ps.length, freshBars (v.groups * ps.length), false, none, false, planFor uid0 v ps⟩]
    nextUid := coh + 1 } }

/-- Whether every granule of a range has a valid leaf (R95); the fuel is the range's granules. -/
def mappedFrom (s : State) (asid : Nat) : Nat → Nat → Nat → Bool
  | 0, _, _ => true
  | fuel + 1, va, stop =>
    if va ≥ stop then true
    else match walk s (tabAsid asid va) va with
      | none => false
      | some w => mappedFrom s asid fuel (va + 2 ^ w.size - va % 2 ^ w.size) stop

def rangesMapped (s : State) (l : Launch) : Bool :=
  l.ranges.all fun r => r.2 == 0 || mappedFrom s l.asid (r.2 / 65536 + 1) r.1 (r.1 + r.2)

/-- The next block-start record of a launch: first block and how many start together. -/
def nextSpan (l : Launch) : Nat × Nat := (l.next, min (l.cohb + 1) (l.nblk - l.next))

/-- Hands out a launch's next cohort, or every cohort of a concurrent one; places are given or the test's own. -/
def startNext (s : State) (l : Launch) (slot : Nat) (given : Option (List (Nat × Nat))) : Option State :=
  let (first, n) := nextSpan l
  if n = 0 || l.failed || !rangesMapped s l then none
  else
    let after (s : State) (k : Nat) : State :=
      let s := modLaunch s l.id fun l => { l with next := l.next + k, leased := true }
      if l.next + k ≥ l.nblk then dequeueLaunch s l.id else s
    if l.k.prog = 0 then
      match fitAll s l (cohortSpans l) [] [], takeFor s l.id 0 slot (List.range l.nblk) with
      | some cs, some t =>
        some (after (cs.foldl (fun s c => startCohort s l c.1 c.2.2.1 c.2.2.2.1 c.2.2.2.2
          ⟨t.slots.drop c.1, t.saves.drop c.1, t.tasks.drop c.1⟩ 0) s) l.nblk)
      | _, _ => none
    else
      match fitCohort s l first n [], takeFor s l.id 0 slot ((List.range n).map (first + ·)) with
      | some (ix, v, _, ps), some t =>
        (match given with
         | none => some (after (startCohort s l first ix v ps t 0) n)
         | some places =>
           let pins := pinsOf l first n
           let ok := places.length == n && diesAllowed (places.map (·.1))
             && (List.range n).all fun i => match pins.getD i none with | some p => places[i]? == some p | none => true
           if !ok then none
           else (placeGiven s v places [] []).map fun x => after (startCohort s l first ix v x.2 t 0) n)
      | _, _ => none

/-! ### Switch tables and frames (R298 to R301) -/

/-- An entry of a frame map. -/
structure MapEntry where
  kind : Nat
  reg : Nat
  cnt : Nat
  grp : Nat
  ofs : Nat
  len : Nat
  sofs : Nat
  deriving DecidableEq, Repr

def mapEntryOf (x : Nat) : MapEntry :=
  ⟨bitsAt x 125 3, bitsAt x 116 9, bitsAt x 107 9, bitsAt x 103 4, bitsAt x 64 32, bitsAt x 18 18, bitsAt x 0 18⟩

/-- A switch point as a variant sees it: slot sizes, the SWPT's PC, the map. -/
structure Switch where
  tsz : Nat
  bsz : Nat
  pc : Nat
  map : List MapEntry
  deriving DecidableEq, Repr

/-- What looking a switch point up comes to. -/
inductive Look where
  | found (w : Switch)
  | absent
  | wait
  deriving DecidableEq, Repr

/-- The most entries of a frame map that the engine reads. -/
def mapFuel : Nat := 65536

def readMap (cl asid : Nat) : Nat → Nat → State → List MapEntry → State × Option (List MapEntry)
  | 0, _, s, es => (s, some es)
  | fuel + 1, va, s, es =>
    match agentRead s cl asid va 16 with
    | (s, .ok _ _, x, _) =>
      let e := mapEntryOf x
      if e.kind = 0 then (s, some es) else readMap cl asid fuel (va + 16) s (es ++ [e])
    | (s, _, _, _) => (s, none)

/-- The table entry of a switch id, entries 0 on. -/
def findSwitch (cl asid ftab id : Nat) : Nat → Nat → State → State × Option (Option Nat)
  | 0, _, s => (s, some none)
  | fuel + 1, n, s =>
    match agentRead s cl asid (ftab + 80 * n) 80 with
    | (s, .ok _ _, x, _) => if bitsAt x 0 16 = id then (s, some (some x)) else findSwitch cl asid ftab id fuel (n + 1) s
    | (s, .bad _, _, _) => (s, some none)
    | (s, .wait, _, _) => (s, none)

def lookSwitch (s : State) (cl : Nat) (l : Launch) (vidx id : Nat) : State × Look :=
  match findSwitch cl l.asid l.k.ftab id l.k.nsw 0 s with
  | (s, none) => (s, .wait)
  | (s, some none) => (s, .absent)
  | (s, some (some x)) =>
    let va := bitsAt x (128 + 64 * vidx) 64
    match agentRead s cl l.asid va 8 with
    | (s, .ok _ _, h, _) =>
      (match readMap cl l.asid mapFuel (va + 8) s [] with
       | (s, some es) => (s, .found ⟨bitsAt x 16 16, bitsAt x 32 32, bitsAt h 0 48, es⟩)
       | (s, none) => (s, .wait))
    | (s, _, _, _) => (s, .wait)

/-- Bytes of a frame with some thread slots and a block slot. -/
def frameBytes (l : Launch) (w : Switch) : Nat := 192 + l.k.ltpb * w.tsz + w.bsz

/-- Thread t of a variant: group, register set, lane (R286). -/
def placeOfThread (v : Variant) (t : Nat) : Nat × Nat × Nat := (t / 64 % v.groups, t / 64 / v.groups, t % 64)

/-- One map entry loaded from a frame `x` (R301). -/
def loadEntry (l : Launch) (w : Switch) (x : Nat) (b : Block) (e : MapEntry) : Block :=
  let blk := 192 + l.k.ltpb * w.tsz
  match e.kind with
  | 1 =>
    (List.range l.k.ltpb).foldl (fun b t =>
      let (g, j, ln) := placeOfThread b.v t
      { b with groups := b.groups.modify g fun gr =>
          let r := (List.range e.cnt).foldl (fun r i =>
            r.wrV j ln (e.reg + i) (BitVec.ofNat 32 (field x (192 + t * w.tsz + e.ofs + 4 * i) 4))) (gr.regs b.v)
          { gr with vregs := r.v } }) b
  | 2 =>
    { b with groups := b.groups.modify e.grp fun gr =>
        { gr with ctx := { gr.ctx with gregs := ((gr.regs b.v).wrG e.reg (BitVec.ofNat 32 (field x (blk + e.ofs) 4))).g } } }
  | 3 => { b with scr := scrPut b.scr e.sofs e.len (field x (blk + e.ofs) e.len) }
  | _ => b

/-- A block as a resumption builds it before anything is loaded (R301): registers dead or zero, predicates false. -/
def emptyBlock (b : Block) (l : Launch) (ecap : Int) (gslots : List Nat) (pc : Nat) (masks : Nat → List LaneMask) : Block :=
  { b with groups := (List.range b.v.groups).map fun g => freshGroup b.v ecap none (gslots.getD g 0) pc (masks g)
           bms := b.bms.map fun m => freshBms ecap b.v.seq m.bctx l.args }

/-- The ALIVE lanes of a frame header. -/
def aliveMasks (v : Variant) (ltpb x g : Nat) : List LaneMask :=
  (List.range v.fold).map fun j => maskOf ((List.range 64).filter fun ln =>
    let t := 64 * (v.groups * j + g) + ln
    decide (t < ltpb) && bitAt (field x 64 128) t)

/-- SEQ and HWM of every issuer index, those that the variant lacks included (R256). -/
def withSeqs (b : Block) (seq hwm : Nat → Nat) : Block :=
  let has (n : Nat) : Bool := if n = bmsWho then b.bms.isSome else decide (n < b.groups.length)
  { b with
    absent := ((List.range 17).filter fun n => !has n).map fun n => (n, seq n, hwm n)
    groups := (List.range b.groups.length).filterMap fun g => (b.groups[g]?).map fun gr =>
      { gr with ctx := { gr.ctx with seq := seq g, hwm := hwm g } }
    bms := b.bms.map fun m => { m with ctx := { m.ctx with seq := seq bmsWho, hwm := hwm bmsWho } } }

/-- The block of a frame that does not match its record (R301): every group raises 0x0C where it stands, from the entry PC on. -/
def strayBlock (b : Block) (l : Launch) (ecap : Int) (gslots : List Nat) : Block :=
  let b := emptyBlock b l ecap gslots b.v.entry (validMasks b.v l.k.ltpb)
  { b with
    groups := b.groups.map fun g => { g with stray := true }
    bms := b.bms.map fun m => { m with st := .exited } }

/-- The instruction word at a PC, as an agent reads it now. -/
def codeWord (s : State) (cl asid pc : Nat) : IWord := BitVec.ofNat 96 (agentRead s cl asid pc 12).2.2.1

/-- What resuming a block comes to. -/
inductive Resumed where
  | ok (b : Block)
  | poison (va : Nat)
  | wait
  deriving DecidableEq, Repr

/-- A block built from its frame in a variant (R301). -/
def resumeFrame (s : State) (l : Launch) (b : Block) (kdesc frame swid : Nat) (gslots : List Nat) (ecap : Int) : State × Resumed :=
  let cl := b.cluster
  match lookSwitch s cl l b.vidx swid with
  | (s, .wait) => (s, .wait)
  | (s, look) =>
    match readArea s cl l.asid frame 192 with
    | (s, .poison a) => (s, .poison a)
    | (s, .wait) => (s, .wait)
    | (s, .ok h) =>
      match readArea s cl 0 (saveVa s b.save + 296) 34 with
      | (s, .poison a) => (s, .poison a)
      | (s, .wait) => (s, .wait)
      | (s, .ok q) =>
        let hwm (n : Nat) : Nat := bitsAt q (16 * n) 11
        let seq (n : Nat) : Nat := bitsAt (field h 24 34) (16 * n) 11
        let stray (s : State) : State × Resumed := (s, .ok (withSeqs (strayBlock b l ecap gslots) seq hwm))
        match look with
        | .found w =>
          if bitsAt h 0 48 ≠ kdesc || bitsAt h 48 16 ≠ swid then stray s
          else (match readArea s cl l.asid frame (frameBytes l w) with
            | (s, .ok x) =>
              let b := emptyBlock b l ecap gslots ((w.pc + 12) % 2 ^ 48) (aliveMasks b.v l.k.ltpb x)
              (s, .ok (withSeqs (w.map.foldl (loadEntry l w x) b) seq hwm))
            | (s, .poison a) => (s, .poison a)
            | (s, .wait) => (s, .wait))
        | _ => stray s

/-- A block rebuilt from its save area (R361): armed waits whose counters have fallen meanwhile fire. -/
def resumeSave (s : State) (b : Block) (gslots : List Nat) : State × Resumed :=
  match readSave s b.cluster b.save b.v with
  | (s, .ok x) =>
    let b := blockFrom s.sched.cycle x b
    (s, .ok { b with groups := (List.range b.groups.length).filterMap fun g => (b.groups[g]?).map fun gr => { gr with gslot := gslots.getD g 0 } })
  | (s, .poison a) => (s, .poison a)
  | (s, .wait) => (s, .wait)

/-- Armed waits of a resumed block that hold now, in arming order (R136). -/
def fireHeld (s : State) (uid : Nat) : State :=
  match blockOf s uid with
  | none => s
  | some b => (issuersOf b).foldl (fun s who =>
      match ctxOf s uid who with
      | none => s
      | some c => c.armed.foldl (fun s p =>
          match armedWait s uid who p with
          | .ctr n thr _ =>
            if c.ctrs.getD n 0 ≤ thr then
              fireWait (modCtx s uid who fun x => { x with armed := x.armed.filter fun a => a != p }) uid who p
            else s
          | _ => s) s) s

end Sys2Proof.Machine
end

