-- ==== Sys2Proof/Machine/DistEvents.lean ====
section
/-!
DEFINITION. The distributors' steps (15 R290 to R297, R301, R302; 20 R361, R368): launch records admitted, blocks handed out,
cohorts and tasks resumed or started, tails written, work asked for, and yield requests of starved records.
-/

namespace Sys2Proof.Machine

/-! ### Admission (R291) -/

/-- What admitting a record comes to. -/
inductive Admit where
  | ok (l : Launch)
  | refused (status : Nat)
  | wait
  deriving DecidableEq, Repr

/-- A launch as a record and its origin describe it. -/
def launchFor (s : State) (q r asid prv : Nat) (isTask : Bool) : Launch where
  id := s.work.nextUid
  isTask := isTask
  queue := q
  record := BitVec.ofNat 256 r
  kdesc := bitsAt r 0 48
  k := ⟨[], 0, false, 0, 0, 0, 0, 0, 0, 0, []⟩
  asid := asid
  args := bitsAt r 64 48
  prv := prv
  nblk := if isTask then 1 else bitsAt r 176 32
  cohb := if isTask then 0 else bitsAt r 244 4
  join := bitsAt r 112 48
  pin := !isTask && bitAt r 251
  next := 0
  ended := 0
  failed := false
  queued := !isTask
  finished := false
  leased := false
  ranges := []
  ppcnt := List.replicate 16 0
  cx := 0
  cxd := List.replicate 5 0
  cxn := 0
  cxc := []
  dbg := none
  bps := []
  rr := none

/-- The checks of a record in the order of R291. -/
def admitRecord (s : State) (r : Nat) (l : Launch) : State × Admit :=
  match readKernel s l.asid l.kdesc l.pin with
  | (s, .wait) => (s, .wait)
  | (s, .bad) => (s, .refused 8)
  | (s, .ok x) =>
    let k := kernelOf x l.pin
    let l := { l with k := k }
    if recordReserved r || kernelReserved x then (s, .refused 1)
    else if kernelRange k then (s, .refused 7)
    else if (k.eligible s).isEmpty then (s, .refused 4)
    else if k.fmax + k.ltpb * l.prv > s.work.ppSlotb then (s, .refused 5)
    else if l.pin && pinsBad x l then (s, .refused 6)
    else
      match readRanges l.asid l.args x (if l.isTask && bitsAt r 48 16 != 0xFFFF then [] else List.range k.nlease) s [] with
      | (s, .inr .bad) => (s, .refused 8)
      | (s, .inr _) => (s, .wait)
      | (s, .inl rs) =>
        let l := { l with ranges := rs }
        if !rs.all rangeOk then (s, .refused 2)
        else if !l.isTask && neverFits s l then (s, .refused 3)
        else (s, .ok l)

/-- LAUNCH_RECORD (R291, R293): the launch record at the head of a queue is admitted or refused; so is a record of a kind
that no queue takes, whose descriptor is read first like any other's. -/
def execLaunchRecord (die q : Nat) (s : State) : Host.Outcome State Fault Refusal :=
  if die ≥ 4 || !popsAllowed s || (queuedLaunch s q).isSome then .next s
  else match headRecord s q with
  | (t, none) => .next (asked s t)
  | (t, some (h, r)) =>
    let kind := bitsAt r 252 4
    if kind = 0 || kind = 2 then .next (asked s t)
    else if kind ≠ 3 then
      let asid := (originOf s q h).1
      match readKernel t asid (bitsAt r 0 48) false with
      | (t, .wait) => .next (asked s t)
      | (t, .bad) => .next (rejectAt t q h r 8 asid (bitsAt r 112 48))
      | (t, .ok _) => .next (rejectAt t q h r 1 asid (bitsAt r 112 48))
    else
      let l := launchFor s q r (bitsAt r 228 16) (16 * bitsAt r 208 20) false
      match admitRecord t r l with
      | (t, .wait) => .next (asked s t)
      | (t, .refused n) => .next (rejectAt t q h r n l.asid l.join)
      | (t, .ok l) =>
        let t := { t with work := { t.work with launches := t.work.launches ++ [l], nextUid := t.work.nextUid + 1 } }
        .next (if l.nblk = 0 then launchCheck (dequeueLaunch t l.id) l.id else t)

/-! ### Resumption (R295, R301, R302, R361) -/

/-- What placing work comes to: a state in which it is placed, one in which its memory makes it wait, or no place. -/
inductive Tried where
  | done (s : State)
  | wait (s : State)
  | no
  deriving DecidableEq, Repr

/-- Whether the work is placed. -/
def Tried.isDone : Tried → Bool
  | .done _ => true
  | _ => false

/-- An outcome with the work placed under a further change; what waits keeps what it has asked for. -/
def Tried.out (x : Tried) (s : State) (f : State → State) : Host.Outcome State Fault Refusal :=
  .next (match x with | .done t => f t | .wait t => asked s t | .no => s)

/-- The frame of a block that is away. -/
def Away.frameVa (s : State) (a : Away) : Nat := if a.frame = 0 then s.work.ppBase + a.slot * s.work.ppSlotb else a.frame

/-- The blocks of a cohort that are away, in ascending index. -/
def awayOf (s : State) (coh : Nat) : List Away :=
  (List.range 16).filterMap fun i => s.work.away.find? fun a => a.cohort == coh && a.inCoh == i

/-- The block that a resume record names: the lowest of a cohort that is away (R290, R299, R358). -/
def awayFor (s : State) (r : Nat) : Option Away :=
  let va := bitsAt r 64 48
  s.work.away.find? fun a =>
    (awayOf s a.cohort).head? == some a
      && (if bitAt r 167 then a.saved && saveVa s a.save == va else !a.saved && a.frameVa s == va)

/-- A block that is away, as it will stand at its place. -/
def skeleton (s : State) (l : Launch) (a : Away) (i : Nat) (vidx : Nat) (v : Variant) (p : Placed) : Block :=
  match a.saved, a.kept with
  | true, some b =>
    { b with die := p.1, core := p.2.1, scrSpans := p.2.2.spans, halted := false, bms := b.bms.map fun m => { m with bctx := p.2.2.bctx } }
  | _, _ =>
    let b := freshBlock (s.work.nextUid + i) a.cohort l.id a.index a.inCoh p.1 p.2.1 p.2.2.spans vidx v a.slot l.k.ltpb l.prv l.args
      (coreState s (coreIndex p.1 p.2.1)).ecap p.2.2.gslots p.2.2.bctx a.task
    { b with save := a.save, frame := a.frame }

/-- The blocks of a cohort built one after the other. -/
def buildBlocks (l : Launch) (r vidx : Nat) (v : Variant) : List (Nat × Away × Placed) → State → List Block → State × (List Block ⊕ Resumed)
  | [], s, bs => (s, .inl bs)
  | (i, a, p) :: rest, s, bs =>
    let b := skeleton s l a i vidx v p
    let ecap := (coreState s (coreIndex p.1 p.2.1)).ecap
    match (if a.saved then resumeSave s b p.2.2.gslots else resumeFrame s l b (bitsAt r 0 48) (a.frameVa s) (bitsAt r 48 16) p.2.2.gslots ecap) with
    | (s, .ok b) => buildBlocks l r vidx v rest s (bs ++ [b])
    | (s, .poison va) =>
      (ringPush s .trq (trapRecord 0 va l.asid b.index l.kdesc p.1 p.2.1 0 0 0 5), .inr (.poison va))
    | (s, e) => (s, .inr e)

/-- The cohort barriers of a cohort that comes back: as its save area has them, or as at dispatch. -/
def resumeBars (s : State) (coh groups : Nat) (a : Away) : State × Option (List Bar) :=
  if a.saved then
    match readArea s 0 0 (saveVa s a.save) 512 with
    | (s, .ok x) => (s, some (barsFrom x 160 (((cohortOf s coh).map fun (c : Cohort) => c.bars).getD [])))
    | (s, _) => (s, none)
  else (s, some (freshBars groups))

/-- A cohort becomes resident again at places. -/
def resumeCohort (s : State) (l : Launch) (r vidx : Nat) (v : Variant) (coh : Nat) (ps : List Placed) : Tried :=
  let as := awayOf s coh
  let parts := (List.range as.length).filterMap fun i => match as[i]?, ps[i]? with | some a, some p => some (i, a, p) | _, _ => none
  match buildBlocks l r vidx v parts s [] with
  | (t, .inr .wait) => .wait t
  | (t, .inr _) => .done (endCohort t coh l.id none)
  | (t, .inl (bs : List Block)) =>
    match as.head? with
    | none => .no
    | some a =>
      match resumeBars t coh (v.groups * bs.length) a with
      | (t, none) => .wait t
      | (t, some bars) =>
        let plan := bs.map fun (b : Block) => (⟨b.uid, b.inCoh, b.die, b.core, v.scr⟩ : Member)
        let t := clearCode t ps
        let t := { t with work := { t.work with
          away := t.work.away.filter fun a => a.cohort != coh
          blocks := t.work.blocks ++ bs
          nextUid := if a.saved then t.work.nextUid else t.work.nextUid + bs.length } }
        let t := modCohort t coh fun c => { c with bars := bars, plan := plan, yield := false, starve := none, preempt := false }
        .done (bs.foldl (fun (s : State) (b : Block) => fireHeld s b.uid) t)

/-- Where a cohort that is away may go: its variant, its places. -/
def resumePlaces (s : State) (l : Launch) (r coh : Nat) (m : Loads) (given : Option (List (Nat × Nat))) :
    Option (Nat × Variant × Loads × List Placed) :=
  let n := (awayOf s coh).length
  let fit : Option (Nat × Variant × Loads × List Placed) :=
    if bitAt r 167 then
      (l.k.vars[bitsAt r 168 4]?).bind fun v => (placePins s v (List.replicate n none) m).map fun x => (bitsAt r 168 4, v, x.1, x.2)
    else (l.k.eligible s).findSome? fun x => (placePins s x.2 (List.replicate n none) m).map fun y => (x.1, x.2, y.1, y.2)
  match fit, given with
  | some f, none => some f
  | some (ix, v, _, _), some places =>
    if places.length != n || !diesAllowed (places.map (·.1)) then none
    else (placeGiven s v places m []).map fun x => (ix, v, x.1, x.2)
  | none, _ => none

/-- The cohorts of a launch that are away. -/
def awayCohorts (s : State) (id : Nat) : List Nat :=
  (s.work.away.filter fun a => a.launch == id).foldl (fun l a => insertNat a.cohort l) []

/-- Every cohort of a pre-empted concurrent launch, each in its saved variant, together (R295). -/
def resumeAllGo (l : Launch) (r : Nat) : List Nat → State → Loads → List (Nat × Nat × Variant × List Placed) →
    Option (List (Nat × Nat × Variant × List Placed))
  | [], _, _, out => some out
  | c :: rest, s, m, out =>
    let vidx := ((awayOf s c).head?.map (·.vidx)).getD 0
    match resumePlaces s l (putBits r 168 4 vidx) c m none with
    | some (ix, v, m, ps) => resumeAllGo l r rest s m (out ++ [(c, ix, v, ps)])
    | none => none

/-- Every cohort of a list comes back. -/
def resumeEach (l : Launch) (r : Nat) : List (Nat × Nat × Variant × List Placed) → State → Tried
  | [], s => .done s
  | c :: rest, s =>
    match resumeCohort s l r c.2.1 c.2.2.1 c.1 c.2.2.2 with
    | .done s => resumeEach l r rest s
    | x => x

/-- A concurrent launch that was pre-empted comes back when the whole of it is saved, all cohorts together (R295). -/
def resumeLaunch (s : State) (q ix r : Nat) (l : Launch) : Tried :=
  if s.work.blocks.any fun b => b.launch == l.id then .no
  else match resumeAllGo l r (awayCohorts s l.id) s [] [] with
  | none => .no
  | some cs =>
    match resumeEach l r cs s with
    | .done s => .done (popAt s q ix)
    | x => x

/-- A resume record taken from its queue (R291, R293, R295): its descriptor is read and its reserved fields are looked at
before it is placed; one that names no cohort is refused with status 1 (assumption log 11). -/
def resumeRecordAt (s : State) (q ix r : Nat) (given : Option (List (Nat × Nat))) : Tried :=
  match awayFor s r with
  | none =>
    -- its cohort came back with the others of its launch
    if bitAt r 167 && s.work.blocks.any fun b => saveVa s b.save == bitsAt r 64 48 then .done (popAt s q ix)
    else .done (rejectAt s q ix r 1 (originOf s q ix).1 (bitsAt r 112 48))
  | some a =>
    match launchOf s a.launch with
    | none => .no
    | some l =>
      match readKernel s l.asid (bitsAt r 0 48) false with
      | (t, .wait) => .wait t
      | (t, .bad) => .done (rejectAt t q ix r 8 l.asid l.join)
      | (t, .ok _) =>
        if recordReserved r then .done (rejectAt t q ix r 1 l.asid l.join)
        else if l.k.prog = 0 && bitAt r 167 then resumeLaunch t q ix r l
        else match resumePlaces t l r a.cohort [] given with
        | none => .no
        | some (ix', v, _, ps) =>
          match resumeCohort t l r ix' v a.cohort ps with
          | .done t => .done (popAt t q ix)
          | x => x

/-! ### Tasks (R290) -/

/-- A new task's block, from its entry or from a frame that its record names. -/
def startTask (s : State) (q r : Nat) (l : Launch) (slot : Nat) (place : Option (Nat × Nat)) : Tried :=
  match resumePlacesNew s l place, takeFor s l.id (bitsAt r 64 48) slot [0] with
  | some (ix, v, ps), some t =>
    let s := popHead { s with work := { s.work with launches := s.work.launches ++ [{ l with next := 1, leased := true }], nextUid := s.work.nextUid + 1 } } q
    let s' := startCohort s l 0 ix v ps t (bitsAt r 64 48)
    if bitsAt r 48 16 = 0xFFFF then .done s'
    else
      (match s'.work.blocks.getLast?, ps.head? with
       | some b, some p =>
         match resumeFrame s' l b (bitsAt r 0 48) (bitsAt r 64 48) (bitsAt r 48 16) p.2.2.gslots (coreState s (coreIndex p.1 p.2.1)).ecap with
         | (s, .ok b) => .done (modBlock s b.uid fun _ => b)
         | (s, .poison va) =>
           .done (endCohort s b.cohort l.id (some (trapRecord 0 va l.asid b.index l.kdesc b.die b.core 0 0 0 5)))
         | (s, .wait) => .wait s
       | _, _ => .no)
  | _, _ => .no
where
  resumePlacesNew (s : State) (l : Launch) (place : Option (Nat × Nat)) : Option (Nat × Variant × List Placed) :=
    match fitCohort s l 0 1 [], place with
    | some (ix, v, _, ps), none => some (ix, v, ps)
    | some (ix, v, _, _), some p => (placeGiven s v [p] [] []).map fun x => (ix, v, x.2)
    | none, _ => none

/-- A task record at the head of a queue: resumed, started or refused. -/
def taskHead (s : State) (q h r : Nat) (slot : Nat) (place : Option (Nat × Nat)) : Tried :=
  match awayFor s (putBits r 167 1 0) with
  | some _ => resumeRecordAt s q h (putBits r 167 1 0) (place.map fun p => [p])
  | none =>
    let o := originOf s q h
    let l := launchFor s q r o.1 o.2 true
    match admitRecord s r l with
    | (t, .wait) => .wait t
    | (t, .refused n) => .done (rejectAt t q h r n l.asid l.join)
    | (t, .ok l) => if !rangesMapped t l then .no else startTask t q r l slot place

/-! ### Which record is popped (R293) -/

/-- The launch of the cohort that a resume record names. -/
def resumeLaunchOf (s : State) (r : Nat) : Option Launch := (awayFor s r).bind fun a => launchOf s a.launch

/-- The first resume record of a parallel or concurrent launch in a queue, wherever it stands; none when one could not be
read. -/
def firstGo (q : Nat) : List Nat → State → State × Option (Option (Nat × Nat))
  | [], s => (s, some none)
  | ix :: rest, s =>
    match recordAt s q ix with
    | (s, none) => (s, none)
    | (s, some (_, r)) =>
      if bitsAt r 252 4 = 2 && (resumeLaunchOf s r).any fun l => decide (l.k.prog ≤ 1) then (s, some (some (ix, r)))
      else firstGo q rest s

def firstResume (s : State) (q : Nat) : State × Option (Option (Nat × Nat)) := firstGo q (heldRecords s q) s

/-- What a distributor makes of the resume records of parallel and concurrent launches in a queue. -/
def resumeNext (s : State) (q : Nat) (given : Option (List (Nat × Nat))) : Tried :=
  match firstResume s q with
  | (t, none) => .wait t
  | (_, some none) => .no
  | (t, some (some (ix, r))) => resumeRecordAt t q ix r given

/-- What a distributor makes of the head of a queue. -/
def headNext (s : State) (q : Nat) (given : Option (List (Nat × Nat))) : Tried :=
  match queuedLaunch s q with
  | some l => (match startNext s l 0 given with | some t => .done t | none => .no)
  | none =>
    match headRecord s q with
    | (t, none) => if (queueHead s q).isSome then .wait t else .no
    | (t, some (h, r)) =>
      match bitsAt r 252 4 with
      | 0 => taskHead t q h r 0 (given.bind (·.head?))
      | 2 => resumeRecordAt t q h r given
      | _ => .no

/-- Queues that hold a record. -/
def heldQueues (s : State) : List Nat := (s.work.qsize.map (·.1)).filter fun q => (queueHead s q).isSome

/-- How far a queue stands behind the one served last, in the rotation of its priority. -/
def rotation (s : State) (die q : Nat) : Nat := (q % 16 + 15 - s.work.rot.getD (4 * die + q / 16) 15) % 16

/-- Whether a distributor may pop a queue next, a resume record that goes first or its head: nothing that it could place comes
before (R293). -/
def mayPop (s : State) (die q : Nat) (first : Bool) : Bool :=
  let before (p : Nat) : Bool := decide (rotation s die p < rotation s die q)
  popsAllowed s && decide (die < 4) && (heldQueues s).all fun p =>
    let resumes := (resumeNext s p none).isDone
    let heads := (headNext s p none).isDone
    if p / 16 > q / 16 then !resumes && !heads
    else if p / 16 = q / 16 then
      (if first then !(before p && resumes) else !resumes && !(before p && heads))
    else true

/-- A queue has been served. -/
def served (die q : Nat) (s : State) : State :=
  { s with work := { s.work with
    rot := s.work.rot.set (4 * die + q / 16) (q % 16)
    tagwaits := s.work.tagwaits.filter (· != die) } }

/-- A record that would start a new task waits at a distributor for a TASK value (R256). -/
def noteTagwait (s : State) (die : Nat) : State :=
  if (tasksHeld s).length ≥ 65536 then { s with work := { s.work with tagwaits := insertNat die s.work.tagwaits } } else s

/-- BLOCK_START (R293, R295, R296): the next block or cohort of a launch, where it is placed. -/
def execBlockStart (die launch : Nat) (place : Placement) (slot : Nat) (s : State) : Host.Outcome State Fault Refusal :=
  match launchOf s launch with
  | none => .next s
  | some l =>
    if !l.queued || !mayPop s die l.queue false then .next s
    else match startNext s l slot (some place) with
    | some t => .next (served die l.queue t)
    | none => .next (noteTagwait s die)

/-- BLOCK_RESUME (R293, R301, R302, R361): the first resume record of a parallel or concurrent launch in a queue, else the
resume record at its head. -/
def execBlockResume (die q : Nat) (place : Placement) (s : State) : Host.Outcome State Fault Refusal :=
  match firstResume s q with
  | (t, none) => .next (asked s t)
  | (_, some (some _)) =>
    if mayPop s die q true then (resumeNext s q (some place)).out s (served die q) else .next s
  | (_, some none) =>
    if (queuedLaunch s q).isSome || !mayPop s die q false then .next s
    else match headRecord s q with
    | (t, some (h, r)) =>
      if bitsAt r 252 4 ≠ 2 then .next s else (resumeRecordAt t q h r (some place)).out s (served die q)
    | (t, none) => .next (asked s t)

/-- TASK_RECORD (R290): the task record at the head of a queue. -/
def execTaskRecord (die q : Nat) (place : Nat × Nat) (slot : Nat) (s : State) : Host.Outcome State Fault Refusal :=
  if (queuedLaunch s q).isSome || !mayPop s die q false then .next s
  else match headRecord s q with
  | (t, none) => .next (asked s t)
  | (t, some (h, r)) =>
    if bitsAt r 252 4 ≠ 0 then .next s
    else match taskHead t q h r slot (some place) with
    | .no => .next (noteTagwait s die)
    | x => x.out s (served die q)

/-- QTAIL (R291, R398): records up to the new tail are enqueued; queues take none before the links are up. -/
def execQtail (q v : Nat) (s : State) : Host.Outcome State Fault Refusal :=
  let n := (s.work.qsize.get? q).getD 0
  if n = 0 || q ≥ 64 || s.boot.step < 7 then .next s
  else
    let t := (s.work.qtail.get? q).getD 0
    let new := (List.range ((v % n + n - t) % n)).map fun i => (t + i) % n
    .next { s with work := { s.work with
      qtail := s.work.qtail.set q (v % n)
      enq := (s.work.enq.filter fun e => !(e.1 == q && new.contains e.2.1)) ++ new.map fun i => (q, i, s.sched.cycle) } }

/-- WORK_REQUEST (R293): a core asks its distributor; the first record in the order that can be placed is, on that core when it
fits there. What a distributor has begun to read it goes on reading. -/
def execWorkRequest (die core : Nat) (s : State) : Host.Outcome State Fault Refusal :=
  if die ≥ 4 || core ≥ 64 || !popsAllowed s then .next s
  else
    let next (first : Bool) (q : Nat) (given : Option (List (Nat × Nat))) : Tried :=
      if first then resumeNext s q given else headNext s q given
    let places := (heldQueues s).flatMap fun q => [(true, q), (false, q)]
    match places.find? fun x => (next x.1 x.2 none).isDone && mayPop s die x.2 x.1 with
    | some (first, q) =>
      let here := next first q (some [(die, core)])
      (if here.isDone then here else next first q none).out s (served die q)
    | none =>
      match places.findSome? fun x => (match next x.1 x.2 none with | .wait t => some t | _ => none) with
      | some t => .next (asked s t)
      | none => .next (noteTagwait s die)

/-- Cycles a record waits before it raises yield requests (R297). -/
def starveLimit : Nat := 65536

/-- YIELD_REQUEST_TIMEOUT (R297, R368): a record of higher priority has waited, counted from its enqueue, without fitting. -/
def execYieldRequestTimeout (q launch : Nat) (s : State) : Host.Outcome State Fault Refusal :=
  match queueHead s q, launchOf s launch with
  | some h, some l =>
    let since := ((s.work.enq.find? fun e => e.1 == q && e.2.1 == h).map (·.2.2)).getD s.sched.cycle
    if l.k.prog = 0 || q / 16 ≤ l.queue / 16 || s.sched.cycle < since + starveLimit || (headNext s q none).isDone then .next s
    else
      let s := { s with work := { s.work with cohorts := s.work.cohorts.map fun c =>
        (if c.launch = launch && s.work.blocks.any (fun b => b.cohort == c.uid) then { c with yield := true, starve := some (q, h) } else c) } }
      .next (swptAll s)
  | _, _ => .next s

end Sys2Proof.Machine
end

