-- ==== Sys2Proof/Machine/Fatal.lean ====
section
/-!
DEFINITION. Fatal errors (20 R363, R364): the dump to host memory, every other die held in reset, and nothing but status
requests answered until a package reset.
-/

namespace Sys2Proof.Machine

/-- Bytes of fields that fill `n` bytes. -/
def fieldBytes (n : Nat) (fs : List Field) : List Byte := toBytes n (imageOf fs)

/-- What the dump holds of one core: the path entries of its groups, then the PCs of its BMS contexts. -/
def dumpCore (s : State) (die core : Nat) : List Byte :=
  let bs := s.work.blocks.filter fun b => b.die == die && b.core == core
  bs.flatMap (fun b => b.groups.flatMap fun g => g.paths.flatMap fun p => fieldBytes 80 (pathFields 0 p))
    ++ bs.flatMap fun b => match b.bms with | some m => toBytes 8 m.pc | none => []

/-- Sections 2 to 4 of the dump. -/
def dumpBody (s : State) : List Byte :=
  ((List.range 4).flatMap fun d => (List.range 64).flatMap fun c => dumpCore s d c)
    ++ s.mgmt.faq.buf.flatten ++ s.mgmt.trq.buf.flatten ++ toBytes 8 s.links.errors ++ toBytes 8 s.links.degrade

/-- The dump header. -/
def dumpHeader (s : State) (cause die detail size : Nat) : List Byte :=
  toBytes 32 (0xF940 + Config.fwVersion.toNat * 2 ^ 64 + cause * 2 ^ 80 + die * 2 ^ 88 + detail * 2 ^ 96 + size * 2 ^ 160
    + s.sched.time.getD 4 0 % 2 ^ 64 * 2 ^ 192)

/-- A fatal error, once. -/
def goFatal (s : State) (cause die detail : Nat) : State :=
  if s.power.fatal.isSome then s
  else
    let body := dumpBody s
    let size := min s.mgmt.fdSize (32 + body.length)
    let s := reply s (.hostWr s.mgmt.fdBase ((dumpHeader s cause die detail size ++ body).take size))
    { s with
      mgmt := { s.mgmt with irqs := s.mgmt.irqs + 1 }
      power := { s.power with fatal := some (cause, die, detail), coresDown := [0, 1, 2, 3], uncoreDown := [0, 1, 2, 3, 5] } }

/-- FREEZE_TIMEOUT (R78, R363): a stack still critical after 1 s of freeze. -/
def execFreezeTimeout (s : State) : Host.Outcome State Fault Refusal :=
  if s.power.frozen && decide (s.power.frzStart + 10 ^ 9 ≤ s.sched.time.getD 4 0) && !s.power.hot.isEmpty then .next (goFatal s 2 4 0)
  else .next s

/-- WATCHDOG_EXPIRY (R363). -/
def execWatchdogExpiry (s : State) : Host.Outcome State Fault Refusal := .next (goFatal s 4 4 0)

/-- The number of a structure in DETAIL (R364 names the field and not its codes: assumption log 35). -/
def onChipCode : OnChip → Nat
  | .directory => 0 | .mtlb => 1 | .distributor => 2

/-- UNCORRECTABLE_STATE_ERROR (R363). -/
def execUncorrectableStateError (die : Nat) (w : OnChip) (s : State) : Host.Outcome State Fault Refusal :=
  .next (goFatal s 3 die (die % 8 + onChipCode w * 8))

end Sys2Proof.Machine
end

