-- ==== Sys2Proof/Machine/FloatOps.lean ====
section
/-!
DEFINITION. Class 1 (10 R191 to R200): each active slot's result is a function of its sources' bits (03 R49 to R56).
-/

namespace Sys2Proof.Machine

/-- A two-source operation, on each element of a packed type (R56). -/
def fOp2 (t : Ty) (op : Fmt → Nat → Nat → Nat) (a : Reg) (b : Opnd) (r : Regs) (sl : Slot) : Nat :=
  let f := op (fmtOf t)
  if isPacked t then packed2 f (src r sl t a) (srcO r sl t b) else f (src r sl t a) (srcO r sl t b)

/-- A one-source operation. -/
def fOp1 (t : Ty) (op : Fmt → Nat → Nat) (a : Reg) (r : Regs) (sl : Slot) : Nat := op (fmtOf t) (src r sl t a)

/-- FADD (R191). -/
def execFadd (h : Hdr) (t : Ty) (rm : Rm) (sat : Bool) (d a : Reg) (b : Opnd) (s : State) : Host.Outcome State Fault Refusal :=
  valueOp s (.fadd h t rm sat d a b) h d (tyRegs t) (fOp2 t (faddBits · rm sat) a b)

/-- FMUL (R191). -/
def execFmul (h : Hdr) (t : Ty) (rm : Rm) (sat : Bool) (d a : Reg) (b : Opnd) (s : State) : Host.Outcome State Fault Refusal :=
  valueOp s (.fmul h t rm sat d a b) h d (tyRegs t) (fOp2 t (fmulBits · rm sat) a b)

/-- FFMA (R191). -/
def execFfma (h : Hdr) (t : Ty) (rm : Rm) (sat : Bool) (d a b : Reg) (c : Opnd) (s : State) : Host.Outcome State Fault Refusal :=
  valueOp s (.ffma h t rm sat d a b c) h d (tyRegs t) fun r sl =>
    let f := ffmaBits (fmtOf t) rm sat
    if isPacked t then packed3 f (src r sl t a) (src r sl t b) (srcO r sl t c)
    else f (src r sl t a) (src r sl t b) (srcO r sl t c)

/-- FMIN (R192). -/
def execFmin (h : Hdr) (t : Ty) (nan : Bool) (d a : Reg) (b : Opnd) (s : State) : Host.Outcome State Fault Refusal :=
  valueOp s (.fmin h t nan d a b) h d (tyRegs t) (fOp2 t (fminmaxBits · false nan) a b)

/-- FMAX (R192). -/
def execFmax (h : Hdr) (t : Ty) (nan : Bool) (d a : Reg) (b : Opnd) (s : State) : Host.Outcome State Fault Refusal :=
  valueOp s (.fmax h t nan d a b) h d (tyRegs t) (fOp2 t (fminmaxBits · true nan) a b)

/-- FCMP (R193). -/
def execFcmp (h : Hdr) (c : CmpF) (t : Ty) (d a : Reg) (b : Opnd) (s : State) : Host.Outcome State Fault Refusal :=
  predOp s (.fcmp h c t d a b) h d fun r sl => fcmpBits (fmtOf t) c (src r sl t a) (srcO r sl t b)

/-- FCLASS (R194). -/
def execFclass (h : Hdr) (t : Ty) (d a : Reg) (s : State) : Host.Outcome State Fault Refusal :=
  valueOp s (.fclass h t d a) h d 1 fun r sl => 2 ^ fclassIndex (fmtOf t) (src r sl t a)

/-- FRND (R195). -/
def execFrnd (h : Hdr) (t : Ty) (rm : Rm) (d a : Reg) (s : State) : Host.Outcome State Fault Refusal :=
  valueOp s (.frnd h t rm d a) h d (tyRegs t) (fOp1 t (frndBits · rm) a)

/-- FSCL (R195). -/
def execFscl (h : Hdr) (t : Ty) (rm : Rm) (d a : Reg) (b : Opnd) (s : State) : Host.Outcome State Fault Refusal :=
  valueOp s (.fscl h t rm d a b) h d (tyRegs t) fun r sl => fsclBits (fmtOf t) rm (src r sl t a) (sextN 32 (src32 r sl b))

/-- FRCP (R197). -/
def execFrcp (h : Hdr) (t : Ty) (d a : Reg) (s : State) : Host.Outcome State Fault Refusal :=
  valueOp s (.frcp h t d a) h d (tyRegs t) (fOp1 t frcpBits a)

/-- FRSQ (R197). -/
def execFrsq (h : Hdr) (t : Ty) (d a : Reg) (s : State) : Host.Outcome State Fault Refusal :=
  valueOp s (.frsq h t d a) h d (tyRegs t) (fOp1 t frsqBits a)

/-- FSQRT (R196). -/
def execFsqrt (h : Hdr) (t : Ty) (rm : Rm) (d a : Reg) (s : State) : Host.Outcome State Fault Refusal :=
  valueOp s (.fsqrt h t rm d a) h d (tyRegs t) (fOp1 t (fsqrtBits · rm) a)

/-- FDIV (R196). -/
def execFdiv (h : Hdr) (t : Ty) (rm : Rm) (d a : Reg) (b : Opnd) (s : State) : Host.Outcome State Fault Refusal :=
  valueOp s (.fdiv h t rm d a b) h d (tyRegs t) (fOp2 t (fdivBits · rm) a b)

/-- FEXP2 (R197). -/
def execFexp2 (h : Hdr) (t : Ty) (d a : Reg) (s : State) : Host.Outcome State Fault Refusal :=
  valueOp s (.fexp2 h t d a) h d (tyRegs t) (fOp1 t fexp2Bits a)

/-- FLOG2 (R197). -/
def execFlog2 (h : Hdr) (t : Ty) (d a : Reg) (s : State) : Host.Outcome State Fault Refusal :=
  valueOp s (.flog2 h t d a) h d (tyRegs t) (fOp1 t flog2Bits a)

/-- FSIN (R197). -/
def execFsin (h : Hdr) (t : Ty) (d a : Reg) (s : State) : Host.Outcome State Fault Refusal :=
  valueOp s (.fsin h t d a) h d (tyRegs t) (fOp1 t fsinBits a)

/-- FCOS (R197). -/
def execFcos (h : Hdr) (t : Ty) (d a : Reg) (s : State) : Host.Outcome State Fault Refusal :=
  valueOp s (.fcos h t d a) h d (tyRegs t) (fOp1 t fcosBits a)

/-- FCVT (R198). -/
def execFcvt (h : Hdr) (td ts : Ty) (rm : Rm) (sat : Bool) (d a : Reg) (s : State) : Host.Outcome State Fault Refusal :=
  valueOp s (.fcvt h td ts rm sat d a) h d (tyRegs td) fun r sl => fcvtBits (fmtOf td) (fmtOf ts) rm sat (src r sl ts a)

/-- FTOI (R199). -/
def execFtoi (h : Hdr) (td ts : Ty) (rm : Rm) (sat : Bool) (d a : Reg) (s : State) : Host.Outcome State Fault Refusal :=
  valueOp s (.ftoi h td ts rm sat d a) h d (tyRegs td) fun r sl =>
    truncN (tyW td) (ftoiInt (tySigned td) (tyW td) (fmtOf ts) rm sat (src r sl ts a))

/-- ITOF (R200). -/
def execItof (h : Hdr) (td ts : Ty) (rm : Rm) (d a : Reg) (s : State) : Host.Outcome State Fault Refusal :=
  valueOp s (.itof h td ts rm d a) h d (tyRegs td) fun r sl => itofBits (fmtOf td) rm (intOf ts (src r sl ts a))

end Sys2Proof.Machine
end

