-- ==== Sys2Proof/Machine/HostEvents.lean ====
section
/-!
DEFINITION. The host as it reaches device memory through the aperture (05 R93; 06 R130), its snoops and its answers for host
lines (R131).
-/

namespace Sys2Proof.Machine

/-- The key of an aperture offset (R93). -/
def apertureKey (ofs : Nat) : Key := keyOf 0 (2 ^ 47 + ofs)

/-- Whether an aperture access of a kind is served: mapped, readable, for a write also writable, on device memory; page tables are
not written (R91, R93). That a page on a host, on-chip or pod frame is answered as one that is not mapped is the model's choice:
the manual does not say (assumption log 108). -/
def apertureOk (s : State) (ofs : Nat) (write : Bool) : Bool :=
  match walk s 0 (2 ^ 47 + ofs) with
  | none => false
  | some w =>
    let a := pteAttr w.pte
    let pa := w.pa (2 ^ 47 + ofs)
    a.rd && (!write || (a.w && !inTables s pa)) && decide (paTarget pa ≤ 7)

/-- MEM_RD of the host (R93, R130): poison where the page is not mapped or not readable. -/
def execMemRd (ofs : Nat) (m : HostMeta) (s : State) : Host.Outcome State Fault Refusal :=
  if ofs ≥ s.mgmt.barSize then .next s
  else if !apertureOk s ofs false || (m == .any && !apertureOk s ofs true) then .next (reply s (.line 0 true))
  else .next (arrive s 32 (apertureKey ofs) (.hostRd m))

/-- MEM_WR of the host, with poison (R93, R129, R130): a write-back as owner, else a whole-line write; dropped where it may not
write. -/
def execMemWr (ofs : Nat) (d : Line × Bool) (s : State) : Host.Outcome State Fault Refusal :=
  if ofs ≥ s.mgmt.barSize || !apertureOk s ofs true then .next s
  else
    let k := apertureKey ofs
    let e := dirOf s k
    if e.owner == 32 && (e.st == .he || e.st == .ho) then .next (homeReceive s 32 k (.wb (some d)))
    else .next (arrive s 32 k (.hostWr d.1 d.2))

/-- The recall message that the host answers, taken from the net. -/
def takeRecall (s : State) (k : Key) : Option (State × Body) :=
  let p := fun (m : Msg) => m.dst == 32 && m.key == k
  match s.coh.net.find? p with
  | none => none
  | some m => some ({ s with coh := { s.coh with net := dropFirst p s.coh.net } }, m.body)

/-- The host keeps S after BISnpData (R130): the home has its data, written back before or clean. -/
def keepShared (s : State) (k : Key) : Option State :=
  let e := dirOf s k
  match e.wbEarly with
  | some (some (l, p)) =>
    if homeBusy s k then none
    else
      let s := homeAbsorb s k l p
      some (homeReceive (setDir s { dirOf s k with wbEarly := none }) 32 k (.fwdData l p false))
  | _ =>
    match homeFetch s k false true with
    | (s, .ok l p) => some (homeReceive (setDir s { dirOf s k with wbEarly := none }) 32 k (.fwdData l p false))
    | _ => none

/-- BIRSP (R130): the host answers a recall with I or S. -/
def execBiRsp (k : Key) (keepS : Bool) (s : State) : Host.Outcome State Fault Refusal :=
  match takeRecall s k with
  | none => .next s
  | some (t, .inv) => .next (homeReceive t 32 k .invAck)
  | some (t, .fwdInv) => .next (if keepS then s else homeReceive t 32 k (.fwdMiss false))
  | some (t, .fwdS) => .next (if keepS then (keepShared t k).getD s else homeReceive t 32 k (.fwdMiss false))
  | some (t, _) => .next t

/-! ### Snoops (R131) -/

/-- A key of a line that the proxy itself is asking the host for loses its copies to a SnpInv at once. -/
def snoopWaiting (s : State) (k : Key) : State :=
  let e := dirOf s k
  let s := sendAll s (e.sharers.map fun d => ⟨homeParty, d, k, .inv⟩)
  setDir s { e with
    st := .hi
    sharers := []
    txn := e.txn.map fun t => { t with req := match t.req with | .upg => .rdx | r => r } }

/-- A snoop of the host: answered at once where the proxy waits on the host, else a request for every key of the line. The one
response is that of the last key to be invalidated, and of the entry's first key for the other snoops: the model's choice where
a line has several keys (assumption log 109). -/
def hostSnoop (s : State) (hpa : Nat) (inv cur : Bool) : State :=
  match hostLine s hpa with
  | none => snoopReply s inv cur false none
  | some e =>
    if e.wait then
      let s := snoopReply s inv cur (e.st != .invalid) none
      if inv then modHost (e.keys.foldl snoopWaiting s) hpa fun e => { e with st := .invalid } else s
    else if e.keys.isEmpty then snoopReply s inv cur false none
    else e.keys.foldl (fun s k => arrive s 32 k (.snp inv cur)) s

/-- SNPINV (R131). -/
def execSnpInv (hpa : Nat) (s : State) : Host.Outcome State Fault Refusal := .next (hostSnoop s hpa true false)

/-- SNPDATA (R131). -/
def execSnpData (hpa : Nat) (s : State) : Host.Outcome State Fault Refusal := .next (hostSnoop s hpa false false)

/-- SNPCUR (R131). -/
def execSnpCur (hpa : Nat) (s : State) : Host.Outcome State Fault Refusal := .next (hostSnoop s hpa false true)

/-- The host answers the oldest uncached access to a line (R127). -/
def ucAnswer (s : State) (k : Key) (d : Line) (poison : Bool) : State :=
  { s with coh := { s.coh with ucs := modFirst (fun u => u.key == k && u.done.isNone) (fun u => { u with done := some (d, poison) }) s.coh.ucs } }

/-- CXL_CACHE_RESPONSE (R127, R131): the host grants a line with its data, and the transactions that waited for it go on; or,
granting nothing, it answers an uncached access. -/
def execCxlCacheResponse (k : Key) (g : CxlGrant) (d : Line) (poison : Bool) (s : State) : Host.Outcome State Fault Refusal :=
  if g == .invalid then .next (ucAnswer s k d poison)
  else match s.coh.hostTab.find? (fun e => e.wait && e.keys.contains k) with
  | none => .next s
  | some e =>
      let s := modHost s e.hpa fun h => { h with
        st := g, wait := false, data := if h.dirty then h.data else d, poison := if h.dirty then h.poison else poison }
      .next (e.keys.foldl (fun s k => modTxn s k fun t => { t with host := false }) s)

end Sys2Proof.Machine
end

