-- ==== Sys2Proof/Machine/Integer.lean ====
section
/-!
DEFINITION. Class 0 without the lane exchanges (10 R175 to R187): integer arithmetic, logic, shifts, bit fields, addresses,
moves, selects and predicates. Each gives every active slot one result from sources read before.
-/

namespace Sys2Proof.Machine

/-- A two-source integer operation narrowed to its type. -/
def intOp2 (t : Ty) (sat : Bool) (op : Int → Int → Int) (a : Reg) (b : Opnd) (r : Regs) (sl : Slot) : Nat :=
  narrow t sat (op (intOf t (src r sl t a)) (intOf t (srcO r sl t b)))

/-- IADD (R175). -/
def execIadd (h : Hdr) (t : Ty) (sat : Bool) (d a : Reg) (b : Opnd) (s : State) : Host.Outcome State Fault Refusal :=
  valueOp s (.iadd h t sat d a b) h d (tyRegs t) (intOp2 t sat (· + ·) a b)

/-- ISUB (R175). -/
def execIsub (h : Hdr) (t : Ty) (sat : Bool) (d a : Reg) (b : Opnd) (s : State) : Host.Outcome State Fault Refusal :=
  valueOp s (.isub h t sat d a b) h d (tyRegs t) (intOp2 t sat (· - ·) a b)

/-- IMUL (R175). -/
def execImul (h : Hdr) (t : Ty) (sat : Bool) (d a : Reg) (b : Opnd) (s : State) : Host.Outcome State Fault Refusal :=
  valueOp s (.imul h t sat d a b) h d (tyRegs t) (intOp2 t sat (· * ·) a b)

/-- IMULH (R175): the high half of the product. -/
def execImulh (h : Hdr) (t : Ty) (d a : Reg) (b : Opnd) (s : State) : Host.Outcome State Fault Refusal :=
  valueOp s (.imulh h t d a b) h d (tyRegs t) (intOp2 t false (fun x y => (x * y).fdiv (2 ^ tyW t)) a b)

/-- IMAD (R175). -/
def execImad (h : Hdr) (t : Ty) (sat : Bool) (d a b : Reg) (c : Opnd) (s : State) : Host.Outcome State Fault Refusal :=
  valueOp s (.imad h t sat d a b c) h d (tyRegs t) fun r sl =>
    narrow t sat (intOf t (src r sl t a) * intOf t (src r sl t b) + intOf t (srcO r sl t c))

/-- The quotient and remainder of R177, both 0 for a zero divisor. -/
def divRem (a b : Int) : Int × Int := if b = 0 then (0, 0) else (a.tdiv b, a.tmod b)

/-- The first active slot with a zero divisor. -/
def zeroDivisor (x : Ex) (t : Ty) (b : Opnd) : Option Slot := x.slots.find? fun sl => srcO x.r sl t b == 0

/-- DIVZ of the running kernel (R288). -/
def divTraps (s : State) (uid : Nat) : Bool := (launchOfBlock s uid).any fun l => l.k.divz

/-- IDIV and IREM (R177): with DIVZ a zero divisor in any active lane traps, and no lane is written. -/
def divOp (s : State) (i : Instr) (h : Hdr) (t : Ty) (d a : Reg) (b : Opnd) (pick : Int × Int → Int) : Host.Outcome State Fault Refusal :=
  match exOf s h with
  | none => .next s
  | some x =>
    match zeroDivisor x t b with
    | some sl =>
      if divTraps s x.cur.blk then .next (trapAt s x.cur (!h.g) ⟨9, 0, some sl⟩)
      else .next (retire s x i h (writeSlots x.slots d (tyRegs t) fun sl =>
        truncN (tyW t) (pick (divRem (intOf t (src x.r sl t a)) (intOf t (srcO x.r sl t b))))))
    | none =>
      .next (retire s x i h (writeSlots x.slots d (tyRegs t) fun sl =>
        truncN (tyW t) (pick (divRem (intOf t (src x.r sl t a)) (intOf t (srcO x.r sl t b))))))

/-- IDIV (R177). -/
def execIdiv (h : Hdr) (t : Ty) (d a : Reg) (b : Opnd) (s : State) : Host.Outcome State Fault Refusal :=
  divOp s (.idiv h t d a b) h t d a b (·.1)

/-- IREM (R177). -/
def execIrem (h : Hdr) (t : Ty) (d a : Reg) (b : Opnd) (s : State) : Host.Outcome State Fault Refusal :=
  divOp s (.irem h t d a b) h t d a b (·.2)

/-- IMIN (R176). -/
def execImin (h : Hdr) (t : Ty) (d a : Reg) (b : Opnd) (s : State) : Host.Outcome State Fault Refusal :=
  valueOp s (.imin h t d a b) h d (tyRegs t) (intOp2 t false min a b)

/-- IMAX (R176). -/
def execImax (h : Hdr) (t : Ty) (d a : Reg) (b : Opnd) (s : State) : Host.Outcome State Fault Refusal :=
  valueOp s (.imax h t d a b) h d (tyRegs t) (intOp2 t false max a b)

/-- IABS (R176). -/
def execIabs (h : Hdr) (t : Ty) (sat : Bool) (d a : Reg) (s : State) : Host.Outcome State Fault Refusal :=
  valueOp s (.iabs h t sat d a) h d (tyRegs t) fun r sl => narrow t sat ((intOf t (src r sl t a)).natAbs : Int)

/-- AND (R178). -/
def execAnd (h : Hdr) (t : Ty) (d a : Reg) (b : Opnd) (s : State) : Host.Outcome State Fault Refusal :=
  valueOp s (.and h t d a b) h d (tyRegs t) fun r sl => src r sl t a &&& srcO r sl t b

/-- OR (R178). -/
def execOr (h : Hdr) (t : Ty) (d a : Reg) (b : Opnd) (s : State) : Host.Outcome State Fault Refusal :=
  valueOp s (.or h t d a b) h d (tyRegs t) fun r sl => src r sl t a ||| srcO r sl t b

/-- XOR (R178). -/
def execXor (h : Hdr) (t : Ty) (d a : Reg) (b : Opnd) (s : State) : Host.Outcome State Fault Refusal :=
  valueOp s (.xor h t d a b) h d (tyRegs t) fun r sl => src r sl t a ^^^ srcO r sl t b

/-- Shifts of W bits by any 32-bit count (R178). -/
def shlN (w a n : Nat) : Nat := if n < w then a * 2 ^ n % 2 ^ w else 0
def shrN (w a n : Nat) : Nat := if n < w then a / 2 ^ n else 0
def sarN (w a n : Nat) : Nat := truncN w ((sextN w a).fdiv (2 ^ min n w))

/-- SHL (R178). -/
def execShl (h : Hdr) (t : Ty) (d a : Reg) (b : Opnd) (s : State) : Host.Outcome State Fault Refusal :=
  valueOp s (.shl h t d a b) h d (tyRegs t) fun r sl => shlN (tyW t) (src r sl t a) (src32 r sl b)

/-- SHR (R178). -/
def execShr (h : Hdr) (t : Ty) (d a : Reg) (b : Opnd) (s : State) : Host.Outcome State Fault Refusal :=
  valueOp s (.shr h t d a b) h d (tyRegs t) fun r sl => shrN (tyW t) (src r sl t a) (src32 r sl b)

/-- SAR (R178). -/
def execSar (h : Hdr) (t : Ty) (d a : Reg) (b : Opnd) (s : State) : Host.Outcome State Fault Refusal :=
  valueOp s (.sar h t d a b) h d (tyRegs t) fun r sl => sarN (tyW t) (src r sl t a) (src32 r sl b)

/-- The field of BFX (R179); positions at or above W give the sign or zero. -/
def bfxN (t : Ty) (a p n : Nat) : Nat :=
  let n := min n (tyW t)
  let f := truncN n ((intOf t a).fdiv (2 ^ min p (tyW t)))
  if n = 0 then 0 else if tySigned t then truncN (tyW t) (sextN n f) else f

/-- BFX (R179). -/
def execBfx (h : Hdr) (t : Ty) (d a b : Reg) (c : Opnd) (s : State) : Host.Outcome State Fault Refusal :=
  valueOp s (.bfx h t d a b c) h d (tyRegs t) fun r sl => bfxN t (src r sl t a) (src32 r sl (.reg b)) (src32 r sl c)

/-- The insertion of BFI (R180). -/
def bfiN (w a b ctl : Nat) : Nat :=
  let p := ctl % 256
  let n := min (ctl / 256 % 256) w
  if n = 0 ∨ p ≥ w then b else putBits b p (min n (w - p)) a

/-- BFI (R180). -/
def execBfi (h : Hdr) (t : Ty) (d a b : Reg) (c : Opnd) (s : State) : Host.Outcome State Fault Refusal :=
  valueOp s (.bfi h t d a b c) h d (tyRegs t) fun r sl => bfiN (tyW t) (src r sl t a) (src r sl t b) (src32 r sl c)

/-- The number of one bits below `w`. -/
def popN : Nat → Nat → Nat
  | 0, _ => 0
  | w + 1, a => a % 2 + popN w (a / 2)

/-- The bits below `w` in reverse. -/
def revN : Nat → Nat → Nat
  | 0, _ => 0
  | w + 1, a => a % 2 * 2 ^ w + revN w (a / 2)

/-- POPC (R181). -/
def execPopc (h : Hdr) (t : Ty) (d a : Reg) (s : State) : Host.Outcome State Fault Refusal :=
  valueOp s (.popc h t d a) h d 1 fun r sl => popN (tyW t) (src r sl t a)

/-- CLZ (R181). -/
def execClz (h : Hdr) (t : Ty) (d a : Reg) (s : State) : Host.Outcome State Fault Refusal :=
  valueOp s (.clz h t d a) h d 1 fun r sl =>
    let v := src r sl t a
    if v = 0 then tyW t else tyW t - 1 - Nat.log2 v

/-- BREV (R181). -/
def execBrev (h : Hdr) (t : Ty) (d a : Reg) (s : State) : Host.Outcome State Fault Refusal :=
  valueOp s (.brev h t d a) h d (tyRegs t) fun r sl => revN (tyW t) (src r sl t a)

/-- LEA (R182). -/
def execLea (h : Hdr) (t : Ty) (sh : BitVec 3) (d a : Reg) (b : Opnd) (s : State) : Host.Outcome State Fault Refusal :=
  valueOp s (.lea h t sh d a b) h d (tyRegs t) fun r sl => (src r sl t a + src32 r sl b * 2 ^ sh.toNat) % 2 ^ tyW t

/-- MOV (R183). -/
def execMov (h : Hdr) (t : Ty) (d a : Reg) (s : State) : Host.Outcome State Fault Refusal :=
  valueOp s (.mov h t d a) h d (tyRegs t) fun r sl => src r sl t a

/-- MOVI (R183). -/
def execMovi (h : Hdr) (t : Ty) (d : Reg) (x : Word) (s : State) : Host.Outcome State Fault Refusal :=
  valueOp s (.movi h t d x) h d (tyRegs t) fun _ _ => x.toNat

/-- SEL (R184). -/
def execSel (h : Hdr) (t : Ty) (p : BitVec 4) (d a : Reg) (b : Opnd) (s : State) : Host.Outcome State Fault Refusal :=
  valueOp s (.sel h t p d a b) h d (tyRegs t) fun r sl => if r.rdPred sl p.toNat then src r sl t a else srcO r sl t b

/-- ICMP (R185). -/
def execIcmp (h : Hdr) (c : CmpI) (t : Ty) (d a : Reg) (b : Opnd) (s : State) : Host.Outcome State Fault Refusal :=
  predOp s (.icmp h c t d a b) h d fun r sl => cmpHolds c (intOf t (src r sl t a)) (intOf t (srcO r sl t b))

/-- PLOP (R186). -/
def execPlop (h : Hdr) (tt : BitVec 4) (d a b : Reg) (s : State) : Host.Outcome State Fault Refusal :=
  predOp s (.plop h tt d a b) h d fun r sl => tableBit tt (r.rdPred sl a.toNat) (r.rdPred sl b.toNat)

/-- How many predicates a slot's file has (R162). -/
def predCount : Slot → Nat
  | .lane _ _ => 16
  | .ctl => 8

/-- The predicates of a slot as bits (R187). -/
def predBits (r : Regs) (sl : Slot) : Nat :=
  ((List.range (predCount sl)).map fun i => (r.rdPred sl i).toNat * 2 ^ i).sum

/-- PMOV (R187). -/
def execPmov (h : Hdr) (dir : PmvDir) (q : Reg) (s : State) : Host.Outcome State Fault Refusal :=
  match dir with
  | .p2r => valueOp s (.pmov h dir q) h q 1 predBits
  | .r2p =>
    match exOf s h with
    | none => .next s
    | some x =>
      .next (retire s x (.pmov h dir q) h fun r => x.slots.foldl (fun r sl =>
        (List.range (predCount sl)).foldl (fun r i => r.wrPred sl i ((x.r.rd sl q.toNat).getLsbD i)) r) r)

end Sys2Proof.Machine
end

