-- ==== Sys2Proof/Machine/Lane.lean ====
section
/-!
DEFINITION. Lane exchange (10 R188 to R190). Each acts within one register set (15 R287).
-/

namespace Sys2Proof.Machine

/-- The source lane of SHFL, none when it lies outside 0 to 63 (R188). -/
def shflLane (m : ShflMode) (l b : Nat) : Option Nat :=
  match m with
  | .idx => some (b % 64)
  | .up => if b ≤ l then some (l - b) else none
  | .down => if l + b < 64 then some (l + b) else none
  | .xor => some (l ^^^ (b % 64))

/-- SHFL (R188). -/
def execShfl (h : Hdr) (m : ShflMode) (t : Ty) (d a : Reg) (b : Opnd) (s : State) : Host.Outcome State Fault Refusal :=
  valueOp s (.shfl h m t d a b) h d (tyRegs t) fun r sl =>
    match shflLane m (laneIx sl) (src32 r sl b) with
    | some l => src r (laneAt sl l) t a
    | none => src r sl t a

/-- The ballot of a predicate over active slots (R189). -/
def ballotOf (r : Regs) (slots : List Slot) (a : Reg) : Nat :=
  (slots.map fun sl => (r.rdPred sl a.toNat).toNat * 2 ^ laneIx sl).sum

/-- VOTE (R189). -/
def execVote (h : Hdr) (m : VoteMode) (d a : Reg) (s : State) : Host.Outcome State Fault Refusal :=
  match exOf s h with
  | none => .next s
  | some x =>
    match m with
    | .ballot => .next (retire s x (.vote h m d a) h (writeSlots x.slots d 2 fun sl => ballotOf x.r (slotsOfSet x.slots sl) a))
    | _ => .next (retire s x (.vote h m d a) h (writePreds x.slots d fun sl =>
        voteHolds m ((slotsOfSet x.slots sl).map fun q => x.r.rdPred q a.toNat)))

/-- GETL (R190). -/
def execGetl (h : Hdr) (t : Ty) (d a : Reg) (b : Opnd) (s : State) : Host.Outcome State Fault Refusal :=
  match exOf s h with
  | none => .next s
  | some x =>
    .next (retire s x (.getl h t d a b) h (writeSlots x.slots d (tyRegs t) fun sl =>
      src x.r (laneAt sl (src32 x.r (lowestOf x.slots sl) b % 64)) t a))

/-- SETL (R190): the lane is written whether or not it is active. -/
def execSetl (h : Hdr) (t : Ty) (d a : Reg) (b : Opnd) (s : State) : Host.Outcome State Fault Refusal :=
  match exOf s h with
  | none => .next s
  | some x =>
    .next (retire s x (.setl h t d a b) h fun r => x.slots.foldl (fun r sl =>
      if lowestOf x.slots sl = sl then
        r.wrN (laneAt sl (src32 x.r sl b % 64)) d.toNat (tyRegs t) (src x.r sl t a)
      else r) r)

end Sys2Proof.Machine
end

