-- ==== Sys2Proof/Machine/LinkEvents.lean ====
section
/-!
DEFINITION. Die links (14 R260 to R264), the pod (14 R265 to R267) and the link-interface adders (14 R268 to R270). What a flit
carries is known by request id and line key; the protocol's own messages are those of 06.
-/

namespace Sys2Proof.Machine

/-! ### Modules (R260 to R263) -/

/-- Modules of an edge: 16 between N-dies (edges 0 to 3), 8 between an N-die and an F-die (edges 4 to 7) (R260). -/
def edgeModules (edge : Nat) : Nat := if edge < 4 then 16 else 8

/-- The dies of an edge, the lower first (R1; the numbers of the edges are the model's, assumption log 36). -/
def edgeDies (edge : Nat) : Nat × Nat :=
  match edge with
  | 0 => (0, 1) | 1 => (0, 2) | 2 => (1, 3) | 3 => (2, 3) | 4 => (0, 4) | 5 => (2, 4) | 6 => (1, 5) | _ => (3, 5)

/-- The die that receives on a direction. -/
def linkTarget (l : LinkId) : Nat := if l.up then (edgeDies l.edge).2 else (edgeDies l.edge).1

/-- A module's direction as it is after training. -/
def freshModule (l : LinkId) : Module := ⟨l, true, 64, false, false, 0, [], 0, [], none, none, none⟩

def moduleOf (s : State) (l : LinkId) : Module := (s.links.mods.find? fun m => m.id == l).getD (freshModule l)

def setModule (s : State) (m : Module) : State :=
  { s with links := { s.links with mods := (s.links.mods.filter fun n => n.id != m.id) ++ [m] } }

def opposite (l : LinkId) : LinkId := { l with up := !l.up }

/-- Whether a module's direction carries traffic (R263). -/
def Module.carries (m : Module) : Bool := m.up && !m.retraining

/-! ### Flits (R261) -/

/-- One bit of a CRC-64 with the ECMA-182 polynomial. -/
def crcBit (c : Nat) : Nat := if bitAt c 63 then (2 * c % 2 ^ 64) ^^^ 0x42F0E1EBA9EA3693 else 2 * c

def crcBits : Nat → Nat → Nat
  | 0, c => c
  | n + 1, c => crcBits n (crcBit c)

/-- The CRC of bytes, the highest bit of each first, from zero (the manual names the polynomial alone; assumption log 106). -/
def crc64 (b : List Byte) : Nat := b.foldl (fun c x => crcBits 8 (c ^^^ (x.toNat * 2 ^ 56))) 0

/-- A flit's fields: its header's bits and its payload (R261). -/
def flitOf (b : List Byte) : Flit :=
  let h := ofBytes (b.take 4)
  { rr := bitAt h 23, kind := bitsAt h 21 2, av := bitAt h 20, ack := bitsAt h 10 10, seq := bitsAt h 0 10
    payload := (b.drop 4).take 244 }

/-- A flit's 256 bytes (R261). -/
def flitBytes (f : Flit) : List Byte :=
  let body := toBytes 4 (f.seq % 1024 + f.ack % 1024 * 2 ^ 10 + f.av.toNat * 2 ^ 20 + f.kind % 4 * 2 ^ 21 + f.rr.toNat * 2 ^ 23)
    ++ (f.payload ++ List.replicate (244 - f.payload.length) 0).take 244
  body ++ toBytes 8 (crc64 body)

/-- Whether a flit passes its CRC (R261). -/
def flitOk (b : List Byte) : Bool := b.length == 256 && ofBytes (b.drop 248) == crc64 (b.take 248)

/-! ### Which module sends a message, and when (R260, R263, R264) -/

/-- Whether a module's direction has a message of a key that no ACK covers. -/
def Module.owesKey (m : Module) (key : Nat) : Bool := m.replay.any fun f => (Config.linkMessages f.payload).any fun x => x.2.2 == key

/-- The module that has taken a module's keys, and theirs in turn (R263). -/
def substitute : Nat → State → LinkId → Nat
  | 0, _, l => l.mod
  | n + 1, s, l =>
    let m := moduleOf s l
    if m.carries then l.mod
    else match m.moved with
      | some i => substitute n s { l with mod := i }
      | none => l.mod

/-- The module to which the hash of a key belongs (R260). -/
def keyHome (l : LinkId) (key : Nat) : Nat := Config.linkHash key % edgeModules l.edge

/-- The module on which a new message of a key leaves (R260, R263): its own; the substitute while its own is out, and until no
message of the key is unacknowledged there. -/
def keyModule (s : State) (l : LinkId) (key : Nat) : Nat :=
  let h := keyHome l key
  if (moduleOf s { l with mod := h }).carries then
    ((List.range (edgeModules l.edge)).find? fun i => i != h && (moduleOf s { l with mod := i }).owesKey key).getD h
  else substitute (edgeModules l.edge) s { l with mod := h }

/-- Numbers of the requests of a source die in the replay buffers of a direction of an edge (R264). -/
def unacked (s : State) (l : LinkId) (src : Nat) : List Nat :=
  (s.links.mods.filter fun m => m.id.edge == l.edge && m.id.up == l.up).flatMap fun m => m.replay.flatMap fun f =>
    (Config.linkMessages f.payload).filterMap fun x => if !x.1 && x.2.1 / 2 ^ 13 % 8 == src then some (x.2.1 % 2 ^ 13) else none

/-- Requests outstanding from a source die to a target die (R264). -/
def outstanding (s : State) (k : Nat) : List Nat := (s.links.outst.get? k).getD []

/-- A new message leaves in a flit (R263, R264): a request in its turn; a reply to a request that the sender has completed. None
when the sender does not send it. What it only passes on it sends as it came. -/
def sendMsg (l : LinkId) (s : State) (x : Bool × Nat × Nat) : Option State :=
  let src := x.2.1 / 2 ^ 13 % 8
  let die := linkTarget (opposite l)
  let away := linkTarget l
  let h := keyHome l x.2.2
  if keyModule s l x.2.2 != l.mod || (h != l.mod && !(moduleOf s { l with mod := h }).replay.isEmpty) then none
  else if x.1 then
    if src != away then some s
    else if ((s.links.done.get? (8 * die + src)).getD []).contains x.2.1 then
      some { s with links := { s.links with
        replies := s.links.replies.set (8 * die + src) (dropFirst (· == x.2.1) ((s.links.replies.get? (8 * die + src)).getD [])) } }
    else none
  else if src != die then some s
  else
    let k := 8 * away + src
    let n := x.2.1 % 2 ^ 13
    if n == (s.links.nextReq.get? k).getD 0 && decide ((outstanding s k).length < 2048)
        && !((unacked s l src).any fun q => decide ((n + 2 ^ 13 - q) % 2 ^ 13 ≥ 2048)) then
      some { s with links := { s.links with
        nextReq := s.links.nextReq.set k ((n + 1) % 2 ^ 13)
        outst := s.links.outst.set k (outstanding s k ++ [x.2.1]) } }
    else none

/-- Flits that a replay buffer holds (R262). -/
def replayFlits : Nat := 512

/-- The sender puts a flit on its module (R262, R263): an acknowledgement; the next one that it resends; or a new one, which the
replay buffer keeps. None when it sends no such flit. -/
def sendFlit (s : State) (l : LinkId) (f : Flit) : Option State :=
  let m := moduleOf s l
  if f.kind == 1 then some s
  else if f.kind != 0 then none
  else match m.resend with
  | some q =>
    if m.replay.any fun g => g.seq == q && f.seq == q && g.rr == f.rr && g.payload == f.payload then
      let next := (q + 1) % 1024
      some (setModule s { m with resend := if next = m.seq then none else some next })
    else none
  | none =>
    if f.rr || f.seq != m.seq || decide (m.replay.length ≥ replayFlits) then none
    else
      ((Config.linkMessages f.payload).foldl (fun (o : Option State) x => o.bind fun s => sendMsg l s x) (some s)).map fun s =>
        setModule s { m with replay := m.replay ++ [f], seq := (m.seq + 1) % 1024 }

/-! ### Acknowledgement, degrade and retrain (R262, R263) -/

/-- Sequence numbers at or before another, within the replay buffer's 512 (R262). -/
def seqCovered (ack q : Nat) : Bool := decide ((ack + 1024 - q % 1024) % 1024 < replayFlits)

/-- Flits of a module that is out move to another as its replay buffer has room, marked RR, with its numbers (R262, R263). -/
def pullFlits (s : State) (l : LinkId) (i : Nat) : State :=
  let m := moduleOf s l
  let t := moduleOf s { l with mod := i }
  let n := replayFlits - t.replay.length
  let moved := (List.range (min n m.replay.length)).filterMap fun j => (m.replay[j]?).map fun f =>
    { f with rr := true, seq := (t.seq + j) % 1024 }
  let first := moved.head?.map Flit.seq
  let s := setModule s { t with
    replay := t.replay ++ moved
    seq := (t.seq + moved.length) % 1024
    resend := t.resend.orElse fun _ => first }
  setModule s { m with replay := m.replay.drop n }

/-- An ACK frees the flits that it covers (R262); one that comes alone makes the sender resend what is left. Flits that waited
for room move. -/
def ackSender (s : State) (l : LinkId) (ack : Nat) (alone : Bool) : State :=
  let m := moduleOf s l
  let left := m.replay.filter fun f => !seqCovered ack f.seq
  let first := left.head?.map Flit.seq
  let s := setModule s { m with
    replay := left
    resend := if alone || (m.resend.any (seqCovered ack)) then first else m.resend }
  (List.range (edgeModules l.edge)).foldl (fun s j =>
    let o := moduleOf s { l with mod := j }
    if !o.carries && o.moved == some l.mod && !o.replay.isEmpty then pullFlits s { l with mod := j } l.mod else s) s

/-- Whether every module of an edge is down: then the edge is (R263). -/
def edgeDown (s : State) (edge : Nat) : Bool :=
  (List.range (edgeModules edge)).all fun i => !(moduleOf s ⟨edge, true, i⟩).up && !(moduleOf s ⟨edge, false, i⟩).up

/-- The next module of an edge that carries traffic, counting upward (R263). -/
def nextModule (s : State) (l : LinkId) : Option Nat :=
  let n := edgeModules l.edge
  ((List.range (n - 1)).map fun i => (l.mod + 1 + i) % n).find? fun i => (moduleOf s { l with mod := i }).carries

/-- One direction of a module that stops: its unacknowledged flits go to the next module that is up (R263). -/
def moveFlits (s : State) (l : LinkId) : State :=
  match nextModule s l with
  | none => s
  | some i => pullFlits (setModule s { moduleOf s l with moved := some i }) l i

/-- A module stops and retrains (R263): on half its lanes after failures, on all of them when the driver asks. -/
def retrain (s : State) (l : LinkId) (narrow : Bool) : State :=
  let stop (s : State) (l : LinkId) : State :=
    setModule s { moduleOf s l with retraining := true, narrow := narrow, crcs := [], nak := none, resend := none }
  [l, opposite l].foldl moveFlits (stop (stop s l) (opposite l))

/-- A message reaches a die (R264): a request is performed once, and the stored reply of one already completed goes again; the
first reply to an outstanding request is taken and a later one discarded. -/
def deliverMsg (l : LinkId) (s : State) (x : Bool × Nat × Nat) : State :=
  let src := x.2.1 / 2 ^ 13 % 8
  if x.1 then
    let k := 8 * linkTarget (opposite l) + src
    if src == linkTarget l then
      { s with links := { s.links with outst := s.links.outst.set k (dropFirst (· == x.2.1) (outstanding s k)) } }
    else s
  else
    let k := 8 * linkTarget l + src
    let done := (s.links.done.get? k).getD []
    if done.contains x.2.1 then
      { s with links := { s.links with replies := s.links.replies.set k ((s.links.replies.get? k).getD [] ++ [x.2.1]) } }
    else
      { s with links := { s.links with
        done := s.links.done.set k ((done ++ [x.2.1]).drop ((done.length + 1) - 4096))
        delivered := s.links.delivered ++ [x.2.1] } }

/-- Failures within 1 µs that degrade a module (R263). -/
def crcLimit : Nat := 9

/-- A CRC failure (R262, R263): counted; the receiver asks for the flit that it expects; the ninth within 1 µs degrades the
module. -/
def crcFailure (s : State) (l : LinkId) : State :=
  let m := moduleOf s l
  let now := s.sched.time.getD (linkTarget l) 0
  let crcs := (m.crcs.filter fun t => decide (now < t + 1000)) ++ [now]
  let s := setModule { s with links := { s.links with errors := s.links.errors + 1 } }
    { m with crcs := crcs, nak := some ((m.expect + 1023) % 1024) }
  if crcs.length < crcLimit then s
  else retrain { s with links := { s.links with degrade := s.links.degrade + 1 } } l true

/-- A flit that passes its CRC (R262): its ACK frees what it covers; a data flit is accepted if it is the one expected. -/
def acceptFlit (s : State) (l : LinkId) (f : Flit) : State :=
  let s := if f.av then ackSender s (opposite l) f.ack (f.kind == 1) else s
  let m := moduleOf s l
  if f.kind != 0 || f.seq != m.expect then s
  else (Config.linkMessages f.payload).foldl (deliverMsg l) (setModule s { m with expect := (m.expect + 1) % 1024, nak := none })

/-- FLIT_RECEIVE (R261 to R264): a flit that the module's sender sends, and the bytes that arrive. -/
def execFlitReceive (l : LinkId) (sent got : List Byte) (s : State) : Host.Outcome State Fault Refusal :=
  if !(moduleOf s l).carries then .next s
  else match sendFlit s l (flitOf sent) with
    | none => .next s
    | some s => .next (if flitOk got then acceptFlit s l (flitOf got) else crcFailure s l)

/-- ACK_FLIT (R262): the sender frees what the ACK covers and resends the rest; the receiver's request for it is made. -/
def execAckFlit (l : LinkId) (ack : Nat) (s : State) : Host.Outcome State Fault Refusal :=
  let m := moduleOf s l
  if !m.carries then .next s
  else .next (ackSender (setModule s { m with nak := if m.nak == some ack then none else m.nak }) l ack true)

/-- A module's direction after its retrain (R263): what no module could take is sent again, and sender and receiver agree on
the next number. -/
def Module.back (m : Module) : Module :=
  let first := m.replay.head?.map Flit.seq
  { m with
    retraining := false, lanes := if m.narrow then 32 else 64, moved := none
    resend := first, expect := first.getD m.seq }

/-- MODULE_RETRAIN_DONE (R263): back at 32 lanes, or at 64 when the driver asked, once its flits have all moved; or down. An edge
with no module up is fatal. -/
def execModuleRetrainDone (l : LinkId) (ok : Bool) (s : State) : Host.Outcome State Fault Refusal :=
  let stay (l : LinkId) : Bool := let m := moduleOf s l; m.moved.isSome && !m.replay.isEmpty
  if !(moduleOf s l).retraining then .next s
  else if ok then
    if stay l || stay (opposite l) then .next s
    else .next ([l, opposite l].foldl (fun s l => setModule s (moduleOf s l).back) s)
  else
    let s := [l, opposite l].foldl (fun s l => setModule s { moduleOf s l with retraining := false, up := false }) s
    let s := [l, opposite l].foldl (fun s l => if (moduleOf s l).moved.isSome then s else moveFlits s l) s
    .next (if edgeDown s l.edge then goFatal s 1 (edgeDies l.edge).1 ((edgeDies l.edge).1 + l.edge * 8) else s)

/-- UCIE_RETRAIN (R263): the driver asks a module at 32 lanes to retrain. -/
def execUcieRetrain (l : LinkId) (s : State) : Host.Outcome State Fault Refusal :=
  let m := moduleOf s l
  if m.up && !m.retraining && m.lanes == 32 then .next (retrain s l false) else .next s

/-! ### The pod (R265 to R267) -/

/-- Whether the aperture of this device permits an access of a peer to its bytes (R86, R91, R266). -/
def podOk (s : State) (va n : Nat) (rd w : Bool) : Bool :=
  (pieces (pieceFuel n) va n 0).all fun p =>
    match walk s 0 p.1 with
    | none => false
    | some k =>
      let a := pteAttr k.pte
      (!rd || a.rd) && (!w || (a.w && !inTables s (k.pa p.1))) && decide (paTarget (k.pa p.1) ≤ 8)

/-- What serving a request of the pod comes to; none while it must wait. -/
abbrev Served := State × Option (Bool × List Byte)

/-- A read and write of one location at its home for a peer. -/
def podRmw (s : State) (va n : Nat) (f : Nat → Rmw) : Served :=
  let k := keyOf 0 va
  match joinLine s 0 va with
  | (t, .wait) => (asked s t, none)
  | (s, .bad _) => (s, some (false, []))
  | (s, .ok _ true) => (farDone s k, some (false, []))
  | (s, .ok l false) =>
    let old := lineGet l (va % 128) n
    let r := f old
    (farDone (if r.write then homeAbsorb s k (linePut l (va % 128) n r.new) false else countFar s k) k, some (true, toBytes n old))

/-- Bytes at homes, for a peer: poison or a failing line gives none. -/
def podLines : List (Nat × Nat × Nat) → State → List Byte → Served
  | [], s, bs => (s, some (true, bs))
  | (va, m, _) :: r, s, bs =>
    match uncachedRead s agentTag (keyOf 0 va) with
    | (s, .ok l false) => podLines r s (bs ++ toBytes m (lineGet l (va % 128) m))
    | (s, .wait) => (s, none)
    | (s, _) => (s, some (false, []))

/-- A write of bytes at their homes, for a peer, in pieces. -/
def podBytes (v : Nat) : List (Nat × Nat × Nat) → State → Served
  | [], s => (s, some (true, []))
  | (va, m, o) :: r, s =>
    match uncachedWrite s agentTag (keyOf 0 va) (m == 128) (fun l => linePut l (va % 128) m (v / 256 ^ o)) with
    | (s, .ok _ _) => podBytes v r s
    | (s, .wait) => (s, none)
    | (s, .bad _) => (s, some (false, []))

/-- Serves a request of the pod through this device's homes (R266). -/
def servePod (s : State) (r : PodReq) : Served :=
  if !s.mgmt.podEn then (s, some (false, []))
  else match r with
  | .read o n =>
    let va := s.mgmt.podBase + o
    if n > 256 || !podOk s va n true false then (s, some (false, [])) else podLines (pieces (pieceFuel n) va n 0) s []
  | .write o d =>
    let va := s.mgmt.podBase + o
    if d.length > 256 || !podOk s va d.length false true then (s, some (false, []))
    else podBytes (ofBytes d) (pieces (pieceFuel d.length) va d.length 0) s
  | .atom op wide o v b =>
    let va := s.mgmt.podBase + o
    let n := if wide then 8 else 4
    if va % n != 0 || !podOk s va n true true then (s, some (false, []))
    else podRmw s va n fun old => atomRmw op (8 * n) old v b
  | .cas wide o c x =>
    let va := s.mgmt.podBase + o
    let n := if wide then 8 else 4
    if va % n != 0 || !podOk s va n true true then (s, some (false, [])) else podRmw s va n fun old => casRmw old c x

/-- A completion is there (R267): a write that failed is dropped and counted. -/
def podDone (s : State) (id : Nat) (ok : Bool) (data : List Byte) : State :=
  let lost := s.links.pods.any fun p => p.id == id && p.write && p.done == none && !ok
  { s with links := { s.links with
    werr := s.links.werr + lost.toNat
    pods := s.links.pods.map fun p => if p.id = id ∧ p.done = none then { p with done := some (ok, data) } else p } }

/-- POD_REQUEST (R266, R267): served, or refused while POD_EN is 0; a request of this device's own is answered inside. What
waits keeps what it has asked of homes and of the host. -/
def execPodRequest (peer tag : Nat) (r : PodReq) (s : State) : Host.Outcome State Fault Refusal :=
  match servePod s r with
  | (t, none) => .next (asked s t)
  | (s, some (ok, bs)) => .next (if peer = Config.deviceId then podDone s tag ok bs else reply s (.podDone peer tag ok bs))

/-- POD_COMPLETION (R267). -/
def execPodCompletion (id : Nat) (ok : Bool) (data : List Byte) (s : State) : Host.Outcome State Fault Refusal :=
  .next (podDone s id ok data)

/-- Nanoseconds of 1 ms (R267); a freeze stops this device's detection (R78). -/
def podLimit : Nat := 1000000

/-- POD_TIMEOUT (R267). -/
def execPodTimeout (id : Nat) (s : State) : Host.Outcome State Fault Refusal :=
  match s.links.pods.find? fun p => p.id == id && p.done == none with
  | none => .next s
  | some p => if s.sched.ns < p.since + podLimit then .next s else .next (podDone s id false [])

/-! ### The link-interface adders (R268 to R270) -/

/-- An incoming packet's elements merged into those of a chunk slot, exactly (R64, R66, R203, R270). -/
def mergeEls (old : Option (List LaImage)) (b : List Byte) : List LaImage :=
  (List.range 32).map fun e => match old with
    | some o => La.toImage ((La.ofImage (o.getD e 0)).merge (La.ofImage (unpackEl b e)))
    | none => unpackEl b e

/-- PACKED_PARTIAL (R268 to R270), with whether the slot sends: expanded and merged into its chunk slot; when the slot's sum is due at its destination, it
goes there packed and the slot is free. A malformed packet is dropped and counted. -/
def execPackedPartial (port slot : Nat) (p : List Byte × Bool) (s : State) : Host.Outcome State Fault Refusal :=
  if port ≥ 16 || slot ≥ 64 then .next s
  else if !packOk p.1 then .next { s with links := { s.links with errors := s.links.errors + 1 } }
  else
    let here (a : Nat × Nat × List LaImage) : Bool := a.1 == port && a.2.1 == slot
    let v := mergeEls ((s.links.adders.find? here).map (·.2.2)) p.1
    let rest := s.links.adders.filter fun a => !here a
    .next (if p.2 then reply { s with links := { s.links with adders := rest } } (.bytes (packEls v))
      else { s with links := { s.links with adders := rest ++ [(port, slot, v)] } })

end Sys2Proof.Machine
end

