-- ==== Sys2Proof/Machine/LongOps.lean ====
section
/-!
DEFINITION. Class 2 (11 R201 to R216): long accumulators in registers, and their moves to and from memory.
-/

namespace Sys2Proof.Machine

/-- An instruction that gives each slot an accumulator in D. -/
def laOp (s : State) (i : Instr) (h : Hdr) (d : Reg) (f : Regs → Slot → La) : Host.Outcome State Fault Refusal :=
  match exOf s h with
  | none => .next s
  | some x => .next (retire s x i h fun r => x.slots.foldl (fun r sl => r.wrLa sl d.toNat (f x.r sl)) r)

/-- ACZ (R204). -/
def execAcz (h : Hdr) (d : Reg) (s : State) : Host.Outcome State Fault Refusal :=
  laOp s (.acz h d) h d fun _ _ => La.zero

/-- ACADD (R205). -/
def execAcadd (h : Hdr) (t : Ty) (d a : Reg) (s : State) : Host.Outcome State Fault Refusal :=
  laOp s (.acadd h t d a) h d fun r sl => (r.rdLa sl d.toNat).contribute (fdecode (fmtOf t) (src r sl t a))

/-- ACFMA (R205): the exact product. -/
def execAcfma (h : Hdr) (t : Ty) (d a b : Reg) (s : State) : Host.Outcome State Fault Refusal :=
  laOp s (.acfma h t d a b) h d fun r sl =>
    (r.rdLa sl d.toNat).contribute (vmul (fdecode (fmtOf t) (src r sl t a)) (fdecode (fmtOf t) (src r sl t b)))

/-- ACDOT (R205): two contributions a lane. -/
def execAcdot (h : Hdr) (t : Ty) (d a b : Reg) (s : State) : Host.Outcome State Fault Refusal :=
  laOp s (.acdot h t d a b) h d fun r sl =>
    (dotTerms (fmtOf t) (src r sl t a) (src r sl t b)).foldl La.contribute (r.rdLa sl d.toNat)

/-- ACMRG (R206). -/
def execAcmrg (h : Hdr) (d a : Reg) (s : State) : Host.Outcome State Fault Refusal :=
  laOp s (.acmrg h d a) h d fun r sl => La.merge (r.rdLa sl d.toNat) (r.rdLa sl a.toNat)

/-- ACRED (R206, R287): over every active slot of the path, sets and lanes ascending. -/
def execAcred (h : Hdr) (d a : Reg) (s : State) : Host.Outcome State Fault Refusal :=
  match exOf s h with
  | none => .next s
  | some x =>
    .next (retire s x (.acred h d a) h fun r =>
      let total := La.mergeAll (x.slots.map fun sl => x.r.rdLa sl a.toNat)
      x.slots.foldl (fun r sl => r.wrLa sl d.toNat total) r)

/-- ACNORM (R207). -/
def execAcnorm (h : Hdr) (d a : Reg) (s : State) : Host.Outcome State Fault Refusal :=
  laOp s (.acnorm h d a) h d fun r sl => (r.rdLa sl a.toNat).canon

/-- The scale of ACRND as an exact value (R211). -/
def scaleOf (r : Regs) (sl : Slot) : AcScale → FVal
  | .none => .fin false 1 0
  | .reg b => fdecode f32 (r.rd sl b.toNat).toNat
  | .imm x => fdecode f32 x.toNat

/-- ACRND (R211 to R213): the value, then the report word where one is asked for. -/
def execAcrnd (h : Hdr) (t : Ty) (rm : Rm) (sat mean : Bool) (d a : Reg) (scale : AcScale) (rep : Option Reg) (s : State) :
    Host.Outcome State Fault Refusal :=
  match exOf s h with
  | none => .next s
  | some x =>
    .next (retire s x (.acrnd h t rm sat mean d a scale rep) h fun r => x.slots.foldl (fun r sl =>
      let v := La.round (x.r.rdLa sl a.toNat) (fmtOf t) rm sat mean (scaleOf x.r sl scale)
      let r := r.wrN sl d.toNat (tyRegs t) v.1
      match rep with
      | some c => r.wr sl c.toNat v.2.toWord
      | none => r) r)

/-- ACSCL (R208). -/
def execAcscl (h : Hdr) (d a : Reg) (b : Opnd) (s : State) : Host.Outcome State Fault Refusal :=
  laOp s (.acscl h d a b) h d fun r sl => (r.rdLa sl a.toNat).scale (sextN 32 (src32 r sl b))

/-- ACXT (R209). -/
def execAcxt (h : Hdr) (d a : Reg) (b : Opnd) (s : State) : Host.Outcome State Fault Refusal :=
  valueOp s (.acxt h d a b) h d 1 fun r sl => ((r.rdLa sl a.toNat).extract (src32 r sl b)).toNat

/-- ACINS (R209): a signed 32-bit integer at a bit position. -/
def execAcins (h : Hdr) (d a : Reg) (b : Opnd) (s : State) : Host.Outcome State Fault Refusal :=
  laOp s (.acins h d a b) h d fun r sl =>
    (r.rdLa sl d.toNat).addInteger (sextN 32 (r.rd sl a.toNat).toNat) (src32 r sl b)

/-- ACTST (R210). -/
def execActst (h : Hdr) (c : AcCond) (d a : Reg) (s : State) : Host.Outcome State Fault Refusal :=
  predOp s (.actst h c d a) h d fun r sl => (r.rdLa sl a.toNat).test c

/-- The page rule of an accumulator line (R215, R246). -/
def accRule (w : Want) : PageRule := ⟨w, true, false⟩

/-- ACLD (R215, R216): 96 bytes a lane as they stand, byte 91 zero. -/
def execAcld (h : Hdr) (sp : Space) (d a : Reg) (m : MemX) (s : State) : Host.Outcome State Fault Refusal :=
  match exOf s h with
  | none => .next s
  | some x =>
    match issOf s x.cur.blk x.cur.who with
    | none => .next s
    | some i =>
      if x.slots.isEmpty then .next (pass s x.cur)
      else match firstFault s i x.r sp a m.ofs 128 (accRule .read) x.slots with
      | some f => .next (trapAt s x.cur true f)
      | none =>
        let locs := locsOf s i sp 128 (accessesOf x.r sp a m.ofs x.slots)
        let keys := keysOf i 128 locs
        if ctrFull s i.uid i.who (ctrIndex m) || windowMeets s i keys (anyScr locs) then .next s
        else match gather s i.cl .rd keys with
        | (s, .wait) => .next s
        | (s, .fault c ad) => .next (trapAt s x.cur true (lateFault i 128 locs c ad))
        | (s, .ok) =>
          match readLocs i 96 locs s [] with
          | (s, .wait) => .next s
          | (s, .fault f) => .next (trapAt s x.cur true f)
          | (s, .ok vs) =>
            match recordAll s i (if sp == .glb then keys else []) false with
            | none => .next s
            | some s =>
              let s := keys.foldl (fun s k => l1Access s i k none false .dflt) s
              .next (retire s x (.acld h sp d a m) h fun r =>
                vs.foldl (fun r v => r.wrLa v.1 d.toNat (La.ofImage (BitVec.ofNat 768 v.2))) r)

/-- ACST (R215, R216): the image and 32 zero bytes a lane; canonical on `.glb` or with `.canon`. -/
def execAcst (h : Hdr) (sp : Space) (canon : Bool) (d a : Reg) (m : MemX) (s : State) : Host.Outcome State Fault Refusal :=
  match exOf s h with
  | none => .next s
  | some x =>
    match issOf s x.cur.blk x.cur.who with
    | none => .next s
    | some i =>
      if x.slots.isEmpty then .next (pass s x.cur)
      else match firstFault s i x.r sp a m.ofs 128 (accRule .write) x.slots with
      | some f => .next (trapAt s x.cur true f)
      | none =>
        let locs := locsOf s i sp 128 (accessesOf x.r sp a m.ofs x.slots)
        let keys := keysOf i 128 locs
        if ctrFull s i.uid i.who (ctrIndex m) || windowMeets s i keys (anyScr locs) then .next s
        else match gather s i.cl .wr keys with
        | (s, .wait) => .next s
        | (s, .fault c ad) => .next (trapAt s x.cur true (lateFault i 128 locs c ad))
        | (s, .ok) =>
          match recordAll s i (if sp == .glb then keys else []) true with
          | none => .next s
          | some s =>
            let img (sl : Slot) : Nat :=
              (La.toImage (if canon || sp == .glb then (x.r.rdLa sl d.toNat).canon else x.r.rdLa sl d.toNat)).toNat
            let s := locs.foldl (fun s l => writeLoc s i 128 (img l.1) false l.2.2) s
            .next (retire s x (.acst h sp canon d a m) h id)

end Sys2Proof.Machine
end

