-- ==== Sys2Proof/Machine/Manage.lean ====
section
/-!
DEFINITION. What the driver does to the management registers (00 R8 and the rules that name them) and to the rings of F0
(04 R75, 05 R102, 15 R292, 20 R351, 22 R371); the time page (14 R284); counters read through the mailbox (22 R390).
-/

namespace Sys2Proof.Machine

/-! ### Ring registers (R75) -/

/-- A control register written: `rw` bits take the value, `w1c` bits are cleared by ones, the rest reads zero. -/
def ctlWrite (old v rw w1c : Word) : Word := (v &&& rw) ||| (old &&& w1c &&& ~~~v)

/-- A write to a ring's control register: setting EN zeroes head and tail, and PHASE is 1 on the pass that follows. -/
def Ring.setCtl (r : Ring) (v rw w1c : Word) : Ring :=
  let c := ctlWrite r.ctl v rw w1c
  if bitAt c.toNat 0 && !bitAt r.ctl.toNat 0 then { r with ctl := c, head := 0, tail := 0, phase := true } else { r with ctl := c }

/-- What the ring can take now is written. -/
def ringSettle (s : State) (i : RingId) : State :=
  match i with
  | .faq => faqSettle s
  | .mgr => commitPages (recFlush 256 s)
  | _ => ringFlush 256 s i

def modRing (s : State) (i : RingId) (f : Ring → Ring) : State := ringSettle (setRing s i (f (ringOf s i))) i

/-- FAQ_CTL (R75): OVF_UE and OVF_CE are cleared by ones; CTHR, IRQ_EN and EN are written. -/
def execFaqCtl (v : Word) (s : State) : Host.Outcome State Fault Refusal :=
  .next (modRing s .faq fun r => r.setCtl v 0x0000FF03 0xC0000000)

/-- FAQ_BUFFER_DRAIN (R75). -/
def execFaqBufferDrain (s : State) : Host.Outcome State Fault Refusal := .next (faqSettle s)

/-- REJECT_BUFFER_DRAIN (R292). -/
def execRejectBufferDrain (s : State) : Host.Outcome State Fault Refusal := .next (ringSettle s .rej)

/-- The ring registers of the queues that the device writes. -/
def ctlSet (s : State) (i : RingId) (v : Nat) : State :=
  modRing s i fun r => r.setCtl (BitVec.ofNat 32 v) 0x00000003 0x80000000

def modMgc (s : State) (f : Ring → Ring) : State := { s with mgmt := { s.mgmt with mgc := f s.mgmt.mgc } }

def modYtr (s : State) (ci : Nat) (f : Yarrow → Yarrow) : State := setYarrow s ci (f (yarrowOf s ci))

/-- Sizes of the host aperture: powers of two from 1 TiB to 128 TiB (R93). -/
def barSizeOk (v : Nat) : Bool := (List.range 8).any fun n => v == 2 ^ (40 + n)

/-- The value of a management register after a write. -/
def writeReg (s : State) (r : MReg) (v : Nat) : State :=
  let m := s.mgmt
  let w := s.work
  match r with
  | .asidtBase => { s with mgmt := { m with asidt := v } }
  | .tspillBase => { s with work := { w with tspill := v } }
  | .rthEntry => { s with mgmt := { m with rth := v } }
  | .podBase => { s with mgmt := { m with podBase := v } }
  | .podEn => { s with mgmt := { m with podEn := bitAt v 0 } }
  | .timePage => { s with mgmt := { m with timePage := v } }
  | .faqBase => modRing s .faq fun r => { r with base := v }
  | .faqSize => modRing s .faq fun r => { r with size := v }
  | .faqHead => modRing s .faq fun r => { r with head := v }
  | .mgcBase => modMgc s fun r => { r with base := v }
  | .mgcSize => modMgc s fun r => { r with size := v }
  | .mgcHead => s
  | .mgcTail => modMgc s fun r => { r with tail := v }
  | .mgcCtl =>
    let s := if bitAt v 0 && !bitAt m.mgc.ctl.toNat 0 then { s with motion := { s.motion with cmdAt := 0 } } else s
    modMgc s fun r => r.setCtl (BitVec.ofNat 32 v) 0x00000003 0x80000000
  | .mgrBase => modRing s .mgr fun r => { r with base := v }
  | .mgrSize => modRing s .mgr fun r => { r with size := v }
  | .mgrHead => modRing s .mgr fun r => { r with head := v }
  | .mgrCtl => ctlSet s .mgr v
  | .rejBase => modRing s .rej fun r => { r with base := v }
  | .rejSize => modRing s .rej fun r => { r with size := v }
  | .rejHead => modRing s .rej fun r => { r with head := v }
  | .rejCtl => ctlSet s .rej v
  | .trqBase => modRing s .trq fun r => { r with base := v }
  | .trqSize => modRing s .trq fun r => { r with size := v }
  | .trqHead => modRing s .trq fun r => { r with head := v }
  | .trqCtl => ctlSet s .trq v
  | .dbqBase => modRing s .dbq fun r => { r with base := v }
  | .dbqSize => modRing s .dbq fun r => { r with size := v }
  | .dbqHead => modRing s .dbq fun r => { r with head := v }
  | .dbqCtl => ctlSet s .dbq v
  | .qBase q => { s with work := { w with qbase := w.qbase.set q v } }
  | .qSize q => { s with work := { w with qsize := w.qsize.set q v } }
  | .ppoolBase => { s with work := { w with ppBase := v } }
  | .ppoolSlots => { s with work := { w with ppSlots := v } }
  | .ppoolSlotb => { s with work := { w with ppSlotb := v } }
  | .csaBase => { s with work := { w with csaBase := v } }
  | .csaSlots => { s with work := { w with csaSlots := v } }
  | .csaSlotb => { s with work := { w with csaSlotb := v } }
  | .ytrBase ci => modYtr s ci fun y => { y with base := v }
  | .ytrSize ci => modYtr s ci fun y => { y with size := v }
  | .ytrHead ci => modYtr s ci fun y => { y with head := v }
  | .refill ci => modCore s ci fun k => { k with refill := v }
  | .ecap ci => modCore s ci fun k => { k with ecap := v }
  | .ecost n => { s with power := { s.power with ecost := s.power.ecost.set n v } }
  | .smpPeriod => { s with mgmt := { m with smp := v } }
  | .cxRangeLo n => { s with mgmt := { m with cxRange := m.cxRange.modify n fun p => (v, p.2) } }
  | .cxRangeHi n => { s with mgmt := { m with cxRange := m.cxRange.modify n fun p => (p.1, v) } }
  | .fdumpBase => { s with mgmt := { m with fdBase := v } }
  | .fdumpSize => { s with mgmt := { m with fdSize := v } }
  | .rplHead l => modLaunch s l fun l => { l with rr := l.rr.map fun r => { r with head := v } }
  | .hintEnable a =>
    { s with motion := { s.motion with hints := if bitAt v 0 then insertNat a s.motion.hints else s.motion.hints.erase a } }
  | .tansyPromote t => { s with motion := { s.motion with promote := s.motion.promote.set t v } }
  | .tansyDemote t => { s with motion := { s.motion with demote := s.motion.demote.set t v } }
  | .tansyPolicy => { s with motion := { s.motion with policy := bitAt v 0 } }
  | .freeFrame t p => { s with motion := { s.motion with free := s.motion.free ++ [(t, p, v)] } }
  | .barSize => if barSizeOk v then { s with mgmt := { m with barSize := v } } else s

/-- REGISTER_WRITE, by the driver, the firmware or the power manager (R242). Registers that the device alone advances keep their values (R102, R291). -/
def execRegisterWrite (r : MReg) (v : Dword) (s : State) : Host.Outcome State Fault Refusal := .next (writeReg s r v.toNat)

/-! ### Time (R284) -/

/-- F0's time of a reading under a rate and an offset, rounded down (R284). -/
def convertTime (t : Nat) (r : Dword × Dword) : Int := ((t : Int) * r.1.toNat + r.2.toInt) / 2 ^ 32

/-- Nanoseconds within which a converted reading is the true one (R284). -/
def timeAccuracy : Int := 20

/-- Whether rates and offsets of the six dies take their counters to F0's, within the accuracy. -/
def ratesOk (s : State) (rates : List (Dword × Dword)) : Bool :=
  rates.length == 6 && (List.range 6).all fun d =>
    let e := convertTime (s.sched.time.getD d 0) (rates.getD d (0, 0)) - s.sched.time.getD 4 0
    decide (-timeAccuracy ≤ e ∧ e ≤ timeAccuracy)

/-- The time page's SEQ written (R284). -/
def putSeq (s : State) (seq : Nat) : State × Bool :=
  if s.mgmt.timePage = 0 then (s, true) else engWrite s s.mgmt.timePage 8 seq

/-- Firmware ends an update: the rates and offsets, then an even SEQ. -/
def timeEnd (s : State) (rates : List (Dword × Dword)) : State × Bool :=
  let v := ofBytes (rates.flatMap fun r => toBytes 8 r.1.toNat ++ toBytes 8 r.2.toNat)
  match (if s.mgmt.timePage = 0 then (s, true) else engWrite s (s.mgmt.timePage + 8) (16 * rates.length) v) with
  | (s, false) => (s, false)
  | (s, true) =>
    let seq := (s.sched.tpSeq + 1) % 2 ^ 64
    match putSeq s seq with
    | (s, false) => (s, false)
    | (s, true) => ({ s with sched := { s.sched with rates := rates, newRates := none, tpSeq := seq } }, true)

/-- TIME_RECALIBRATE (R284): firmware begins an update by making SEQ odd, and ends it in a second step with the rates and an
even SEQ. It publishes none that miss the accuracy. -/
def execTimeRecalibrate (rates : List (Dword × Dword)) (s : State) : Host.Outcome State Fault Refusal :=
  match s.sched.newRates with
  | some r => (match timeEnd s r with | (s, true) => .next s | (t, false) => .next (asked s t))
  | none =>
    if !ratesOk s rates then .next s
    else
      let seq := (s.sched.tpSeq + 1) % 2 ^ 64
      match putSeq s seq with
      | (s, true) => .next { s with sched := { s.sched with newRates := some rates, tpSeq := seq } }
      | (t, false) => .next (asked s t)

/-! ### Causal experiments (R389, R390) -/

/-- A launch's delay total over all dies: what they agreed on at the last exchange, and what each has added since. -/
def cxTotal (l : Launch) : Nat :=
  let base := l.cxd.getD 4 0
  base + ((List.range 4).map fun d => l.cxd.getD d 0 - base).sum

/-- CX_EXCHANGE (R390): every die comes to know the delays that the others have counted. -/
def execCxExchange (s : State) : Host.Outcome State Fault Refusal :=
  .next { s with work := { s.work with launches := s.work.launches.map fun l => { l with cxd := List.replicate 5 (cxTotal l) } } }

/-- PPCNT_READ (R390): the launch's progress points, CXD and CXN. -/
def execPpcntRead (launch : Nat) (s : State) : Host.Outcome State Fault Refusal :=
  match launchOf s launch with
  | none => .next s
  | some l => .next (reply s (.words (l.ppcnt.map (·.toNat) ++ [cxTotal l, l.cxn])))

end Sys2Proof.Machine
end

