-- ==== Sys2Proof/Machine/MotionEvents.lean ====
section
/-!
DEFINITION. The steps of the two Tansy engines (05 R97 to R103), the commands of the map engine (05 R91, R92), the bad-page
list (04 R76), HOTSNAP (05 R105) and the purge of a freed TASK value (13 R256). An event that is not due leaves the state.
-/

namespace Sys2Proof.Machine

/-! ### Moves -/

/-- The whole page of a granule: its first frame and how many granules it has. -/
def pageOfFrame (s : State) (frame : Nat) : Nat × Nat :=
  (mappingsOf s frame).foldl (fun p l => if 2 ^ (l.size - 16) > p.2 then (pteFrame l.pte, 2 ^ (l.size - 16)) else p) (frame, 1)

/-- The first free frame of a ring from which `n` aligned frames are free (R97; one frame for a 64 KiB page). -/
def freeRun (s : State) (d : Nat × Nat) (n : Nat) : Option Nat :=
  let fs := s.motion.free.filterMap fun f => if f.1 = d.1 ∧ f.2.1 = d.2 then some f.2.2 else none
  fs.find? fun f => f % n == 0 && (List.range n).all fun q => fs.contains (f + q)

/-- VA[47:16] of the page of a queued granule, whose first frame is `base`. -/
def pageVpn (s : State) (q : MoveReq) (base : Nat) : Nat :=
  q.vpn - ((walk s q.asid (q.vpn * 65536)).map fun w => w.pa (q.vpn * 65536) / 65536 - base).getD 0

/-- A page is taken into motion from its first frame to a destination (R97); a dead granule needs no copy. -/
def startPage (s : State) (q : MoveReq) (base n dst : Nat) : State :=
  let taken := (List.range n).map (dst + ·)
  let page := pageVpn s q base
  let dead (f : Nat) : Bool := s.mem.dead.contains f
  let moves := (List.range n).map fun i =>
    (⟨q.engine, q.asid, page + i, base + i, dst + i, 0, q.retry, dead (base + i), q.dest, s.sched.ns, page, dead (base + i)⟩ : Move)
  let s := { s with motion := { s.motion with
    free := s.motion.free.filter fun f => !taken.contains f.2.2
    moves := s.motion.moves ++ moves } }
  let s := (List.range n).foldl (fun s i => if dead (base + i) then markDead s (dst + i) else s) s
  commitPages (beginMore s q.engine)

/-- MOVE_ACCEPT (R97, R100, R102): the engine's next queued move takes a destination frame, or aborts for want of one. -/
def execMoveAccept (engine : Nat) (s : State) : Host.Outcome State Fault Refusal :=
  let used := (s.motion.moves.filter fun m => m.engine == engine && m.copying).length
  match s.motion.queue.find? fun q => q.engine == engine with
  | none => .next s
  | some q =>
    if s.power.frozen || decide (used ≥ moveSlots) || decide (recsHeld s engine ≥ 64) then .next s
    else
      let s := { s with motion := { s.motion with queue := dropFirst (fun r => r.engine == engine) s.motion.queue } }
      match walk s q.asid (q.vpn * 65536) with
      | none => .next s
      | some w =>
        let f := w.pa (q.vpn * 65536) / 65536
        let d := destOf s q.asid (q.vpn * 65536) q.dest
        let (base, n) := pageOfFrame s f
        let busy := s.motion.moves.any fun m => decide (base ≤ m.src ∧ m.src < base + n)
        if s.mem.retired.contains f || busy || placeOfFrame f == d then .next s
        else match freeRun s d n with
          | some dst => .next (startPage s q base n dst)
          | none =>
            let s := recPut s engine 2 q.retry (Config.freeWord (3100000 + s.sched.tick) 0).toNat q.asid (pageVpn s q base)
            .next (if q.retry then s
              else { s with motion := { s.motion with queue := { q with retry := true } :: s.motion.queue } })

/-- The begun move of a granule. -/
def movingAt (s : State) (engine vpn asid : Nat) : Option Move :=
  s.motion.moves.find? fun m => m.engine == engine && m.vpn == vpn && m.asid == asid && m.begun

/-- What the media of the source shows when the line at a cursor is read (R73). -/
def sourceFlaw (s : State) (pa : Nat) : EccOutcome → State
  | .clean => s
  | .corrected => { s with mem := { s.mem with flaws := s.mem.flaws.set (pa / 64) 1 } }
  | .uncorrectable => { s with mem := { s.mem with flaws := s.mem.flaws.set (pa / 64) 2 } }

/-- Nanoseconds that a line may stay at the cursor: 1 µs (R98). -/
def cursorLimit : Nat := 1000

/-- LINE_COPY_COMPLETE (R98, R103): the line at the cursor is at the destination, poison and all, and the cursor goes on. A
line that has stayed its time is copied no more: CURSOR_TIMEOUT ends the move. -/
def execLineCopyComplete (engine vpn asid : Nat) (o : EccOutcome) (s : State) : Host.Outcome State Fault Refusal :=
  match movingAt s engine vpn asid with
  | none => .next s
  | some m =>
    let src := m.src * 65536 + 128 * m.cursor
    let dst := m.dst * 65536 + 128 * m.cursor
    if !m.copying || s.power.frozen || paHeld s src || paHeld s dst || decide (s.sched.ns ≥ m.since + cursorLimit) then .next s
    else match readLine (sourceFlaw s src o) src with
      | (s, .ok l p) =>
        let s := modMove (writeLine s dst l p) m fun n => { n with cursor := n.cursor + 1, since := s.sched.ns }
        .next (faqSettle (commitPages (beginMore s engine)))
      | (_, _) => .next s

/-- DEST_WRITE_ERROR (R100, R340): a write to the destination fails. -/
def execDestWriteError (engine vpn asid : Nat) (s : State) : Host.Outcome State Fault Refusal :=
  match movingAt s engine vpn asid with
  | none => .next s
  | some m => if s.power.frozen || decide (recsHeld s engine ≥ 64) then .next s else .next (abortPage s m 1)

/-- CURSOR_TIMEOUT (R98, R100). -/
def execCursorTimeout (engine vpn asid : Nat) (s : State) : Host.Outcome State Fault Refusal :=
  match movingAt s engine vpn asid with
  | none => .next s
  | some m =>
    if !m.copying || s.power.frozen || decide (s.sched.ns < m.since + cursorLimit) || decide (recsHeld s engine ≥ 64) then .next s
    else .next (abortPage s m 4)

/-- MIGRATION_RECORD_DRAIN (R102): buffered records go to the ring while it takes them, then commits held for room. -/
def execMigrationRecordDrain (engine : Nat) (s : State) : Host.Outcome State Fault Refusal :=
  .next (commitPages (if recsHeld s engine = 0 then s else recFlush 128 s))

/-! ### Migration commands (R102) -/

/-- Granules of a command from one number on: the first that finds its queue full, or the end. A range that passes 2^48 goes on
at VA 0: the model's choice, the manual does not say (assumption log 108). -/
def cmdGo (asid va : Nat) (tp : TierPlace) : Nat → Nat → State → State × Option Nat
  | 0, _, s => (s, none)
  | n + 1, q, s =>
    match offerMove s asid ((va + 65536 * q) % 2 ^ 48) tp false with
    | .ignored => cmdGo asid va tp n (q + 1) s
    | .taken s => cmdGo asid va tp n (q + 1) s
    | .full _ => (s, some q)

/-- The head of the command ring has been handled. -/
def cmdDone (s : State) (err : Bool) : State :=
  let r := s.mgmt.mgc
  let r := { r with head := (r.head + 1) % max 1 r.size, ctl := if err then r.ctl ||| 0x80000000#32 else r.ctl }
  { s with mgmt := { s.mgmt with mgc := r }, motion := { s.motion with cmdAt := 0 } }

/-- MIGRATION_COMMAND (R102): F0 reads the next command and hands its granules to the engines. -/
def execMigrationCommand (s : State) : Host.Outcome State Fault Refusal :=
  let r := s.mgmt.mgc
  if !bitAt r.ctl.toNat 0 || r.size = 0 || r.head = r.tail || s.power.frozen then .next s
  else match engRead s (r.base + 32 * r.head) 32 with
    | (t, none) => .next (asked s t)
    | (s, some v) =>
      match tierOf (BitVec.ofNat 4 (bitsAt v 116 4)) with
      | none => .next (cmdDone s true)
      | some tp =>
        if bitsAt v 120 136 != 0 || bitsAt v 112 4 != 0 || bitsAt v 32 32 != 0 then .next (cmdDone s true)
        else
          let at_ := s.motion.cmdAt
          match cmdGo (bitsAt v 96 16) (bitsAt v 0 32 * 65536) tp (bitsAt v 64 32 - at_) at_ s with
          | (s, none) => .next (cmdDone s false)
          | (s, some q) => .next { s with motion := { s.motion with cmdAt := q } }

/-! ### The map engine (R91, R92) -/

/-- Bytes that a command names. -/
def mapBytes (c : MapCmd) : Nat := c.count * 2 ^ c.size

def tierNum : Tier → Nat
  | .h => 0 | .l => 1 | .x => 2 | .none => 3

def mtNum : MT → Nat
  | .wb => 0 | .wc => 1 | .uc => 2 | .hc => 3

/-- The leaf of page `i` of a command: the engine writes G itself (R85, R91). -/
def mapLeaf (c : MapCmd) (dead : Bool) (i : Nat) : Nat :=
  3 + c.rd.toNat * 2 ^ 6 + c.w.toNat * 2 ^ 7 + c.x.toNat * 2 ^ 8 + c.u.toNat * 2 ^ 9 + (c.asid == 0).toNat * 2 ^ 10
    + mtNum c.mt * 2 ^ 11 + (c.frame + i * 2 ^ (c.size - 16)) % 2 ^ 36 * 2 ^ 16 + dead.toNat * 2 ^ 56 + c.home % 8 * 2 ^ 57
    + tierNum c.tier * 2 ^ 60

/-- Status 5: a range that reaches the global half under an ASID other than 0. -/
def mapOutside (c : MapCmd) : Bool := c.asid != 0 && decide (c.va + mapBytes c > 2 ^ 47)

/-- The leaves that a command's range touches. -/
def leavesIn (s : State) (c : MapCmd) : List Leaf :=
  (leavesOf s).filter fun l => l.asid == c.asid && decide (l.va < c.va + mapBytes c ∧ c.va < l.va + 2 ^ l.size)

/-- Whether a launch holds a lease on a granule of a range (R95). -/
def leasedIn (s : State) (c : MapCmd) : Bool :=
  s.work.launches.any fun l => l.leased && l.ranges.any fun r =>
    tabAsid l.asid r.1 == c.asid && r.2 != 0 && decide (r.1 < c.va + mapBytes c ∧ c.va < r.1 + r.2)

/-- Status 2: the frames of a command against the mappings they have (R92). -/
def aliasBad (s : State) (c : MapCmd) : Bool :=
  let n := mapBytes c / 65536
  let ls := (leavesOf s).filter fun l => decide (pteFrame l.pte < c.frame + n ∧ c.frame < pteFrame l.pte + 2 ^ (l.size - 16))
  if c.w then !ls.isEmpty
  else ls.any fun l => pteW l.pte || decide ((ls.filter fun k => k.maps (max c.frame (pteFrame l.pte))).length ≥ 4)

/-- Room for a table: the first page of the table region that holds none. -/
def newTable (s : State) : Nat :=
  let used := (tablesOf s).map (· / 4096)
  let base := Config.tableRegion
  4096 * (base + ((List.range (used.length + 1)).find? fun j => !used.contains (base + j)).getD 0)

/-- The entry of a VA at a level, with the tables above it made where they are missing. -/
def entryGo (va target : Nat) : Nat → Nat → Nat → State → State × Option Nat
  | 0, _, _, s => (s, none)
  | fuel + 1, level, table, s =>
    let s := { s with mem := { s.mem with tables := insertNat (table / 65536) s.mem.tables } }
    let at_ := table + 8 * levelIndex level va
    if level = target then (s, some at_)
    else
      let e := (readEntry s at_).getD 0
      if pteV e then
        if pteLeaf e then (s, none) else entryGo va target fuel (level + 1) (bitsAt e 8 44 * 256) s
      else
        let t := newTable s
        entryGo va target fuel (level + 1) t (putEntry s at_ (1 + t / 256 % 2 ^ 44 * 256))

def entryFor (s : State) (asid va target : Nat) : State × Option Nat :=
  let at_ := s.mgmt.asidt + 8 * asid
  let e := (readEntry s at_).getD 0
  if bitAt e 0 then entryGo va target 4 1 (bitsAt e 12 40 * 4096) s
  else
    let t := newTable s
    entryGo va target 4 1 t (putEntry s at_ (1 + t / 4096 % 2 ^ 40 * 4096))

/-- The level of a page size's leaf (R83). -/
def leafLevel (size : Nat) : Option Nat := if size = 30 then some 2 else if size = 21 then some 3 else if size = 16 then some 4 else none

/-- One page mapped; with `dead`, every granule of it is dead. A range that passes 2^48 goes on at VA 0, and a VA that is not
aligned to the page is taken as the page that holds it: the model's choices, the manual gives no status (assumption log 108). -/
def mapPage (c : MapCmd) (dead : Bool) (level : Nat) (s : State) (i : Nat) : State :=
  match entryFor s c.asid ((c.va + i * 2 ^ c.size) % 2 ^ 48) level with
  | (s, none) => s
  | (s, some at_) =>
    let s := putEntry s at_ (mapLeaf c dead i)
    if dead && c.tier != .none then
      (List.range (2 ^ (c.size - 16))).foldl (fun s q => markDead s (c.frame + i * 2 ^ (c.size - 16) + q)) s
    else s

/-- The refusal status of a MAP or ZERO, 0 for none (R91). -/
def mapStatus (s : State) (c : MapCmd) : Nat :=
  let n := mapBytes c / 65536
  if mapOutside c then 5
  else if !(leavesIn s c).isEmpty then 1
  else if aliasBad s c then 2
  else if s.mem.retired.any fun f => decide (c.frame ≤ f ∧ f < c.frame + n) then 3
  else 0

/-- A MAP or ZERO carried out: its status and effect. -/
def mapCommand (c : MapCmd) (dead : Bool) (s : State) : State :=
  match leafLevel c.size with
  | none => s
  | some level =>
    match mapStatus s c with
    | 0 => reply ((List.range c.count).foldl (mapPage c dead level) s) (.status 0)
    | n => reply s (.status n)

/-- The lines of a range of VAs that any cache, home, window or message knows. -/
def rangeKeys (s : State) (c : MapCmd) : List Key :=
  let mine (k : Key) : Bool := k.asid == c.asid && decide (c.va < vaOf k + 128 ∧ vaOf k < c.va + mapBytes c)
  ((s.coh.dir.map (·.key)) ++ (s.coh.lines.map (·.key)) ++ (s.coh.wins.map (·.key)) ++ (s.coh.wc.map (·.key))
    ++ (s.coh.net.map (·.key))).foldl (fun l k => if mine k && !l.contains k then l ++ [k] else l) []

/-- The lines of a command's pages written back and invalidated, each as a request at its home (R91, R408); false while a
line of them must wait. -/
def flushRange (s : State) (c : MapCmd) : State × Bool :=
  let keys := rangeKeys s c
  let s := (s.coh.wc.filter fun w => keys.contains w.key).foldl (fun s w => (wcDrainLine s w).1) s
  let s := keys.foldl (fun s k => (recallLine s k enginePty false).1) s
  let idle (k : Key) : Bool := (dirOf s k).st == .hi && (dirOf s k).txn == none && (dirOf s k).queue.isEmpty
  let s := { s with coh := { s.coh with icache := s.coh.icache.filter fun e => !(e.2.1.asid == c.asid && decide (c.va < vaOf e.2.1 + 128 ∧ vaOf e.2.1 < c.va + mapBytes c)) } }
  (s, keys.all idle && !(s.coh.wc.any fun w => keys.contains w.key))

/-- Whether an MTLB entry lies in a command's range. -/
def mapHasEntry (c : MapCmd) (e : Mtlb) : Bool :=
  e.asid == c.asid && decide (c.va < (e.vpn + e.hot.length) * 65536 ∧ e.vpn * 65536 < c.va + mapBytes c)

/-- A command whose range is all of every leaf that it touches (R91, R95): a leaf is unmapped or protected whole. -/
def wholeLeaves (s : State) (c : MapCmd) : MapCmd :=
  let ls := leavesIn s c
  let lo := ls.foldl (fun n l => min n l.va) c.va
  let hi := ls.foldl (fun n l => max n (l.va + 2 ^ l.size)) (c.va + mapBytes c)
  { c with va := lo, size := 16, count := (hi - lo) / 65536 }

/-- What the memory side keeps of a command's pages is dropped: MTLB entries, HOME fields, L2 lines (R87, R88, R91). -/
def dropEntries (s : State) (c : MapCmd) : State :=
  let mine (k : Key) : Bool := k.asid == c.asid && decide (c.va < vaOf k + 128 ∧ vaOf k < c.va + mapBytes c)
  { s with coh := { s.coh with
      mtlb := s.coh.mtlb.filter fun e => !mapHasEntry c e
      locs := s.coh.locs.filter fun e => !(e.2.1 == c.asid && decide (c.va < e.2.2.1 * 65536 + 65536 ∧ e.2.2.1 * 65536 < c.va + mapBytes c))
      l2 := s.coh.l2.filter fun e => !mine e.1 } }

/-- An UNMAP carried out (R91, R100, R257), or false while it must wait. -/
def unmapCommand (c : MapCmd) (s : State) : State × Bool :=
  let c := wholeLeaves s c
  if mapOutside c then (reply s (.status 5), true)
  else if leasedIn s c then (reply s (.status 4), true)
  else match flushRange s c with
    | (s, false) => (s, false)
    | (s, true) =>
      let ls := leavesIn s c
      let gone := s.motion.moves.filter fun m => ls.any fun l => l.maps m.src
      if gone.any fun m => decide (recsHeld s m.engine ≥ 64) then (s, false)
      else
        let s := gone.foldl (fun s m => if s.motion.moves.any fun n => n.src == m.src then abortPage s m 5 else s) s
        let keys := rangeKeys s c
        let s := dropEntries s c
        let s := { s with coh := { s.coh with wins := s.coh.wins.filter fun w => !keys.contains w.key } }
        let s := ls.foldl (fun s l => putEntry s l.at_ (l.pte - 1)) s
        (reply s (.status 0), true)

/-- A leaf with the permissions and type of a command (R91). -/
def mapProtect (c : MapCmd) (pte : Nat) : Nat :=
  putBits (putBits pte 6 4 (c.rd.toNat + 2 * c.w.toNat + 4 * c.x.toNat + 8 * c.u.toNat)) 11 2 (mtNum c.mt)

/-- A PROTECT carried out (R91, R92), or false while it must wait: a page that gains W may have no other mapping. -/
def protectCommand (c : MapCmd) (s : State) : State × Bool :=
  let c := wholeLeaves s c
  let ls := leavesIn s c
  let drops := ls.any fun l => pteW l.pte && !c.w
  let shared := c.w && ls.any fun l => (leavesOf s).any fun k =>
    k.at_ != l.at_ && decide (pteFrame k.pte < pteFrame l.pte + 2 ^ (l.size - 16) ∧ pteFrame l.pte < pteFrame k.pte + 2 ^ (k.size - 16))
  if mapOutside c then (reply s (.status 5), true)
  else if drops && leasedIn s c then (reply s (.status 4), true)
  else if shared then (reply s (.status 2), true)
  else match flushRange s c with
    | (s, false) => (s, false)
    | (s, true) =>
      let ls := leavesIn s c
      let s := ls.foldl (fun s l => putEntry s l.at_ (mapProtect c l.pte)) s
      (reply { s with coh := { s.coh with
        mtlb := s.coh.mtlb.map fun e => (if mapHasEntry c e then { e with pte := mapProtect c e.pte } else e) } } (.status 0), true)

/-- A command of the map engine's ring (R91), by its number. -/
def mapAny (x : Nat × MapCmd) (s : State) : State × Bool :=
  match x.1 with
  | 0 => (mapCommand x.2 false s, true)
  | 1 => (mapCommand x.2 true s, true)
  | 2 => unmapCommand x.2 s
  | _ => protectCommand x.2 s

/-- Commands complete in ring order (R91): the first that must wait holds back the rest. -/
def mapGo : List (Nat × MapCmd) → State → State
  | [], s => { s with motion := { s.motion with mapq := [] } }
  | x :: r, s =>
    match mapAny x s with
    | (s, true) => mapGo r s
    | (s, false) => { s with motion := { s.motion with mapq := x :: r } }

/-- The map engine reads a command: it is carried out when those before it have been. -/
def mapTake (x : Nat × MapCmd) (s : State) : State := mapGo (s.motion.mapq ++ [x]) s

/-- The commands that wait go on. -/
def mapSettle (s : State) : State := if s.motion.mapq.isEmpty then s else mapGo s.motion.mapq s

/-- MAP (R91, R92). -/
def execMap (c : MapCmd) (s : State) : Host.Outcome State Fault Refusal := .next (mapTake (0, c) s)

/-- ZERO (R91): as MAP, every granule dead. -/
def execZero (c : MapCmd) (s : State) : Host.Outcome State Fault Refusal := .next (mapTake (1, c) s)

/-- UNMAP (R91, R100, R257). -/
def execUnmap (c : MapCmd) (s : State) : Host.Outcome State Fault Refusal := .next (mapTake (2, c) s)

/-- PROTECT (R91, R92). -/
def execProtect (c : MapCmd) (s : State) : Host.Outcome State Fault Refusal := .next (mapTake (3, c) s)

/-! ### The mailbox -/

/-- The frames that the bad-page list holds (R76). -/
def badListSize : Nat := 4096

/-- BAD_PAGE_ADD (R76): the frame is retired; a full list is what the reply says (status 1, assumption log 33). A move to it
aborts (R100). -/
def execBadPageAdd (frame : Nat) (s : State) : Host.Outcome State Fault Refusal :=
  let f := frame % 2 ^ 36
  let gone := s.motion.moves.filter fun m => m.dst == f
  if gone.any fun m => decide (recsHeld s m.engine ≥ 64) then .next s
  else
    let full := decide (s.mem.badList.length ≥ badListSize) && !s.mem.badList.contains f
    let s := { s with mem := { s.mem with
      retired := insertNat f s.mem.retired
      badList := if full then s.mem.badList else insertNat f s.mem.badList } }
    let s := gone.foldl (fun s m => abortPage s m 3) s
    .next (reply s (.status full.toNat))

/-- What HOTSNAP writes: eight bytes for every counter of every resident entry, in the order of the entries' filling. -/
def hotBytes (s : State) : List Byte :=
  s.coh.mtlb.flatMap fun e => (List.range e.hot.length).flatMap fun j =>
    toBytes 8 (Config.hotsnapEntry e.asid (e.vpn + j) (e.hot.getD j 0))

/-- HOTSNAP (R105); it is made again while a line of the buffer must wait. -/
def execHotsnap (va : Nat) (s : State) : Host.Outcome State Fault Refusal :=
  let b := hotBytes s
  match engWrite s va b.length (ofBytes b) with
  | (s, true) => .next (reply s (.status 0))
  | (t, false) => .next (asked s t)

/-- TAG_PURGE (R256): the windows' entries of a freed TASK value are deleted, and the value may be given again. -/
def execTagPurge (task : Nat) (s : State) : Host.Outcome State Fault Refusal :=
  if !s.work.purge.contains task then .next s
  else .next { s with
    coh := { s.coh with wins := (s.coh.wins.map fun w => { w with tags := w.tags.filter fun t => t.1 / 2 ^ 16 != task }).filter fun w => !w.tags.isEmpty }
    work := { s.work with purge := s.work.purge.erase task } }

end Sys2Proof.Machine
end

