-- ==== Sys2Proof/Machine/Timers.lean ====
section
/-!
DEFINITION. What happens when time has passed (05 R105, R110; 06 R127, R132; 07 R151, R152; 12 R242), patrol scrub (04 R73),
and the power alarm and thermal freeze (12 R244, 04 R78). The core clock stands still in a freeze, and the time
that limits are measured in with it.
-/

namespace Sys2Proof.Machine

/-! ### Time-outs (R132) -/

/-- The line of a lost holder is poisoned at its home (R132). -/
def poisonHome (s : State) (k : Key) : State :=
  match homeFetch s k false false with
  | (s, .ok l _) => homeAbsorb s k l true
  | (s, _) => s

/-- HOME_TIMEOUT (R132): the holders a home has waited for are lost; an owner's or an accumulator's line is poisoned. -/
def execHomeTimeout (k : Key) (s : State) : Host.Outcome State Fault Refusal :=
  let e := dirOf s k
  match e.txn with
  | none => .next s
  | some t =>
    let owed := t.fwd.isSome || t.waitWb || !t.invs.isEmpty || !t.mrgs.isEmpty
    if !owed || s.sched.ns < t.since + Config.timeoutNs || homeBusy s k then .next s
    else
      let s := if t.fwd.isSome || t.waitWb || !t.mrgs.isEmpty then poisonHome s k else s
      let lost := t.fwd.isSome || t.waitWb
      let s := setDir s { dirOf s k with st := if lost then (if e.sharers.isEmpty then .hi else .hs) else e.st }
      .next (modTxn s k fun t => { t with fwd := none, waitWb := false, invs := [], mrgs := [] })

/-- Whether the memory of a line is behind a die in uncore reset (R79). -/
def memDown (s : State) (k : Key) : Bool :=
  match (translate s k true).2 with
  | some pte => let pa := keyPa k pte; decide (paTarget pa ≤ 7) && s.power.uncoreDown.contains (paDie pa)
  | none => false

/-- A line whose data is lost is to be poisoned at its home once that can be done (R79, R133). -/
def loseData (s : State) (k : Key) : State :=
  { s with coh := { s.coh with dropped := if s.coh.dropped.contains k then s.coh.dropped else s.coh.dropped ++ [k] } }

/-- Lines whose data is lost are poisoned, as homes and their memories answer again (R79, R133). -/
def poisonDropped (s : State) : State :=
  s.coh.dropped.foldl (fun s k =>
    if homeUp s k && !homeBusy s k then
      poisonHome { s with coh := { s.coh with dropped := s.coh.dropped.filter (· != k) } } k
    else s) s

/-- A write-back that has waited 2 ms for a home, or for memory, in reset is dropped, wherever it has come to, and its line will
be poisoned (R79, R133). -/
def dropWb (s : State) (cl : Nat) (k : Key) : State :=
  let wb (r : Req) : Bool := match r with | .wb _ => true | _ => false
  if (homeUp s k && !memDown s k)
      || !(s.coh.wbs.any fun w => w.1 == cl && w.2.1 == k && decide (w.2.2 + Config.timeoutNs ≤ s.sched.ns)) then s
  else
    let s := loseData { s with coh := { s.coh with
      wbs := s.coh.wbs.filter fun w => !(w.1 == cl && w.2.1 == k)
      net := s.coh.net.filter fun m => !(m.src == cl && m.key == k && (match m.body with | .wb _ | .mrg _ => true | _ => false)) } } k
    let e := dirOf s k
    let mine := e.txn.any fun t => t.src == cl && wb t.req
    let owner := (e.st == .he || e.st == .ho) && e.owner == cl
    if !homeUp s k then s
    else setDir s { e with
      txn := if mine then none else e.txn
      queue := e.queue.filter fun x => !(x.1 == cl && wb x.2)
      st := if owner then (if e.st == .ho && !e.sharers.isEmpty then .hs else .hi) else e.st }

/-- REQUEST_TIMEOUT (R132, R79): cause 0x12 for a cluster's request, and for an operation of its issuers, that its home has not
answered; a write-back is dropped. -/
def execRequestTimeout (cl : Nat) (k : Key) (s : State) : Host.Outcome State Fault Refusal :=
  let due (since : Nat) : Bool := decide (since + Config.timeoutNs ≤ s.sched.ns)
  let req (r : Nat × Key × Req × Nat) : Bool := r.1 == cl && r.2.1 == k && due r.2.2.2
  let op (w : HomeWait) : Bool := w.cl == cl && w.key == k && due w.since
  let n := (s.coh.reqs.filter req).length + (s.coh.homeWaits.filter op).length
  if n = 0 then .next (dropWb s cl k)
  else .next { s with coh := { s.coh with
    reqs := s.coh.reqs.filter fun r => !req r
    homeWaits := s.coh.homeWaits.filter fun w => !op w
    refused := s.coh.refused ++ List.replicate n (cl, k, 0x12) } }

/-! ### Intervals -/

/-- Cycles after which a write-combining line drains (R127). -/
def wcInterval : Nat := 2048

/-- WC_DRAIN (R127). -/
def execWcDrain (cl : Nat) (s : State) : Host.Outcome State Fault Refusal :=
  .next (wcDrainAll s cl fun w => decide (w.since + wcInterval ≤ s.sched.cycle))

/-- CEIL as the throttle takes it (R152). -/
def ceilOf (k : Core) : Nat := max 1 (min 32 k.ceil)

/-- CAP at the end of a window (R151). -/
def nextCap (k : Core) (resident : Nat) : Nat :=
  let c := if k.hits * 8 > k.accs then max 1 (k.cap - 1)
    else if k.hits * 32 < k.accs then min (min (ceilOf k) resident) (k.cap + 1)
    else k.cap
  min c (ceilOf k)

/-- The groups on a core: block, group, whether excluded four times, score, slot. -/
def groupsOn (s : State) (die core : Nat) : List (Nat × Nat × Bool × Nat × Nat) :=
  (s.work.blocks.filter fun b => b.die == die && b.core == core).flatMap fun b =>
    (List.range b.groups.length).filterMap fun g => (b.groups[g]?).map fun gr => (b.uid, g, decide (gr.excluded ≥ 4), gr.score, gr.gslot)

/-- The order in which groups are admitted to a window (R151). -/
def rankGroups (gs : List (Nat × Nat × Bool × Nat × Nat)) : List (Nat × Nat × Bool × Nat × Nat) :=
  sortBy (fun a b => (a.2.2.1 && !b.2.2.1)
    || (a.2.2.1 == b.2.2.1 && (decide (a.2.2.2.1 > b.2.2.2.1) || (a.2.2.2.1 == b.2.2.2.1 && decide (a.2.2.2.2 ≤ b.2.2.2.2))))) gs

/-- THROTTLE_WINDOW (R151). -/
def execThrottleWindow (die core : Nat) (s : State) : Host.Outcome State Fault Refusal :=
  let ci := coreIndex die core
  let k := coreState s ci
  if die ≥ 4 || core ≥ 64 || s.sched.cycle < k.winStart + 4096 then .next s
  else
    let gs := rankGroups (groupsOn s die core)
    let cap := nextCap k gs.length
    let s := modCore s ci fun k => { k with cap := cap, hits := 0, accs := 0, winStart := k.winStart + 4096 }
    .next ((List.range gs.length).foldl (fun s n => match gs[n]? with
      | some (uid, g, _) => modGroup s uid g fun gr => { gr with
          mayIssue := decide (n < cap)
          excluded := if n < cap then 0 else gr.excluded + 1
          score := gr.score / 2 }
      | none => s) s)

/-- HOTNESS_DECAY (R105). -/
def execHotnessDecay (die : Nat) (s : State) : Host.Outcome State Fault Refusal :=
  let last := s.motion.decayed.getD die 0
  if die ≥ 4 || s.sched.cycle < last + 2 ^ 20 then .next s
  else .next { s with
    motion := { s.motion with decayed := s.motion.decayed.set die (last + 2 ^ 20) }
    coh := { s.coh with mtlb := s.coh.mtlb.map fun e => if e.die = die then { e with hot := e.hot.map (· / 2) } else e } }

/-- ENERGY_REFILL (R242, R243): every context on a core, up to the core's cap. -/
def execEnergyRefill (die core : Nat) (s : State) : Host.Outcome State Fault Refusal :=
  let ci := coreIndex die core
  let k := coreState s ci
  if die ≥ 4 || core ≥ 64 || s.sched.cycle < k.refilled + 512 then .next s
  else
    let s := modCore s ci fun k => { k with refilled := k.refilled + 512 }
    let fill (x : Ctx) : Ctx := { x with energy := min k.ecap (x.energy + k.refill), bstall := false }
    .next ((s.work.blocks.filter fun b => b.die == die && b.core == core).foldl (fun s b =>
      (issuersOf b).foldl (fun s who => modCtx s b.uid who fill) s) s)

/-! ### Speculation and scrubbing -/

/-- What a speculative access may read (R110). -/
def specOk (s : State) (i : Iss) (va : Nat) : Bool :=
  match walk s (tabAsid i.l.asid va) va with
  | none => false
  | some w =>
    let pa := w.pa va
    decide (va < 2 ^ 48) && (pteAttr w.pte).permits .read i.runtime && i.l.covers (va / 128 * 128) 128
      && pteMt w.pte == .wb && decide (paTarget pa ≤ 7) && s.mem.backed pa

/-- What a speculative access leaves: no hotness and no report (R110). -/
def specKeep (s t : State) : State :=
  { t with
    coh := { t.coh with mtlb := s.coh.mtlb }
    mem := { t.mem with ceCount := s.mem.ceCount }
    mgmt := { t.mgmt with faq := s.mgmt.faq } }

/-- SPECULATIVE_ACCESS (R110): fills a cache, or is dropped and counted; no A or D bit, no hotness, no report. One that must wait
at a home has asked there, and no more; in a freeze none is made (R78). -/
def execSpeculativeAccess (blk who va : Nat) (s : State) : Host.Outcome State Fault Refusal :=
  match issOf s blk who with
  | none => .next s
  | some i =>
    let k := keyOf i.l.asid va
    let drop := { s with coh := { s.coh with specDrop := s.coh.specDrop + 1 } }
    if s.power.frozen then .next s
    else if !specOk s i va then .next drop
    else match obtain (translate s k false).1 i.cl k .rd with
    | (t, .line c) => .next (if c.poison then drop else specKeep s t)
    | (t, .wait) => .next (specKeep s t)
    | (_, .fault _) => .next drop

/-- PATROL_SCRUB (R73, R75, R77) of a 64-byte granule of tiers H and L: dead granules are skipped. -/
def execPatrolScrub (pa : Nat) (o : EccOutcome) (s : State) : Host.Outcome State Fault Refusal :=
  let g := pa / 64
  if paTarget pa > 5 || !s.mem.backed pa || s.mem.dead.contains (pa / 65536) || paHeld s pa then .next s
  else
    let latent := match s.mem.flaws.get? g with
      | some 1 => EccOutcome.corrected
      | some _ => .uncorrectable
      | none => o
    match latent with
    | .clean => .next s
    | .corrected => .next (countCorrected { s with mem := { s.mem with flaws := s.mem.flaws.erase g } } (64 * g))
    | .uncorrectable =>
      .next (faqPush { s with mem := { s.mem with poison := insertNat (pa / 128) s.mem.poison, flaws := s.mem.flaws.erase g } }
        2 0 (64 * g))

/-! ### Power and heat -/

/-- POWER_ALARM_RISE (R244): units narrow at their next pass boundaries. -/
def execPowerAlarmRise (s : State) : Host.Outcome State Fault Refusal :=
  .next { s with power := { s.power with alarm := true } }

/-- POWER_ALARM_CLEAR (R244). -/
def execPowerAlarmClear (s : State) : Host.Outcome State Fault Refusal :=
  .next { s with power := { s.power with alarm := false } }

/-- THERMAL_FREEZE (R78): a stack is at its critical temperature, and the package stops issuing. -/
def execThermalFreeze (stack : Nat) (s : State) : Host.Outcome State Fault Refusal :=
  if stack ≥ 12 then .next s
  else
    let p := s.power
    let p := { p with hot := insertNat stack p.hot }
    .next { s with power := if p.frozen then p
      else { p with frozen := true, frzStart := s.sched.time.getD 4 0, frzCount := p.frzCount + 1 } }

/-- The blocks of the cohorts that a pre-emption request names stop; in a freeze the request is held, and they stop when it ends
(R78, R354). -/
def haltNamed (s : State) : State :=
  if s.power.frozen then s
  else { s with work := { s.work with blocks := s.work.blocks.map fun b =>
    (if (cohortOf s b.cohort).any (·.preempt) then { b with halted := true } else b) } }

/-- THERMAL_RESUME (R78): every stack is below its resume temperature. -/
def execThermalResume (s : State) : Host.Outcome State Fault Refusal :=
  .next (haltNamed { s with power := { s.power with frozen := false, hot := [] } })

end Sys2Proof.Machine
end

