-- ==== Sys2Proof/Machine/Reset.lean ====
section
/-!
DEFINITION. Reset and trust (24 R398 to R403; 06 R133; 20 R362; 04 R79): package reset with link training and the firmware
chain, graceful and abrupt resets of dies, firmware updates and attestation.
-/

namespace Sys2Proof.Machine

/-! ### Firmware (R399 to R402) -/

/-- A digest as 32 bytes. -/
def digestBytes (d : BitVec 256) : List Byte := toBytes 32 d.toNat

/-- The 64-byte header (R399). -/
def Firmware.header (f : Sys2Proof.Firmware) : List Byte :=
  toBytes 4 f.magic ++ toBytes 4 f.stage ++ toBytes 4 f.rollback ++ toBytes 4 f.length ++ digestBytes f.digest ++ toBytes 16 0

/-- The reason for which a stage's image is refused, 0 for none, in the order of R400's test. -/
def imageReason (b : Boot) (stage : Nat) (f : Sys2Proof.Firmware) : Nat :=
  if Config.sha256 (toBytes 32 f.pubKey.toNat) != b.pkh then 2
  else if f.magic != 0x46574946 || f.stage != stage || f.length != f.body.length || !f.reservedZero then 1
  else if f.rollback < b.roll.getD (stage - 1) 0 then 3
  else if Config.sha256 f.body != f.digest then 4
  else if !Config.slhVerify f.pubKey (Firmware.header f ++ f.body) f.signature then 5
  else 0

/-- A stage is measured and logged (R400, R401). -/
def measure (b : Boot) (stage now : Nat) (f : Sys2Proof.Firmware) : Boot :=
  let d := Config.sha256 (Firmware.header f ++ f.body)
  { b with
    meas := b.meas.modify (stage - 1) fun m => Config.sha256 (digestBytes m ++ digestBytes d)
    log := b.log ++ [(stage, f.rollback, d, now)] }

/-- The stages from one on; BOOT_STATUS tells the last stage reached, or the reason of the stage that failed. -/
def bootStages (now : Nat) : List Nat → Boot → Boot
  | [], b => b
  | n :: r, b =>
    match b.flash.find? fun f => f.stage == n with
    | none => { b with status := n * 16 + 1 }
    | some f =>
      if imageReason b n f ≠ 0 then { b with status := n * 16 + imageReason b n f }
      else bootStages now r { measure b n now f with status := n * 16 }

/-! ### Package reset (R398) -/

/-- A module's direction after training (R260, R263): on all its lanes, unless it is down. -/
def trainModule (m : Module) : Module := { freshModule m.id with up := m.up }

/-- Capacities enabled at the CXL ports in order, 16 TiB each and 32 TiB in all (R71, R72). -/
def enableCaps (caps : List Nat) : List Nat :=
  (caps.foldl (fun (a : List Nat × Nat) c => let n := min (min c (2 ^ 44)) a.2; (a.1 ++ [n], a.2 - n)) ([], 2 ^ 45)).1

/-- The device after reset, with what it keeps: fuses and flash, the media, the good lanes of its modules, and what lies outside
it (assumption log 38). -/
def resetKeeping (s : State) : State :=
  let z := State.reset
  { z with
    sched := { z.sched with agenda := s.sched.agenda, tick := s.sched.tick, replies := s.sched.replies }
    work := { z.work with nextUid := s.work.nextUid }
    mem := { s.mem with retired := s.mem.badList, ceCount := [], tables := [] }
    links := { z.links with mods := s.links.mods.map trainModule, podNext := s.links.podNext }
    boot := { z.boot with flash := s.boot.flash, pkh := s.boot.pkh, roll := s.boot.roll, serial := s.boot.serial, devKey := s.boot.devKey } }

/-- PACKAGE_RESET (R398, R400): the firmware chain, then the links in order up to the host link's first attempt. -/
def execPackageReset (s : State) : Host.Outcome State Fault Refusal :=
  let s := resetKeeping s
  let s := { s with boot := bootStages 0 [1, 2, 3] s.boot }
  if bootHalted s then .next { s with power := { s.power with coresDown := [0, 1, 2, 3], uncoreDown := [0, 1, 2, 3, 4, 5] } }
  else match (List.range 8).find? fun e => edgeDown s e with
  | some e => .next (goFatal s 1 (edgeDies e).1 ((edgeDies e).1 % 8 + e * 8))
  | none => .next { s with boot := { s.boot with step := 5 } }

/-- The frame availability report (R70, R76): what each CXL port has enabled, and the retired frames at PA[51:16]. -/
def frameReport (s : State) : Reply := .frames s.mem.cap (s.mem.badList.map (· * 65536))

/-- HOST_LINK_RETRY (R398): an attempt of step 5; when it succeeds, steps 6 and 7 follow, and the driver is told of the memory
(R70, R76). -/
def execHostLinkRetry (ok : Bool) (s : State) : Host.Outcome State Fault Refusal :=
  if s.boot.step ≠ 5 || !ok then .next s
  else
    let s := { s with mem := { s.mem with cap := enableCaps s.mem.cap }, boot := { s.boot with step := 7, hostUp := true } }
    .next (reply s (frameReport s))

/-! ### Mailbox (R363, R401, R402) -/

/-- MAILBOX_STATUS: BOOT_STATUS. -/
def execMailboxStatus (s : State) : Host.Outcome State Fault Refusal := .next (reply s (.status s.boot.status))

/-- FIRMWARE_UPDATE (R401, R403): measured and logged, or refused; running work goes on. -/
def execFirmwareUpdate (img : Sys2Proof.Firmware) (s : State) : Host.Outcome State Fault Refusal :=
  let r := if img.stage < 1 || img.stage > 3 then 1 else imageReason s.boot img.stage img
  if r ≠ 0 then .next (reply s (.status (img.stage * 16 + r)))
  else if s.boot.log.length ≥ 64 then .next (reply s (.status Config.logFull))
  else
    let b := measure s.boot img.stage (s.sched.time.getD 4 0) img
    .next (reply { s with boot := { b with flash := (b.flash.filter fun f => f.stage != img.stage) ++ [img] } } (.status 0))

/-- A log entry as 48 bytes (R401). -/
def logBytes (e : Nat × Nat × BitVec 256 × Nat) : List Byte :=
  toBytes 4 e.1 ++ toBytes 4 e.2.1 ++ digestBytes e.2.2.1 ++ toBytes 8 e.2.2.2

/-- The report of R402. -/
def reportBytes (s : State) (nonce : BitVec 256) : List Byte :=
  digestBytes nonce ++ s.boot.meas.flatMap digestBytes ++ toBytes 4 s.boot.log.length ++ toBytes 4 s.boot.status
    ++ toBytes 8 (s.sched.time.getD 4 0) ++ toBytes 8 s.boot.serial.toNat
    ++ digestBytes (Config.sha256 (s.boot.log.flatMap logBytes)) ++ toBytes 8 0

/-- ATTEST_REQUEST (R402). -/
def execAttestRequest (nonce : BitVec 256) (s : State) : Host.Outcome State Fault Refusal :=
  let r := reportBytes s nonce
  .next (reply s (.bytes (r ++ Config.attestSign s.boot.devKey r)))

/-! ### Dies in reset (R79, R133, R362) -/

/-- Whether a cluster is on a die. -/
def onDie (die cl : Nat) : Bool := cl / 8 == die && decide (cl < 32)

/-- Lines whose home is on a die and that something is known of. -/
def keysHomed (s : State) (die : Nat) : List Key :=
  ((s.coh.dir.map (·.key)) ++ (s.coh.lines.map (·.key)) ++ s.coh.net.map (·.key)).foldl
    (fun l k => if homeDie s k = some die && !l.contains k then l ++ [k] else l) []

/-- Lines that a die's clusters hold or exchange messages about. -/
def keysHeld (s : State) (die : Nat) : List Key :=
  ((s.coh.lines.filter fun c => onDie die c.cl).map (·.key)
    ++ (s.coh.net.filter fun m => onDie die m.src || onDie die m.dst).map (·.key)).foldl
    (fun l k => if l.contains k then l else l ++ [k]) []

/-- What is in flight for some lines is served. -/
def settleKeys (s : State) (ks : List Key) : State := ks.foldl (fun s k => settle settleFuel s k) s

/-- A cluster gives up a line with its L1 copies. -/
def evictAll (s : State) (cl : Nat) (k : Key) : State :=
  evictLine ((List.range 8).foldl (fun s n => evictL1 s (8 * cl + n) k) s) cl k

/-- The clusters of a die give up everything they hold, in order (R133, graceful). -/
def flushDie (s : State) (die : Nat) : State :=
  let s := (List.range 8).foldl (fun s n => wcDrainAll s (8 * die + n) fun _ => true) s
  let s := settleKeys s (keysHeld s die)
  let mine := s.coh.lines.filter fun c => onDie die c.cl
  settleKeys (mine.foldl (fun s c => evictAll s c.cl c.key) s) (mine.map (·.key))

/-- Every copy of the lines homed on a die is recalled (R133, graceful with the uncore); whether all are. -/
def recallHomes (s : State) (die : Nat) : State × Bool :=
  (keysHomed s die).foldl (fun (r : State × Bool) k => match recallLine r.1 k enginePty false with | (s, ok) => (s, r.2 && ok)) (s, true)

/-- The counter of a die restarts (R283). -/
def restartTime (s : State) (die : Nat) : State := { s with sched := { s.sched with time := s.sched.time.set die 0 } }

/-- The cores of a die are in reset: their own state is as after a package reset. -/
def coresInReset (s : State) (die : Nat) : State :=
  restartTime { s with
    cores := s.cores.filter fun c => c.1 / 64 != die
    trace := s.trace.filter fun c => c.1 / 64 != die
    coh := { s.coh with icache := s.coh.icache.filter fun e => e.1 / 64 != die }
    power := { s.power with coresDown := insertNat die s.power.coresDown } } die

/-- Whether an edge ends at a die. -/
def edgeAt (die edge : Nat) : Bool := (edgeDies edge).1 == die || (edgeDies edge).2 == die

/-- The uncore of a die is in reset; its modules are back at full width (R263). -/
def uncoreInReset (s : State) (die : Nat) : State :=
  restartTime { s with
    links := { s.links with mods := s.links.mods.map fun m =>
      (if edgeAt die m.id.edge && m.lanes == 32 then { m with lanes := 64, narrow := false } else m) }
    coh := { s.coh with mtlb := s.coh.mtlb.filter (fun e => e.die != die), tcache := s.coh.tcache.filter fun t => t.1 != die }
    power := { s.power with uncoreDown := insertNat die s.power.uncoreDown } } die

/-- DIE_RESET_GRACEFUL (R133, R362): when the die's blocks have been pre-empted and what it caches is given up. -/
def execDieResetGraceful (die : Nat) (cores uncore : Bool) (s : State) : Host.Outcome State Fault Refusal :=
  if die ≥ 6 || s.work.blocks.any fun b => b.die == die then .next s
  else
    let s := flushDie s die
    let (s, ok) := if uncore then recallHomes s die else (s, true)
    if !ok || s.coh.lines.any (fun c => onDie die c.cl) || s.coh.wbs.any (fun w => onDie die w.1) then .next s
    else
      let s := if cores && decide (die < 4) then coresInReset s die else s
      .next (if uncore then uncoreInReset s die else s)

/-- A cohort with a block on a die that was reset ends with a KIND 4 record (R352, R362). -/
def loseCohort (s : State) (die coh : Nat) : State :=
  let bs := cohortBlocks s coh
  match bs.find? fun b => b.die == die with
  | none => s
  | some b =>
    match launchOf s b.launch with
    | none => s
    | some l =>
      let lost (x : Ctx) : Ctx := { x with window := [], copies := [] }
      let s := (bs.filter fun b => b.die == die).foldl (fun s b => (issuersOf b).foldl (fun s who => modCtx s b.uid who lost) s) s
      endCohort s coh l.id (some (trapRecord 0 0 l.asid b.index l.kdesc die b.core 0 0 0 4))

/-- A holder on a reset die is gone (R133): an owner's line or an accumulator's is poisoned. -/
def loseLine (s : State) (c : CLine) : State :=
  let k := c.key
  let owns := c.st == .m || c.st == .o || c.st == .a
  let s := dropLine s c.cl k
  let s := if !owns then s
    else if homeBusy s k || !homeUp s k then loseData s k
    else poisonHome s k
  let e := dirOf s k
  let sh := e.sharers.erase c.cl
  let st := match e.st with
    | .he => if e.owner = c.cl then HSt.hi else .he
    | .ho => if e.owner = c.cl then (if sh.isEmpty then .hi else .hs) else .ho
    | .hs => if sh.isEmpty then .hi else .hs
    | .ha => if sh.isEmpty then .hi else .ha
    | .hi => .hi
  let s := setDir s { e with st := st, sharers := sh }
  if st = .hi then hostRelease s k else s

/-- DIE_RESET_CORE_ABRUPT (R133, R362): the die's cohorts end, and what its clusters held is lost. -/
def execDieResetCoreAbrupt (die : Nat) (s : State) : Host.Outcome State Fault Refusal :=
  if die ≥ 4 then .next s
  else
    let lost := (s.work.blocks.filter fun b => b.die == die).foldl (fun l b => insertNat b.cohort l) []
    let s := settleKeys s (keysHeld s die)
    let s := lost.foldl (fun s c => loseCohort s die c) s
    let s := (s.coh.lines.filter fun c => onDie die c.cl).foldl loseLine s
    let s := { s with coh := { s.coh with
      reqs := s.coh.reqs.filter fun r => !onDie die r.1
      wbs := s.coh.wbs.filter fun w => !onDie die w.1
      wc := s.coh.wc.filter fun w => !onDie die w.cl
      homeWaits := s.coh.homeWaits.filter fun w => !onDie die w.cl
      prefs := s.coh.prefs.filter fun p => !onDie die p.cl
      discs := s.coh.discs.filter fun d => !onDie die d.cl
      held := s.coh.held.filter fun h => !onDie die h.cl
      locs := s.coh.locs.filter fun e => !onDie die e.1
      refused := s.coh.refused.filter fun r => !onDie die r.1 } }
    .next (yieldCheck (coresInReset s die))

/-- CORE_RESET_END: the cores of a die take blocks again. -/
def execCoreResetEnd (die : Nat) (s : State) : Host.Outcome State Fault Refusal :=
  .next (yieldCheck { s with power := { s.power with coresDown := s.power.coresDown.erase die } })

/-- The requests that a home had taken up wait at their senders again. -/
def unserve (s : State) (k : Key) : State :=
  let e := dirOf s k
  let back := (match e.txn with | some t => [(t.src, t.req)] | none => []) ++ e.queue
  let again (x : Nat × Req) : Option Msg := match x.2 with
    | .wb d => some ⟨x.1, homeParty, k, .wb d⟩
    | .mrg p => some ⟨x.1, homeParty, k, .mrg p⟩
    | r => if x.1 = enginePty then none else some ⟨x.1, homeParty, k, .req r⟩
  let s := setDir s { e with txn := none, queue := [], wbEarly := none, stale := [] }
  { s with coh := { s.coh with net := (s.coh.net.filter fun m => !(m.src == homeParty && m.key == k)) ++ back.filterMap again } }

/-- What the L2 slices of a die held is lost (R133): host lines with data that only they had are poisoned. What they held clean
the host has. -/
def loseL2 (s : State) (die : Nat) : State :=
  let here (k : Key) : Bool := homeDie s k == some die
  let s := l2Drop s here
  { s with coh := { s.coh with hostTab := s.coh.hostTab.map fun h =>
      (if h.dirty && h.keys.any here then { h with poison := true } else h) } }

/-- DIE_RESET_UNCORE_ABRUPT (R79, R133): the homes of a die stop; requests wait, copies stay where they are. -/
def execDieResetUncoreAbrupt (die : Nat) (s : State) : Host.Outcome State Fault Refusal :=
  if die ≥ 6 then .next s
  else
    let ks := keysHomed s die
    let s := ks.foldl unserve (settleKeys s ks)
    .next (uncoreInReset (loseL2 { s with coh := { s.coh with wins := s.coh.wins.filter fun w => !ks.contains w.key } } die) die)

/-- The entry of a line from what clusters and the host proxy report (R133). -/
def reported (s : State) (k : Key) : State :=
  let old := dirOf s k
  let cs := s.coh.lines.filter fun c => c.key == k
  let host := (old.st == .hs || old.st == .ho) && old.sharers.contains 32
  let hostOwns := (old.st == .he || old.st == .ho) && old.owner == 32
  let owner := (cs.find? fun c => c.st == .e || c.st == .m || c.st == .o).map fun c => (c.cl, c.st == .o)
  let acc := (cs.filter fun c => c.st == .a).map (·.cl)
  let sh := (cs.filter fun c => c.st == .s).map (·.cl) ++ (if host then [32] else [])
  let e := match owner with
    | some (o, shared) => { old with st := if shared then .ho else .he, owner := o, sharers := sh }
    | none =>
      if hostOwns then { old with sharers := sh }
      else if !acc.isEmpty then { old with st := .ha, sharers := acc }
      else if sh.isEmpty then { old with st := .hi, sharers := [] }
      else { old with st := .hs, sharers := sh }
  setDir s e

/-- UNCORE_RETURN (R79, R133): holdings are reported, lines whose write-back was dropped are poisoned, then homes serve. -/
def execUncoreReturn (die : Nat) (s : State) : Host.Outcome State Fault Refusal :=
  if !s.power.uncoreDown.contains die then .next s
  else
    let s := { s with power := { s.power with uncoreDown := s.power.uncoreDown.erase die } }
    .next (poisonDropped ((keysHomed s die).foldl reported s))

end Sys2Proof.Machine
end

