-- ==== Sys2Proof/Machine/SwitchEvents.lean ====
section
/-!
DEFINITION. Suspension and pre-emption (15 R299, R300; 16 R325; 20 R353 to R361): frames written at a switch point, blocks halted
and saved in their save areas, and the driver's answers to a BMS trap.
-/

namespace Sys2Proof.Machine

/-! ### Frames (R298 to R300) -/

/-- Whether logical thread `t` has not exited. -/
def aliveThread (b : Block) (t : Nat) : Bool :=
  let (g, j, ln) := placeOfThread b.v t
  match b.groups[g]? with
  | some gr => gr.paths.any fun q => q.st != .free && (q.mask.getD j 0).getLsbD ln
  | none => false

/-- The frame header (R299). -/
def frameHeader (b : Block) (l : Launch) (size swid next : Nat) : Nat :=
  imageOf ([(0, 8, l.kdesc % 2 ^ 48 + swid * 2 ^ 48), (8, 8, b.vidx % 8), (16, 4, b.index), (20, 4, b.inCoh % 16 + (size - 1) * 16)]
    ++ (List.range 17).map (fun n => (24 + 2 * n, 2, (seqHwm b n).1 % 2 ^ 11))
    ++ [(58, 6, next)]
    ++ (List.range 16).map fun i => (64 + 8 * i, 8, (maskOf ((List.range 64).filter fun k =>
        decide (64 * i + k < l.k.ltpb) && aliveThread b (64 * i + k))).toNat))

/-- What one map entry stores of a block (R300 step 2). -/
def storeEntry (b : Block) (l : Launch) (w : Switch) (va : Nat) (e : MapEntry) : List (Nat × Nat × Nat) :=
  let blk := va + 192 + l.k.ltpb * w.tsz
  match e.kind with
  | 1 => (List.range l.k.ltpb).filterMap fun t =>
      let (g, j, ln) := placeOfThread b.v t
      (b.groups[g]?).map fun gr => (va + 192 + t * w.tsz + e.ofs, 4 * e.cnt, (gr.regs b.v).rdN (.lane j ln) e.reg e.cnt)
  | 2 => match b.groups[e.grp]? with
    | some gr => [(blk + e.ofs, 4, ((gr.regs b.v).rdG e.reg).toNat)]
    | none => []
  | 3 => [(blk + e.ofs, e.len, scrGet b.scr e.sofs e.len)]
  | _ => []

/-- Where a block's frame lies (R294). -/
def frameAt (s : State) (b : Block) : Nat := s.work.ppBase + b.slot * s.work.ppSlotb

/-- The frame of a block, and the HWM of its issuers in its save area (R300 step 2, R358). -/
def frameSections (s : State) (b : Block) (l : Launch) (w : Switch) (size swid next : Nat) : List (Nat × Nat × Nat) :=
  let va := frameAt s b
  [(va, 192, frameHeader b l size swid next)] ++ w.map.flatMap (storeEntry b l w va)
    ++ [(saveVa s b.save + 296, 34, imageOf (hwmFields b) / 256 ^ 296)]

/-- The frames of a cohort, each chained to the next block's; false when memory or the table makes it wait. -/
def writeFrames (l : Launch) (size swid : Nat) : List Block → State → State × Bool
  | [], s => (s, true)
  | b :: r, s =>
    match lookSwitch s b.cluster l b.vidx swid with
    | (s, .found w) =>
      (match writeSections b.cluster (frameSections s b l w size swid ((r.head?.map fun n => frameAt s n).getD 0)) s with
       | (s, true) => writeFrames l size swid r s
       | x => x)
    | (s, _) => (s, false)

/-- Stores of a cohort's blocks that wait in write-combining buffers drain before its blocks leave (R127, R157). -/
def drainBuffers (s : State) (coh : Nat) : State × Bool :=
  let mine (w : WcLine) : Bool := w.from_.any fun f => (cohortBlocks s coh).any fun b => b.uid == f.2.1
  let t := (s.coh.wc.filter mine).foldl (fun s w => (wcDrainLine s w).1) s
  (t, !t.coh.wc.any mine)

/-! ### Conditions of a suspension (R300) -/

/-- Whether anything of a cohort is outstanding. -/
def cohortOwes (s : State) (coh : Nat) : Bool :=
  (cohortBlocks s coh).any (fun b =>
    b.groups.any (fun g => !g.ctx.done) || (b.bms.any fun m => !m.ctx.done || m.colls.any fun c => c.open_ || c.working)
      || s.coh.prefs.any fun p => p.blk == b.uid)
    || s.work.deposits.any fun d => d.cohort == coh

/-- Whether a group fails the first condition of step 1: a counter, a token, a second path. -/
def groupUneven (g : Group) : Bool :=
  g.ctx.ctrs.any (· != 0) || !g.tokens.isEmpty || decide ((g.paths.filter fun q => q.st != .free).length > 1)

/-- The first group that fails step 1's first condition, by block index and then group index. -/
def unevenGroup (bs : List Block) : Option (Nat × Nat) :=
  bs.findSome? fun b => (List.range b.groups.length).findSome? fun g =>
    if (b.groups[g]?).any groupUneven then some (b.uid, g) else none

/-- The lowest arrival of an open phase; the block of its group is given by index. -/
def lowestArrival (who : List (Nat × Nat)) : Option (Nat × Nat) :=
  who.foldl (fun (o : Option (Nat × Nat)) a => match o with
    | none => some a
    | some x => if a.1 < x.1 || (a.1 == x.1 && decide (a.2 < x.2)) then some a else o) none

/-- The group that a barrier's open phase is raised at: the lowest that has arrived, or the lowest of the block of a BMS that
alone has. -/
def barGroup (bs : List Block) (v : Bar) : Option (Nat × Nat) :=
  if v.a = 0 then none
  else
    let gs := v.who.filter fun a => a.2 != bmsWho
    match lowestArrival gs, lowestArrival v.who with
    | some a, _ => (bs.find? fun b => b.index == a.1).map fun b => (b.uid, a.2)
    | none, some a => (bs.find? fun b => b.index == a.1).map fun b => (b.uid, 0)
    | none, none => bs.head?.map fun b => (b.uid, 0)

/-- The group at which an open phase is raised: block barriers before cohort barriers. -/
def openPhase (s : State) (coh : Nat) (bs : List Block) : Option (Nat × Nat) :=
  match bs.findSome? fun b => b.bars.findSome? (barGroup [b]) with
  | some x => some x
  | none => (((cohortOf s coh).map fun (c : Cohort) => c.bars).getD []).findSome? (barGroup bs)

/-- Raises a trap at the instruction where a group waits: its lowest path in use, else the cohort's first. -/
def raiseAt (s : State) (bs : List Block) (x : Nat × Nat) (cause addr : Nat) : State :=
  let live (uid g : Nat) : Option (Nat × Nat × Nat) :=
    (List.range 8).findSome? fun p => if (pathOf s uid g p).any (fun q => q.st != .free) then some (uid, g, p) else none
  let first := bs.findSome? fun b => (List.range b.groups.length).findSome? fun g => live b.uid g
  match (live x.1 x.2).orElse fun _ => first with
  | some (u, g, p) => trapWaiting s u g p cause addr
  | none => s

/-! ### The suspension -/

/-- A resume record (R290, R300, R325, R355). -/
def resumeRecord (l : Launch) (kind queue block swid frame : Nat) (fixed : Option Nat) : Nat :=
  l.kdesc % 2 ^ 48 + swid % 2 ^ 16 * 2 ^ 48 + frame % 2 ^ 48 * 2 ^ 64 + l.join % 2 ^ 48 * 2 ^ 112 + queue / 16 * 2 ^ 160
    + (match fixed with | some v => 2 ^ 167 + v * 2 ^ 168 | none => 0) + (if kind = 2 then block else 0) * 2 ^ 208 + kind * 2 ^ 252

/-- The blocks of a cohort leave their cores: each is away with its slots (R300 step 3, R355). -/
def leaveCores (s : State) (coh : Nat) (saved : Bool) : State :=
  let bs := cohortBlocks s coh
  let away := bs.map fun b =>
    (⟨b.cohort, b.launch, b.index, b.inCoh, b.slot, b.save, b.task, if saved then b.frame else frameAt s b, saved, b.vidx, b.v,
      if saved then some b else none⟩ : Away)
  let s := { s with work := { s.work with
    blocks := s.work.blocks.filter fun b => b.cohort != coh
    away := s.work.away ++ away } }
  modCohort s coh fun c => { c with yield := false, starve := none, preempt := false }

/-- The queue that a cohort's record was popped from. -/
def queueOf (s : State) (coh : Nat) : Nat := ((cohortOf s coh).map fun (c : Cohort) => c.queue).getD 0

/-- A cohort at one switch point suspends (R300). -/
def suspendAtSwpt (s : State) (coh : Nat) (l : Launch) (bs : List Block) (id : Nat) : State :=
  match unevenGroup bs, openPhase s coh bs with
  | some x, _ => raiseAt s bs x 0x0C 0
  | none, some x => raiseAt s bs x 0x0C 0
  | none, none =>
    let q := queueOf s coh
    match bs.head?, writeFrames l bs.length id bs s with
    | some b, (t, true) =>
      (match queueAppend t q (resumeRecord l 2 q b.index id (frameAt s b) none) l.asid l.prv with
       | (t, true) => leaveCores t coh false
       | (t, false) => asked s t)
    | _, (t, _) => asked s t

/-! ### SUSPEND (R325) -/

/-- Object, control word and PC of the SUSPENDs at which a group's paths all wait. -/
def suspendsOf (g : Group) : Option (List (Nat × Nat × Nat)) :=
  if g.tokens.any (fun t => t.2.kind == .defer || !mEmpty t.2.arr) then none
  else g.paths.foldl (fun (o : Option (List (Nat × Nat × Nat))) q => o.bind fun l =>
    if q.st == .free then some l
    else match q.wait with
      | .suspend a c => if q.st == .barw then some (l ++ [(a, c, q.pc)]) else none
      | _ => none) (some [])

/-- The SUSPENDs of a whole cohort, when every live lane of it waits at one and all are the same instruction. -/
def cohortSuspends (s : State) (coh : Nat) : Option (List (Nat × Nat × Nat)) :=
  match ((cohortBlocks s coh).flatMap fun b => b.groups).foldl (fun (o : Option (List (Nat × Nat × Nat))) g =>
      o.bind fun l => (suspendsOf g).map fun m => l ++ m) (some []) with
  | some (x :: r) => if r.all fun y => y.2.2 == x.2.2 then some (x :: r) else none
  | _ => none

/-- Whether the instruction after a SUSPEND is the SWPT that its control word names. -/
def nextIsSwpt (s : State) (cl : Nat) (l : Launch) (pc id : Nat) : Bool :=
  match decode .group (codeWord s cl l.asid ((pc + 12) % 2 ^ 48)) with
  | .instr (.swpt _ n) => n.toNat == id
  | _ => false

/-- Every path of a cohort that waits at its SUSPEND goes on (R325). -/
def passSuspend (s : State) (coh : Nat) : State :=
  (cohortBlocks s coh).foldl (fun s b => (List.range b.groups.length).foldl (fun s g => (List.range 8).foldl (fun s p =>
    match pathOf s b.uid g p with
    | some q => (match q.wait with | .suspend .. => fireWait s b.uid g p | _ => s)
    | none => s) s) s) s

/-- What a join object does with a record that would wait at it. -/
inductive JoinGot where
  | wait
  | bad (cause : Nat)
  | taken
  | passed
  deriving DecidableEq, Repr

/-- The join object takes a waiting record while its count is above zero (R325). -/
def joinWait (s : State) (l : Launch) (va q rec : Nat) : State × JoinGot :=
  let k := keyOf l.asid va
  match joinLine s l.asid va with
  | (s, .wait) => (s, .wait)
  | (s, .bad c) => (s, .bad c)
  | (s, .ok _ true) => (farDone s k, .bad 8)
  | (s, .ok x false) =>
    let o := va % 128
    let v := lineGet x o 64
    if sextN 32 (bitsAt v 0 32) > 0 then
      let v := putBits (putBits (putBits v 256 256 rec) 66 6 q) 64 1 1
      (farDone (homeAbsorb s k (linePut x o 64 v) false) k, .taken)
    else (farDone (countFar s k) k, .passed)

/-- A cohort at one SUSPEND (R325). -/
def suspendOnJoin (s : State) (coh : Nat) (l : Launch) (bs : List Block) (x : Nat × Nat × Nat) (even : Bool) : State :=
  let (obj, ctl, pc) := x
  let id := ctl % 2 ^ 16
  match bs.head? with
  | none => s
  | some b =>
    if !even || !nextIsSwpt s b.cluster l pc id then raiseAt s bs (b.uid, 0) 0x0C 0
    else match unevenGroup bs, openPhase s coh bs with
    | some y, _ => raiseAt s bs y 0x0C 0
    | none, some y => raiseAt s bs y 0x0C 0
    | none, none =>
      match writeFrames l bs.length id bs s with
      | (t, false) => asked s t
      | (t, true) =>
        let q := queueOf s coh
        match joinWait t l obj q (resumeRecord l (if l.isTask then 0 else 2) q b.index id (frameAt s b) none) with
        | (t, .wait) => asked s t
        | (t, .bad c) => raiseAt t bs (b.uid, 0) c obj
        | (t, .taken) => leaveCores t coh false
        | (t, .passed) => swptAll (passSuspend t coh)

/-- SWITCH_SUSPEND (R300, R325): a cohort whose live lanes all wait at one switch point with a yield pending, or at one
SUSPEND, suspends. -/
def execSwitchSuspend (cohort : Nat) (s : State) : Host.Outcome State Fault Refusal :=
  let bs := cohortBlocks s cohort
  match cohortOf s cohort, bs.head?.bind fun b => launchOf s b.launch with
  | some c, some l =>
    if s.power.frozen || bs.any (·.halted) || cohortOwes s cohort || bs.any (fun b => b.bms.any fun m => m.st != .exited) then .next s
    else match cohortSuspends s cohort with
    | some (x :: r) =>
      (match drainBuffers s cohort with
       | (t, false) => .next t
       | (t, true) => .next (suspendOnJoin t cohort l bs x (r.all fun y => y.1 == x.1 && y.2.1 == x.2.1)))
    | _ =>
      if !c.yield || !cohortAtSwpt s cohort then .next s
      else match bs.head?.bind blockSwpt, drainBuffers s cohort with
      | some (id :: _), (t, true) => .next (suspendAtSwpt t cohort l bs id)
      | some _, (t, false) => .next t
      | _, _ => .next s
  | _, _ => .next s

/-! ### Pre-emption (R354) -/

/-- The launches pre-empted whole because they are concurrent and one of their blocks is named (R295). -/
def wholeLaunch (s : State) (id : Nat) : Bool := (launchOf s id).any fun l => l.k.prog == 0 && !l.isTask

/-- Whether a request names a block. -/
def namesBlock : PreemptTarget → Block → Bool
  | .launch l, b => b.launch == l
  | .die d, b => b.die == d
  | .package, _ => true

/-- The cohorts that a request halts: those with a named block, and the others of a concurrent launch. -/
def preempted (s : State) (t : PreemptTarget) : List Nat :=
  let named := s.work.blocks.filter (namesBlock t)
  (s.work.blocks.filter fun b => named.any fun n => n.cohort == b.cohort || (n.launch == b.launch && wholeLaunch s b.launch)).foldl
    (fun l b => insertNat b.cohort l) []

/-- PREEMPT_REQUEST (R354): the groups and BMS contexts of the named blocks stop at an instruction boundary. -/
def execPreemptRequest (t : PreemptTarget) (s : State) : Host.Outcome State Fault Refusal :=
  let cs := preempted s t
  .next (haltNamed { s with work := { s.work with
    cohorts := s.work.cohorts.map fun c => (if cs.contains c.uid then { c with preempt := true } else c) } })

/-! ### The save (R355) -/

/-- A fault found while draining becomes its path's pending trap (R355 step 1). -/
def keepFault (s : State) (i : Iss) (f : Nat × Nat × Nat × Nat) : State :=
  let (p, pc, c, a) := f
  if i.who = bmsWho then s
  else
    let t := mkTrap ⟨c, a, none⟩ true false 0 pc (wordAt s i.uid i.who pc)
    let s := modCtx s i.uid i.who fun x => { x with armed := x.armed.filter fun n => n != p }
    modPath s i.uid i.who p fun q => { q with pc := pc, st := .ready, wait := .none, kills := [], trap := some t }

/-- Every issuer of a cohort drains: whether all have. -/
def drainAll (s : State) (coh : Nat) : State × Bool :=
  ((cohortBlocks s coh).flatMap fun b => (issuersOf b).map fun who => (b.uid, who)).foldl (fun (r : State × Bool) x =>
    match issOf r.1 x.1 x.2 with
    | none => r
    | some i =>
      match drainGo i 200 r.1 [] with
      | (s, fs, done) => (fs.foldl (fun s f => keepFault s i f) s, r.2 && done)) (s, true)

/-- The copies of a cohort: block, issuer, copy, in order. -/
def cohortCopies (s : State) (coh : Nat) : List (Nat × Nat × Nat) :=
  (cohortBlocks s coh).flatMap fun b => (issuersOf b).flatMap fun who =>
    (((ctxOf s b.uid who).map fun (c : Ctx) => c.copies).getD []).map fun k => (b.uid, who, k.id)

/-- A copy stops at a row boundary, at most some rows further (R355 step 2); a failing row ends it (R147). -/
def stopCopy (s : State) (x : Nat × Nat × Nat) (n : Nat) : State :=
  match issOf s x.1 x.2.1, copyRecOf s x.1 x.2.1 x.2.2 with
  | some i, some k =>
    if k.sent then s
    else match copyTo s { i with runtime := k.runtime } k (min (k.rows + n) (copyOf k.desc.toNat).rows) with
      | (t, .fail c a) => failCopy t i k c a
      | (t, _) => t
  | _, _ => s

/-- Whether a write to the pod of some copy of a cohort has not been answered. -/
def podWritesOpen (s : State) (coh : Nat) : Bool :=
  (cohortCopies s coh).any fun x => s.links.pods.any fun q =>
    q.blk == x.1 && q.who == x.2.1 && q.op == x.2.2 && q.write && q.done == none

/-- Writes the save areas of a cohort, each chained to the next block's (R355 step 3, R357, R358). -/
def saveBlocks : List Block → State → State × Bool
  | [], s => (s, true)
  | b :: r, s =>
    match writeSections b.cluster (saveSections s b ((r.head?.map fun n => saveVa s n.save).getD 0)) s with
    | (s, true) => saveBlocks r s
    | x => x

/-- The save itself (R355 step 3): the areas, then the resume record; what waits keeps what it has asked for. -/
def saveCohort (s : State) (cohort : Nat) (l : Launch) : State :=
  let q := queueOf s cohort
  match (cohortBlocks s cohort).head?, saveBlocks (cohortBlocks s cohort) s with
  | some b, (t, true) =>
    (match queueAppend t q (resumeRecord l 2 q b.index 0xFFFF (saveVa t b.save) (some b.vidx)) l.asid l.prv with
     | (t, true) => leaveCores ((cohortCopies s cohort).foldl (fun t x => dropPods t x.1 x.2.1 x.2.2) t) cohort true
     | (t, false) => asked s t)
  | _, (t, _) => asked s t

/-- CONTEXT_SAVE (R355): a halted cohort drains, its copies stop after at most `rows` more rows each, its save areas are written,
and one resume record is enqueued. Not in a freeze (R78). -/
def execContextSave (cohort : Nat) (rows : List Nat) (s : State) : Host.Outcome State Fault Refusal :=
  let bs := cohortBlocks s cohort
  match cohortOf s cohort, bs.head?.bind fun b => launchOf s b.launch with
  | some c, some l =>
    if s.power.frozen || !c.preempt || !bs.all (·.halted) then .next s
    else match drainAll s cohort with
    | (s, false) => .next s
    | (s, true) =>
      match drainBuffers s cohort with
      | (s, false) => .next s
      | (s, true) =>
        let cs := cohortCopies s cohort
        let s := (List.range cs.length).foldl (fun s n => stopCopy s (cs.getD n (0, 0, 0)) (rows.getD n 0)) s
        .next (if podWritesOpen s cohort then s else saveCohort s cohort l)
  | _, _ => .next s

/-! ### The driver's answer to a BMS trap (R353) -/

/-- BMS_RESUME: the trapping instruction issues again. -/
def execBmsResume (blk : Nat) (s : State) : Host.Outcome State Fault Refusal :=
  match (blockOf s blk).bind fun (b : Block) => b.bms with
  | some m => if m.st == .trapped then .next (modBms s blk fun m => { m with st := .run, trap := none }) else .next s
  | none => .next s

/-- BLOCK_END: the cohort ends without a second record. -/
def execBlockEnd (blk : Nat) (s : State) : Host.Outcome State Fault Refusal :=
  match blockOf s blk with
  | some b => if b.bms.any fun m => m.st == .trapped then .next (endCohort s b.cohort b.launch none) else .next s
  | none => .next s

end Sys2Proof.Machine
end

