-- ==== Sys2Proof/Machine/System.lean ====
section
/-!
DEFINITION. Special registers (09 R170, R171; 12 R242 to R244, 07 R152, 15 R286, R294, 22 R389), TRAP and RETT (20 R349,
R350), and BKPT, PPT and TMARK (22 R374, R378).
-/

namespace Sys2Proof.Machine

/-! ### Special registers (R170) -/

/-- Whether a path is the one that runs its group's handler (R344). -/
def inHandler (s : State) (c : Cur) : Bool := (groupOf s c.blk c.who).any fun g => g.hpath == some c.path

/-- Whether it is in the runtime handler (R347). -/
def inRuntimeHandler (s : State) (c : Cur) : Bool := (groupOf s c.blk c.who).any fun g => g.hpath == some c.path && g.inRuntime

/-- The counter registers. -/
def srCounter (n : Nat) : Option Nat := if 0x10 ≤ n ∧ n ≤ 0x1F then some (n - 0x10) else none

/-- Registers read only in a handler. -/
def srHandlerOnly (n : Nat) : Bool := n == 0x0A || n == 0x0B

/-- SR_MEMCAP (R152). -/
def memcapOf (k : Core) : Nat := k.cap % 64 + k.ceil % 256 * 2 ^ 8

/-- SR_PWRSTAT of a context on a core (R243). -/
def pwrstatOf (s : State) (k : Core) (x : Ctx) : Nat := k.narrow.toNat + 2 * s.power.alarm.toNat + 4 * x.bstall.toNat

/-- SR_COHORT (R170): the cohort's index in the launch, the block's index in the cohort. -/
def srCohort (i : Iss) : Nat := i.b.index / (i.l.cohb + 1) * 16 + i.b.inCoh % 16

/-- SR_FRAME (R170, R294): the frame of a task record, or the base of the block's private slot. -/
def srFrame (s : State) (i : Iss) : Nat := if i.l.isTask then i.b.frame else slotBase s i.b

/-- A register read once for the group or BMS context (R170); the trap registers describe the innermost handler. -/
def srRead (s : State) (i : Iss) (x : Ctx) (n : Nat) : Nat :=
  let k := coreState s (coreIndex i.b.die i.b.core)
  let g := i.b.groups[i.who]?
  let sh := (g.bind fun g => g.shadows.head?)
  match srCounter n with
  | some c => truncN 32 (x.ctrs.getD c 0)
  | none =>
    match n with
    | 0x01 => i.who
    | 0x02 => i.b.index
    | 0x03 => srCohort i
    | 0x04 => i.b.core
    | 0x05 => i.b.die
    | 0x07 => i.b.v.fold * 16 + i.b.vidx
    | 0x08 => srFrame s i
    | 0x09 => s.sched.time.getD i.b.die 0 % 2 ^ 64
    | 0x0A => (sh.map fun q => q.cause.toNat).getD 0
    | 0x0B => (sh.map fun q => q.trapPc).getD 0
    | 0x0C => (g.map fun g => g.utrap.toNat).getD 0
    | 0x0D => (g.map fun g => g.unwind.toNat).getD 0
    | 0x0E => truncN 32 x.energy
    | 0x0F => pwrstatOf s k x
    | 0x20 => i.l.k.nlease
    | 0x21 => i.l.cx.toNat
    | 0x22 => memcapOf k
    | _ => 0

/-- The logical thread of a lane of a register set (R286, R365). -/
def ltidOf (i : Iss) (j l : Nat) : Nat := 64 * (i.b.v.groups * j + i.who) + l

/-- A per-lane register (R365). -/
def srLane (i : Iss) (n : Nat) : Slot → Nat
  | .lane j l => if n = 0 then l else ltidOf i j l
  | .ctl => 0

/-- A vector register that an instruction has written leaves the operand buffer (R167). -/
def dropVector (s : State) (c : Cur) (d : Reg) : State :=
  modGroup s c.blk c.who fun g => { g with opbuf := if g.opbuf == some d.toNat then none else g.opbuf }

/-- GETS (R171, R365). -/
def execGets (h : Hdr) (sr : BitVec 8) (d : Reg) (s : State) : Host.Outcome State Fault Refusal :=
  match exOf s h with
  | none => .next s
  | some x =>
    match issOf s x.cur.blk x.cur.who, ctxOf s x.cur.blk x.cur.who with
    | some i, some k =>
      let n := sr.toNat
      if x.slots.isEmpty then .next (pass s x.cur)
      else if srHandlerOnly n && !inHandler s x.cur then .next (trapAt s x.cur false ⟨4, 0, none⟩)
      else if srPerLane sr then
        .next (dropVector (retire s x (.gets h sr d) h (writeSlots (slotsOf x.mask) d 1 (srLane i n))) x.cur d)
      else .next (retire s x (.gets h sr d) h fun r => r.wrN .ctl d.toNat (if srWide sr then 2 else 1) (srRead s i k n))
    | _, _ => .next s

/-- Whether a register takes a SETS from here (R170): RW, and SR_CX in the runtime handler alone. -/
def srWritable (s : State) (c : Cur) (n : Nat) : Bool :=
  (srCounter n).isSome || n == 0x0C || n == 0x0D || n == 0x22 || (n == 0x21 && inRuntimeHandler s c)

/-- A register takes a value (R170): read-only and reserved fields stay. -/
def srWrite (s : State) (i : Iss) (n v : Nat) : State :=
  match srCounter n with
  | some c => setCtr s i.uid i.who c (sextN 32 v)
  | none =>
    match n with
    | 0x0C => modGroup s i.uid i.who fun g => { g with utrap := BitVec.ofNat 64 v }
    | 0x0D => modGroup s i.uid i.who fun g => { g with unwind := BitVec.ofNat 64 v }
    | 0x21 => modLaunch s i.l.id fun l => { l with cx := BitVec.ofNat 32 (bitsAt v 12 20 * 2 ^ 12) }
    | 0x22 => modCore s (coreIndex i.b.die i.b.core) fun k => { k with ceil := bitsAt v 8 8 }
    | _ => s

/-- SETS (R171). -/
def execSets (h : Hdr) (sr : BitVec 8) (a : Reg) (s : State) : Host.Outcome State Fault Refusal :=
  match exOf s h with
  | none => .next s
  | some x =>
    match issOf s x.cur.blk x.cur.who with
    | none => .next s
    | some i =>
      let n := sr.toNat
      let v := if srWide sr then x.r.rdW .ctl a.toNat 2 else (x.r.rd .ctl a.toNat).toNat
      let w := sextN 32 v
      if x.slots.isEmpty then .next (pass s x.cur)
      else if !srWritable s x.cur n then .next (trapAt s x.cur false ⟨4, 0, none⟩)
      else if (srCounter n).isSome && decide (w < -32768 ∨ w > 32767) then .next (trapAt s x.cur false ⟨3, 0, none⟩)
      else .next (afterUnit (srWrite (retire s x (.sets h sr a) h id) i n v) i.uid)

/-! ### TRAP and RETT (R349, R350) -/

/-- TRAP (R349): an after trap with its code, or the end of the task in the runtime handler. -/
def execTrap (h : Hdr) (code : BitVec 16) (s : State) : Host.Outcome State Fault Refusal :=
  match exOf s h with
  | none => .next s
  | some x =>
    let c := x.cur
    if x.slots.isEmpty then .next (pass s c)
    else if inRuntimeHandler s c then
      .next (endTask s c.blk (mkTrap ⟨0x0E, 0, none⟩ false true code.toNat c.pc c.word) 1)
    else .next (trapAfter (pass s c) c 0x0E code.toNat)

/-- RETT (R350). -/
def execRett (h : Hdr) (skip : Bool) (s : State) : Host.Outcome State Fault Refusal :=
  match exOf s h with
  | none => .next s
  | some x =>
    let c := x.cur
    if x.slots.isEmpty then .next (pass s c)
    else match leaveHandler s c.blk c.who c.path skip with
      | none => .next (trapAt s c false ⟨4, 0, none⟩)
      | some s => .next (bumpOrder s c.blk c.who)

/-! ### BKPT, PPT, TMARK (R374, R378) -/

/-- BKPT (R374): cause 0x10 after it retires. -/
def execBkpt (h : Hdr) (s : State) : Host.Outcome State Fault Refusal :=
  match exOf s h with
  | none => .next s
  | some x => if x.slots.isEmpty then .next (pass s x.cur) else .next (trapAfter (pass s x.cur) x.cur 0x10 0)

/-- PPT (R378): one more in a launch's counter. -/
def execPpt (h : Hdr) (n : BitVec 4) (s : State) : Host.Outcome State Fault Refusal :=
  match exOf s h with
  | none => .next s
  | some x =>
    if x.slots.isEmpty then .next (pass s x.cur)
    else match issOf s x.cur.blk x.cur.who with
      | none => .next s
      | some i => .next (pass (modLaunch s i.l.id fun l => { l with ppcnt := l.ppcnt.modify n.toNat (· + 1) }) x.cur)

/-- TMARK (R378, R381): a TS packet with its marker. -/
def execTmark (h : Hdr) (a : Opnd) (s : State) : Host.Outcome State Fault Refusal :=
  match exOf s h with
  | none => .next s
  | some x =>
    if x.slots.isEmpty then .next (pass s x.cur)
    else
      let c := x.cur
      let w := BitVec.ofNat 32 (src32 x.r .ctl a)
      let s := (emit s c.blk c.who c.path c.pc x.mask (.ts (some w)) false).1
      .next (retire s x (.tmark h a) h id)

end Sys2Proof.Machine
end

