-- ==== Sys2Proof/Machine/Tasks.lean ====
section
/-!
DEFINITION. Task instructions and switch points (16 R323 to R328; 15 R290, R291): SWPT and SUSPEND wait, the frame engine
acts in SWITCH_SUSPEND; SIGNAL, SPAWN and LAUNCH are whole in their step.
-/

namespace Sys2Proof.Machine

/-- SWPT (R323): the path waits in BARW; a block whose live lanes are all there goes on or suspends. -/
def execSwpt (h : Hdr) (id : BitVec 16) (s : State) : Host.Outcome State Fault Refusal :=
  match exOf s h with
  | none => .next s
  | some x =>
    match issOf s x.cur.blk x.cur.who with
    | none => .next s
    | some i =>
      if x.slots.isEmpty then .next (pass s x.cur)
      else if owesAccess s i && (cohortOf s i.b.cohort).any (·.yield) then .next s
      else .next (afterUnit (armWait s x (.swpt h id) h .barw (.swpt id.toNat)) i.uid)

/-- The checks of a join object's address, in their order (R324). -/
def joinCheck (s : State) (i : Iss) (va : Nat) : Option Nat :=
  if va % 64 != 0 then some 5
  else if va < 2 ^ 48 && !i.l.covers va 64 then some 6
  else if va ≥ 2 ^ 48 then some 7
  else match walk s (tabAsid i.l.asid va) va with
  | none => some 7
  | some w =>
    let a := pteAttr w.pte
    if !a.permits .both i.runtime || a.mt != .wb || inTables s (w.pa va) || decide (paTarget (w.pa va) = 9) then some 7 else none

/-- SUSPEND (R325): its checks and its waits. -/
def execSuspend (h : Hdr) (a b : Reg) (s : State) : Host.Outcome State Fault Refusal :=
  match exOf s h with
  | none => .next s
  | some x =>
    match issOf s x.cur.blk x.cur.who with
    | none => .next s
    | some i =>
      let c := x.cur
      if x.slots.isEmpty then .next (pass s c)
      else
        let va := x.r.rdW .ctl a.toNat 2
        let ctl := (x.r.rd .ctl b.toNat).toNat
        match joinCheck s i va with
        | some k => .next (trapAt s c false ⟨k, va, none⟩)
        | none =>
          let n := bitsAt ctl 17 4
          let thr := sextN 11 (bitsAt ctl 21 11)
          if bitAt ctl 16 && decide (ctrOf s c.blk c.who n > thr) then
            let s := armWait s x (.suspend h a b) h .waitc (.ctr n thr (some (va, ctl)))
            let s := modCtx s c.blk c.who fun k => { k with armed := k.armed ++ [c.path] }
            .next (afterUnit s c.blk)
          else .next (afterUnit (armWait s x (.suspend h a b) h .barw (.suspend va ctl)) c.blk)

/-- A release at `.sys` over SCR, GLB and HOST that an instruction makes before its effect (R326, R327); false while it must
wait. -/
def sysRelease (s : State) (i : Iss) (x : Ex) : State × Bool := releaseAt s i x true storSys .sys

/-- SIGNAL (R326); what waits keeps what it has asked for. -/
def execSignal (h : Hdr) (a b : Reg) (s : State) : Host.Outcome State Fault Refusal :=
  match exOf s h with
  | none => .next s
  | some x =>
    match issOf s x.cur.blk x.cur.who with
    | none => .next s
    | some i =>
      let c := x.cur
      if x.slots.isEmpty then .next (pass s c)
      else
        let va := x.r.rdW .ctl a.toNat 2
        let delta : Int := if b = 0 then 1 else sextN 32 (x.r.rd .ctl b.toNat).toNat
        match joinCheck s i va with
        | some k => .next (trapAt s c false ⟨k, va, none⟩)
        | none =>
          match sysRelease s i x with
          | (s, false) => .next s
          | (s, true) =>
            let key := keyOf i.l.asid va
            match takeRefusal s i.cl key with
            | some (k, s) => .next (trapAt s c false ⟨k, va, none⟩)
            | none =>
              match (joinLine s i.l.asid va).2 with
              | .bad k => .next (trapAt s c false ⟨k, va, none⟩)
              | .ok _ true => .next (trapAt s c false ⟨8, va, none⟩)
              | _ =>
                match joinUpdate s i.l.asid va delta with
                | (t, false) => .next (noteWait (asked s t) i key)
                | (s, true) => .next (retire (endWait s i (· == key)) x (.signal h a b) h id)

/-- SPAWN and LAUNCH (R327): the record joins its queue, or the instruction waits. -/
def enqueue (s : State) (ins : Instr) (h : Hdr) (a b : Reg) (kind : Nat) : Host.Outcome State Fault Refusal :=
  match exOf s h with
  | none => .next s
  | some x =>
    match issOf s x.cur.blk x.cur.who with
    | none => .next s
    | some i =>
      let c := x.cur
      if x.slots.isEmpty then .next (pass s c)
      else
        let w := x.r.rdN .ctl a.toNat 8
        let q := (x.r.rd .ctl b.toNat).toNat
        if q ≥ 64 || bitsAt w 252 4 != kind then .next (trapAt s c false ⟨3, 0, none⟩)
        else
          let w := if kind = 0 then putBits w 160 2 (q / 16) else w
          match sysRelease s i x with
          | (s, false) => .next s
          | (s, true) =>
            match queueAppend s q w i.l.asid i.l.prv with
            | (t, false) => .next (asked s t)
            | (s, true) => .next (retire s x ins h id)

/-- SPAWN (R327). -/
def execSpawn (h : Hdr) (a b : Reg) (s : State) : Host.Outcome State Fault Refusal := enqueue s (.spawn h a b) h a b 0

/-- LAUNCH (R327). -/
def execLaunch (h : Hdr) (a b : Reg) (s : State) : Host.Outcome State Fault Refusal := enqueue s (.launch h a b) h a b 3

end Sys2Proof.Machine
end

