-- ==== Sys2Proof/Machine/Dispatch.lean ====
section
/-!
DEFINITION. Dispatch: one arm per constructor, each one call of its meaning.
-/

namespace Sys2Proof.Machine

def exec (i : Instr) (s : State) : Host.Outcome State Fault Refusal :=
  match i with
  -- class 0: integer, logic and lanes (10)
  | .iadd h t sat d a b => Sys2Proof.Machine.execIadd h t sat d a b s
  | .isub h t sat d a b => Sys2Proof.Machine.execIsub h t sat d a b s
  | .imul h t sat d a b => Sys2Proof.Machine.execImul h t sat d a b s
  | .imulh h t d a b => Sys2Proof.Machine.execImulh h t d a b s
  | .imad h t sat d a b c => Sys2Proof.Machine.execImad h t sat d a b c s
  | .idiv h t d a b => Sys2Proof.Machine.execIdiv h t d a b s
  | .irem h t d a b => Sys2Proof.Machine.execIrem h t d a b s
  | .imin h t d a b => Sys2Proof.Machine.execImin h t d a b s
  | .imax h t d a b => Sys2Proof.Machine.execImax h t d a b s
  | .iabs h t sat d a => Sys2Proof.Machine.execIabs h t sat d a s
  | .and h t d a b => Sys2Proof.Machine.execAnd h t d a b s
  | .or h t d a b => Sys2Proof.Machine.execOr h t d a b s
  | .xor h t d a b => Sys2Proof.Machine.execXor h t d a b s
  | .shl h t d a b => Sys2Proof.Machine.execShl h t d a b s
  | .shr h t d a b => Sys2Proof.Machine.execShr h t d a b s
  | .sar h t d a b => Sys2Proof.Machine.execSar h t d a b s
  | .bfx h t d a b c => Sys2Proof.Machine.execBfx h t d a b c s
  | .bfi h t d a b c => Sys2Proof.Machine.execBfi h t d a b c s
  | .popc h t d a => Sys2Proof.Machine.execPopc h t d a s
  | .clz h t d a => Sys2Proof.Machine.execClz h t d a s
  | .brev h t d a => Sys2Proof.Machine.execBrev h t d a s
  | .lea h t sh d a b => Sys2Proof.Machine.execLea h t sh d a b s
  | .mov h t d a => Sys2Proof.Machine.execMov h t d a s
  | .movi h t d x => Sys2Proof.Machine.execMovi h t d x s
  | .sel h t p d a b => Sys2Proof.Machine.execSel h t p d a b s
  | .icmp h c t d a b => Sys2Proof.Machine.execIcmp h c t d a b s
  | .plop h tt d a b => Sys2Proof.Machine.execPlop h tt d a b s
  | .pmov h dir r => Sys2Proof.Machine.execPmov h dir r s
  | .shfl h m t d a b => Sys2Proof.Machine.execShfl h m t d a b s
  | .vote h m d a => Sys2Proof.Machine.execVote h m d a s
  | .getl h t d a b => Sys2Proof.Machine.execGetl h t d a b s
  | .setl h t d a b => Sys2Proof.Machine.execSetl h t d a b s
  -- class 1: floating point (10)
  | .fadd h t rm sat d a b => Sys2Proof.Machine.execFadd h t rm sat d a b s
  | .fmul h t rm sat d a b => Sys2Proof.Machine.execFmul h t rm sat d a b s
  | .ffma h t rm sat d a b c => Sys2Proof.Machine.execFfma h t rm sat d a b c s
  | .fmin h t nan d a b => Sys2Proof.Machine.execFmin h t nan d a b s
  | .fmax h t nan d a b => Sys2Proof.Machine.execFmax h t nan d a b s
  | .fcmp h c t d a b => Sys2Proof.Machine.execFcmp h c t d a b s
  | .fclass h t d a => Sys2Proof.Machine.execFclass h t d a s
  | .frnd h t rm d a => Sys2Proof.Machine.execFrnd h t rm d a s
  | .fscl h t rm d a b => Sys2Proof.Machine.execFscl h t rm d a b s
  | .frcp h t d a => Sys2Proof.Machine.execFrcp h t d a s
  | .frsq h t d a => Sys2Proof.Machine.execFrsq h t d a s
  | .fsqrt h t rm d a => Sys2Proof.Machine.execFsqrt h t rm d a s
  | .fdiv h t rm d a b => Sys2Proof.Machine.execFdiv h t rm d a b s
  | .fexp2 h t d a => Sys2Proof.Machine.execFexp2 h t d a s
  | .flog2 h t d a => Sys2Proof.Machine.execFlog2 h t d a s
  | .fsin h t d a => Sys2Proof.Machine.execFsin h t d a s
  | .fcos h t d a => Sys2Proof.Machine.execFcos h t d a s
  | .fcvt h td ts rm sat d a => Sys2Proof.Machine.execFcvt h td ts rm sat d a s
  | .ftoi h td ts rm sat d a => Sys2Proof.Machine.execFtoi h td ts rm sat d a s
  | .itof h td ts rm d a => Sys2Proof.Machine.execItof h td ts rm d a s
  -- class 2: long accumulators (11)
  | .acz h d => Sys2Proof.Machine.execAcz h d s
  | .acadd h t d a => Sys2Proof.Machine.execAcadd h t d a s
  | .acfma h t d a b => Sys2Proof.Machine.execAcfma h t d a b s
  | .acdot h t d a b => Sys2Proof.Machine.execAcdot h t d a b s
  | .acmrg h d a => Sys2Proof.Machine.execAcmrg h d a s
  | .acred h d a => Sys2Proof.Machine.execAcred h d a s
  | .acnorm h d a => Sys2Proof.Machine.execAcnorm h d a s
  | .acrnd h t rm sat mean d a scale rep => Sys2Proof.Machine.execAcrnd h t rm sat mean d a scale rep s
  | .acscl h d a b => Sys2Proof.Machine.execAcscl h d a b s
  | .acxt h d a b => Sys2Proof.Machine.execAcxt h d a b s
  | .acins h d a b => Sys2Proof.Machine.execAcins h d a b s
  | .actst h c d a => Sys2Proof.Machine.execActst h c d a s
  | .acld h sp d a m => Sys2Proof.Machine.execAcld h sp d a m s
  | .acst h sp canon d a m => Sys2Proof.Machine.execAcst h sp canon d a m s
  -- class 3: memory and asynchronous (07, 08, 09, 05)
  | .ld h sp t acq al d a m => Sys2Proof.Machine.execLd h sp t acq al d a m s
  | .st h sp t rel al d a m => Sys2Proof.Machine.execSt h sp t rel al d a m s
  | .pref h mode a m => Sys2Proof.Machine.execPref h mode a m s
  | .waitc h d b => Sys2Proof.Machine.execWaitc h d b s
  | .fence h o m => Sys2Proof.Machine.execFence h o m s
  | .cpy h a => Sys2Proof.Machine.execCpy h a s
  | .seal h d => Sys2Proof.Machine.execSeal h d s
  | .cbw h b => Sys2Proof.Machine.execCbw h b s
  | .dep h t a b => Sys2Proof.Machine.execDep h t a b s
  | .cadd h d b => Sys2Proof.Machine.execCadd h d b s
  | .disc h a b m => Sys2Proof.Machine.execDisc h a b m s
  | .mhint h tp a b m => Sys2Proof.Machine.execMhint h tp a b m s
  | .lqry h d a m => Sys2Proof.Machine.execLqry h d a m s
  | .region h idx => Sys2Proof.Machine.execRegion h idx s
  -- class 4: atomics (13)
  | .atom h op far t o d a m => Sys2Proof.Machine.execAtom h op far t o d a m s
  | .acas h far t o d a m => Sys2Proof.Machine.execAcas h far t o d a m s
  | .aadd h f rel d a m => Sys2Proof.Machine.execAadd h f rel d a m s
  | .afin h mean clr t rm acq d a m => Sys2Proof.Machine.execAfin h mean clr t rm acq d a m s
  -- class 5: control (16)
  | .bra h off => Sys2Proof.Machine.execBra h off s
  | .brx h a => Sys2Proof.Machine.execBrx h a s
  | .vbr h inv p jofs off => Sys2Proof.Machine.execVbr h inv p jofs off s
  | .join h => Sys2Proof.Machine.execJoin h s
  | .loop h off => Sys2Proof.Machine.execLoop h off s
  | .brk h => Sys2Proof.Machine.execBrk h s
  | .call h off => Sys2Proof.Machine.execCall h off s
  | .callx h a => Sys2Proof.Machine.execCallx h a s
  | .ret h => Sys2Proof.Machine.execRet h s
  | .throw h inv p => Sys2Proof.Machine.execThrow h inv p s
  | .barArrive h coh nb cnt => Sys2Proof.Machine.execBarArrive h coh nb cnt s
  | .barWait h coh nb => Sys2Proof.Machine.execBarWait h coh nb s
  | .barSync h coh nb cnt => Sys2Proof.Machine.execBarSync h coh nb cnt s
  | .exit h => Sys2Proof.Machine.execExit h s
  | .yield h => Sys2Proof.Machine.execYield h s
  | .nop h => Sys2Proof.Machine.execNop h s
  | .sleep h b => Sys2Proof.Machine.execSleep h b s
  | .suspend h a b => Sys2Proof.Machine.execSuspend h a b s
  | .signal h a b => Sys2Proof.Machine.execSignal h a b s
  | .spawn h a b => Sys2Proof.Machine.execSpawn h a b s
  | .launch h a b => Sys2Proof.Machine.execLaunch h a b s
  | .swpt h id => Sys2Proof.Machine.execSwpt h id s
  -- class 6: matrix and collectives (12, 14)
  | .mz h d n => Sys2Proof.Machine.execMz h d n s
  | .mma h sh d a b => Sys2Proof.Machine.execMma h sh d a b s
  | .mmas h sh nk d sa b => Sys2Proof.Machine.execMmas h sh nk d sa b s
  | .mdrain h t rm sat x d a => Sys2Proof.Machine.execMdrain h t rm sat x d a s
  | .mspill h sh clr d a => Sys2Proof.Machine.execMspill h sh clr d a s
  | .mfill h sh d a => Sys2Proof.Machine.execMfill h sh d a s
  | .coll h op x a => Sys2Proof.Machine.execColl h op x a s
  | .abw h a => Sys2Proof.Machine.execAbw h a s
  | .crec h op x a => Sys2Proof.Machine.execCrec h op x a s
  -- class 7: system and debug (09, 20, 22)
  | .gets h sr d => Sys2Proof.Machine.execGets h sr d s
  | .sets h sr a => Sys2Proof.Machine.execSets h sr a s
  | .trap h code => Sys2Proof.Machine.execTrap h code s
  | .rett h skip => Sys2Proof.Machine.execRett h skip s
  | .bkpt h => Sys2Proof.Machine.execBkpt h s
  | .ppt h n => Sys2Proof.Machine.execPpt h n s
  | .tmark h a => Sys2Proof.Machine.execTmark h a s
  -- completions (07, 16, 12)
  | .loadDataReturn blk who op => Sys2Proof.Machine.execLoadDataReturn blk who op s
  | .storePerformed blk who op => Sys2Proof.Machine.execStorePerformed blk who op s
  | .memoryFaultArrival blk who op => Sys2Proof.Machine.execMemoryFaultArrival blk who op s
  | .copyComplete blk who copy => Sys2Proof.Machine.execCopyComplete blk who copy s
  | .copyFailure blk who copy timeout => Sys2Proof.Machine.execCopyFailure blk who copy timeout s
  | .depositApplied dep => Sys2Proof.Machine.execDepositApplied dep s
  | .sleepExpiry blk grp path => Sys2Proof.Machine.execSleepExpiry blk grp path s
  | .matrixPassComplete blk => Sys2Proof.Machine.execMatrixPassComplete blk s
  -- coherence messages (06, 13)
  | .rds src k => Sys2Proof.Machine.execRds src k s
  | .rdx src k => Sys2Proof.Machine.execRdx src k s
  | .upg src k => Sys2Proof.Machine.execUpg src k s
  | .wb src k => Sys2Proof.Machine.execWb src k s
  | .accA src k => Sys2Proof.Machine.execAccA src k s
  | .mrg src k => Sys2Proof.Machine.execMrg src k s
  | .fwdS dst k => Sys2Proof.Machine.execFwdS dst k s
  | .fwdInv dst k => Sys2Proof.Machine.execFwdInv dst k s
  | .inv dst k => Sys2Proof.Machine.execInv dst k s
  | .data dst k => Sys2Proof.Machine.execData dst k s
  | .ack dst k => Sys2Proof.Machine.execAck dst k s
  | .fwdData src k => Sys2Proof.Machine.execFwdData src k s
  | .fwdMiss src k => Sys2Proof.Machine.execFwdMiss src k s
  | .invAck src k => Sys2Proof.Machine.execInvAck src k s
  | .wbAck dst k => Sys2Proof.Machine.execWbAck dst k s
  | .farOperation k => Sys2Proof.Machine.execFarOperation k s
  | .replayContribution src k => Sys2Proof.Machine.execReplayContribution src k s
  -- the host (06)
  | .memRd ofs m => Sys2Proof.Machine.execMemRd ofs m s
  | .memWr ofs d => Sys2Proof.Machine.execMemWr ofs d s
  | .biRsp k keepS => Sys2Proof.Machine.execBiRsp k keepS s
  | .snpInv hpa => Sys2Proof.Machine.execSnpInv hpa s
  | .snpData hpa => Sys2Proof.Machine.execSnpData hpa s
  | .snpCur hpa => Sys2Proof.Machine.execSnpCur hpa s
  | .cxlCacheResponse k g d poison => Sys2Proof.Machine.execCxlCacheResponse k g d poison s
  -- time-outs and timers (05, 06, 07, 12)
  | .homeTimeout k => Sys2Proof.Machine.execHomeTimeout k s
  | .requestTimeout cl k => Sys2Proof.Machine.execRequestTimeout cl k s
  | .wcDrain cl => Sys2Proof.Machine.execWcDrain cl s
  | .throttleWindow die core => Sys2Proof.Machine.execThrottleWindow die core s
  | .hotnessDecay die => Sys2Proof.Machine.execHotnessDecay die s
  | .speculativeAccess blk who va => Sys2Proof.Machine.execSpeculativeAccess blk who va s
  | .patrolScrub pa o => Sys2Proof.Machine.execPatrolScrub pa o s
  | .faqBufferDrain => Sys2Proof.Machine.execFaqBufferDrain s
  | .faqCtl v => Sys2Proof.Machine.execFaqCtl v s
  | .registerWrite r v => Sys2Proof.Machine.execRegisterWrite r v s
  | .energyRefill die core => Sys2Proof.Machine.execEnergyRefill die core s
  | .powerAlarmRise => Sys2Proof.Machine.execPowerAlarmRise s
  | .powerAlarmClear => Sys2Proof.Machine.execPowerAlarmClear s
  | .thermalFreeze stack => Sys2Proof.Machine.execThermalFreeze stack s
  | .thermalResume => Sys2Proof.Machine.execThermalResume s
  | .freezeTimeout => Sys2Proof.Machine.execFreezeTimeout s
  -- pages in motion and the map engine (05, 04)
  | .moveAccept engine => Sys2Proof.Machine.execMoveAccept engine s
  | .lineCopyComplete engine vpn asid o => Sys2Proof.Machine.execLineCopyComplete engine vpn asid o s
  | .destWriteError engine vpn asid => Sys2Proof.Machine.execDestWriteError engine vpn asid s
  | .cursorTimeout engine vpn asid => Sys2Proof.Machine.execCursorTimeout engine vpn asid s
  | .migrationCommand => Sys2Proof.Machine.execMigrationCommand s
  | .migrationRecordDrain engine => Sys2Proof.Machine.execMigrationRecordDrain engine s
  | .map c => Sys2Proof.Machine.execMap c s
  | .unmap c => Sys2Proof.Machine.execUnmap c s
  | .protect c => Sys2Proof.Machine.execProtect c s
  | .zero c => Sys2Proof.Machine.execZero c s
  | .badPageAdd frame => Sys2Proof.Machine.execBadPageAdd frame s
  | .hotsnap va => Sys2Proof.Machine.execHotsnap va s
  | .tagPurge task => Sys2Proof.Machine.execTagPurge task s
  -- links, pod, collectives, time (14)
  | .flitReceive l sent got => Sys2Proof.Machine.execFlitReceive l sent got s
  | .ackFlit l ack => Sys2Proof.Machine.execAckFlit l ack s
  | .moduleRetrainDone l ok => Sys2Proof.Machine.execModuleRetrainDone l ok s
  | .ucieRetrain l => Sys2Proof.Machine.execUcieRetrain l s
  | .podRequest peer tag r => Sys2Proof.Machine.execPodRequest peer tag r s
  | .podCompletion id ok data => Sys2Proof.Machine.execPodCompletion id ok data s
  | .podTimeout id => Sys2Proof.Machine.execPodTimeout id s
  | .packedPartial port slot p => Sys2Proof.Machine.execPackedPartial port slot p s
  | .collMessage blk m => Sys2Proof.Machine.execCollMessage blk m s
  | .stepDeadline blk commid chunk => Sys2Proof.Machine.execStepDeadline blk commid chunk s
  | .memberTimeout blk commid => Sys2Proof.Machine.execMemberTimeout blk commid s
  | .collAbortReport blk entry cause => Sys2Proof.Machine.execCollAbortReport blk entry cause s
  | .timeRecalibrate rates => Sys2Proof.Machine.execTimeRecalibrate rates s
  -- distribution, switching, pre-emption (15, 20)
  | .launchRecord die q => Sys2Proof.Machine.execLaunchRecord die q s
  | .blockStart die launch place slot => Sys2Proof.Machine.execBlockStart die launch place slot s
  | .blockResume die q place => Sys2Proof.Machine.execBlockResume die q place s
  | .taskRecord die q place slot => Sys2Proof.Machine.execTaskRecord die q place slot s
  | .qtail q v => Sys2Proof.Machine.execQtail q v s
  | .workRequest die core => Sys2Proof.Machine.execWorkRequest die core s
  | .rejectBufferDrain => Sys2Proof.Machine.execRejectBufferDrain s
  | .yieldRequestTimeout q launch => Sys2Proof.Machine.execYieldRequestTimeout q launch s
  | .switchSuspend cohort => Sys2Proof.Machine.execSwitchSuspend cohort s
  | .preemptRequest t => Sys2Proof.Machine.execPreemptRequest t s
  | .contextSave cohort rows => Sys2Proof.Machine.execContextSave cohort rows s
  | .bmsResume blk => Sys2Proof.Machine.execBmsResume blk s
  | .blockEnd blk => Sys2Proof.Machine.execBlockEnd blk s
  -- reset, fatal errors, firmware (24, 20, 06)
  | .packageReset => Sys2Proof.Machine.execPackageReset s
  | .hostLinkRetry ok => Sys2Proof.Machine.execHostLinkRetry ok s
  | .dieResetGraceful die cores uncore => Sys2Proof.Machine.execDieResetGraceful die cores uncore s
  | .dieResetCoreAbrupt die => Sys2Proof.Machine.execDieResetCoreAbrupt die s
  | .dieResetUncoreAbrupt die => Sys2Proof.Machine.execDieResetUncoreAbrupt die s
  | .uncoreReturn die => Sys2Proof.Machine.execUncoreReturn die s
  | .watchdogExpiry => Sys2Proof.Machine.execWatchdogExpiry s
  | .uncorrectableStateError die w => Sys2Proof.Machine.execUncorrectableStateError die w s
  | .mailboxStatus => Sys2Proof.Machine.execMailboxStatus s
  | .firmwareUpdate img => Sys2Proof.Machine.execFirmwareUpdate img s
  | .attestRequest nonce => Sys2Proof.Machine.execAttestRequest nonce s
  -- debug, trace, replay, causal experiments (22)
  | .attach launch mode => Sys2Proof.Machine.execAttach launch mode s
  | .detach launch => Sys2Proof.Machine.execDetach launch s
  | .hold gid idx => Sys2Proof.Machine.execHold gid idx s
  | .release gid idx => Sys2Proof.Machine.execRelease gid idx s
  | .step gid idx => Sys2Proof.Machine.execStep gid idx s
  | .split gid idx set m => Sys2Proof.Machine.execSplit gid idx set m s
  | .bpset launch slot pc => Sys2Proof.Machine.execBpset launch slot pc s
  | .bpclr launch slot => Sys2Proof.Machine.execBpclr launch slot s
  | .rdstate gid it => Sys2Proof.Machine.execRdstate gid it s
  | .wrstate gid it v => Sys2Proof.Machine.execWrstate gid it v s
  | .pcSample die core => Sys2Proof.Machine.execPcSample die core s
  | .ytrCtl die core v => Sys2Proof.Machine.execYtrCtl die core v s
  | .record launch clkt rplBase rplSize mode => Sys2Proof.Machine.execRecord launch clkt rplBase rplSize mode s
  | .replayWaitEnd blk who => Sys2Proof.Machine.execReplayWaitEnd blk who s
  | .ppcntRead launch => Sys2Proof.Machine.execPpcntRead launch s
  | .cxExchange => Sys2Proof.Machine.execCxExchange s
  | .coreResetEnd die => Sys2Proof.Machine.execCoreResetEnd die s

end Sys2Proof.Machine
end

