-- ==== Sys2Proof/Machine/Turn.lean ====
section
/-!
DEFINITION. One turn: an issuer issues its next instruction (15 R303, 01 R13, R29, 12 R242, 22 R374, R375), or a step of
the part happens; and the turn taken when the agenda names none (assumption log 1).
-/

namespace Sys2Proof.Machine

/-- One outcome of a turn. -/
abbrev Out := Host.Outcome State Fault Refusal

/-- Executes an instruction for an issuer: `exec` with the issuer set, then without. -/
def runHere (s : State) (c : Cur) (i : Instr) : Out :=
  match exec i (withCur s (some c)) with
  | .next t => .next (withCur t none)
  | o => o

/-- The stream an issuer fetches (R46). -/
def streamOf (who : Nat) : Stream := if who = bmsWho then .bms else .group

/-- The cause a word raises at decode or by its budget (R29), or its instruction. -/
def decodeFor (s : State) (c : Cur) (w : IWord) : Instr ⊕ Nat :=
  match decode (streamOf c.who) w with
  | .illegalOpcode => .inr 1
  | .illegalEncoding => .inr 2
  | .illegalOperand => .inr 3
  | .instr i =>
    if c.who = bmsWho then .inl i
    else match blockOf s c.blk with
      | some b => if budgetOk (b.v.regs / b.v.fold) i then .inl i else .inr 3
      | none => .inl i

/-- The context waited for budget (R242, R243). -/
def noteStall (s : State) (c : Cur) : State := modCtx s c.blk c.who fun x => { x with bstall := true }

/-- The path-table entries of a group that are in use. -/
def liveEntries (s : State) (uid who : Nat) : List Bool :=
  match groupOf s uid who with
  | some g => g.paths.map fun p => p.st != .free
  | none => []

/-- An instruction that has passed decoding issues, or waits (R139, R151, R168, R242). -/
def issueInstr (s : State) (x : Iss) (c : Cur) (i : Instr) (stepping : Bool) : Out :=
  let energy := ((ctxOf s c.blk c.who).map (·.energy)).getD 1
  if energy ≤ 0 then .next (noteStall s c)
  else if issueWaits s c i then .next s
  else
    let o := orderOf s c.blk c.who
    let live := liveEntries s c.blk c.who
    match runHere (debit s c (costOf s i)) c i with
    | .next t =>
      if (ctxOf t c.blk c.who).isSome && orderOf t c.blk c.who == o then .next (debit t c (-(costOf s i)))
      else
        let t := cxIssue t x c.pc
        .next (match hdrOf i with | some h => afterIssue t c h live stepping | none => t)
    | r => r

/-- Fetches, decodes and issues at a PC. -/
def issueAt (s : State) (x : Iss) (path pc : Nat) (stepping : Bool) : Out :=
  match fetchWord s x pc with
  | (s, .wait) => .next s
  | (s, .trap k) => .next (trapAt s ⟨x.uid, x.who, path, pc, 0⟩ false ⟨k, pc, none⟩)
  | (s, .word w) =>
    let c : Cur := ⟨x.uid, x.who, path, pc, w⟩
    match decodeFor s c w with
    | .inr k => .next (trapAt s c (!bitAt w.toNat 85) ⟨k, 0, none⟩)
    | .inl i => issueInstr s x c i stepping

/-- Whether a group has a path that can issue; while a handler is active, its path alone (R303, R344). -/
def groupReady (g : Group) : Bool :=
  match g.hpath with
  | some p => (g.paths[p]?).any Path.canIssue
  | none => g.paths.any Path.canIssue

/-- The slots of the READY groups of a quadrant of a core (R303). -/
def readySlots (s : State) (die core quad : Nat) : List Nat :=
  s.work.blocks.flatMap fun b =>
    if b.die == die && b.core == core && !issuerStopped s b then
      (b.groups.filter fun g => g.gslot / 8 == quad && groupReady g).map (·.gslot)
    else []

/-- How far a slot of a quadrant stands after the one that issue picked last. -/
def slotAfter (picked slot : Nat) : Nat := (slot % 8 + 7 - picked % 8) % 8

/-- Whether it is a group's turn in the rotation among the READY groups of its quadrant (R303). -/
def inRotation (s : State) (x : Iss) : Bool :=
  match groupOf s x.uid x.who with
  | none => false
  | some g =>
    let q := g.gslot / 8
    let last := (coreState s (coreIndex x.b.die x.b.core)).picked.getD q 7
    (readySlots s x.b.die x.b.core q).all fun n => decide (slotAfter last g.gslot ≤ slotAfter last n)

/-- Issue picks a group of a quadrant: the rotation goes on after it (R303). -/
def pick (s : State) (x : Iss) : State :=
  match groupOf s x.uid x.who with
  | some g => modCore s (coreIndex x.b.die x.b.core) fun k => { k with picked := k.picked.set (g.gslot / 8) (g.gslot % 8) }
  | none => s

/-- A group's turn: arbitration, a pending trap, the 0x0C of a block resumed from a frame that is not its own, an address
breakpoint, then the instruction (R301, R303, R344, R374). -/
def issueGroup (s : State) (x : Iss) : Out :=
  match arbitrate s x.uid x.who with
  | (s, none) => .next s
  | (s, some p) =>
    match pathOf s x.uid x.who p with
    | none => .next s
    | some q =>
      match q.trap with
      | some t => .next (takeTrap s x.uid x.who p t t.pc)
      | none =>
        if (groupOf s x.uid x.who).any fun g => g.stray && g.shadows.isEmpty then
          .next (trapAt s ⟨x.uid, x.who, p, q.pc, 0⟩ false ⟨0x0C, 0, none⟩)
        else if breakAt x q q.pc then
          .next (trapAt (modPath s x.uid x.who p fun q => { q with bpSkip := true }) ⟨x.uid, x.who, p, q.pc, 0⟩ false ⟨0x10, 0, none⟩)
        else issueAt s x p q.pc (q.held && q.step)

/-- The BMS's turn (R218): it issues while it runs and no tile operation is in progress. -/
def issueBms (s : State) (x : Iss) : Out :=
  match x.b.bms with
  | some m => if m.st == .run && m.prog.isNone then issueAt s x 0 m.pc false else .next s
  | none => .next s

/-- The turn of one issuer. -/
def issueTurn (s : State) (uid who : Nat) : Out :=
  match issOf s uid who with
  | none => .next s
  | some x =>
    if issuerStopped s x.b then .next s
    else if who = bmsWho then issueBms s x
    else if !inRotation s x then .next s
    else issueGroup (pick s x) x

/-! ### The end of a step -/

/-- Yield requests follow what has become free (R297); where one that stood is withdrawn, what waits at switch points goes on
(R300). -/
def yieldScan (old s : State) : State :=
  let s := yieldCheck s
  if old.work.cohorts.any fun c => c.yield && (cohortOf s c.uid).any fun d => !d.yield then swptAll s else s

/-- Tokens of a group that are held on chip (R308). -/
def tokensOnChip : Nat := 16

/-- Where the spill area of a group keeps a token, by its id: the manual does not say where in the area (assumption log 20). -/
def tokenAt (s : State) (b : Block) (g : Group) (id : Nat) : Nat :=
  s.work.tspill + 65536 * ((64 * b.die + b.core) * 32 + g.gslot) + 160 * id

/-- Tokens on chip beyond 16 go to the spill area, the least recently used first, until one has to wait (R308). -/
def spillGo (b : Block) (gix : Nat) : Nat → State → State
  | 0, s => s
  | n + 1, s =>
    match groupOf s b.uid gix with
    | none => s
    | some g =>
      match g.recent with
      | id :: rest =>
        if g.recent.length ≤ tokensOnChip then s
        else
          let image := (g.tokens.get? id).map fun t => imageOf (tokenFields 0 id t)
          (match engWrite s (tokenAt s b g id) 160 (image.getD 0) with
           | (s, false) => s
           | (s, true) => spillGo b gix n (modGroup s b.uid gix fun g => { g with recent := rest }))
      | [] => s

/-- The tokens of a group that a step has made or changed are on chip, as those used last; others may have to leave (R308). -/
def spillGroup (old s : State) (b : Block) (gix : Nat) (g : Group) : State :=
  let before : SMap Token := ((groupOf old b.uid gix).map (·.tokens)).getD []
  if before == g.tokens && decide (g.recent.length ≤ tokensOnChip) then s
  else
    let used := (g.tokens.filter fun t => before.get? t.1 != some t.2).map (·.1)
    let stay := g.recent.filter fun id => (g.tokens.get? id).isSome && !used.contains id
    spillGo b gix (stay.length + used.length)
      (modGroup s b.uid gix fun g => { g with recent := stay ++ used })

/-- Token stores after a step. -/
def spillScan (old s : State) : State :=
  s.work.blocks.foldl (fun s b =>
    (List.range b.groups.length).foldl (fun s gix => match b.groups[gix]? with
      | some g => spillGroup old s b gix g
      | none => s) s) s

/-- What follows a step of its own accord: lost lines are poisoned as their homes answer (R133), write-combining lines, held
contributions, PREFs and JOIN signals go on (R127, R140, R258, R293), tokens leave for the spill area (R308), page-map commands (R91), yield requests (R297), Tansy's own
policy (R105), and the fault-address queue (R75). -/
def endOfStep (old s : State) : State :=
  faqSettle (policyScan old (yieldScan old (mapSettle (spillScan old (flushJoins (flushPrefs (flushHeld (wcSettle (poisonDropped s)))))))))

/-- What an act does. A fatal error leaves only status and reset (R363). -/
def perform (s : State) (a : Act) : Out :=
  match a with
  | .issue uid who => issueTurn s uid who
  | .event i =>
    if (hdrOf i).isSome || fatalStops s i then .next s
    else exec i s
  | .flaw g o =>
    .next (match o with
      | .clean => { s with mem := { s.mem with flaws := s.mem.flaws.erase g } }
      | .corrected => { s with mem := { s.mem with flaws := s.mem.flaws.set g 1 } }
      | .uncorrectable => { s with mem := { s.mem with flaws := s.mem.flaws.set g 2 } })
  | .evict cl k => .next (evictLine ((List.range 8).foldl (fun s n => evictL1 s (8 * cl + n) k) s) cl k)
  | .evictL1 ci k => .next (evictL1 s ci k)

/-! ### The default turn (assumption log 1) -/

/-- The step that delivers a message. -/
def stepOfMsg (m : Msg) : Option Instr :=
  match m.body with
  | .req r =>
    (match r with
     | .rds => some (.rds m.src m.key)
     | .rdx => some (.rdx m.src m.key)
     | .upg => some (.upg m.src m.key)
     | .accA => some (.accA m.src m.key)
     | .far _ => some (.farOperation m.key)
     | .replay .. => some (.replayContribution m.src m.key)
     | _ => none)
  | .wb _ => some (.wb m.src m.key)
  | .mrg _ => some (.mrg m.src m.key)
  | .fwdS => some (.fwdS m.dst m.key)
  | .fwdInv => some (.fwdInv m.dst m.key)
  | .inv => some (.inv m.dst m.key)
  | .data .. => some (.data m.dst m.key)
  | .ack _ => some (.ack m.dst m.key)
  | .refuse _ => some (.data m.dst m.key)
  | .fwdData .. => some (.fwdData m.src m.key)
  | .fwdMiss _ => some (.fwdMiss m.src m.key)
  | .invAck => some (.invAck m.src m.key)
  | .wbAck => some (.wbAck m.dst m.key)

/-- The steps that could complete something an issuer has outstanding. -/
def stepsOfIssuer (b : Block) (who : Nat) (c : Ctx) : List Act :=
  (c.window.flatMap fun p =>
    [.event (.loadDataReturn b.uid who p.id), .event (.storePerformed b.uid who p.id),
     .event (.memoryFaultArrival b.uid who p.id)])
  ++ c.copies.flatMap fun k => [.event (.copyComplete b.uid who k.id), .event (.copyFailure b.uid who k.id false)]

/-- The steps of a block: completions, wakes, the BMS's passes, then its issuers. -/
def stepsOfBlock (b : Block) : List Act :=
  ((List.range b.groups.length).flatMap fun g =>
    match b.groups[g]? with
    | some gr =>
      stepsOfIssuer b g gr.ctx
        ++ ((List.range gr.paths.length).filterMap fun p =>
            (gr.paths[p]?).bind fun q => if q.st == .sleep then some (.event (.sleepExpiry b.uid g p)) else none)
        ++ [.issue b.uid g]
    | none => [])
  ++ (match b.bms with
      | some m => stepsOfIssuer b bmsWho m.ctx
          ++ (if m.prog.isSome then [.event (.matrixPassComplete b.uid)] else []) ++ [.issue b.uid bmsWho]
      | none => [])

/-- Collective messages between blocks of this device. -/
def localMessages (s : State) : List Act :=
  s.links.out.flatMap fun x => s.work.blocks.filterMap fun b =>
    if onDevice x.1 && entryIs b x.1 x.2.commid then some (.event (.collMessage b.uid x.2)) else none

/-- Work that the queues hold. -/
def queueSteps (s : State) : List Act :=
  (heldQueues s).flatMap fun q =>
    if (queuedLaunch s q).isNone then [.event (.launchRecord 0 q), .event (.workRequest 0 0)] else [.event (.workRequest 0 0)]

/-- Energy windows that have ended on cores with a resident block (R242). -/
def refills (s : State) : List Act :=
  s.work.blocks.filterMap fun b =>
    if (coreState s (coreIndex b.die b.core)).refilled + 512 ≤ s.sched.cycle then some (.event (.energyRefill b.die b.core)) else none

/-- Pod requests of this device to itself. -/
def ownPods (s : State) : List Act :=
  s.sched.replies.filterMap fun r => match r with
    | .podReq id dev q =>
      if dev = Config.deviceId ∧ s.links.pods.any (fun p => p.id == id && p.done == none) then some (.event (.podRequest dev id q)) else none
    | _ => none

/-- What is due by itself: write-combining lines whose interval has passed (R127), acknowledgements that receivers owe (R262), the
second half of a time page's update (R284). -/
def dueSteps (s : State) : List Act :=
  ((s.coh.wc.filter fun w => decide (w.since + wcInterval ≤ s.sched.cycle)).map fun w => .event (.wcDrain w.cl))
    ++ (s.links.mods.filterMap fun m => m.nak.map fun a => .event (.ackFlit m.id a))
    ++ (if s.sched.newRates.isSome then [.event (.timeRecalibrate [])] else [])

/-- Every step that the default turn may choose. -/
def candidates (s : State) : List Act :=
  (s.coh.net.filterMap fun m => (stepOfMsg m).map Act.event)
    ++ (s.work.deposits.map fun d => .event (.depositApplied d.id))
    ++ (s.coh.dir.filterMap fun e => if e.txn.isNone && !e.queue.isEmpty then some (.event (.farOperation e.key)) else none)
    ++ dueSteps s ++ localMessages s ++ queueSteps s ++ ownPods s ++ refills s
    ++ s.work.blocks.flatMap stepsOfBlock

/-- The turn taken when the agenda names none: the candidates in rotation. -/
def defaultTurn (s : State) : Turn :=
  let cs := candidates s
  ⟨1, 1, (cs[s.sched.tick % max 1 cs.length]?).getD (.event .rejectBufferDrain)⟩

/-- The next turn, and the state without it. -/
def takeTurn (s : State) : State × Turn :=
  match s.sched.agenda with
  | t :: r => ({ s with sched := { s.sched with agenda := r } }, t)
  | [] => (s, defaultTurn s)

end Sys2Proof.Machine
end

