-- ==== Sys2Proof/Machine/Step.lean ====
section
/-!
DEFINITION. One step of the package: the next turn, the time it lets pass, and its act. And where a test word is
placed (assumption log 1).
-/

namespace Sys2Proof.Machine

/-- One step: a turn with the time that it lets pass, its act, and what follows of its own accord. -/
def step (s : State) : Host.Outcome State Fault Refusal :=
  let (s, t) := takeTurn s
  match perform (advance s t.ns t.cyc) t.act with
  | .next t => .next (endOfStep s t)
  | o => o

/-- A word placed where the next step fetches it: see `placeWord`. -/
def State.withFetchWord (s : State) (nbits w : Nat) : State := placeWord s nbits w

end Sys2Proof.Machine
end

