-- ==== Sys2Proof/Safety.lean ====
section
/-!
DEFINITION. What counts as a safe run, and the terms statements use: runs of the package that only take next states, the
invariant of well-formed states (04: memory in canonical form), who issues an instruction, and what an instruction that
retires leaves of the state.
-/

namespace Sys2Proof.Safety

open Sys2Proof.Machine

/-- A state reached by steps that all answered next states. -/
inductive Reaches : State → State → Prop where
  | refl (s : State) : Reaches s s
  | step {s t u : State} : Machine.step s = .next t → Reaches t u → Reaches s u

/-- Device memory keeps its canonical form. -/
def Inv (s : State) : Prop := Memory.wf s.mem.cells = true

/-! ### Registers -/

/-- A slot of a 64-lane set, or the control thread (R287). -/
def SlotOk : Slot → Prop
  | .lane _ l => l < 64
  | .ctl => True

/-- A register number that a slot's set can hold (R287). -/
def Holds (r : Regs) : Slot → Nat → Prop
  | .lane _ _, n => n < r.span
  | .ctl, _ => True

/-- Registers that last-use hints of an instruction mark (R169). -/
def Marked (i : Instr) (h : Hdr) (m : Nat) : Prop := ∃ u ∈ lastUses i h, u.1 ≤ m ∧ m < u.1 + u.2

/-- An issuer executes a well-formed instruction within its variant's budget (R29, R16): `x` is its registers and the
slots that its mask and guard select. -/
def Issues (s : State) (i : Instr) (h : Hdr) (x : Ex) : Prop :=
  hdrOf i = some h ∧ exOf s h = some x ∧ WellFormed (streamOf x.cur.who) i = true
    ∧ (x.cur.who = bmsWho ∨ budgetOk x.r.span i = true)

/-- Whether an instruction of an issuer retires only after earlier memory instructions of its path have passed their fault
points (R139). -/
def late (s : State) (c : Cur) : Bool := c.who != bmsWho && unpassed s c.blk c.who c.path

/-- What a register that a last-use hint marks reads after the instruction: zero, or while the instruction has not retired what it
held (R139, R169). -/
def markedRead (s : State) (x : Ex) (sl : Slot) (m : Nat) : Word := if late s x.cur then x.r.rd sl m else 0

/-- The registers `r'` are those of `x` with `val` in the `n` registers from D of every executing slot; v0, g0 and s0
keep reading zero (R162); a register that a last-use hint marks reads zero once the instruction has retired, unless it is
written (R169); every other register and every predicate is as before. -/
def Written (s : State) (x : Ex) (i : Instr) (h : Hdr) (d : Reg) (n : Nat) (val : Slot → Nat) (r' : Regs) : Prop :=
  (∀ sl ∈ x.slots, ∀ k < n, d.toNat + k ≠ 0 → r'.rd sl (d.toNat + k) = BitVec.ofNat 32 (val sl / 2 ^ (32 * k)))
    ∧ (∀ sl, r'.rd sl 0 = 0)
    ∧ (∀ sl m, SlotOk sl → Holds x.r sl m → ¬(sl ∈ x.slots ∧ d.toNat ≤ m ∧ m < d.toNat + n) →
        ¬(sl ∈ x.slots ∧ Marked i h m) → r'.rd sl m = x.r.rd sl m)
    ∧ (∀ sl m, SlotOk sl → Holds x.r sl m → ¬(sl ∈ x.slots ∧ d.toNat ≤ m ∧ m < d.toNat + n) →
        sl ∈ x.slots ∧ Marked i h m → r'.rd sl m = markedRead s x sl m)
    ∧ (∀ sl n, r'.rdPred sl n = x.r.rdPred sl n)

/-- The registers `r'` are those of `x` with `val` in predicate D of every executing slot; p0 and k0 stay true (R162);
every other predicate is as before, and every register but those that last-use hints mark. -/
def WrittenPred (s : State) (x : Ex) (i : Instr) (h : Hdr) (d : Reg) (val : Slot → Bool) (r' : Regs) : Prop :=
  (∀ sl ∈ x.slots, d.toNat ≠ 0 → r'.rdPred sl d.toNat = val sl)
    ∧ (∀ sl, r'.rdPred sl 0 = true)
    ∧ (∀ sl m, SlotOk sl → m < 16 → ¬(sl ∈ x.slots ∧ m = d.toNat) → r'.rdPred sl m = x.r.rdPred sl m)
    ∧ (∀ sl m, SlotOk sl → Holds x.r sl m → ¬(sl ∈ x.slots ∧ Marked i h m) → r'.rd sl m = x.r.rd sl m)
    ∧ (∀ sl m, SlotOk sl → Holds x.r sl m → sl ∈ x.slots ∧ Marked i h m → r'.rd sl m = markedRead s x sl m)

/-- How a mark names a register of a slot. -/
def markKey (r : Regs) : Slot → Nat → Bool × Nat
  | .lane j l, n => (true, r.vkey j l n)
  | .ctl, n => (false, n)

/-- No instruction of the issuer that has not retired is to mark a register (R139, R169). -/
def NoMark (s : State) (uid who : Nat) (r : Regs) (sl : Slot) (n : Nat) : Prop :=
  ∀ g, groupOf s uid who = some g → ∀ e ∈ g.ahead, markKey r sl n ∉ e.marks

/-- The issuer's registers and predicates in `t` are those of `r`, but for registers that an instruction which has not retired
in `s` is to mark. -/
def SameRegs (s t : State) (uid who : Nat) (r : Regs) : Prop :=
  ∃ r', regsOf t uid who = some r' ∧ (∀ sl n, r'.rdPred sl n = r.rdPred sl n)
    ∧ ∀ sl n, SlotOk sl → Holds r sl n → NoMark s uid who r sl n → r'.rd sl n = r.rd sl n

/-! ### What a register instruction leaves -/

/-- The issuer `c` retires one instruction of its own registers: its PC goes on by 12, and nothing else of the package
changes but its registers, its predicates, its count of issued instructions, its operand buffer, what it remembers of
old register values, and its instructions that have not retired. -/
def Retires (s t : State) (c : Cur) : Prop :=
  t = { s with work := { s.work with blocks := t.work.blocks } }
    ∧ (∀ j, j ≠ c.blk → blockOf t j = blockOf s j)
    ∧ ∃ b b', blockOf s c.blk = some b ∧ blockOf t c.blk = some b'
      ∧ (if c.who = bmsWho then
          ∃ m m', b.bms = some m ∧ b' = { b with bms := some m' }
            ∧ m' = { m with pc := nextPc c
                            ctx := { m.ctx with gregs := m'.ctx.gregs, kpreds := m'.ctx.kpreds, order := m.ctx.order + 1 } }
        else
          ∃ g g', b.groups[c.who]? = some g ∧ b' = { b with groups := b.groups.set c.who g' }
            ∧ g' = { g with vregs := g'.vregs, preds := g'.preds, opbuf := g'.opbuf, undo := g'.undo, ahead := g'.ahead
                            paths := g.paths.modify c.path fun q => { q with pc := nextPc c }
                            ctx := { g.ctx with gregs := g'.ctx.gregs, kpreds := g'.ctx.kpreds, order := g.ctx.order + 1 } })

/-- In state `s` an instruction completes with `val` in its D, and changes nothing else. -/
def Gives (s : State) (i : Instr) (d : Reg) (n : Nat) (val : Ex → Slot → Nat) : Prop :=
  ∀ h x, Issues s i h x → ∃ t r', exec i s = .next t ∧ Retires s t x.cur
    ∧ regsOf t x.cur.blk x.cur.who = some r' ∧ Written s x i h d n (val x) r'

/-- In state `s` an instruction completes with `val` in its predicate D, and changes nothing else. -/
def GivesPred (s : State) (i : Instr) (d : Reg) (val : Ex → Slot → Bool) : Prop :=
  ∀ h x, Issues s i h x → ∃ t r', exec i s = .next t ∧ Retires s t x.cur
    ∧ regsOf t x.cur.blk x.cur.who = some r' ∧ WrittenPred s x i h d (val x) r'

/-! ### Accumulators -/

/-- What one contribution of an exact value does to S and the status word of an accumulator (R64, R65). -/
def Contributed (a : La) (v : FVal) (b : La) : Prop :=
  let st : LaStatus := { a.st with count := min (a.st.count + 1) 65535 }
  let infinite (neg : Bool) : Prop := b.s = a.s ∧ b.st =
    (if neg then { st with ninf := min (st.ninf + 1) 127 } else { st with pinf := min (st.pinf + 1) 127 })
  match v with
  | .nan => b.s = a.s ∧ b.st = { st with nan := true }
  | .inf neg => infinite neg
  | .fin neg m e =>
    let n := (scaleFrac m 1 e).1
    let d := (scaleFrac m 1 e).2
    if 2 ^ 339 * d ≤ n then infinite neg
    else ∃ T : Nat, T * d ≤ n * 2 ^ 300 ∧ n * 2 ^ 300 < (T + 1) * d ∧ b.s = wrapS (a.s + (if neg then -(T : Int) else T))
      ∧ b.st = { st with lowloss := a.st.lowloss || decide (T * d ≠ n * 2 ^ 300) }

/-- ACRND's result and report (R212, R213): the special cases in their order, else the exact quantity rounded once, clamped
under `.sat`; `v` is the value delivered and `w` the report word. -/
def Rounded (f : Fmt) (rm : Rm) (sat mean : Bool) (a : La) (scale : FVal) (v : Nat) (w : Word) : Prop :=
  let st := a.st
  let report (mean0 inexact range : Bool) : Word := BitVec.ofNat 32 (range.toNat + 2 * inexact.toNat + 4 * st.lowloss.toNat
    + 8 * (decide (st.count = 65535)).toNat + 16 * mean0.toNat)
  let neg (p : Bool) : Bool := p != decide (a.s < 0)
  if st.nan = true ∨ (st.pinf ≠ 0 ∧ st.ninf ≠ 0) then v = f.nanBits ∧ w = report false false false
  else if st.pinf ≠ 0 ∨ st.ninf ≠ 0 then
    w = report false false false ∧ match scale with
      | .nan => v = f.nanBits
      | .inf p => v = fsat f sat (infOf f (p != decide (st.pinf = 0)))
      | .fin p m _ => if m = 0 then v = f.nanBits else v = fsat f sat (infOf f (p != decide (st.pinf = 0)))
  else if a.s < -(2 ^ 639) ∨ 2 ^ 639 ≤ a.s then v = f.nanBits ∧ w = report false false true
  else match scale with
    | .nan => v = f.nanBits ∧ w = report false false false
    | .inf p => w = report false false false ∧ v = if a.s = 0 then f.nanBits else fsat f sat (infOf f (neg p))
    | .fin p m e =>
      if mean = true ∧ st.count = 0 then v = f.nanBits ∧ w = report true false false
      else if a.s = 0 ∨ m = 0 then v = 0 ∧ w = report false false false
      else
        let x := (scaleFrac (a.s.natAbs * m) (if mean then st.count else 1) (e - 300)).1
        let y := (scaleFrac (a.s.natAbs * m) (if mean then st.count else 1) (e - 300)).2
        v = fsat f sat (roundRat f rm (neg p) x y)
          ∧ ∃ inexact : Bool, w = report false inexact false
            ∧ (inexact = false ↔ ∃ n k, fdecode f v = .fin (neg p) n k ∧ (scaleFrac n 1 k).1 * y = x * (scaleFrac n 1 k).2)

/-- In state `s` an instruction completes with an accumulator image `val` in D of every executing slot, byte 91 zero (R62),
for which `P` holds of it as an accumulator, and changes nothing else. -/
def GivesLa (s : State) (i : Instr) (d : Reg) (P : Ex → Slot → La → Prop) : Prop :=
  ∀ h x, Issues s i h x → ∃ t r' val, exec i s = .next t ∧ Retires s t x.cur ∧ regsOf t x.cur.blk x.cur.who = some r'
    ∧ Written s x i h d 24 val r'
    ∧ ∀ sl ∈ x.slots, val sl < 2 ^ 768 ∧ val sl / 2 ^ 728 % 256 = 0 ∧ P x sl (La.ofImage (BitVec.ofNat 768 (val sl)))

/-! ### Control and exceptions -/

/-- The core of a block does not trace it (R379). -/
def Quiet (s : State) (uid : Nat) : Prop := ∀ b, blockOf s uid = some b → traced s b = false

/-- The issuer `c` goes on at `pc`, one more instruction of it has issued, and nothing else of the package changes. -/
def GoesTo (s t : State) (c : Cur) (pc : Nat) : Prop :=
  t = { s with work := { s.work with blocks := t.work.blocks } }
    ∧ (∀ j, j ≠ c.blk → blockOf t j = blockOf s j)
    ∧ ∃ b b', blockOf s c.blk = some b ∧ blockOf t c.blk = some b'
      ∧ (if c.who = bmsWho then
          ∃ m, b.bms = some m ∧ b' = { b with bms := some { m with pc := pc, ctx := { m.ctx with order := m.ctx.order + 1 } } }
        else
          ∃ g, b.groups[c.who]? = some g ∧ b' = { b with groups := b.groups.set c.who { g with
            paths := g.paths.modify c.path fun q => { q with pc := pc }
            ctx := { g.ctx with order := g.ctx.order + 1 } } })

/-- Of the whole package only the issuer's group is another: `g` became `g'`. -/
def GroupBecomes (s t : State) (c : Cur) (g g' : Group) : Prop :=
  t = { s with work := { s.work with blocks := t.work.blocks } }
    ∧ (∀ j, j ≠ c.blk → blockOf t j = blockOf s j)
    ∧ ∃ b, blockOf s c.blk = some b ∧ b.groups[c.who]? = some g
      ∧ blockOf t c.blk = some { b with groups := b.groups.set c.who g' }

/-- The issuer is path `q` of group `g`, which is READY. -/
def OnPath (s : State) (x : Ex) (g : Group) (q : Path) : Prop :=
  x.cur.who ≠ bmsWho ∧ groupOf s x.cur.blk x.cur.who = some g ∧ g.paths[x.cur.path]? = some q
    ∧ q.st = .ready ∧ q.pc = x.cur.pc

/-- One more instruction of a group has issued. -/
def issued (g : Group) : Group := { g with ctx := { g.ctx with order := g.ctx.order + 1 } }

/-- The issuer takes a trap of cause `f.cause` at its instruction, which has no other effect (R344, R139). -/
def Traps (s : State) (i : Instr) (x : Ex) (laneForm : Bool) (f : Flt) : Prop := exec i s = .next (trapAt s x.cur laneForm f)

/-! ### Memory -/

/-- `n` bytes of a byte map, little-endian (R6). -/
def getBytes (m : Nat → Nat) (a : Nat) : Nat → Nat
  | 0 => 0
  | n + 1 => m a + 256 * getBytes m (a + 1) n

/-- A byte map with `n` bytes from `a` replaced. -/
def setBytes (m : Nat → Nat) (a n v : Nat) : Nat → Nat := fun b => if a ≤ b ∧ b < a + n then v / 256 ^ (b - a) % 256 else m b

/-- A byte as the lines of an issuer's cluster hold it. -/
def lineByte (s : State) (i : Iss) (va : Nat) : Nat :=
  match lineOf s i.cl (locKey i va) with
  | some c => lineGet c.data (va % 128) 1
  | none => 0

/-- A cluster's line without what it knows of its L1s. -/
def bare (c : CLine) : CLine := { c with l1 := [], xh := none, dirty := [] }

/-- The lines `ks` of an issuer's cluster hold the bytes `m`; every other line of every cluster is as before, but for which L1s
hold it, and so is device memory. -/
def LinesBecome (s t : State) (i : Iss) (ks : List Key) (m : Nat → Nat) : Prop :=
  (∀ va < 2 ^ 48, locKey i va ∈ ks → lineByte t i va = m va)
    ∧ (∀ cl k, ¬(cl = i.cl ∧ k ∈ ks) → (lineOf t cl k).map bare = (lineOf s cl k).map bare) ∧ t.mem = s.mem

/-- The cluster of an issuer can serve an access to a cached line at once, and the line is not poisoned (R116, R129). -/
def HasLine (s : State) (i : Iss) (n : Need) (k : Key) : Prop :=
  kindOf s k = some .cached ∧ takeRefusal s i.cl k = none ∧ ∃ c, held s i.cl k n = some c ∧ c.poison = false

/-- The issuer of an instruction with its context, some slot executing. -/
def Acts (s : State) (i : Instr) (h : Hdr) (x : Ex) (p : Iss) (k : Ctx) : Prop :=
  Issues s i h x ∧ x.slots ≠ [] ∧ issOf s x.cur.blk x.cur.who = some p ∧ ctxOf s x.cur.blk x.cur.who = some k

/-- The counter of a memory extension has room, so that the instruction does not wait for it (R135). -/
def CtrRoom (k : Ctx) (m : MemX) : Prop := m.ctr = 15 ∨ k.ctrs.getD m.ctr.toNat 0 < 32767

/-- Nothing of the package changes but the issuer's own registers that last-use hints mark, and its PC. -/
def OnlyMarks (s : State) (i : Instr) (h : Hdr) (x : Ex) : Prop :=
  ∃ t r', exec i s = .next t ∧ Retires s t x.cur ∧ regsOf t x.cur.blk x.cur.who = some r' ∧ Written s x i h 0 0 (fun _ => 0) r'

end Sys2Proof.Safety
end

