-- ==== Sys2Proof/Certificates/Slice0/Obligations.lean ====
section
/-!
DEFINITION. The statements for the provers, one definition a statement, each with the rules of spec/ it formalises.
-/

open Sys2Proof Sys2Proof.Machine Sys2Proof.Safety

/-! ### Class 0: integers, logic, lanes (10) -/

/-- R175, R176: IADD, ISUB, IMUL, IMAD and IMULH compute an exact integer and then narrow it, clamped first with `.sat`; IMIN,
IMAX and IABS deliver the smaller, the larger and the magnitude. Each completes with it in D of every executing slot. -/
def Obligations.IntegerArithmeticIsExactThenNarrowed : Prop :=
  ∀ (s : State) (h : Hdr) (t : Ty) (sat : Bool) (d a b' : Reg) (b c : Opnd),
    let W := tyW t
    let lo : Int := if tySigned t then -(2 ^ (W - 1)) else 0
    let hi : Int := if tySigned t then 2 ^ (W - 1) - 1 else 2 ^ W - 1
    let nar (sat : Bool) (v : Int) : Nat := ((if sat then (if v < lo then lo else if hi < v then hi else v) else v) % 2 ^ W).toNat
    let A (x : Ex) (sl : Slot) : Int := intOf t (src x.r sl t a)
    let B (x : Ex) (sl : Slot) : Int := intOf t (srcO x.r sl t b)
    Gives s (.iadd h t sat d a b) d (tyRegs t) (fun x sl => nar sat (A x sl + B x sl))
      ∧ Gives s (.isub h t sat d a b) d (tyRegs t) (fun x sl => nar sat (A x sl - B x sl))
      ∧ Gives s (.imul h t sat d a b) d (tyRegs t) (fun x sl => nar sat (A x sl * B x sl))
      ∧ Gives s (.imad h t sat d a b' c) d (tyRegs t)
          (fun x sl => nar sat (A x sl * intOf t (src x.r sl t b') + intOf t (srcO x.r sl t c)))
      ∧ Gives s (.imulh h t d a b) d (tyRegs t) (fun x sl => nar false ((A x sl * B x sl).fdiv (2 ^ W)))
      ∧ Gives s (.imin h t d a b) d (tyRegs t) (fun x sl => nar false (if A x sl ≤ B x sl then A x sl else B x sl))
      ∧ Gives s (.imax h t d a b) d (tyRegs t) (fun x sl => nar false (if B x sl ≤ A x sl then A x sl else B x sl))
      ∧ Gives s (.iabs h t sat d a) d (tyRegs t) (fun x sl => nar sat (if A x sl < 0 then -A x sl else A x sl))

/-- R177: with no zero divisor in an executing slot, or with DIVZ clear, IDIV and IREM complete with the quotient toward
zero and its remainder, both 0 for a zero divisor; with DIVZ set a zero divisor in any executing slot takes trap 0x09 at
the instruction, which writes nothing. -/
def Obligations.DivisionTruncatesAndDivzTraps : Prop :=
  ∀ (s : State) (h : Hdr) (t : Ty) (d a : Reg) (b : Opnd) (x : Ex),
    let A (sl : Slot) : Int := intOf t (src x.r sl t a)
    let B (sl : Slot) : Int := intOf t (srcO x.r sl t b)
    let q (sl : Slot) : Int :=
      if B sl = 0 then 0 else (if (A sl < 0) = (B sl < 0) then 1 else -1) * ((A sl).natAbs / (B sl).natAbs : Nat)
    let zero : Prop := ∃ sl ∈ x.slots, B sl = 0
    (Issues s (.idiv h t d a b) h x →
      (divTraps s x.cur.blk = false ∨ ¬zero →
        ∃ t' r', exec (.idiv h t d a b) s = .next t' ∧ Retires s t' x.cur ∧ regsOf t' x.cur.blk x.cur.who = some r'
          ∧ Written s x (.idiv h t d a b) h d (tyRegs t) (fun sl => (q sl % 2 ^ tyW t).toNat) r')
      ∧ (divTraps s x.cur.blk = true ∧ zero →
        ∃ sl ∈ x.slots, B sl = 0 ∧ exec (.idiv h t d a b) s = .next (trapAt s x.cur (!h.g) ⟨9, 0, some sl⟩)))
    ∧ (Issues s (.irem h t d a b) h x →
      (divTraps s x.cur.blk = false ∨ ¬zero →
        ∃ t' r', exec (.irem h t d a b) s = .next t' ∧ Retires s t' x.cur ∧ regsOf t' x.cur.blk x.cur.who = some r'
          ∧ Written s x (.irem h t d a b) h d (tyRegs t)
            (fun sl => ((if B sl = 0 then 0 else A sl - B sl * q sl) % 2 ^ tyW t).toNat) r')
      ∧ (divTraps s x.cur.blk = true ∧ zero →
        ∃ sl ∈ x.slots, B sl = 0 ∧ exec (.irem h t d a b) s = .next (trapAt s x.cur (!h.g) ⟨9, 0, some sl⟩)))

/-- R178: AND, OR and XOR bit by bit; SHL, SHR and SAR by a count that may be W or more. -/
def Obligations.LogicAndShifts : Prop :=
  ∀ (s : State) (h : Hdr) (t : Ty) (d a : Reg) (b : Opnd),
    let W := tyW t
    let A (x : Ex) (sl : Slot) : Nat := src x.r sl t a
    let n (x : Ex) (sl : Slot) : Nat := src32 x.r sl b
    Gives s (.and h t d a b) d (tyRegs t) (fun x sl => A x sl &&& srcO x.r sl t b)
      ∧ Gives s (.or h t d a b) d (tyRegs t) (fun x sl => A x sl ||| srcO x.r sl t b)
      ∧ Gives s (.xor h t d a b) d (tyRegs t) (fun x sl => A x sl ^^^ srcO x.r sl t b)
      ∧ Gives s (.shl h t d a b) d (tyRegs t) (fun x sl => if n x sl < W then A x sl * 2 ^ n x sl % 2 ^ W else 0)
      ∧ Gives s (.shr h t d a b) d (tyRegs t) (fun x sl => if n x sl < W then A x sl / 2 ^ n x sl else 0)
      ∧ Gives s (.sar h t d a b) d (tyRegs t) (fun x sl =>
          if n x sl < W then ((sextN W (A x sl)).fdiv (2 ^ n x sl) % 2 ^ W).toNat
          else if A x sl < 2 ^ (W - 1) then 0 else 2 ^ W - 1)

/-- R179 to R182: BFX extracts and BFI inserts a field; POPC counts one bits, CLZ the zero bits above the highest one, BREV
reverses the bits; LEA adds a shifted index. -/
def Obligations.BitFieldsCountsAndAddresses : Prop :=
  ∀ (s : State) (h : Hdr) (t : Ty) (sh : BitVec 3) (d a b : Reg) (c o : Opnd),
    let W := tyW t
    let A (x : Ex) (sl : Slot) : Nat := src x.r sl t a
    Gives s (.bfx h t d a b c) d (tyRegs t) (fun x sl =>
        let n := min (src32 x.r sl c) W
        let f := ((intOf t (A x sl)).fdiv (2 ^ min (x.r.rd sl b.toNat).toNat W) % 2 ^ n).toNat
        if n = 0 then 0 else if tySigned t then (sextN n f % 2 ^ W).toNat else f)
      ∧ Gives s (.bfi h t d a b c) d (tyRegs t) (fun x sl =>
        let p := src32 x.r sl c % 256
        let n := min (src32 x.r sl c / 256 % 256) W
        if n = 0 ∨ W ≤ p then src x.r sl t b else putBits (src x.r sl t b) p (min n (W - p)) (A x sl))
      ∧ Gives s (.popc h t d a) d 1 (fun x sl => ((List.range W).filter fun i => bitAt (A x sl) i).length)
      ∧ Gives s (.clz h t d a) d 1 (fun x sl => if A x sl = 0 then W else W - 1 - Nat.log2 (A x sl))
      ∧ Gives s (.brev h t d a) d (tyRegs t) (fun x sl => ((List.range W).map fun i => (bitAt (A x sl) i).toNat * 2 ^ (W - 1 - i)).sum)
      ∧ Gives s (.lea h t sh d a o) d (tyRegs t) (fun x sl => (A x sl + src32 x.r sl o * 2 ^ sh.toNat) % 2 ^ W)

/-- R183, R184, R187: MOV copies A, MOVI writes its immediate (zero-extended for `.b64`), SEL chooses by a predicate, PMOV
`.p2r` writes the predicates of a slot as bits and `.r2p` sets all but the first from bits. -/
def Obligations.MovesAndSelects : Prop :=
  ∀ (s : State) (h : Hdr) (t : Ty) (p : BitVec 4) (d a : Reg) (b : Opnd) (w : Word),
    Gives s (.mov h t d a) d (tyRegs t) (fun x sl => src x.r sl t a)
      ∧ Gives s (.movi h t d w) d (tyRegs t) (fun _ _ => w.toNat)
      ∧ Gives s (.sel h t p d a b) d (tyRegs t) (fun x sl => if x.r.rdPred sl p.toNat then src x.r sl t a else srcO x.r sl t b)
      ∧ Gives s (.pmov h .p2r d) d 1 (fun x sl =>
          ((List.range (match sl with | .lane _ _ => 16 | .ctl => 8)).map fun i => (x.r.rdPred sl i).toNat * 2 ^ i).sum)
      ∧ (∀ x, Issues s (.pmov h .r2p a) h x → ∃ t' r', exec (.pmov h .r2p a) s = .next t' ∧ Retires s t' x.cur
          ∧ regsOf t' x.cur.blk x.cur.who = some r'
          ∧ (∀ sl ∈ x.slots, ∀ i, 1 ≤ i → i < (match sl with | .lane _ _ => 16 | .ctl => 8) →
              r'.rdPred sl i = (x.r.rd sl a.toNat).getLsbD i)
          ∧ (∀ sl, r'.rdPred sl 0 = true)
          ∧ (∀ sl i, SlotOk sl → i < 16 → sl ∉ x.slots → r'.rdPred sl i = x.r.rdPred sl i)
          ∧ (∀ sl m, SlotOk sl → Holds x.r sl m → ¬(sl ∈ x.slots ∧ Marked (.pmov h .r2p a) h m) → r'.rd sl m = x.r.rd sl m))

/-- R185, R186: ICMP writes the comparison and PLOP the entry of its truth table, bit 2a + b, to the predicate D. -/
def Obligations.PredicatesOfIntegers : Prop :=
  ∀ (s : State) (h : Hdr) (t : Ty) (tt : BitVec 4) (d a b' : Reg) (b : Opnd),
    let A (x : Ex) (sl : Slot) : Int := intOf t (src x.r sl t a)
    let B (x : Ex) (sl : Slot) : Int := intOf t (srcO x.r sl t b)
    GivesPred s (.icmp h .eq t d a b) d (fun x sl => decide (A x sl = B x sl))
      ∧ GivesPred s (.icmp h .ne t d a b) d (fun x sl => decide (A x sl ≠ B x sl))
      ∧ GivesPred s (.icmp h .lt t d a b) d (fun x sl => decide (A x sl < B x sl))
      ∧ GivesPred s (.icmp h .le t d a b) d (fun x sl => decide (A x sl ≤ B x sl))
      ∧ GivesPred s (.icmp h .gt t d a b) d (fun x sl => decide (B x sl < A x sl))
      ∧ GivesPred s (.icmp h .ge t d a b) d (fun x sl => decide (B x sl ≤ A x sl))
      ∧ GivesPred s (.plop h tt d a b') d (fun x sl =>
          tt.getLsbD (2 * (x.r.rdPred sl a.toNat).toNat + (x.r.rdPred sl b'.toNat).toNat))

/-- R188 to R190: SHFL reads another lane of the slot's set, VOTE combines a predicate over the set's executing lanes, GETL
broadcasts one lane of the set, SETL writes one lane of the set, active or not, and no other. -/
def Obligations.LanesExchange : Prop :=
  ∀ (s : State) (h : Hdr) (t : Ty) (d a : Reg) (b : Opnd),
    let from_ (x : Ex) (sl : Slot) (ok : Bool) (l : Nat) : Nat := if ok then src x.r (laneAt sl l) t a else src x.r sl t a
    let n (x : Ex) (sl : Slot) : Nat := src32 x.r sl b
    let votes (x : Ex) (sl : Slot) : List Bool := (slotsOfSet x.slots sl).map fun q => x.r.rdPred q a.toNat
    Gives s (.shfl h .idx t d a b) d (tyRegs t) (fun x sl => from_ x sl true (n x sl % 64))
      ∧ Gives s (.shfl h .up t d a b) d (tyRegs t) (fun x sl => from_ x sl (decide (n x sl ≤ laneIx sl)) (laneIx sl - n x sl))
      ∧ Gives s (.shfl h .down t d a b) d (tyRegs t) (fun x sl => from_ x sl (decide (laneIx sl + n x sl < 64)) (laneIx sl + n x sl))
      ∧ Gives s (.shfl h .xor t d a b) d (tyRegs t) (fun x sl => from_ x sl true (laneIx sl ^^^ (n x sl % 64)))
      ∧ GivesPred s (.vote h .all d a) d (fun x sl => (votes x sl).all id)
      ∧ GivesPred s (.vote h .any d a) d (fun x sl => (votes x sl).any id)
      ∧ GivesPred s (.vote h .uni d a) d (fun x sl => (votes x sl).all id || (votes x sl).all not)
      ∧ Gives s (.vote h .ballot d a) d 2 (fun x sl =>
          ((slotsOfSet x.slots sl).map fun q => (x.r.rdPred q a.toNat).toNat * 2 ^ laneIx q).sum)
      ∧ Gives s (.getl h t d a b) d (tyRegs t) (fun x sl => src x.r (laneAt sl (n x (lowestOf x.slots sl) % 64)) t a)
      ∧ (∀ x, Issues s (.setl h t d a b) h x → ∃ t' r', exec (.setl h t d a b) s = .next t' ∧ Retires s t' x.cur
          ∧ regsOf t' x.cur.blk x.cur.who = some r'
          ∧ (∀ sl ∈ x.slots, lowestOf x.slots sl = sl → ∀ k < tyRegs t, d.toNat + k ≠ 0 →
              r'.rd (laneAt sl (n x sl % 64)) (d.toNat + k) = BitVec.ofNat 32 (src x.r sl t a / 2 ^ (32 * k)))
          ∧ (∀ sl m, SlotOk sl → Holds x.r sl m → ¬(sl ∈ x.slots ∧ Marked (.setl h t d a b) h m) →
              ¬(d.toNat ≤ m ∧ m < d.toNat + tyRegs t ∧ ∃ q ∈ x.slots, lowestOf x.slots q = q ∧ sl = laneAt q (n x q % 64)) →
              r'.rd sl m = x.r.rd sl m)
          ∧ (∀ sl i, r'.rdPred sl i = x.r.rdPred sl i))

/-! ### Class 1: floating point (10) -/

/-- R191, R196, R198, R54 to R56: FADD, FMUL, FFMA and FCVT form the exact result and round it once, with `.sat` after it, each
element of a packed type on its own; FDIV rounds the exact quotient of finite values once, an infinity or NaN for a zero
divisor; FSQRT keeps ±0 and +Inf and gives NaN below zero, else the root rounded once. -/
def Obligations.FloatArithmeticRoundsOnce : Prop :=
  ∀ (s : State) (h : Hdr) (t ts : Ty) (rm : Rm) (sat : Bool) (d a b' : Reg) (b c : Opnd),
    let f := fmtOf t
    let out (v : FVal) : Nat := fsat f sat (fencode f rm v)
    let V (n : Nat) : FVal := fdecode f n
    let each (x : Ex) (sl : Slot) (g : Nat → Nat → Nat) : Nat :=
      let A := src x.r sl t a
      let B := srcO x.r sl t b
      if t = .f16x2 ∨ t = .bf16x2 then g (A % 65536) (B % 65536) + g (A / 65536 % 65536) (B / 65536 % 65536) * 65536 else g A B
    Gives s (.fadd h t rm sat d a b) d (tyRegs t) (fun x sl => each x sl fun p q => out (vadd rm (V p) (V q)))
      ∧ Gives s (.fmul h t rm sat d a b) d (tyRegs t) (fun x sl => each x sl fun p q => out (vmul (V p) (V q)))
      ∧ Gives s (.ffma h t rm sat d a b' c) d (tyRegs t) (fun x sl =>
          let A := src x.r sl t a
          let B := src x.r sl t b'
          let C := srcO x.r sl t c
          let g (p q r : Nat) : Nat := out (vadd rm (vmul (V p) (V q)) (V r))
          if t = .f16x2 ∨ t = .bf16x2 then
            g (A % 65536) (B % 65536) (C % 65536) + g (A / 65536 % 65536) (B / 65536 % 65536) (C / 65536 % 65536) * 65536
          else g A B C)
      ∧ Gives s (.fcvt h t ts rm sat d a) d (tyRegs t) (fun x sl => out (fdecode (fmtOf ts) (src x.r sl ts a)))
      ∧ (∀ hx x, Issues s (.fdiv h t rm d a b) hx x → ∃ t' r' val, exec (.fdiv h t rm d a b) s = .next t' ∧ Retires s t' x.cur
          ∧ regsOf t' x.cur.blk x.cur.who = some r' ∧ Written s x (.fdiv h t rm d a b) hx d (tyRegs t) val r'
          ∧ ∀ sl, match V (src x.r sl t a), V (srcO x.r sl t b) with
            | .nan, _ => val sl = f.nanBits
            | _, .nan => val sl = f.nanBits
            | .inf _, .inf _ => val sl = f.nanBits
            | .inf p, .fin q _ _ => val sl = infOf f (p != q)
            | .fin p _ _, .inf q => val sl = withSign f (p != q) 0
            | .fin p m e, .fin q n k =>
              if n = 0 then val sl = (if m = 0 then f.nanBits else infOf f (p != q))
              else val sl = roundRat f rm (p != q) (scaleFrac m n (e - k)).1 (scaleFrac m n (e - k)).2)
      ∧ (∀ hx x, Issues s (.fsqrt h t rm d a) hx x → ∃ t' r' val, exec (.fsqrt h t rm d a) s = .next t' ∧ Retires s t' x.cur
          ∧ regsOf t' x.cur.blk x.cur.who = some r' ∧ Written s x (.fsqrt h t rm d a) hx d (tyRegs t) val r'
          ∧ ∀ sl, match V (src x.r sl t a) with
            | .nan => val sl = f.nanBits
            | .inf p => val sl = (if p then f.nanBits else f.infBits)
            | .fin p m e =>
              if m = 0 then val sl = src x.r sl t a
              else if p then val sl = f.nanBits
              else val sl = sqrtRat f rm (scaleFrac m 1 e).1 (scaleFrac m 1 e).2)

/-- R192 to R194: FMIN and FMAX choose an operand's bits, −0 below +0, a NaN only from two or under `.nan`; FCMP writes the
relation, the unordered codes with it; FCLASS sets the one bit of the class of the bits. -/
def Obligations.FloatMinimumsComparisonsAndClasses : Prop :=
  ∀ (s : State) (h : Hdr) (t : Ty) (nan : Bool) (c : CmpF) (d a : Reg) (b : Opnd),
    let f := fmtOf t
    let neg (n : Nat) : Bool := n / f.signBit % 2 == 1
    let ord (p q : Nat) : Int := vcmp (fdecode f p) (fdecode f q)
    let below (p q : Nat) : Bool := decide (ord p q < 0) || (decide (ord p q = 0) && (neg p || !neg q))
    let pick (mx : Bool) (p q : Nat) : Nat :=
      if isNan f p && isNan f q || nan && (isNan f p || isNan f q) then f.nanBits
      else if isNan f p then q else if isNan f q then p
      else if mx then (if below q p then p else q) else (if below p q then p else q)
    let each (mx : Bool) (x : Ex) (sl : Slot) : Nat :=
      let A := src x.r sl t a
      let B := srcO x.r sl t b
      if t = .f16x2 ∨ t = .bf16x2 then
        pick mx (A % 65536) (B % 65536) + pick mx (A / 65536 % 65536) (B / 65536 % 65536) * 65536
      else pick mx A B
    Gives s (.fmin h t nan d a b) d (tyRegs t) (each false)
      ∧ Gives s (.fmax h t nan d a b) d (tyRegs t) (each true)
      ∧ GivesPred s (.fcmp h c t d a b) d (fun x sl =>
          let p := src x.r sl t a
          let q := srcO x.r sl t b
          let un := isNan f p || isNan f q
          let r : Int := ord p q
          match c with
          | .eq => !un && decide (r = 0) | .lt => !un && decide (r < 0) | .le => !un && decide (r ≤ 0)
          | .gt => !un && decide (0 < r) | .ge => !un && decide (0 ≤ r) | .num => !un | .nan => un
          | .ne | .neu => un || !decide (r = 0) | .equ => un || decide (r = 0) | .ltu => un || decide (r < 0)
          | .leu => un || decide (r ≤ 0) | .gtu => un || decide (0 < r) | .geu => un || decide (0 ≤ r))
      ∧ Gives s (.fclass h t d a) d 1 (fun x sl =>
          let n := src x.r sl t a
          let ex := n / 2 ^ f.frac % 2 ^ f.ebits
          let fr := n % 2 ^ f.frac
          2 ^ (if ex = 2 ^ f.ebits - 1 then
                (if fr = 0 then (if neg n then 0 else 7) else if fr < 2 ^ (f.frac - 1) then 8 else 9)
              else if ex = 0 then (if fr = 0 then (if neg n then 3 else 4) else if neg n then 2 else 5)
              else if neg n then 1 else 6))

/-- R195, R199, R200: FRND delivers the integral value its mode selects with the sign of A, FSCL the value scaled by a power
of two and rounded once (beyond 2^±5000 as at it, where every result is the same), FTOI the rounded integer, or the bound
or indefinite value out of range, ITOF the integer rounded once. -/
def Obligations.FloatIntegralAndScaled : Prop :=
  ∀ (s : State) (h : Hdr) (t ts : Ty) (rm : Rm) (sat : Bool) (d a : Reg) (b : Opnd),
    let f := fmtOf t
    let W := tyW t
    let lo : Int := if tySigned t then -(2 ^ (W - 1)) else 0
    let hi : Int := if tySigned t then 2 ^ (W - 1) - 1 else 2 ^ W - 1
    let indef : Int := if tySigned t then -(2 ^ (W - 1)) else 2 ^ W - 1
    Gives s (.frnd h t rm d a) d (tyRegs t) (fun x sl =>
        match fdecode f (src x.r sl t a) with
        | .nan => f.nanBits
        | .inf p => infOf f p
        | .fin p m e => if m = 0 ∨ 0 ≤ e then src x.r sl t a else fencode f rm (.fin p (roundInt rm p m e) 0))
      ∧ Gives s (.fscl h t rm d a b) d (tyRegs t) (fun x sl =>
        let k := sextN 32 (src32 x.r sl b)
        match fdecode f (src x.r sl t a) with
        | .nan => f.nanBits
        | .inf p => infOf f p
        | .fin p m e => fencode f rm (.fin p m (e + (if k < -5000 then -5000 else if 5000 < k then 5000 else k))))
      ∧ Gives s (.ftoi h t ts rm sat d a) d (tyRegs t) (fun x sl =>
        let bound (v : Int) : Int := if sat then v else indef
        let n : Int := match fdecode (fmtOf ts) (src x.r sl ts a) with
          | .nan => bound 0
          | .inf p => bound (if p then lo else hi)
          | .fin p m e =>
            let v : Int := if p then -(roundInt rm p m e : Nat) else (roundInt rm p m e : Nat)
            if hi < v then bound hi else if v < lo then bound lo else v
        (n % 2 ^ W).toNat)
      ∧ Gives s (.itof h t ts rm d a) d (tyRegs t) (fun x sl =>
        let v := intOf ts (src x.r sl ts a)
        roundRat f rm (decide (v < 0)) v.natAbs 1)

/-- R197: FRCP and FRSQ deliver 1/a and 1/√a of a finite positive operand rounded once to nearest; FEXP2, FLOG2, FSIN and FCOS
complete with one value a slot; and all six deliver the special operands and exact cases of the table. (Where a slot's
operand is none of these, FEXP2, FLOG2, FSIN and FCOS deliver what the model's enclosing intervals decide; assumption log 7.) -/
def Obligations.SpecialFunctionsAtTheirSpecialOperands : Prop :=
  ∀ (s : State) (h : Hdr) (t : Ty) (d a : Reg),
    let f := fmtOf t
    let done (i : Instr) (P : Nat → Nat → Prop) : Prop :=
      ∀ hx x, Issues s i hx x → ∃ t' r' val, exec i s = .next t' ∧ Retires s t' x.cur
        ∧ regsOf t' x.cur.blk x.cur.who = some r' ∧ Written s x i hx d (tyRegs t) val r' ∧ ∀ sl, P (src x.r sl t a) (val sl)
    done (.frcp h t d a) (fun n v => match fdecode f n with
        | .nan => v = f.nanBits
        | .inf p => v = withSign f p 0
        | .fin p m e => if m = 0 then v = infOf f p else v = roundRat f .rne p (scaleFrac 1 m (-e)).1 (scaleFrac 1 m (-e)).2)
      ∧ done (.frsq h t d a) (fun n v => match fdecode f n with
        | .nan => v = f.nanBits
        | .inf p => v = if p then f.nanBits else 0
        | .fin p m e => if m = 0 then v = infOf f p else if p then v = f.nanBits
          else v = sqrtRat f .rne (scaleFrac 1 m (-e)).1 (scaleFrac 1 m (-e)).2)
      ∧ done (.fexp2 h t d a) (fun n v => match fdecode f n with
        | .nan => v = f.nanBits
        | .inf p => v = if p then 0 else f.infBits
        | .fin p m e => ∀ k : Nat, (scaleFrac m 1 e).1 = k * (scaleFrac m 1 e).2 → k ≤ 5000 →
          v = fencode f .rne (.fin false 1 (if p then -(k : Int) else k)))
      ∧ done (.flog2 h t d a) (fun n v => match fdecode f n with
        | .nan => v = f.nanBits
        | .inf p => v = if p then f.nanBits else f.infBits
        | .fin p m e => if m = 0 then v = infOf f true else if p then v = f.nanBits
          else ∀ j : Nat, m = 2 ^ j → v = roundRat f .rne (decide (e + j < 0)) (e + j).natAbs 1)
      ∧ done (.fsin h t d a) (fun n v => match fdecode f n with
        | .nan => v = f.nanBits
        | .inf _ => v = f.nanBits
        | .fin _ m _ => m = 0 → v = n)
      ∧ done (.fcos h t d a) (fun n v => match fdecode f n with
        | .nan => v = f.nanBits
        | .inf _ => v = f.nanBits
        | .fin _ m _ => m = 0 → v = fencode f .rne (.fin false 1 0))

/-! ### Class 2: long accumulators (11) -/

/-- R204, R205, R209: ACZ writes the zero accumulator; ACADD, ACFMA and ACDOT give D the contribution of A, of the exact
product, of the two exact products in order; ACINS adds an integer at bit p, and at p of 648 or more only counts. -/
def Obligations.AccumulatorsTakeContributions : Prop :=
  ∀ (s : State) (h : Hdr) (t : Ty) (d a b : Reg) (p : Opnd),
    let V (n : Nat) : FVal := fdecode (fmtOf t) n
    let D (x : Ex) (sl : Slot) : La := x.r.rdLa sl d.toNat
    GivesLa s (.acz h d) d (fun _ _ l => l = ⟨List.replicate 10 0, List.replicate 10 0, 0, ⟨0, false, false, 0, 0⟩⟩)
      ∧ GivesLa s (.acadd h t d a) d (fun x sl l => Contributed (D x sl) (V (src x.r sl t a)) l)
      ∧ GivesLa s (.acfma h t d a b) d (fun x sl l => Contributed (D x sl) (vmul (V (src x.r sl t a)) (V (src x.r sl t b))) l)
      ∧ GivesLa s (.acdot h t d a b) d (fun x sl l =>
          let A := src x.r sl t a
          let B := src x.r sl t b
          ∃ m, Contributed (D x sl) (vmul (V (A % 65536)) (V (B % 65536))) m
            ∧ Contributed m (vmul (V (A / 65536 % 65536)) (V (B / 65536 % 65536))) l)
      ∧ GivesLa s (.acins h d a p) d (fun x sl l =>
          let n := src32 x.r sl p
          l.st = { (D x sl).st with count := min ((D x sl).st.count + 1) 65535 }
            ∧ l.s = if n < 648 then wrapS ((D x sl).s + sextN 32 (x.r.rd sl a.toNat).toNat * 2 ^ n) else (D x sl).s)

/-- R206 to R208, R64, R66, R68: ACMRG merges A into D, ACRED every executing slot's A into every D, ACNORM copies A, ACSCL
scales it by a power of two; each writes the canonical image of its S and status word. -/
def Obligations.AccumulatorsMergeAndScale : Prop :=
  ∀ (s : State) (h : Hdr) (d a : Reg) (b : Opnd),
    let L (x : Ex) (r : Reg) (sl : Slot) : La := x.r.rdLa sl r.toNat
    let canonical (l : La) : Prop := l = La.canonOf l.s l.st
    let total (f : La → Nat) (ls : List La) : Nat := (ls.map f).sum
    let merged (ls : List La) (l : La) : Prop := canonical l ∧ l.s = wrapS (ls.map La.s).sum
      ∧ l.st.count = min (total (fun m => m.st.count) ls) 65535 ∧ l.st.pinf = min (total (fun m => m.st.pinf) ls) 127
      ∧ l.st.ninf = min (total (fun m => m.st.ninf) ls) 127
      ∧ l.st.nan = ls.any (fun m => m.st.nan) ∧ l.st.lowloss = ls.any (fun m => m.st.lowloss)
    GivesLa s (.acmrg h d a) d (fun x sl l => merged [L x d sl, L x a sl] l)
      ∧ GivesLa s (.acred h d a) d (fun x _ l => merged (x.slots.map (L x a)) l)
      ∧ GivesLa s (.acnorm h d a) d (fun x sl l => canonical l ∧ l.s = (L x a sl).s ∧ l.st = (L x a sl).st)
      ∧ GivesLa s (.acscl h d a b) d (fun x sl l =>
          let k := sextN 32 (src32 x.r sl b)
          let S := (L x a sl).s
          canonical l ∧
            (if 0 ≤ k then l.s = wrapS (S * 2 ^ (min k 648).toNat) ∧ l.st = (L x a sl).st
             else l.s = (if S < 0 then -1 else 1) * (S.natAbs / 2 ^ (min (-k) 648).toNat : Nat)
               ∧ l.st = { (L x a sl).st with lowloss := (L x a sl).st.lowloss || decide (l.s * 2 ^ (min (-k) 648).toNat ≠ S) }))

/-- R209 to R213: ACXT reads 32 bits of S, ACTST tests the accumulator, and ACRND rounds it once, with its report where one is
asked for (written after D); the accumulator stays as it is unless it is overwritten. -/
def Obligations.AccumulatorsAreReadAndRoundedOnce : Prop :=
  ∀ (s : State) (h : Hdr) (t : Ty) (rm : Rm) (sat mean : Bool) (d a : Reg) (b : Opnd) (sc : AcScale) (rep : Option Reg),
    let L (x : Ex) (sl : Slot) : La := x.r.rdLa sl a.toNat
    let scale (x : Ex) (sl : Slot) : FVal := match sc with
      | .none => .fin false 1 0
      | .reg q => fdecode f32 (x.r.rd sl q.toNat).toNat
      | .imm w => fdecode f32 w.toNat
    Gives s (.acxt h d a b) d 1 (fun x sl =>
        let p := src32 x.r sl b
        if p < 648 then ((L x sl).s.fdiv (2 ^ p) % 2 ^ 32).toNat else if (L x sl).s < 0 then 2 ^ 32 - 1 else 0)
      ∧ GivesPred s (.actst h .zero d a) d (fun x sl =>
          !(L x sl).st.nan && decide ((L x sl).st.pinf = 0 ∧ (L x sl).st.ninf = 0 ∧ (L x sl).s = 0))
      ∧ GivesPred s (.actst h .neg d a) d (fun x sl => decide ((L x sl).s < 0))
      ∧ GivesPred s (.actst h .nan d a) d (fun x sl => (L x sl).st.nan || decide ((L x sl).st.pinf ≠ 0 ∧ (L x sl).st.ninf ≠ 0))
      ∧ GivesPred s (.actst h .inf d a) d (fun x sl =>
          !(L x sl).st.nan && decide ((L x sl).st.pinf ≠ 0 ↔ (L x sl).st.ninf = 0))
      ∧ GivesPred s (.actst h .lowloss d a) d (fun x sl => (L x sl).st.lowloss)
      ∧ GivesPred s (.actst h .range d a) d (fun x sl => decide ((L x sl).s < -(2 ^ 639) ∨ 2 ^ 639 ≤ (L x sl).s))
      ∧ (∀ x, Issues s (.acrnd h t rm sat mean d a sc rep) h x → ∃ t' r' val, ∃ rp : Slot → Word, exec (.acrnd h t rm sat mean d a sc rep) s = .next t'
          ∧ Retires s t' x.cur ∧ regsOf t' x.cur.blk x.cur.who = some r'
          ∧ (∀ sl, Rounded (fmtOf t) rm sat mean (L x sl) (scale x sl) (val sl) (rp sl))
          ∧ (rep = none → Written s x (.acrnd h t rm sat mean d a sc rep) h d (tyRegs t) val r')
          ∧ (∀ c, rep = some c →
              (∀ sl ∈ x.slots, (c.toNat ≠ 0 → r'.rd sl c.toNat = rp sl)
                ∧ ∀ k < tyRegs t, d.toNat + k ≠ 0 → d.toNat + k ≠ c.toNat →
                  r'.rd sl (d.toNat + k) = BitVec.ofNat 32 (val sl / 2 ^ (32 * k)))
              ∧ (∀ sl m, SlotOk sl → Holds x.r sl m → ¬(sl ∈ x.slots ∧ (m = c.toNat ∨ d.toNat ≤ m ∧ m < d.toNat + tyRegs t)) →
                  ¬(sl ∈ x.slots ∧ Marked (.acrnd h t rm sat mean d a sc rep) h m) → r'.rd sl m = x.r.rd sl m)
              ∧ (∀ sl m, r'.rdPred sl m = x.r.rdPred sl m)))

/-- R64, R66, R68: accumulators that start from one image and receive the same contributions, in any order, have one canonical
image: S is their sum modulo 2^648, and the status word counts them. -/
def Obligations.AccumulatedSumsDoNotDependOnOrder : Prop :=
  ∀ (i : LaImage) (t : Ty) (ps qs : List (Nat × Nat)), ps.Perm qs →
    let values (ps : List (Nat × Nat)) : List FVal := ps.map fun p => vmul (fdecode (fmtOf t) p.1) (fdecode (fmtOf t) p.2)
    ((values ps).foldl La.contribute (La.ofImage i)).canon.toImage = ((values qs).foldl La.contribute (La.ofImage i)).canon.toImage

/-! ### The machine: decoding, stepping, state -/

/-- The example words of the manual decode to the instructions they are written out for (01 R13 to R46, and the examples of
10, 11, 07, 13, 16, 12, 14, 20 and 22). -/
def Obligations.ExampleWordsDecode : Prop :=
  let lane : Hdr := ⟨false, false, 0, 0, 0, ⟨false, false, false, false⟩⟩
  let ctl : Hdr := ⟨true, false, 0, 0, 0, ⟨false, false, false, false⟩⟩
  decode .group 0x006203820000000200000064 = .instr (.iadd { ctl with gidx := 2 } .s32 false 7 8 (.imm 100))
    ∧ decode .group 0x2093020140C8000100000007 = .instr (.ffma { lane with neg := true, gidx := 3 } .f32 .rne false 4 5 6 (.reg 7))
    ∧ decode .group 0x404004014008000000000000 = .instr (.acadd lane .f32 8 5)
    ∧ decode .group 0x602002810018200328C00040 =
        .instr (.ld ctl .glb .b32 true .dflt 5 4 ⟨2, .pkg, ⟨false, true, true, false⟩, 0x40⟩)
    ∧ decode .group 0x8020040100E3200338C00040 =
        .instr (.atom ctl .incw true .n32 .acqrel 8 4 ⟨3, .pkg, ⟨false, true, true, false⟩, 0x40⟩)
    ∧ decode .group 0xA02200000000000400000018 = .instr (.bra { ctl with gidx := 2 } 0x18)
    ∧ decode .group 0xA42000000000200200000001 = .instr (.barArrive ctl false 0 (.imm 1))
    ∧ decode .group 0xE22000000000000200000042 = .instr (.trap ctl 0x42)
    ∧ decode .bms 0xE22000000000000200000042 = .illegalOpcode
    ∧ decode .bms 0xC06000000080000500000070 = .instr (.mma ctl .m64n64 0 (.tile 0 .bf16) (.desc 4))
    ∧ decode .bms 0xC4600001C000000000000000 = .instr (.abw ctl 7)

/-- R13 to R46: the word of a well-formed instruction decodes to it, for every instruction that has a word, with every operand
at every value its field admits. -/
def Obligations.DecodingAnEncodedInstructionGivesItBack : Prop :=
  ∀ (st : Stream) (i : Instr) (w : IWord), WellFormed st i = true → encode i = some w → decode st w = .instr i

/-- R29, R13, R303: a step whose turn is an issuer's fetches the word at that issuer's PC, decodes it, and runs `exec` of
the instruction it decodes to, with that issuer set and its energy debited; what the step adds around it is here named: the
turn's time, the rotation among a quadrant's groups, arbitration and fetching before, the end of the run's slot after, and what
follows of its own accord last (`endOfStep`). Model's choices: assumption log 1. -/
def Obligations.StepRunsTheDecodedInstruction : Prop :=
  ∀ (s : State) (ns cyc uid who : Nat) (rest : List Turn) (x : Iss) (path pc : Nat) (stepping : Bool) (s1 s2 : State) (w : IWord) (i : Instr)
      (h : Hdr) (t : State),
    s.sched.agenda = ⟨ns, cyc, .issue uid who⟩ :: rest →
    let s0 := { s with sched := { s.sched with agenda := rest } }
    let a := advance s0 ns cyc
    issOf a uid who = some x → issuerStopped a x.b = false →
    (if who = bmsWho then (∃ m, x.b.bms = some m ∧ m.st = .run ∧ m.prog = none ∧ pc = m.pc) ∧ path = 0 ∧ stepping = false ∧ s1 = a
      else inRotation a x = true ∧ arbitrate (pick a x) uid who = (s1, some path)
        ∧ (∀ g, groupOf s1 uid who = some g → g.stray = false)
        ∧ ∃ q, pathOf s1 uid who path = some q ∧ q.trap = none ∧ breakAt x q q.pc = false ∧ pc = q.pc ∧ stepping = (q.held && q.step)) →
    fetchWord s1 x pc = (s2, .word w) →
    let c : Cur := ⟨uid, who, path, pc, w⟩
    decode (streamOf who) w = .instr i → decodeFor s2 c w = .inl i → hdrOf i = some h →
    0 < ((ctxOf s2 uid who).map (·.energy)).getD 1 → issueWaits s2 c i = false →
    exec i (withCur (debit s2 c (costOf s2 i)) (some c)) = .next t → orderOf (withCur t none) uid who ≠ orderOf s2 uid who →
    let t' := afterIssue (cxIssue (withCur t none) x pc) c h (liveEntries s2 uid who) stepping
    Machine.step s = .next (endOfStep s0 t')

/-- R71: no step makes device memory lose its canonical form, in which addresses rise and no listed byte is what an unlisted
one reads as. -/
def Obligations.EveryStepKeepsMemoryCanonical : Prop :=
  ∀ s t : State, Inv s → Machine.step s = .next t → Inv t

/-- What reset leaves (04 R75, 07 R152, 13 R256, 14 R283, 15 R291, 22 R379, 24 R398): memory lists nothing, no work is there,
rings are off, the die counters are zero. Register values that no rule gives are the model's (assumption log 6) and are not
stated here. -/
def Obligations.ResetState : Prop :=
  let r := State.reset
  Inv r ∧ r.work.blocks = [] ∧ r.work.launches = [] ∧ r.sched.time = [0, 0, 0, 0, 0, 0] ∧ r.sched.cur = none
    ∧ r.mgmt.faq = ⟨0, 0, 0, 0, true, 0x400, []⟩ ∧ r.mgmt.trq = ⟨0, 0, 0, 0, true, 0, []⟩
    ∧ r.work.rejects = 0 ∧ r.work.tagwait = [0, 0, 0, 0] ∧ (∀ ci, (coreState r ci).cap = 32 ∧ (coreState r ci).ceil = 32)
    ∧ (∀ ci, (coreState r ci).narrow = false) ∧ (∀ ci, (yarrowOf r ci).ctl = 0) ∧ r.power.ecost = [1, 2, 4, 8, 16, 32, 64, 128]
    ∧ r.power.alarm = false ∧ r.boot.meas = [0, 0, 0] ∧ r.boot.log = []

/-- R162: v0, g0 and s0 read zero and p0 and k0 true, and writes to them are discarded; any other register or predicate reads
what was last written to it in its slot, and such a write changes no other. -/
def Obligations.HardWiredRegisters : Prop :=
  ∀ (r : Regs) (p q : Slot) (n m : Nat) (w : Word) (b : Bool), SlotOk p → SlotOk q →
    r.rd p 0 = 0 ∧ r.rdPred p 0 = true ∧ r.wr p 0 w = r ∧ r.wrPred p 0 b = r
      ∧ (Holds r p n → Holds r q m → n ≠ 0 → (r.wr p n w).rd q m = if q = p ∧ m = n then w else r.rd q m)
      ∧ (n < 16 → m < 16 → n ≠ 0 → (r.wrPred p n b).rdPred q m = if q = p ∧ m = n then b else r.rdPred q m)

/-- R71, R129: bytes of device memory: what is written is read back, every other byte is as before, and the canonical form is
kept, so that memories with the same bytes are the same data. -/
def Obligations.MemoryReadsWhatWasWritten : Prop :=
  ∀ (m m' : Memory) (a n v : Nat), Memory.wf m = true →
    Memory.wf (Memory.write m a n v) = true
      ∧ (∀ k < n, Memory.byte (Memory.write m a n v) (a + k) = BitVec.ofNat 8 (v / 256 ^ k))
      ∧ (∀ b, ¬(a ≤ b ∧ b < a + n) → Memory.byte (Memory.write m a n v) b = Memory.byte m b)
      ∧ Memory.read (Memory.write m a n v) a n = v % 256 ^ n
      ∧ (Memory.wf m' = true → (∀ b, Memory.byte m b = Memory.byte m' b) → m = m')

/-! ### Exceptions (20) -/

/-- R344, R346, R347: a trap of a group's path outside any handler. The runtime entry RTH_ENTRY, or SR_UTRAP for the causes a
user handler takes, is the new PC; the shadow set keeps g120 to g127, k6, k7, the cause, the trap PC and the resume PC;
g120 to g127 and k6, k7 describe the trap; nothing else of any register, and nothing of memory, changes. -/
def Obligations.TakingATrap : Prop :=
  ∀ (s : State) (uid who path : Nat) (t : PTrap) (resume : Nat) (g : Group) (r : Regs) (q : Path),
    groupOf s uid who = some g → regsOf s uid who = some r → pathOf s uid who path = some q → who ≠ bmsWho →
    g.shadows = [] → causeOf t.cause ≠ 6 → Quiet s uid →
    let user : Bool := decide (causeOf t.cause = 9 ∨ causeOf t.cause = 0x0E ∨ causeOf t.cause = 0x0F ∨ causeOf t.cause = 0x10) && g.utrap != 0
    let u := enterHandler s uid who path t resume
    ∃ g' r' q', groupOf u uid who = some g' ∧ regsOf u uid who = some r' ∧ pathOf u uid who path = some q'
      ∧ q'.pc = (if user then g.utrap.toNat else s.mgmt.rth) % 2 ^ 48 ∧ q'.st = .ready ∧ q'.mask = q.mask
      ∧ g'.hpath = some path
      ∧ g'.shadows = [⟨!user, (List.range 8).map fun n => r.rd .ctl (120 + n), r.rdPred .ctl 6, r.rdPred .ctl 7, t.cause, t.pc, resume⟩]
      ∧ r'.rd .ctl 120 = t.cause ∧ r'.rd .ctl 121 = t.g121
      ∧ r'.rd .ctl 122 = BitVec.ofNat 32 t.addr ∧ r'.rd .ctl 123 = BitVec.ofNat 32 (t.addr / 2 ^ 32)
      ∧ (let m := (q.mask.getD (bitsAt t.g121.toNat 6 3) 0).toNat
         r'.rd .ctl 124 = BitVec.ofNat 32 m ∧ r'.rd .ctl 125 = BitVec.ofNat 32 (m / 2 ^ 32))
      ∧ r'.rd .ctl 126 = t.word.truncate 32 ∧ r'.rd .ctl 127 = (t.word >>> 32).truncate 32
      ∧ r'.rdPred .ctl 6 = bitAt t.cause.toNat 9 ∧ r'.rdPred .ctl 7 = false
      ∧ (∀ n < 120, r'.rd .ctl n = r.rd .ctl n) ∧ (∀ n < 6, r'.rdPred .ctl n = r.rdPred .ctl n)
      ∧ (∀ j l n, r'.rd (.lane j l) n = r.rd (.lane j l) n ∧ r'.rdPred (.lane j l) n = r.rdPred (.lane j l) n)
      ∧ u.mem = s.mem ∧ (∀ k, k ≠ uid → blockOf u k = blockOf s k)

/-- R350: a return restores g120 to g127, k6 and k7 from the innermost shadow set and goes on at the resume PC, with `.skip`
past the trapping instruction; entering and leaving a handler leaves every register and predicate as it was. -/
def Obligations.ReturningFromATrap : Prop :=
  ∀ (s : State) (uid who path : Nat) (t : PTrap) (resume : Nat) (g : Group) (r : Regs) (q : Path) (skip : Bool),
    groupOf s uid who = some g → regsOf s uid who = some r → pathOf s uid who path = some q → who ≠ bmsWho →
    g.shadows = [] → causeOf t.cause ≠ 6 → Quiet s uid →
    ∃ v g' r' q', leaveHandler (enterHandler s uid who path t resume) uid who path skip = some v
      ∧ groupOf v uid who = some g' ∧ regsOf v uid who = some r' ∧ pathOf v uid who path = some q'
      ∧ q'.pc = (if skip then (t.pc + 12) % 2 ^ 48 else resume) ∧ g'.hpath = none ∧ g'.shadows = []
      ∧ (∀ sl n, SlotOk sl → r'.rd sl n = r.rd sl n ∧ r'.rdPred sl n = r.rdPred sl n)
      ∧ v.mem = s.mem

/-! ### Class 5: control (16) -/

/-- R306, R309, R310: NOP and a BRA not taken go on in order, a taken BRA at PC + 12 + offset; YIELD ends its path's run;
SLEEP of n ≠ 0 cycles puts its path to sleep until then, of 0 only ends the run. Nothing else changes but registers that a
last-use hint of SLEEP marks. -/
def Obligations.BranchesSleepAndYield : Prop :=
  ∀ (s : State) (h : Hdr) (off : Word) (b : Opnd) (x : Ex) (g : Group) (q : Path),
    let c := x.cur
    (Issues s (.nop h) h x → ∃ t, exec (.nop h) s = .next t ∧ GoesTo s t c ((c.pc + 12) % 2 ^ 48))
      ∧ (Issues s (.bra h off) h x → Quiet s c.blk → ∃ t, exec (.bra h off) s = .next t
          ∧ GoesTo s t c (if x.slots = [] then (c.pc + 12) % 2 ^ 48 else (((c.pc : Int) + 12 + off.toInt) % 2 ^ 48).toNat))
      ∧ (Issues s (.yield h) h x → OnPath s x g q → ∃ t, exec (.yield h) s = .next t
          ∧ GroupBecomes s t c g { issued g with
              runLen := if x.slots = [] then g.runLen else 32
              paths := g.paths.modify c.path fun q => { q with pc := (c.pc + 12) % 2 ^ 48 } })
      ∧ (Issues s (.sleep h b) h x → OnPath s x g q → x.slots ≠ [] → ∃ t g' r', exec (.sleep h b) s = .next t
          ∧ GroupBecomes s t c g g' ∧ regsOf t c.blk c.who = some r' ∧ Written s x (.sleep h b) h 0 0 (fun _ => 0) r'
          ∧ g' = { issued g with
              runLen := 32, vregs := g'.vregs, undo := g'.undo, ahead := g'.ahead, opbuf := g'.opbuf
              paths := g.paths.modify c.path fun q =>
                let n := src32 x.r .ctl b
                { q with pc := (c.pc + 12) % 2 ^ 48
                         st := if n = 0 then q.st else .sleep, wake := if n = 0 then q.wake else s.sched.cycle + n }
              ctx := { (issued g).ctx with gregs := g'.ctx.gregs, kpreds := g'.ctx.kpreds } })

/-- R307, R308, R311, R314: VBR makes a JOIN token that expects the path's lanes, then splits them: all or none take the
branch and the path goes on whole, or the taken lanes keep its entry and the others take the lowest FREE entry, or wait as a
DEFER record; LOOP makes a LOOP token whose PC is its exit. Where the 400 tokens of a group do not suffice, cause 0x0D. -/
def Obligations.SplitsAndLoopsMakeTokens : Prop :=
  ∀ (s : State) (h : Hdr) (inv : Bool) (p : BitVec 4) (jofs : BitVec 18) (off : Word) (x : Ex) (g : Group) (q : Path),
    let c := x.cur
    let i := Instr.vbr h inv p jofs off
    let taken (sl : Slot) : Bool := x.r.rdPred sl p.toNat != inv
    let tk := x.mask.zip (List.range x.mask.length) |>.map fun m => maskOf ((lanesOf m.1).filter fun l => taken (.lane m.2 l))
    let nt := (x.mask.zip tk).map fun m => m.1 &&& ~~~m.2
    let none_ (m : List LaneMask) : Prop := ∀ v ∈ m, v = 0
    let defer : Prop := ¬none_ tk ∧ ¬none_ nt ∧ ∀ e ∈ g.paths, e.st ≠ .free
    let joinPc := (c.pc + 12 * jofs.toNat) % 2 ^ 48
    let target := (((c.pc : Int) + 12 + off.toInt) % 2 ^ 48).toNat
    OnPath s x g q → x.slots ≠ [] → Quiet s c.blk →
    (Issues s i h x → ((g.tokens.length < 399 ∨ (g.tokens.length = 399 ∧ ¬defer)) → ∃ t g' q' id, exec i s = .next t
        ∧ GroupBecomes s t c g g' ∧ g.tokens.get? id = none
        ∧ g'.tokens.get? id = some ⟨.join, joinPc, x.mask, x.mask.map fun _ => 0, q.tref, none⟩
        ∧ g' = { issued g with tokens := g'.tokens, paths := g'.paths }
        ∧ (∀ k v, g.tokens.get? k = some v → g'.tokens.get? k = some v)
        ∧ (∀ k r, k ≠ c.path → g.paths[k]? = some r → r.st ≠ .free → g'.paths[k]? = some r)
        ∧ g'.paths[c.path]? = some q' ∧ q'.tref = some id
        ∧ (none_ tk → q'.mask = q.mask ∧ q'.pc = (c.pc + 12) % 2 ^ 48)
        ∧ (¬none_ tk → none_ nt → q'.mask = q.mask ∧ q'.pc = target)
        ∧ (¬none_ tk → ¬none_ nt → q'.mask = tk ∧ q'.pc = target
            ∧ (¬defer → ∃ e r, g.paths.findIdx (fun r => r.st == .free) = e ∧ g'.paths[e]? = some r
                ∧ r.mask = nt ∧ r.pc = (c.pc + 12) % 2 ^ 48 ∧ r.st = .ready ∧ r.tref = some id)
            ∧ (defer → ∃ d, q'.dlist = some d
                ∧ g'.tokens.get? d = some ⟨.defer, (c.pc + 12) % 2 ^ 48, nt, nt.map fun _ => 0, some id, q.dlist⟩)))
      ∧ ((400 ≤ g.tokens.length ∨ (g.tokens.length = 399 ∧ defer)) → Traps s i x false ⟨0x0D, 0, none⟩))
    ∧ (Issues s (.loop h off) h x → (g.tokens.length < 400 → ∃ t id, exec (.loop h off) s = .next t
        ∧ g.tokens.get? id = none
        ∧ GroupBecomes s t c g { issued g with
            tokens := g.tokens.set id ⟨.loop, target, x.mask, x.mask.map fun _ => 0, q.tref, none⟩
            paths := g.paths.modify c.path fun q => { q with tref := some id, pc := (c.pc + 12) % 2 ^ 48 } })
      ∧ (400 ≤ g.tokens.length → Traps s (.loop h off) x false ⟨0x0D, 0, none⟩))

/-- R312, R313: JOIN needs a JOIN token at its own PC on the path's TREF, else cause 0x0B. The path's lanes arrive: if with
them every expected lane has, the token goes, the path goes on with all of them and the entries parked on it are FREE; else
it parks, or passes its entry to the first record of its DLIST. `afterUnit` is what follows any change of a block's paths:
switch points, orphan waits, the end of the block (R323, R322, R219). -/
def Obligations.JoinsMergeLanes : Prop :=
  ∀ (s : State) (h : Hdr) (x : Ex) (g : Group) (q : Path), let c := x.cur
    OnPath s x g q → x.slots ≠ [] → Quiet s c.blk → Issues s (.join h) h x →
    ((¬∃ id t, q.tref = some id ∧ g.tokens.get? id = some t ∧ t.kind = .join ∧ t.pc = c.pc) → Traps s (.join h) x false ⟨0x0B, 0, none⟩)
    ∧ ∀ id t, q.tref = some id → g.tokens.get? id = some t → t.kind = .join → t.pc = c.pc →
      let arr := t.arr.zipWith (· ||| ·) q.mask
      let tokens := g.tokens.set id { t with arr := arr }
      let gone (r : Path) : Path := { r with st := .free, mask := r.mask.map fun _ => 0, tref := none, dlist := none, held := false }
      ∃ u g' q', exec (.join h) s = .next (afterUnit u c.blk) ∧ GroupBecomes s u c g g' ∧ g'.paths[c.path]? = some q'
        ∧ (arr = t.exp →
            g' = { issued g with tokens := g.tokens.erase id, paths := g'.paths }
            ∧ q' = { q with pc := (c.pc + 12) % 2 ^ 48, mask := t.exp, tref := t.parent }
            ∧ ∀ k r, k ≠ c.path → g.paths[k]? = some r →
                g'.paths[k]? = some (if r.st = .joinw ∧ r.tref = some id then gone r else r))
        ∧ (arr ≠ t.exp → q.dlist = none →
            g' = { issued g with tokens := tokens, paths := g.paths.modify c.path fun q => { q with st := .joinw } })
        ∧ (∀ d k, arr ≠ t.exp → q.dlist = some d → d ≠ id → g.tokens.get? d = some k →
            g' = { issued g with tokens := tokens.erase d, runLen := 32, paths := g'.paths }
            ∧ (q'.st, q'.pc, q'.mask, q'.tref, q'.dlist) = (.ready, k.pc, k.exp, k.parent, k.next)
            ∧ ∀ k, k ≠ c.path → g'.paths[k]? = g.paths[k]?)

/-- R314, R315, R409, R312: BRK arrives at the innermost LOOP of its chain, without one cause 0x0B; `breakGroup` is what it does to
the group in general. In a loop with no join inside, the path's entry becomes FREE, and the last lanes to arrive go on at the
loop's exit in it. -/
def Obligations.BreaksLeaveLoops : Prop :=
  ∀ (s : State) (h : Hdr) (x : Ex) (g : Group) (q : Path), let c := x.cur
    OnPath s x g q → x.slots ≠ [] → Quiet s c.blk → g.hpath = none → Issues s (.brk h) h x →
    ((∀ k ∈ chainOf g c.path, (g.tokens.get? k).map (·.kind) ≠ some .loop) → Traps s (.brk h) x false ⟨0x0B, 0, none⟩)
    ∧ (∀ below l, toLoop g (chainOf g c.path) [] = some (below, l) →
        ∃ u, exec (.brk h) s = .next (afterUnit u c.blk) ∧ GroupBecomes s u c g (issued (breakGroup c.path x.mask below l g).g))
    ∧ ∀ l t, q.tref = some l → g.tokens.get? l = some t → t.kind = .loop → q.dlist = none →
        (g.tokens.Pairwise fun a b => a.1 < b.1) → (∀ k v, g.tokens.get? k = some v → (∃ m ∈ v.exp, m ≠ 0) ∧ v.arr ≠ v.exp) →
        let arr := t.arr.zipWith (· ||| ·) q.mask
        let tokens := g.tokens.set l { t with arr := arr }
        ∃ u g', exec (.brk h) s = .next (afterUnit u c.blk) ∧ GroupBecomes s u c g g'
          ∧ (arr ≠ t.exp → g' = { issued g with tokens := tokens, paths := g.paths.modify c.path fun q =>
              { q with st := .free, mask := q.mask.map fun _ => 0, tref := none, dlist := none, held := false } })
          ∧ (arr = t.exp → ∃ q', g' = { issued g with tokens := tokens.erase l, paths := g.paths.set c.path q' }
              ∧ (q'.st, q'.pc, q'.mask, q'.tref, q'.dlist) = (.ready, t.pc, t.exp, t.parent, none))

/-- R316: BRX, CALLX and RET send each lane of the path to the address its register gives, with bits [47:32] of the PC; CALL
sends them all to its target. CALL and CALLX leave the link in v1 of the path's lanes, after every source is read. With an
entry for each further target, every lane is then on a READY path at its target; where the tokens do not suffice for the
rest, cause 0x0D. -/
def Obligations.IndirectBranchesAndCalls : Prop :=
  ∀ (s : State) (h : Hdr) (a : Reg) (off : Word) (x : Ex) (g : Group) (q : Path), let c := x.cur
    let inPath (sl : Slot) : Prop := ∃ j l m, sl = .lane j l ∧ x.mask[j]? = some m ∧ l < 64 ∧ m.getLsbD l = true
    let linked (link : Bool) (dead : Option Nat) (r' : Regs) : Prop :=
      (link = true → ∀ sl, inPath sl → r'.rd sl 1 = BitVec.ofNat 32 (c.pc + 12))
        ∧ (∀ sl n, SlotOk sl → Holds x.r sl n → ¬(inPath sl ∧ (link = true ∧ n = 1 ∨ dead = some n)) → r'.rd sl n = x.r.rd sl n)
        ∧ ∀ sl n, r'.rdPred sl n = x.r.rdPred sl n
    let spreads (i : Instr) (a : Reg) (link : Bool) (dead : Option Nat) : Prop :=
      let dest (sl : Slot) : Nat := c.pc / 2 ^ 32 * 2 ^ 32 + (x.r.rd sl a.toNat).toNat
      let ts := targetsOf x.mask dest
      let free := (g.paths.filter fun r => r.st == .free).length
      (ts.length ≤ free + 1 → g.tokens.length ≤ 400 → ∃ t g' r', exec i s = .next t ∧ GroupBecomes s t c g g' ∧ regsOf t c.blk c.who = some r'
          ∧ linked link dead r' ∧ g' = { issued g with vregs := g'.vregs, opbuf := g'.opbuf, undo := g'.undo, ahead := g'.ahead, paths := g'.paths }
          ∧ (∀ k r, k ≠ c.path → g.paths[k]? = some r → r.st ≠ .free → g'.paths[k]? = some r)
          ∧ ∀ j l, inPath (.lane j l) → ∃ k : Nat, ∃ r : Path, ∃ m : LaneMask, g'.paths[k]? = some r ∧ r.mask[j]? = some m ∧ m.getLsbD l = true
              ∧ r.pc = dest (.lane j l) ∧ r.st = .ready ∧ r.tref = q.tref)
        ∧ (free + 1 + 400 < ts.length + g.tokens.length → Traps s i x false ⟨0x0D, 0, none⟩)
    OnPath s x g q → x.slots ≠ [] → Quiet s c.blk →
    (Issues s (.brx h a) h x → spreads (.brx h a) a false (if h.hints.lastA then some a.toNat else none))
      ∧ (Issues s (.callx h a) h x → spreads (.callx h a) a true (if h.hints.lastA then some a.toNat else none))
      ∧ (Issues s (.ret h) h x → spreads (.ret h) 1 false none)
      ∧ (Issues s (.call h off) h x → ∃ t g' r', exec (.call h off) s = .next t ∧ GroupBecomes s t c g g'
          ∧ regsOf t c.blk c.who = some r' ∧ linked true none r'
          ∧ g' = { issued g with
              vregs := g'.vregs, opbuf := g'.opbuf, undo := g'.undo, ahead := g'.ahead
              paths := g.paths.modify c.path fun q => { q with pc := (((c.pc : Int) + 12 + off.toInt) % 2 ^ 48).toNat } })

/-- R317, R318, R147, R219: THROW with no unwind entry is cause 0x0F; else its lanes hold the throwing PC in v4 and go to
SR_UNWIND with no token, in their entry when the whole path throws, else in the lowest FREE entry while the others go on.
EXIT ends the path's lanes: its entry becomes FREE; the last lanes of a group, and the BMS, exit when no copy is left.
Model's choices: assumption logs 49 and 50. -/
def Obligations.ThrowsAndExits : Prop :=
  ∀ (s : State) (h : Hdr) (inv : Bool) (p : BitVec 4) (x : Ex) (g : Group) (q : Path), let c := x.cur
    let i := Instr.throw h inv p
    let thrown (sl : Slot) : Prop := ∃ j l m, sl = .lane j l ∧ x.mask[j]? = some m ∧ l < 64 ∧ m.getLsbD l = true
      ∧ (x.r.rdPred sl p.toNat != inv) = true
    let keeps (r' : Regs) : Prop := (∀ sl, thrown sl → r'.rd sl 4 = BitVec.ofNat 32 c.pc)
      ∧ (∀ sl n, SlotOk sl → Holds x.r sl n → ¬(thrown sl ∧ n = 4) → r'.rd sl n = x.r.rd sl n)
      ∧ ∀ sl n, r'.rdPred sl n = x.r.rdPred sl n
    let next := (c.pc + 12) % 2 ^ 48
    let whole : Prop := ∀ j l m, x.mask[j]? = some m → l < 64 → m.getLsbD l = true → thrown (.lane j l)
    x.slots ≠ [] → Quiet s c.blk →
    (OnPath s x g q → Issues s i h x →
      (g.unwind = 0 → Traps s i x false ⟨0x0F, 0, none⟩)
      ∧ (g.unwind ≠ 0 → (∀ sl, ¬thrown sl) → ∃ t, exec i s = .next t ∧ GoesTo s t c next)
      ∧ (g.unwind ≠ 0 → q.tref = none → (∃ sl, thrown sl) →
          (∃ e ∈ g.paths, e.st = .free) ∨ whole →
          ∃ u g' r' q', exec i s = .next (afterUnit u c.blk) ∧ GroupBecomes s u c g g' ∧ regsOf u c.blk c.who = some r' ∧ keeps r'
            ∧ g' = { issued g with vregs := g'.vregs, opbuf := g'.opbuf, undo := g'.undo, ahead := g'.ahead, paths := g'.paths } ∧ g'.paths[c.path]? = some q'
            ∧ (∀ k r, k ≠ c.path → g.paths[k]? = some r → r.st ≠ .free → g'.paths[k]? = some r)
            ∧ (whole → (q'.pc, q'.mask, q'.tref, q'.st) = (g.unwind.toNat % 2 ^ 48, q.mask, none, .ready))
            ∧ (¬whole → (q'.pc, q'.tref, q'.st) = (next, none, .ready) ∧ ∃ k r, g'.paths[k]? = some r ∧ k ≠ c.path
                ∧ (r.pc, r.tref, r.st) = (g.unwind.toNat % 2 ^ 48, none, .ready)
                ∧ ∀ j l m, x.mask[j]? = some m → l < 64 → (m.getLsbD l = true ∧ thrown (.lane j l) ↔ ∃ n, r.mask[j]? = some n ∧ n.getLsbD l = true)
                  ∧ (m.getLsbD l = true ∧ ¬thrown (.lane j l) ↔ ∃ n, q'.mask[j]? = some n ∧ n.getLsbD l = true))))
    ∧ (OnPath s x g q → Issues s (.exit h) h x → q.tref = none → q.dlist = none → g.hpath = none →
        (∃ k r, k ≠ c.path ∧ g.paths[k]? = some r ∧ r.st ≠ .free) ∨ (g.ctx.copies = [] ∧ g.ctx.fails = []) →
        ∃ u, exec (.exit h) s = .next (afterUnit u c.blk) ∧ GroupBecomes s u c g { issued g with
          paths := g.paths.modify c.path fun q => { q with st := .free, mask := q.mask.map fun _ => 0, held := false } })
    ∧ (∀ b m, c.who = bmsWho → Issues s (.exit h) h x → blockOf s c.blk = some b → b.bms = some m → m.ctx.copies = [] → m.ctx.fails = [] →
        ∃ u, exec (.exit h) s = .next (afterUnit u c.blk)
          ∧ u = { s with work := { s.work with blocks := u.work.blocks } } ∧ (∀ j, j ≠ c.blk → blockOf u j = blockOf s j)
          ∧ blockOf u c.blk = some { b with bms := some { m with st := .exited, ctx := { m.ctx with order := m.ctx.order + 1 } } })

/-- R320, R321: BAR.arrive adds its count and goes on, BAR.wait and BAR.sync add 1 or their count and wait; a register count of
g0 is 1. A total above the participants is cause 0x0B; one that reaches them completes the phase, which lets every path go on that
waits for it, in the block or the whole cohort. An arrival is a release over SCR and GLB at the barrier's scope (R155), for which it
waits (`releaseAt`); with no access of the issuer outstanding and its cluster's write-combining buffer empty it does not.
Model's choices: assumption log 10. -/
def Obligations.BarriersCountAndRelease : Prop :=
  ∀ (s : State) (h : Hdr) (coh : Bool) (nb : Reg) (cnt : Opnd) (x : Ex) (k : Ctx) (b : Block) (p : Iss), let c := x.cur
    let v := barOf s c.blk coh nb.toNat
    let issuer (u : State) : Option (Nat × Bool × Wait) :=
      if c.who = bmsWho then ((blockOf u c.blk).bind (·.bms)).map fun m => (m.pc, decide (m.st = .run), m.wait)
      else (pathOf u c.blk c.who c.path).map fun q => (q.pc, decide (q.st = .ready), q.wait)
    let released := releaseAt s p x true storScrGlb (if coh then .coh else .blk)
    let one (i : Instr) (n : Nat) (waits : Bool) : Prop :=
      (v.p < v.a + n → Traps s i x false ⟨0x0B, 0, none⟩)
      ∧ (v.a + n ≤ v.p → released.2 = false → exec i s = .next released.1)
      ∧ (v.a + n ≤ v.p → k.window = [] → wcEmpty s p.cl = true → ∃ u, exec i s = .next (afterUnit u c.blk)
          ∧ u = { s with work := { s.work with blocks := u.work.blocks, cohorts := u.work.cohorts } }
          ∧ (v.a + n < v.p →
              issuer u = some (if waits then (c.pc, false, .bar coh nb.toNat v.phase n) else ((c.pc + 12) % 2 ^ 48, true, .none))
              ∧ barOf u c.blk coh nb.toNat = { v with a := v.a + n, who := v.who ++ [(b.index, c.who)] })
          ∧ (v.a + n = v.p →
              issuer u = some ((c.pc + 12) % 2 ^ 48, true, .none)
              ∧ barOf u c.blk coh nb.toNat = { v with a := 0, phase := v.phase + 1, who := [] }
              ∧ ∀ j k p e d n', blockOf s j = some d → (if coh then d.cohort = b.cohort else j = c.blk) → pathOf s j k p = some e → p < 8 →
                  (j, k, p) ≠ (c.blk, c.who, c.path) → e.wait = .bar coh nb.toNat v.phase n' →
                  ∃ e', pathOf u j k p = some e' ∧ (e'.pc, e'.st, e'.wait) = ((e.pc + 12) % 2 ^ 48, .ready, .none)))
    let count : Nat := match cnt with
      | .imm n => n.toNat
      | .reg a => if a = 0 then 1 else (x.r.rd .ctl a.toNat).toNat
    issuer s = some (c.pc, true, .none) → ctxOf s c.blk c.who = some k → x.slots ≠ [] → blockOf s c.blk = some b →
    issOf s c.blk c.who = some p →
    (if coh then ∃ k, cohortOf s b.cohort = some k ∧ nb.toNat < k.bars.length else nb.toNat < b.bars.length) →
    (Issues s (.barArrive h coh nb cnt) h x → one (.barArrive h coh nb cnt) count false)
      ∧ (Issues s (.barWait h coh nb) h x → one (.barWait h coh nb) 1 true)
      ∧ (Issues s (.barSync h coh nb cnt) h x → one (.barSync h coh nb cnt) count true)


/-! ### Class 7: special registers, traps by instruction (09, 20, 22) -/

/-- R170, R171, R286, R365: GETS delivers a special register, 0x06 and 0x00 a value for each lane of the path; SR_TRAPCAUSE and
SR_TRAPPC outside a handler are cause 0x04.
Model's choices: assumption logs 66 and 67. -/
def Obligations.GetsReadsSpecialRegisters : Prop :=
  ∀ (s : State) (h : Hdr) (sr : BitVec 8) (d : Reg) (x : Ex) (i : Iss) (k : Ctx), let c := x.cur
    let I := Instr.gets h sr d
    let n := sr.toNat
    let g := i.b.groups[c.who]?
    let core := coreState s (64 * i.b.die + i.b.core)
    let value : Nat :=
      if 0x10 ≤ n ∧ n ≤ 0x1F then (k.ctrs.getD (n - 0x10) 0 % 2 ^ 32).toNat
      else if n = 0x01 then c.who else if n = 0x02 then i.b.index
      else if n = 0x03 then i.b.index / (i.l.cohb + 1) * 16 + i.b.inCoh % 16
      else if n = 0x04 then i.b.core else if n = 0x05 then i.b.die
      else if n = 0x07 then i.b.vidx + 16 * i.b.v.fold
      else if n = 0x08 then (if i.l.isTask then i.b.frame else slotBase s i.b)
      else if n = 0x09 then s.sched.time.getD i.b.die 0 % 2 ^ 64
      else if n = 0x0A then ((g.bind (·.shadows.head?)).map (·.cause.toNat)).getD 0
      else if n = 0x0B then ((g.bind (·.shadows.head?)).map (·.trapPc)).getD 0
      else if n = 0x0C then (g.map (·.utrap.toNat)).getD 0
      else if n = 0x0D then (g.map (·.unwind.toNat)).getD 0
      else if n = 0x0E then (k.energy % 2 ^ 32).toNat
      else if n = 0x0F then core.narrow.toNat + 2 * s.power.alarm.toNat + 4 * k.bstall.toNat
      else if n = 0x20 then i.l.k.nlease
      else if n = 0x21 then i.l.cx.toNat
      else core.cap % 64 + core.ceil % 256 * 2 ^ 8
    let lane (sl : Slot) : Nat := match sl with
      | .lane j l => if n = 0 then l else 64 * (i.b.v.groups * j + c.who) + l
      | .ctl => 0
    let handler : Prop := ∃ g, groupOf s c.blk c.who = some g ∧ g.hpath = some c.path
    Issues s I h x → x.slots ≠ [] → issOf s c.blk c.who = some i → ctxOf s c.blk c.who = some k →
    ((n = 0x0A ∨ n = 0x0B) → ¬handler → Traps s I x false ⟨4, 0, none⟩)
    ∧ ((n = 0x0A ∨ n = 0x0B → handler) → ∃ t r', exec I s = .next t ∧ Retires s t c ∧ regsOf t c.blk c.who = some r'
        ∧ (n ≠ 0 → n ≠ 6 → Written s x I h d (if n = 0x08 ∨ n = 0x09 ∨ n = 0x0B ∨ n = 0x0C ∨ n = 0x0D then 2 else 1) (fun _ => value) r')
        ∧ (n = 0 ∨ n = 6 →
            (∀ sl ∈ slotsOf x.mask, d.toNat ≠ 0 → r'.rd sl d.toNat = BitVec.ofNat 32 (lane sl))
            ∧ (∀ sl m, SlotOk sl → Holds x.r sl m → ¬(sl ∈ slotsOf x.mask ∧ m = d.toNat) → r'.rd sl m = x.r.rd sl m)
            ∧ ∀ sl m, r'.rdPred sl m = x.r.rdPred sl m))

/-- R170, R171, R135, R136: SETS writes a counter, SR_UTRAP, SR_UNWIND, CEIL of SR_MEMCAP, or in the runtime handler the writable
fields of SR_CX; any other register is cause 0x04, a counter value outside its range cause 0x03, without an effect. With no armed
wait, nothing else of any counter changes, and no register but those a last-use hint marks.
Model's choices: assumption log 67. -/
def Obligations.SetsWritesSpecialRegisters : Prop :=
  ∀ (s : State) (h : Hdr) (sr : BitVec 8) (a : Reg) (x : Ex) (i : Iss) (k : Ctx), let c := x.cur
    let I := Instr.sets h sr a
    let n := sr.toNat
    let ctr : Prop := 0x10 ≤ n ∧ n ≤ 0x1F
    let w := (x.r.rd .ctl a.toNat).toInt
    let v64 : Dword := if a.toNat = 0 then 0 else (x.r.rd .ctl (a.toNat + 1) ++ x.r.rd .ctl a.toNat : BitVec 64)
    let rth : Prop := ∃ g sh, groupOf s c.blk c.who = some g ∧ g.hpath = some c.path ∧ g.shadows.head? = some sh ∧ sh.runtime = true
    let writable : Prop := ctr ∨ n = 0x0C ∨ n = 0x0D ∨ n = 0x22 ∨ (n = 0x21 ∧ rth)
    Issues s I h x → x.slots ≠ [] → issOf s c.blk c.who = some i → ctxOf s c.blk c.who = some k →
    (¬writable → Traps s I x false ⟨4, 0, none⟩)
    ∧ (ctr → (w < -32768 ∨ 32767 < w) → Traps s I x false ⟨3, 0, none⟩)
    ∧ (writable → (ctr → -32768 ≤ w ∧ w ≤ 32767) → ∃ u k', exec I s = .next (afterUnit u c.blk)
        ∧ u = { s with cores := u.cores, work := { s.work with blocks := u.work.blocks, launches := u.work.launches } }
        ∧ ctxOf u c.blk c.who = some k'
        ∧ k'.ctrs = (if 0x10 ≤ n ∧ n ≤ 0x1F then k.ctrs.set (n - 0x10) w else k.ctrs)
        ∧ (k.armed = [] → ∃ r', regsOf u c.blk c.who = some r' ∧ Written s x I h 0 0 (fun _ => 0) r')
        ∧ (c.who ≠ bmsWho → ∃ g g', groupOf s c.blk c.who = some g ∧ groupOf u c.blk c.who = some g'
            ∧ g'.utrap = (if n = 0x0C then v64 else g.utrap) ∧ g'.unwind = (if n = 0x0D then v64 else g.unwind)
            ∧ (k.armed = [] → g'.paths = g.paths.modify c.path fun q => { q with pc := (c.pc + 12) % 2 ^ 48 }))
        ∧ (∀ l, launchOf s l = (launchOf u l).map fun m => if l = i.l.id ∧ n = 0x21 then { m with cx := ((launchOf s l).map (·.cx)).getD 0 } else m)
        ∧ (n = 0x21 → ∀ m, launchOf u i.l.id = some m → m.cx = (x.r.rd .ctl a.toNat) &&& 0xFFFFF000#32)
        ∧ (∀ ci, coreState u ci = if ci = 64 * i.b.die + i.b.core ∧ n = 0x22 then
            { coreState s ci with ceil := (x.r.rd .ctl a.toNat).toNat / 256 % 256 } else coreState s ci))

/-- R344, R349, R350, R374, R378: TRAP retires and then takes cause 0x0E with its code, in the runtime handler it ends the task;
BKPT retires and takes cause 0x10; RETT leaves the innermost handler, outside one cause 0x04; PPT adds one to its counter of the
launch; TMARK emits its marker where the core traces, and else changes nothing but what its last-use hint marks. -/
def Obligations.TrapBreakpointReturnAndProbes : Prop :=
  ∀ (s : State) (h : Hdr) (code : BitVec 16) (skip : Bool) (n : BitVec 4) (a : Opnd) (x : Ex) (g : Group) (q : Path), let c := x.cur
    let next := (c.pc + 12) % 2 ^ 48
    let after (cause code : Nat) : PTrap := ⟨BitVec.ofNat 32 (cause + 2 ^ 8 + code * 2 ^ 16), 0, BitVec.ofNat 32 (2 ^ 9), c.pc, c.word⟩
    let rth : Prop := g.hpath = some c.path ∧ ∃ sh, g.shadows.head? = some sh ∧ sh.runtime = true
    OnPath s x g q → x.slots ≠ [] →
    (Issues s (.trap h code) h x →
      (rth → exec (.trap h code) s = .next (endTask s c.blk (after 0x0E code.toNat) 1))
      ∧ (¬rth → ∃ u, GoesTo s u c next ∧ exec (.trap h code) s = .next (takeTrap u c.blk c.who c.path (after 0x0E code.toNat) next)))
    ∧ (Issues s (.bkpt h) h x →
        ∃ u, GoesTo s u c next ∧ exec (.bkpt h) s = .next (takeTrap u c.blk c.who c.path (after 0x10 0) next))
    ∧ (Issues s (.rett h skip) h x →
      (g.hpath ≠ some c.path → Traps s (.rett h skip) x false ⟨4, 0, none⟩)
      ∧ ∀ u, leaveHandler s c.blk c.who c.path skip = some u → exec (.rett h skip) s = .next (bumpOrder u c.blk c.who))
    ∧ (∀ l, Issues s (.ppt h n) h x → launchOfBlock s c.blk = some l → l.ppcnt.length = 16 →
        ∃ t l', exec (.ppt h n) s = .next t ∧ launchOf t l.id = some l' ∧ l' = { l with ppcnt := l'.ppcnt }
          ∧ (∀ m < 16, l'.ppcnt[m]? = (l.ppcnt[m]?).map fun v => if m = n.toNat then v + 1 else v)
          ∧ (∀ j, j ≠ l.id → launchOf t j = launchOf s j)
          ∧ GoesTo s { t with work := { t.work with launches := s.work.launches } } c next)
    ∧ (Issues s (.tmark h a) h x → Quiet s c.blk → ∃ t r', exec (.tmark h a) s = .next t ∧ Retires s t c
        ∧ regsOf t c.blk c.who = some r' ∧ Written s x (.tmark h a) h 0 0 (fun _ => 0) r')
    ∧ (Issues s (.tmark h a) h x → exec (.tmark h a) s = .next (retire
        (emit s c.blk c.who c.path c.pc x.mask (.ts (some (match a with | .reg r => x.r.rd .ctl r.toNat | .imm w => w))) false).1
        x (.tmark h a) h id))


/-! ### Class 3: memory (07, 08, 05) -/

/-- R134, R150, R294: the checks of one access in their order: beyond the address space 7, misaligned 5, outside the leases 6,
page and permission 7; SCR and COH beyond what is allocated 7; PRV beyond the private bytes 0x0D, unmapped 7. -/
def Obligations.AccessChecksInOrder : Prop :=
  ∀ (s : State) (i : Iss) (sl : Slot) (a w : Nat) (p : PageRule),
    let outside : Prop := (∃ r ∈ i.l.ranges, r.2 ≠ 0) ∧ 0 < w
      ∧ ∃ g, (a / 65536 ≤ g ∧ g ≤ (a + w - 1) / 65536) ∧ ∀ r ∈ i.l.ranges, ¬(r.1 ≤ g * 65536 ∧ g * 65536 < r.1 + r.2)
    (2 ^ 48 ≤ a → checkAccess s i .glb sl a w p = some 7)
      ∧ (a < 2 ^ 48 → a % w ≠ 0 → checkAccess s i .glb sl a w p = some 5)
      ∧ (a < 2 ^ 48 → a % w = 0 → outside → checkAccess s i .glb sl a w p = some 6)
      ∧ (a < 2 ^ 48 → a % w = 0 → ¬outside → walk s (tabAsid i.l.asid a) a = none → checkAccess s i .glb sl a w p = some 7)
      ∧ (∀ k, a < 2 ^ 48 → a % w = 0 → ¬outside → walk s (tabAsid i.l.asid a) a = some k →
          (pteAttr k.pte).permits p.want i.runtime = false → checkAccess s i .glb sl a w p = some 7)
      ∧ (a % w ≠ 0 → ∀ sp ∈ [Space.scr, .coh, .prv, .win], checkAccess s i sp sl a w p = some 5)
      ∧ (a % w = 0 → checkAccess s i .scr sl a w p = if i.b.v.scr < a + w then some 7 else none)
      ∧ (a % w = 0 → i.l.prv < a + w → checkAccess s i .prv sl a w p = some 0x0D)
      ∧ (a % w = 0 → a + w ≤ i.l.prv → checkAccess s i .prv sl a w p = if walk s 0 (prvVa s i sl a) = none then some 7 else none)

/-- R134, R135, R137, R139: LD and ST check every slot in order, and the first that fails traps; a counter at its limit makes them
wait; else they raise their counter and enter the issuer's window with their addresses, the threads they act for and, for a store,
the values of D; no register, no line and no byte of memory changes, and their last-use marks wait until they retire. A releasing
ST is stated for an empty write-combining buffer.
Model's choices: assumption logs 10, 17 and 104. -/
def Obligations.LoadsAndStoresIssue : Prop :=
  ∀ (s : State) (h : Hdr) (sp : Space) (t : Ty) (acq : Bool) (al : Alloc) (d a : Reg) (m : MemX) (x : Ex) (p : Iss) (k : Ctx),
    let c := x.cur
    let addr (sl : Slot) : Nat :=
      if sp = .glb ∨ sp = .win then
        (((if a.toNat = 0 then 0 else (x.r.rd sl a.toNat).toNat + 2 ^ 32 * (x.r.rd sl (a.toNat + 1)).toNat : Nat) + m.ofs.toInt)
          % 2 ^ 64).toNat
      else (((x.r.rd sl a.toNat).toNat + m.ofs.toInt) % 2 ^ 32).toNat
    let issues (i : Instr) (store : Bool) : Prop :=
      let check (sl : Slot) := checkAccess s p sp sl (addr sl) (tyBytes t) ⟨if store then .write else .read, false, false⟩
      Acts s i h x p k → (store = true → acq = true → ∀ w ∈ s.coh.wc, w.cl ≠ p.cl) →
      (¬CtrRoom k m → exec i s = .next s)
      ∧ (∀ pre sl post cause, CtrRoom k m → x.slots = pre ++ sl :: post → (∀ q ∈ pre, check q = none) → check sl = some cause →
          Traps s i x (!h.g) ⟨cause, addr sl, some sl⟩)
      ∧ (CtrRoom k m → (∀ sl ∈ x.slots, check sl = none) → ∃ u k', exec i s = .next u
          ∧ regsOf u c.blk c.who = some x.r ∧ ctxOf u c.blk c.who = some k'
          ∧ k'.window = k.window ++ [⟨k.order, c.path, c.pc, c.word, i, x.slots.map fun sl => ⟨sl, addr sl⟩,
              threadsOf h.g x.mask x.slots,
              if store then x.slots.flatMap fun sl => (List.range (tyRegs t)).map fun n =>
                if d.toNat = 0 then 0 else x.r.rd sl (d.toNat + n) else [],
              [], false, s.sched.cycle⟩]
          ∧ k'.ctrs = (if m.ctr = 15 then k.ctrs else k.ctrs.set m.ctr.toNat (k.ctrs.getD m.ctr.toNat 0 + 1))
          ∧ u.mem.cells = s.mem.cells ∧ u.coh.lines = s.coh.lines ∧ (∀ q, pathOf s c.blk c.who c.path = some q →
              pathOf u c.blk c.who c.path = some { q with pc := (c.pc + 12) % 2 ^ 48 }))
    issues (.ld h sp t acq al d a m) false ∧ issues (.st h sp t acq al d a m) true

/-- R137, R138, R135: when the data of every line of a load has reached it, the load completes: D of each slot takes its bytes,
the counter falls and the entry leaves the window; a store whose lines its cluster owns and that no earlier instruction of its
path holds back writes its bytes, slot by slot, and nothing else. No other register changes, but for what the instructions that now
retire are to mark (R139, R169).
Model's choices: assumption log 21. -/
def Obligations.LoadsAndStoresComplete : Prop :=
  ∀ (s : State) (blk who op : Nat) (h : Hdr) (sp : Space) (t : Ty) (o : Bool) (al : Alloc) (d a : Reg) (m : MemX) (i : Iss) (p : Pend)
      (r : Regs) (k : Ctx),
    issOf s blk who = some i → regsOf s blk who = some r → ctxOf s blk who = some k → k.window.find? (·.id == op) = some p →
    who ≠ bmsWho → k.armed = [] → i.l.rr = none →
    let n := tyBytes t
    let gone (v : Ctx) : Prop := v.window = k.window.filter (fun q => q.id != op)
      ∧ v.ctrs = (if m.ctr = 15 then k.ctrs else k.ctrs.set m.ctr.toNat (k.ctrs.getD m.ctr.toNat 0 - 1))
    (p.instr = .ld h sp t o al d a m → (∀ q ∈ pendKeys s i p, ∃ l, (q.line, l) ∈ p.got) →
      (pendKeys s i p = [] → olderConflict s i p (fun _ => false) = false) → (p.acc.map (·.slot)).Nodup →
      (∀ e ∈ p.acc, SlotOk e.slot ∧ (∀ j < tyRegs t, Holds r e.slot (d.toNat + j)) ∧ (locOf s i sp e.slot e.addr n).isSome) →
      ((∀ q ∈ k.window, q.path = p.path → q.id < op → q.passed = true)
        ∨ ∀ e ∈ p.acc, ∀ j < tyRegs t, NoMark s blk who r e.slot (d.toNat + j)) →
      ∃ u r' k', exec (.loadDataReturn blk who op) s = .next (afterUnit u blk) ∧ regsOf u blk who = some r' ∧ ctxOf u blk who = some k'
        ∧ gone k' ∧ u.mem = s.mem ∧ u.coh.lines = s.coh.lines
        ∧ (∀ e ∈ p.acc, ∀ l j, locOf s i sp e.slot e.addr n = some l → j < tyRegs t → d.toNat + j ≠ 0 →
            r'.rd e.slot (d.toNat + j) = BitVec.ofNat 32 (loadValue s i p.got n l / 2 ^ (32 * j)))
        ∧ (∀ sl q, SlotOk sl → Holds r sl q → ¬((∃ e ∈ p.acc, e.slot = sl) ∧ d.toNat ≤ q ∧ q < d.toNat + tyRegs t) →
            NoMark s blk who r sl q → r'.rd sl q = r.rd sl q)
        ∧ ∀ sl q, r'.rdPred sl q = r.rdPred sl q)
    ∧ (p.instr = .st h sp t o al d a m → p.passed = false → (∀ q ∈ k.window, q.id < op → q.passed = true ∧ o = false) →
      (∀ e ∈ p.acc, ∃ va < 2 ^ 48, locOf s i sp e.slot e.addr n = some (.mem va) ∧ va % n = 0 ∧ HasLine s i .wr (locKey i va)
        ∧ (pteOf s (locKey i va)).any pteW) → (o = true → wcEmpty s i.cl = true) → storeOpen s i p = false →
      ∃ u k', exec (.storePerformed blk who op) s = .next (afterUnit u blk) ∧ ctxOf u blk who = some k' ∧ gone k'
        ∧ SameRegs s u blk who r
        ∧ LinesBecome s u i (pendKeys s i p) ((List.range p.acc.length).foldl (fun b j => match p.acc[j]? with
            | some e => (match locOf s i sp e.slot e.addr n with
                | some (.mem va) => setBytes b va n (p.datum j (tyRegs t))
                | _ => b)
            | none => b) (lineByte s i)))

/-- R139, R344, R347: a fault of an issued memory instruction that no earlier instruction of its path holds back is taken at that
instruction when every request that it and the later instructions of its path have sent has ended: they leave the window, the
path stands at its PC, and the trap is taken there. Before, it waits for them.
Model's choices: assumption log 96. -/
def Obligations.MemoryFaultsArePrecise : Prop :=
  ∀ (s t : State) (blk who op cause addr : Nat) (i : Iss) (p : Pend) (k : Ctx) (q : Path) (h : Hdr),
    issOf s blk who = some i → ctxOf s blk who = some k → k.window.find? (·.id == op) = some p → who ≠ bmsWho →
    p.passed = false → (∀ e ∈ k.window, e.id < op → e.path = p.path → e.passed = true) → hdrOf p.instr = some h →
    faultOf s i p = some (t, cause, addr) → pathOf t blk who p.path = some q → q.held = false →
    (∀ g, groupOf t blk who = some g → g.hpath = none) →
    (requestsEnded t i p.path p.id = false → exec (.memoryFaultArrival blk who op) s = .next (faultKept s t))
    ∧ (requestsEnded t i p.path p.id = true →
      ∃ u f, exec (.memoryFaultArrival blk who op) s = .next (afterUnit (takeTrap u blk who p.path (mkTrap f (!h.g) false 0 p.pc p.word) p.pc) blk)
      ∧ f.cause = cause ∧ u.mem = t.mem
      ∧ (∀ e ∈ ((ctxOf u blk who).map (·.window)).getD [], ¬(e.path = p.path ∧ op ≤ e.id))
      ∧ pathOf u blk who p.path = some { q with pc := p.pc, st := .ready, wait := .none, kills := [] })

/-- R215, R216, R134: ACLD gives each slot the 96 bytes of its line as they stand, byte 91 zero, ACST writes each slot's image and 32
zero bytes, canonical in global memory or with `.canon`; stated for lines that the cluster can serve at once, no access of the
issuer outstanding, and a launch that is not recorded. A slot that fails its check traps.
Model's choices: assumption logs 10 and 39. -/
def Obligations.AccumulatorImagesMove : Prop :=
  ∀ (s : State) (h : Hdr) (canon : Bool) (d a : Reg) (m : MemX) (x : Ex) (p : Iss) (k : Ctx),
    let c := x.cur
    let addr (sl : Slot) : Nat := addrOf x.r .glb sl a m.ofs
    let keys := keysOf p 128 (locsOf s p .glb 128 (accessesOf x.r .glb a m.ofs x.slots))
    let check (w : Want) (sl : Slot) := checkAccess s p .glb sl (addr sl) 128 ⟨w, true, false⟩
    let I := Instr.acld h .glb d a m
    let J := Instr.acst h .glb canon d a m
    k.window = [] → CtrRoom k m → p.l.rr = none →
    (Acts s I h x p k → (∀ sl ∈ x.slots, check .read sl = none ∧ HasLine s p .rd (locKey p (addr sl))) → ∃ t r', exec I s = .next t
        ∧ regsOf t c.blk c.who = some r' ∧ t.mem = s.mem ∧ (∀ cl q, (lineOf t cl q).map (·.data) = (lineOf s cl q).map (·.data))
        ∧ Written s x I h d 24 (fun sl =>
            let v := getBytes (lineByte s p) (addr sl) 96
            v - v / 2 ^ 728 % 256 * 2 ^ 728) r')
    ∧ (Acts s J h x p k → (∀ sl ∈ x.slots, check .write sl = none ∧ HasLine s p .wr (locKey p (addr sl))) → ∃ t r', exec J s = .next t
        ∧ regsOf t c.blk c.who = some r' ∧ Written s x J h 0 0 (fun _ => 0) r'
        ∧ LinesBecome s t p keys (x.slots.foldl (fun b sl => setBytes b (addr sl) 128 ((x.r.rdLa sl d.toNat).canon.toImage).toNat) (lineByte s p)))
    ∧ (∀ pre sl post cause, Acts s I h x p k → x.slots = pre ++ sl :: post → (∀ q ∈ pre, check .read q = none) → check .read sl = some cause →
        Traps s I x true ⟨cause, addr sl, some sl⟩)
    ∧ (∀ pre sl post cause, Acts s J h x p k → x.slots = pre ++ sl :: post → (∀ q ∈ pre, check .write q = none) → check .write sl = some cause →
        Traps s J x true ⟨cause, addr sl, some sl⟩)

/-- R246 to R249: ATOM and ACAS on lines that the cluster owns: the lanes in ascending order, each reading the old value into its D,
with the success flag of `.badd` above it, and writing what its operation gives; stated for lines not in state A. With `.far`, and
stated for one slot, the home's copy once every other copy is recalled. No access of the issuer outstanding, and a launch that is not
recorded. A slot that fails its check traps.
Model's choices: assumption logs 10, 39 and 104. -/
def Obligations.AtomicsReadModifyAndWrite : Prop :=
  ∀ (s : State) (h : Hdr) (op : AtomOp) (t : Ty) (o : Ord) (d a : Reg) (m : MemX) (x : Ex) (p : Iss) (k : Ctx),
    let c := x.cur
    let n := tyRegs t
    let W := tyW t
    let addr (sl : Slot) : Nat := addrOf x.r .glb sl a m.ofs
    let v (sl : Slot) : Nat := if d.toNat = 0 then 0 else x.r.rdN sl d.toNat n
    let b (sl : Slot) : Nat := x.r.rdN sl (d.toNat + n) n
    let new (sl : Slot) (old : Nat) : Nat := match op with
      | .add => (old + v sl) % 2 ^ W
      | .and => old &&& v sl
      | .or => old ||| v sl
      | .xor => old ^^^ v sl
      | .smin => if sextN W old ≤ sextN W (v sl) then old else v sl
      | .smax => if sextN W old ≥ sextN W (v sl) then old else v sl
      | .nmin => min old (v sl)
      | .nmax => max old (v sl)
      | .exch => v sl
      | .incw => if old ≥ v sl then 0 else old + 1
      | .badd => if old + v sl ≤ b sl then old + v sl else old
    let swap (sl : Slot) (old : Nat) : Nat := if old = v sl then b sl else old
    let keys := keysOf p (4 * n) (locsOf s p .glb (4 * n) (accessesOf x.r .glb a m.ofs x.slots))
    let run (f : Slot → Nat → Nat) : (Nat → Nat) × (Slot → Nat) := x.slots.foldl (fun st sl =>
      let old := getBytes st.1 (addr sl) (4 * n)
      (setBytes st.1 (addr sl) (4 * n) (f sl old), fun q => if q = sl then old else st.2 q)) (lineByte s p, fun _ => 0)
    let check (sl : Slot) := checkAccess s p .glb sl (addr sl) (4 * n) ⟨.both, false, true⟩
    let ready : Prop := (t = .s32 ∨ t = .n32 ∨ t = .b32 ∨ t = .s64 ∨ t = .n64 ∨ t = .b64) ∧ k.window = [] ∧ CtrRoom k m
      ∧ p.l.rr = none ∧ ∀ w ∈ s.coh.wc, w.cl ≠ p.cl
    let does (i : Instr) (f : Slot → Nat → Nat) (regs : Nat) (val : Slot → Nat → Nat) : Prop :=
      Acts s i h x p k → (ready →
        (∀ sl ∈ x.slots, check sl = none ∧ locOf s p .glb sl (addr sl) (4 * n) = some (.mem (addr sl)) ∧ HasLine s p .wr (locKey p (addr sl)) ∧ (dirOf s (locKey p (addr sl))).st ≠ .ha) →
        ∃ u r', exec i s = .next u ∧ regsOf u c.blk c.who = some r' ∧ LinesBecome s u p keys (run f).1
          ∧ Written s x i h d regs (fun sl => val sl ((run f).2 sl)) r')
      ∧ ∀ pre sl post cause, x.slots = pre ++ sl :: post → (∀ q ∈ pre, check q = none) → check sl = some cause →
          tyBytes t = 4 * n → Traps s i x (!h.g) ⟨cause, addr sl, some sl⟩
    let atHome (i : Instr) (f : Slot → Nat → Nat) (regs : Nat) (val : Slot → Nat → Nat) : Prop :=
      ∀ sl q u w l, Acts s i h x p k → ready → x.slots = [sl] → check sl = none → q = locKey p (addr sl) →
        locOf s p .glb sl (addr sl) (4 * n) = some (.mem (addr sl)) → kindOf s q = some .cached → gatherHomes s p [q] = (u, .ok) →
        homeTake u q = (w, .ok l false) →
        let old := lineGet l (addr sl % 128) (4 * n)
        ∃ u' r', exec i s = .next u' ∧ regsOf u' c.blk c.who = some r' ∧ Written s x i h d regs (fun sl => val sl old) r'
          ∧ (hostAddr w q = none → (rmwOf i (v sl) (b sl) old).write = true →
              u'.mem = (homeAbsorb w q (linePut l (addr sl % 128) (4 * n) (f sl old)) false).mem)
    does (.atom h op false t o d a m) new (if op = .badd then 2 * n else n)
        (fun sl old => if op = .badd then old + 2 ^ W * (decide (old + v sl ≤ b sl)).toNat else old)
      ∧ does (.acas h false t o d a m) swap n (fun _ old => old)
      ∧ atHome (.atom h op true t o d a m) new (if op = .badd then 2 * n else n)
        (fun sl old => if op = .badd then old + 2 ^ W * (decide (old + v sl ≤ b sl)).toNat else old)
      ∧ atHome (.acas h true t o d a m) swap n (fun _ old => old)

/-- R251, R252, R255, R256: AADD on lines that the cluster holds in state A: each slot's contribution enters the partial of its line,
in ascending order, with the issuer's tag; SEQ goes on by one and HWM takes the SEQ of the instruction; no register changes but
by last-use marks. Stated for contributions that are no replay, no line held after a fault, no access of the issuer
outstanding, and a launch that is not recorded.
Model's choices: assumption logs 10, 39 and 95. -/
def Obligations.ContributionsEnterPartials : Prop :=
  ∀ (s : State) (h : Hdr) (f : AForm) (rel : Bool) (d a : Reg) (m : MemX) (x : Ex) (p : Iss) (k : Ctx),
    let c := x.cur
    let I := Instr.aadd h f rel d a m
    let addr (sl : Slot) : Nat := addrOf x.r .glb sl a m.ofs
    let key (sl : Slot) : Key := locKey p (addr sl)
    let tag := p.b.task % 65536 * 2 ^ 16 + c.who % 32 * 2 ^ 11 + k.seq % 2 ^ 11
    let gives (sl : Slot) (b : La) (l : La) : Prop := match f with
      | .val t => Contributed b (fdecode (fmtOf t) (src x.r sl t d)) l
      | .prod t => Contributed b (vmul (fdecode (fmtOf t) (src x.r sl t d))
          (fdecode (fmtOf t) (x.r.rdN sl (d.toNat + tyRegs t) (tyRegs t) % 2 ^ tyW t))) l
      | .la => l = La.merge b (x.r.rdLa sl d.toNat)
    Acts s I h x p k → k.window = [] → CtrRoom k m → p.l.rr = none → (∀ w ∈ s.coh.wc, w.cl ≠ p.cl) →
    1024 ≤ (k.hwm + 2048 - k.seq % 2048) % 2048 → ownHeld s c (x.slots.map key) = false →
    (∀ sl ∈ x.slots, waitsAtCluster s p.cl (key sl) (c.blk, c.who, c.path) = false) →
    (∀ sl ∈ x.slots, checkAccess s p .glb sl (addr sl) 128 ⟨.write, true, false⟩ = none ∧ HasLine s p .acc (key sl)) →
    (∀ sl ∈ x.slots, ∀ l, lineOf s p.cl (key sl) = some l → ∃ img, l.part.la = La.ofImage img) →
    ∃ t r' k', ∃ steps : List (Slot → La), exec I s = .next t ∧ regsOf t c.blk c.who = some r' ∧ Written s x I h 0 0 (fun _ => 0) r'
      ∧ ctxOf t c.blk c.who = some k' ∧ k'.seq = (k.seq + 1) % 2048 ∧ k'.hwm = k.seq ∧ t.mem = s.mem
      ∧ (∀ cl q, ¬(cl = p.cl ∧ ∃ sl ∈ x.slots, key sl = q) → lineOf t cl q = lineOf s cl q)
      ∧ steps.length = x.slots.length + 1
      ∧ (∀ sl ∈ x.slots, ∃ l l', lineOf s p.cl (key sl) = some l ∧ lineOf t p.cl (key sl) = some l' ∧ l'.st = l.st ∧ l'.data = l.data
          ∧ (∀ u, steps[0]? = some u → u sl = l.part.la) ∧ (∀ u, steps[x.slots.length]? = some u → l'.part.la = u sl)
          ∧ (x.slots.length ≤ 8 → l.part.tags = [] → l'.part.tags = [(tag, (x.slots.filter fun q => key q = key sl).length)]))
      ∧ ∀ j sl u v, x.slots[j]? = some sl → steps[j]? = some u → steps[j + 1]? = some v →
          gives sl (u sl) (v sl) ∧ ∀ q ∈ x.slots, (key q = key sl → v q = v sl) ∧ (key q ≠ key sl → v q = u q)

/-- R136, R141, R142, R161: WAITC goes on when its counter is at or below the threshold, else it arms; CADD adds to a counter, a sum
out of range is cause 0x03, and a fall lets the armed paths go on whose threshold it reaches. A releasing FENCE waits for every
earlier access of its threads to a class of its mask that is not performed at its scope, an acquiring one for their reads; one with an
empty mask, or with nothing outstanding and an empty write-combining buffer, goes on.
Model's choices: assumption log 10. -/
def Obligations.CountersWaitsAndFences : Prop :=
  ∀ (s : State) (h : Hdr) (d : Reg) (b : Opnd) (o : FenceOrd) (m : MemX) (x : Ex) (p : Iss) (k : Ctx),
    let c := x.cur
    let v : Int := match b with | .reg r => (x.r.rd .ctl r.toNat).toInt | .imm w => w.toInt
    let old := k.ctrs.getD d.toNat 0
    let next := (c.pc + 12) % 2 ^ 48
    (Acts s (.waitc h d b) h x p k →
      (old ≤ v → OnlyMarks s (.waitc h d b) h x)
      ∧ (v < old → ∃ u k', exec (.waitc h d b) s = .next (orphanAt u c.blk) ∧ u = { s with work := { s.work with blocks := u.work.blocks } }
          ∧ regsOf u c.blk c.who = some x.r ∧ ctxOf u c.blk c.who = some k'
          ∧ k' = { k with order := k.order + 1, armed := k.armed ++ [if c.who = bmsWho then 0 else c.path] }
          ∧ (∀ q, c.who ≠ bmsWho → pathOf s c.blk c.who c.path = some q → ∃ q', pathOf u c.blk c.who c.path = some q'
              ∧ q' = { q with st := .waitc, wait := .ctr d.toNat v none, kills := q'.kills })
          ∧ (c.who = bmsWho → ∀ n, p.b.bms = some n → ∃ e n', blockOf u c.blk = some e ∧ e.bms = some n'
              ∧ (n'.pc, n'.st, n'.wait) = (n.pc, .wait, .ctr d.toNat v none))))
    ∧ (Acts s (.cadd h d b) h x p k →
      (old + v < -32768 ∨ 32767 < old + v → Traps s (.cadd h d b) x false ⟨3, 0, none⟩)
      ∧ (-32768 ≤ old + v → old + v ≤ 32767 → ∃ t k', exec (.cadd h d b) s = .next t
          ∧ t = { s with work := { s.work with blocks := t.work.blocks } } ∧ ctxOf t c.blk c.who = some k'
          ∧ k'.ctrs = k.ctrs.set d.toNat (old + v) ∧ k'.window = k.window ∧ k'.copies = k.copies
          ∧ (k.armed = [] ∨ 0 ≤ v → ∃ r', regsOf t c.blk c.who = some r' ∧ Written s x (.cadd h d b) h 0 0 (fun _ => 0) r')
          ∧ (∀ q, c.who ≠ bmsWho → c.path ∉ k.armed → pathOf s c.blk c.who c.path = some q →
              pathOf t c.blk c.who c.path = some { q with pc := next })
          ∧ (∀ j q thr, c.who ≠ bmsWho → k.armed.Nodup → j ≠ c.path → j ∈ k.armed → pathOf s c.blk c.who j = some q → q.wait = .ctr d.toNat thr none →
              pathOf t c.blk c.who j = some (if v < 0 ∧ old + v ≤ thr then
                { q with pc := (q.pc + 12) % 2 ^ 48, st := .ready, wait := .none, kills := [] } else q))))
    ∧ (Acts s (.fence h o m) h x p k →
      let mine (q : Pend) : Prop := q ∈ k.window ∧ masksMeet q.thr (threadsOf h.g x.mask x.slots) = true
        ∧ ∃ e ∈ pendClasses s p q, storHolds m.stor e = true
      (m.stor = ⟨false, false, false, false⟩ → OnlyMarks s (.fence h o m) h x)
      ∧ (o = .acq → (∀ q, mine q → ∃ h sp t rel al d a m, q.instr = .st h sp t rel al d a m) → OnlyMarks s (.fence h o m) h x)
      ∧ (∀ q, mine q → (o = .acq ∨ storWide m.stor = false ∨ ∀ w ∈ s.coh.wc, w.cl ≠ p.cl) →
          ((o ≠ .acq ∧ q.id < k.order ∧ performedAt s p m.scope q = false)
            ∨ (o ≠ .rel ∧ ¬∃ h sp t rel al d a m, q.instr = .st h sp t rel al d a m)) → exec (.fence h o m) s = .next (fenceYields s c))
      ∧ (k.window = [] → (∀ w ∈ s.coh.wc, w.cl ≠ p.cl) → OnlyMarks s (.fence h o m) h x))

/-- R143, R144, R146, R147, R148: CPY checks its descriptor and joins the open batch, SEAL closes the batch and names it, CBW waits
for the sealed batches up to one and raises their oldest failure, a batch not yet sealed is cause 0x03; DEP waits for
its release, and with nothing outstanding puts its value on the way.
Model's choices: assumption logs 41 and 42. -/
def Obligations.CopiesBatchesAndDeposits : Prop :=
  ∀ (s : State) (h : Hdr) (t : Ty) (d a : Reg) (b : Opnd) (x : Ex) (p : Iss) (k : Ctx), let c := x.cur
    let frame (u : State) : Prop := u = { s with work := { s.work with blocks := u.work.blocks } }
    let open_ := (k.batch + 1) % 2 ^ 32
    let desc := x.r.rdN .ctl a.toNat 8
    let D := copyOf desc
    let marks (i : Instr) (u : State) : Prop := ∃ r', regsOf u c.blk c.who = some r' ∧ Written s x i h 0 0 (fun _ => 0) r'
    let n := src32 x.r .ctl b
    let covered (m : Nat) : Prop := (n + 2 ^ 32 - m % 2 ^ 32) % 2 ^ 32 < 2 ^ 31
    let w := (x.r.rd .ctl a.toNat).toNat
    let good : Prop := w / 2 ^ 28 % 16 = 0 ∧ w / 2 ^ 7 % 2 ^ 9 = 0 ∧ (t = .b64 → w % 2 = 0)
      ∧ (∃ m ∈ planOf s p.b.cohort, m.inCoh = w / 2 ^ 16 % 16) ∧ w / 2 ^ 20 % 16 < p.b.groups.length
    (Acts s (.cpy h a) h x p k →
      (∀ cause ad, copyCheck s p D = some (cause, ad) → Traps s (.cpy h a) x false ⟨cause, ad, none⟩)
      ∧ ((D.reserved ≠ 0 ∨ 4 < D.ssp ∨ 5 < D.dsp ∨ 3 < D.conv) → Traps s (.cpy h a) x false ⟨3, 0, none⟩)
      ∧ (copyCheck s p D = none → (64 ≤ k.copies.length ∨ (D.ctr ≠ 15 ∧ 32767 ≤ k.ctrs.getD D.ctr 0)) → exec (.cpy h a) s = .next s)
      ∧ (copyCheck s p D = none → k.copies.length < 64 → (D.ctr = 15 ∨ k.ctrs.getD D.ctr 0 < 32767) → ∃ u k', exec (.cpy h a) s = .next u
          ∧ frame u ∧ marks (.cpy h a) u ∧ ctxOf u c.blk c.who = some k'
          ∧ k'.copies = k.copies ++ [⟨k.order, BitVec.ofNat 256 desc, open_, 0, false, s.sched.ns, p.runtime⟩] ∧ k'.batch = k.batch
          ∧ k'.ctrs = if D.ctr = 15 then k.ctrs else k.ctrs.set D.ctr (k.ctrs.getD D.ctr 0 + 1)))
    ∧ (Acts s (.seal h d) h x p k →
      ((sealedOpen k).length < 16 → ∃ u r' k', exec (.seal h d) s = .next u ∧ frame u ∧ regsOf u c.blk c.who = some r'
          ∧ Written s x (.seal h d) h d 1 (fun _ => open_) r' ∧ ctxOf u c.blk c.who = some k' ∧ k'.batch = open_ ∧ k'.copies = k.copies)
      ∧ (16 ≤ (sealedOpen k).length → exec (.seal h d) s = .next s))
    ∧ (Acts s (.cbw h b) h x p k →
      let ahead := (n + 2 ^ 32 - k.batch) % 2 ^ 32
      (ahead ≠ 0 → ahead < 2 ^ 31 → Traps s (.cbw h b) x false ⟨3, 0, none⟩)
      ∧ ((ahead = 0 ∨ 2 ^ 31 ≤ ahead) → (∃ q ∈ k.copies, q.batch ≠ open_ ∧ covered q.batch) → exec (.cbw h b) s = .next s)
      ∧ ((ahead = 0 ∨ 2 ^ 31 ≤ ahead) → (∀ q ∈ k.copies, q.batch = open_ ∨ ¬covered q.batch) → (∀ f ∈ k.fails, f.batch = open_ ∨ ¬covered f.batch) →
          OnlyMarks s (.cbw h b) h x)
      ∧ (∀ f, (ahead = 0 ∨ 2 ^ 31 ≤ ahead) → (∀ q ∈ k.copies, q.batch = open_ ∨ ¬covered q.batch) → k.fails = [f] → f.batch ≠ open_ → covered f.batch →
          k.window = [] → exec (.cbw h b) s = .next (trapAt (consumeFail s c.blk c.who f) c false ⟨f.cause, f.addr, none⟩)))
    ∧ (Acts s (.dep h t a b) h x p k →
      (¬good → Traps s (.dep h t a b) x false ⟨3, 0, none⟩)
      ∧ (good → ∀ u, release s p (x.mask.map fun _ => BitVec.allOnes 64) storScrGlb .coh k.order = (u, false) →
          exec (.dep h t a b) s = .next u)
      ∧ (good → k.window = [] → (∀ w ∈ s.coh.wc, w.cl ≠ p.cl) → ∃ u, exec (.dep h t a b) s = .next u ∧ marks (.dep h t a b) u
          ∧ u = { s with work := { s.work with blocks := u.work.blocks, nextUid := s.work.nextUid + 1, deposits := s.work.deposits ++
              [⟨s.work.nextUid, c.blk, c.who, p.b.cohort, w / 2 ^ 16 % 16, w / 2 ^ 20 % 16, w % 2 ^ 7, decide (t = .b64),
                BitVec.ofNat 64 (srcO x.r .ctl t b), w / 2 ^ 24 % 16⟩] } }))

/-- R106 to R109, R116, R140, R166: PREF of lines that are there, or that nothing maps, changes nothing but a count of dropped
prefetches and, with `.x`, E to M; PREF.s of a line that is not there sends its request and raises CTR. DISC of no granule and MHINT of
none, or of ones that need no move, change nothing; DISC of a granule that no cache knows makes its frame dead and drops its
instructions; LQRY tells whether an address is inside the leases; REGION takes the registers of its table entry.
Model's choices: assumption logs 39, 74, 103 and 110. -/
def Obligations.HintsQueriesDiscardsAndRegions : Prop :=
  ∀ (s : State) (h : Hdr) (mode : PrefMode) (tp : TierPlace) (d a b : Reg) (m : MemX) (idx : BitVec 12) (x : Ex) (p : Iss) (k : Ctx),
    let c := x.cur
    let addr (sl : Slot) : Nat := addrOf x.r .glb sl a m.ofs
    let va := addr .ctl
    let n := (x.r.rd .ctl b.toNat).toNat
    let keys := (x.slots.map fun sl => locKey p (addr sl)).foldl (fun ks k => if ks.contains k then ks else ks ++ [k]) []
    let there (q : Key) : Prop := ∃ pte, pteOf s q = some pte ∧ s.mem.backed (keyPa q pte) = true ∧ kindOf s q = some .cached
      ∧ match mode with
        | .s => (pteAttr pte).permits .read p.runtime = true ∧ takeRefusal s p.cl q = none ∧ (lineOf s p.cl q).isSome
        | .x => (pteAttr pte).permits .both p.runtime = true ∧ takeRefusal s p.cl q = none ∧ (held s p.cl q .wr).isSome
        | .wbi => (pteAttr pte).permits .read p.runtime = true ∧ lineOf s p.cl q = none
            ∧ reqOut s p.cl q = false ∧ wbPending s p.cl q = false
    (Acts s (.pref h mode a m) h x p k → CtrRoom k m → (∀ sl ∈ x.slots, addr sl < 2 ^ 48 ∧ p.l.covers (addr sl) 1 = true) →
      (∀ q ∈ keys, there q ∨ pteOf s q = none) →
      ∃ t r', exec (.pref h mode a m) s = .next t ∧ regsOf t c.blk c.who = some r' ∧ Written s x (.pref h mode a m) h 0 0 (fun _ => 0) r'
        ∧ Retires { s with coh := { s.coh with
            prefDrop := s.coh.prefDrop + (keys.filter fun q => (pteOf s q).isNone).length, lines := t.coh.lines } } t c
        ∧ ∀ cl q, lineOf t cl q = if cl = p.cl ∧ q ∈ keys ∧ mode = .x ∧ pteOf s q ≠ none then
            (lineOf s cl q).map fun l => { l with st := .m } else lineOf s cl q)
    ∧ (∀ q pte, Acts s (.pref h .s a m) h x p k → CtrRoom k m → (∀ sl ∈ x.slots, addr sl < 2 ^ 48 ∧ p.l.covers (addr sl) 1 = true) →
      keys = [q] → pteOf s q = some pte → s.mem.backed (keyPa q pte) = true → kindOf s q = some .cached →
      (pteAttr pte).permits .read p.runtime = true → takeRefusal s p.cl q = none → lineOf s p.cl q = none → wbPending s p.cl q = false →
      ∃ t k', exec (.pref h .s a m) s = .next t ∧ reqOut t p.cl q = true ∧ ctxOf t c.blk c.who = some k'
        ∧ k'.ctrs = (if m.ctr = 15 then k.ctrs else k.ctrs.set m.ctr.toNat (k.ctrs.getD m.ctr.toNat 0 + 1)) ∧ k'.window = k.window
        ∧ t.coh.prefs = s.coh.prefs ++ [⟨c.blk, c.who, p.cl, if m.ctr = 15 then none else some m.ctr.toNat, .s, p.runtime, [(q, true)]⟩])
    ∧ (Acts s (.disc h a b m) h x p k → (∀ d ∈ s.coh.discs, ¬(d.blk = c.blk ∧ d.who = c.who ∧ d.path = c.path)) →
      (4096 < n → Traps s (.disc h a b m) x false ⟨3, 0, none⟩)
      ∧ (0 < n → n ≤ 4096 → va < 2 ^ 48 → va % 65536 ≠ 0 → Traps s (.disc h a b m) x false ⟨5, va, none⟩)
      ∧ (n = 0 → CtrRoom k m → k.window = [] →
          (∀ q ∈ s.links.pods, ¬(q.blk = c.blk ∧ q.who = c.who ∧ q.op = k.order)) → (∀ u ∈ s.coh.ucs, u.tag ≠ (c.blk, c.who, k.order)) →
          OnlyMarks s (.disc h a b m) h x)
      ∧ (∀ pte, n = 1 → discCheck s p va 1 = none → CtrRoom k m → k.window = [] → granuleKeys s p.l.asid va = [] →
          pteOf s (keyOf p.l.asid va) = some pte → paTarget (pteFrame pte * 65536) ≤ 7 → (∀ v ∈ s.motion.moves, v.src ≠ pteFrame pte) →
          (podWrites s c.blk c.who k.order).2 = false →
          ∃ t r', exec (.disc h a b m) s = .next t ∧ regsOf t c.blk c.who = some r' ∧ Written s x (.disc h a b m) h 0 0 (fun _ => 0) r'
            ∧ t.mem.dead = insertNat (pteFrame pte) s.mem.dead
            ∧ t.coh.icache = s.coh.icache.filter fun e => !inGranule e.2.1 p.l.asid va))
    ∧ (Acts s (.mhint h tp a b m) h x p k →
      (0 < n → va < 2 ^ 48 → va % 65536 ≠ 0 → Traps s (.mhint h tp a b m) x false ⟨5, va, none⟩)
      ∧ ((n = 0 ∨ (va < 2 ^ 48 ∧ va % 65536 = 0 ∧ p.l.covers va (65536 * n) = true)) →
          (∀ q < n, offerMove s p.l.asid (va + 65536 * q) tp false = .ignored) → OnlyMarks s (.mhint h tp a b m) h x))
    ∧ (Acts s (.lqry h d a m) h x p k → GivesPred s (.lqry h d a m) d fun y sl =>
        let ad := addrOf y.r .glb sl a m.ofs
        decide (ad < 2 ^ 48 ∧ ((∀ q ∈ p.l.ranges, q.2 = 0) ∨ ∃ q ∈ p.l.ranges, q.1 ≤ ad ∧ ad < q.1 + q.2)))
    ∧ (Acts s (.region h idx) h x p k →
      (p.l.k.rcnt ≤ idx.toNat → Traps s (.region h idx) x false ⟨3, 0, none⟩)
      ∧ ∀ l u g,
          let entry := p.l.k.rtab + 128 * idx.toNat
          let slot (j : Nat) : Nat := l.toNat / 2 ^ (16 * j) % 2 ^ 16
          let bad : Prop := ∃ j < 64, slot j / 2 ^ 9 % 2 ^ 6 ≠ 0 ∨ (slot j / 2 ^ 15 = 1 ∧ p.b.v.regs / p.b.v.fold ≤ slot j % 2 ^ 9)
          idx.toNat < p.l.k.rcnt → entry % 128 = 0 → c.who ≠ bmsWho → groupOf s c.blk c.who = some g →
          s.coh.icache.find? (fun e => e.1 == 64 * p.b.die + p.b.core && e.2.1 == keyOf p.l.asid entry)
            = some (64 * p.b.die + p.b.core, keyOf p.l.asid entry, l, u) → (u || p.runtime) = true →
          (bad → Traps s (.region h idx) x false ⟨3, 0, none⟩)
          ∧ (¬bad → ∃ t g', exec (.region h idx) s = .next t ∧ GroupBecomes s t c g g'
              ∧ g' = { issued g with region := g'.region, opbuf := none, ahead := g'.ahead, paths := g.paths.modify c.path fun q => { q with pc := (c.pc + 12) % 2 ^ 48 } }
              ∧ ∀ r, r ∈ g'.region ↔ ∃ j < 64, slot j / 2 ^ 15 = 1 ∧ slot j % 2 ^ 9 = r))

/-- R253, R254, R212: AFIN at homes that stand idle gives each slot its line rounded once, as ACRND without a scale, and with `.clr` the
home clears the line; the registers take what the lanes in ascending order deliver.
Model's choices: assumption logs 10 and 39. -/
def Obligations.AccumulatorLinesAreRead : Prop :=
  ∀ (s s1 s2 : State) (h : Hdr) (mean clr : Bool) (t : Ty) (rm : Rm) (acq : Bool) (d a : Reg) (m : MemX) (x : Ex) (p : Iss) (k : Ctx)
      (vs : List (Slot × Nat)),
    let c := x.cur
    let I := Instr.afin h mean clr t rm acq d a m
    let keys := keysOf p 128 (locsOf s p .glb 128 (accessesOf x.r .glb a m.ofs x.slots))
    (∀ (u v : State) (q : Key) (l : Line) (b : Bool), homeTake u q = (v, .ok l b) → ∃ n w,
        afinLane u q t rm mean clr = (if clr then homeAbsorb v q 0 false else countFar v q, n) ∧ Rounded (fmtOf t) rm false mean (lineLa l) (.fin false 1 0) n w)
    ∧ (Acts s I h x p k → k.window = [] → CtrRoom k m → p.l.rr = none →
        (∀ sl ∈ x.slots, checkAccess s p .glb sl (addrOf x.r .glb sl a m.ofs) 128 ⟨if clr then .both else .read, true, false⟩ = none) →
        gatherHomes s p keys = (s1, .ok) → (∀ q ∈ keys, ∃ l, (homeTake s1 q).2 = .ok l false) →
        afinGo t rm mean clr (x.slots.map fun sl => (sl, locKey p (addrOf x.r .glb sl a m.ofs))) s1 [] = (s2, vs) →
        vs.map (·.1) = x.slots ∧ ∃ u r', exec I s = .next u ∧ u.mem = (keys.foldl farDone s2).mem ∧ regsOf u c.blk c.who = some r'
          ∧ Written s x I h d (tyRegs t) (fun sl => ((vs.find? fun v => v.1 == sl).map (·.2)).getD 0) r')


/-! ### Completions of copies, deposits and sleeps (07, 16); tasks and switch points (16) -/

/-- R144, R146, R147, R148, R310: a copy whose bytes are all written, with the rights that its CPY had, ends and lowers its counter; one
that fails leaves its cause and address to its batch, with nothing written past the failing line (stated for an issuer with no
earlier access outstanding); in a freeze the engine pauses; a deposit writes its register and lowers its counter together;
a sleeping path is READY when its cycles have passed. `afterUnit` is what follows the end of an operation or of a path.
Model's choices: assumption log 40. -/
def Obligations.CopiesDepositsAndSleepsEnd : Prop :=
  ∀ (s : State) (blk who n : Nat) (p : Iss) (k : Ctx) (y : CopyRec),
    let D := copyOf y.desc.toNat
    let ctrs (k : Ctx) : List Int := if D.ctr = 15 then k.ctrs else k.ctrs.set D.ctr (k.ctrs.getD D.ctr 0 - 1)
    let rest := k.copies.filter fun q => q.id != n
    let scrAt (u : State) (o : Nat) : Nat := scrRead u blk o 1
    let rights : Iss := { p with runtime := y.runtime }
    let cohIs (t u : State) : Prop := t.coh = { u.coh with ucs := t.coh.ucs }
    (issOf s blk who = some p → ctxOf s blk who = some k → k.copies.find? (fun q => q.id == n) = some y → k.armed = [] → y.sent = false →
      s.power.frozen = true → exec (.copyComplete blk who n) s = .next s)
    ∧ (issOf s blk who = some p → ctxOf s blk who = some k → k.copies.find? (fun q => q.id == n) = some y → k.armed = [] → y.sent = false →
      s.power.frozen = false → (∀ q ∈ k.window, n ≤ q.id) →
      (∀ w ∈ s.coh.wc, ∀ f ∈ w.from_, ¬(f.2.1 = blk ∧ f.2.2.1 = who ∧ f.2.2.2 < n)) →
      (∀ u e k1, copyTo s rights y 65535 = (u, e) → ctxOf u blk who = some k1 → k1.armed = [] →
        (e = .ok → (podWrites u blk who n).2 = false →
          ∃ t k', exec (.copyComplete blk who n) s = .next (afterUnit t blk) ∧ ctxOf t blk who = some k'
            ∧ k' = { k1 with copies := k1.copies.filter fun q => q.id != n, ctrs := ctrs k1 } ∧ t.mem = u.mem ∧ cohIs t u)
        ∧ (∀ c a, e = .fail c a → ∃ t k', exec (.copyFailure blk who n false) s = .next (afterUnit t blk) ∧ ctxOf t blk who = some k'
            ∧ k' = { k1 with copies := k1.copies.filter fun q => q.id != n, ctrs := ctrs k1, fails := k1.fails ++ [⟨n, y.batch, c, a⟩] }
            ∧ t.mem = u.mem ∧ cohIs t u))
      ∧ (D.rowb = 0 ∨ D.rows = 0 → (∀ q ∈ s.links.pods, ¬(q.blk = blk ∧ q.who = who ∧ q.op = n)) →
          ∃ t k', exec (.copyComplete blk who n) s = .next (afterUnit t blk) ∧ ctxOf t blk who = some k'
            ∧ k' = { k with copies := rest, ctrs := ctrs k } ∧ ∀ o, scrAt t o = scrAt s o)
      ∧ (D.ssp = 1 → D.dsp = 1 → D.conv = 0 → D.rows = 1 → 0 < D.rowb → y.rows = 0 → p.b.scr.Pairwise (fun a b => a.1 < b.1) →
          (∀ q ∈ s.links.pods, ¬(q.blk = blk ∧ q.who = who ∧ q.op = n)) →
          ∃ t k', exec (.copyComplete blk who n) s = .next (afterUnit t blk) ∧ ctxOf t blk who = some k'
            ∧ k' = { k with copies := rest, ctrs := ctrs k } ∧ t.mem = s.mem ∧ cohIs t s
            ∧ ∀ o, scrAt t o = if D.dst ≤ o ∧ o < D.dst + D.rowb then scrAt s (D.src + (o - D.dst)) else scrAt s o)
      ∧ (∀ c, D.ssp = 0 → D.dsp = 1 → D.conv = 0 → 0 < D.rows → 0 < D.rowb → y.rows = 0 →
          gPlace s rights D.src (min D.rowb (128 - D.src % 128)) .read = .bad c →
          ∃ t k', exec (.copyFailure blk who n false) s = .next (afterUnit t blk) ∧ ctxOf t blk who = some k'
            ∧ k' = { k with copies := rest, ctrs := ctrs k, fails := k.fails ++ [⟨n, y.batch, c, D.src⟩] } ∧ ∀ o, scrAt t o = scrAt s o))
    ∧ (∀ d b r, s.work.deposits.find? (fun e => e.id == n) = some d →
        (∀ e ∈ s.work.deposits, e.id < n → ¬(e.src = d.src ∧ e.who = d.who ∧ e.inCoh = d.inCoh ∧ e.grp = d.grp)) →
        memberOf s d.cohort d.inCoh = some b → blockOf s b.uid = some b → d.grp ≠ 16 → ctxOf s b.uid d.grp = some k → k.armed = [] →
        regsOf s b.uid d.grp = some r → -32768 < k.ctrs.getD d.ctr 0 →
        ∃ t r' k', exec (.depositApplied n) s = .next (afterUnit (afterUnit t b.uid) d.src)
          ∧ t.work.deposits = s.work.deposits.filter (fun e => e.id != n) ∧ ctxOf t b.uid d.grp = some k'
          ∧ k' = { k with ctrs := k.ctrs.set d.ctr (k.ctrs.getD d.ctr 0 - 1), gregs := k'.gregs } ∧ regsOf t b.uid d.grp = some r'
          ∧ (∀ m, r'.rd .ctl m = if d.reg ≠ 0 ∧ m = d.reg then d.val.truncate 32
              else if d.reg ≠ 0 ∧ d.wide = true ∧ m = d.reg + 1 then (d.val >>> 32).truncate 32 else r.rd .ctl m)
          ∧ t.mem = s.mem ∧ t.coh = s.coh)
    ∧ (∀ g j q, pathOf s blk g j = some q → q.st = .sleep → q.wake ≤ s.sched.cycle → s.power.frozen = false →
        ∃ t, exec (.sleepExpiry blk g j) s = .next (afterUnit t blk) ∧ pathOf t blk g j = some { q with st := .ready }
          ∧ t = { s with work := { s.work with blocks := t.work.blocks } })

/-- R323 to R327: SWPT waits in BARW, and the path goes on where it is the only live one of its block and no yield is asked for;
SUSPEND checks its object and waits, first for its counter; SIGNAL takes its delta off COUNT at the object's home and clears
WAITER when that fires; SPAWN and LAUNCH put their record at the tail of their queue, with PRIO from the queue. A wrong address,
queue or KIND traps with no effect; a full queue, or an access that the release orders, makes the instruction wait.
Model's choices: assumption logs 10, 51, 53 and 104. -/
def Obligations.TasksAndSwitchPoints : Prop :=
  ∀ (s : State) (h : Hdr) (a b : Reg) (id : BitVec 16) (x : Ex) (p : Iss) (k : Ctx) (g : Group) (q : Path),
    let c := x.cur
    let va := if a.toNat = 0 then 0 else x.r.rdN .ctl a.toNat 2
    let key := keyOf p.l.asid va
    let word := (x.r.rd .ctl b.toNat).toNat
    let next := (c.pc + 12) % 2 ^ 48
    let clear : Prop := k.window = [] ∧ ∀ w ∈ s.coh.wc, w.cl ≠ p.cl
    let marks (i : Instr) (t : State) : Prop := ∃ r', regsOf t c.blk c.who = some r' ∧ Written s x i h 0 0 (fun _ => 0) r'
    let stands (w : Wait) (st : PState) (armed : List Nat) (u : State) : Prop := ∃ ks,
      GroupBecomes s u c g { issued g with
        ctx := { (issued g).ctx with armed := g.ctx.armed ++ armed }
        paths := g.paths.modify c.path fun q => { q with st := st, wait := w, kills := ks } }
    (Acts s (.swpt h id) h x p k → OnPath s x g q →
      ((k.window = [] ∨ ∀ y, cohortOf s p.b.cohort = some y → y.yield = false) →
        ∃ u, exec (.swpt h id) s = .next (afterUnit u c.blk) ∧ stands (.swpt id.toNat) .barw [] u)
      ∧ (s.work.blocks = [p.b] → p.b.groups = [g] → p.b.bms = none → g.tokens = [] → g.paths.length = 8 → c.path < 8 →
          (∀ j r, j ≠ c.path → g.paths[j]? = some r → r.st = .free ∧ r.wait = .none) →
          (∀ y, cohortOf s p.b.cohort = some y → y.yield = false) → p.b.broken = false → q.trap = none →
          ∃ t, exec (.swpt h id) s = .next t ∧ pathOf t c.blk c.who c.path = some { q with pc := next, wait := .none, kills := [] }))
    ∧ (Acts s (.suspend h a b) h x p k → OnPath s x g q →
      (∀ cause, joinCheck s p va = some cause → Traps s (.suspend h a b) x false ⟨cause, va, none⟩)
      ∧ (va % 64 ≠ 0 → Traps s (.suspend h a b) x false ⟨5, va, none⟩)
      ∧ (joinCheck s p va = none →
          let thr := sextN 11 (word / 2 ^ 21)
          let cw : Prop := word / 2 ^ 16 % 2 = 1 ∧ thr < k.ctrs.getD (word / 2 ^ 17 % 16) 0
          ∃ u, exec (.suspend h a b) s = .next (afterUnit u c.blk)
            ∧ (cw → stands (.ctr (word / 2 ^ 17 % 16) thr (some (va, word))) .waitc [c.path] u)
            ∧ (¬cw → stands (.suspend va word) .barw [] u)))
    ∧ (Acts s (.signal h a b) h x p k →
      (∀ cause, joinCheck s p va = some cause → Traps s (.signal h a b) x false ⟨cause, va, none⟩)
      ∧ (∀ u, joinCheck s p va = none → sysRelease s p x = (u, false) → exec (.signal h a b) s = .next u)
      ∧ (∀ s1 l v u, joinCheck s p va = none → clear → takeRefusal s p.cl key = none → joinLine s p.l.asid va = (s1, .ok l false) → v = lineGet l (va % 128) 64 →
          let delta : Int := if b = 0 then 1 else (x.r.rd .ctl b.toNat).toInt
          let n := (((v % 2 ^ 32 : Nat) - delta) % 2 ^ 32).toNat
          let fires : Prop := (n = 0 ∨ 2 ^ 31 ≤ n) ∧ v / 2 ^ 64 % 2 = 1
          let at_ (z : State) (w : Nat) : State := farDone (homeAbsorb z key (linePut l (va % 128) 64 w) false) key
          let is (t z : State) : Prop := t.mem = z.mem ∧ t.coh = { z.coh with homeWaits := t.coh.homeWaits }
          (¬fires → ∃ t, exec (.signal h a b) s = .next t ∧ marks (.signal h a b) t
              ∧ is t (at_ s1 (v - v % 2 ^ 32 + n)) ∧ t.work.qtail = s1.work.qtail)
          ∧ (fires → queueAppend s1 (v / 2 ^ 66 % 64) (v / 2 ^ 256) p.l.asid 0 = (u, true) →
              ∃ t, exec (.signal h a b) s = .next t ∧ marks (.signal h a b) t ∧ is t (at_ u (v - v % 2 ^ 32 + n - 2 ^ 64))
                ∧ t.work.qtail = s1.work.qtail.set (v / 2 ^ 66 % 64)
                    (((s1.work.qtail.get? (v / 2 ^ 66 % 64)).getD 0 + 1) % (s1.work.qsize.get? (v / 2 ^ 66 % 64)).getD 0))))
    ∧ (∀ i kind, (i = .spawn h a b ∧ kind = 0) ∨ (i = .launch h a b ∧ kind = 3) → Acts s i h x p k →
      let rec_ := x.r.rdN .ctl a.toNat 8
      let size := (s.work.qsize.get? word).getD 0
      let tail := (s.work.qtail.get? word).getD 0
      let room : Prop := size ≠ 0 ∧ (tail + 1) % size ≠ (s.work.qhead.get? word).getD 0
      (64 ≤ word ∨ rec_ / 2 ^ 252 ≠ kind → Traps s i x false ⟨3, 0, none⟩)
      ∧ (∀ u, word < 64 → rec_ / 2 ^ 252 = kind → sysRelease s p x = (u, false) → exec i s = .next u)
      ∧ (word < 64 → rec_ / 2 ^ 252 = kind → clear → ¬room → exec i s = .next s)
      ∧ (∀ u, word < 64 → rec_ / 2 ^ 252 = kind → clear → room →
          engWrite s ((s.work.qbase.get? word).getD 0 + 32 * tail) 32
            (if kind = 0 then rec_ - rec_ / 2 ^ 160 % 4 * 2 ^ 160 + word / 16 * 2 ^ 160 else rec_) = (u, true) →
          ∃ t, exec i s = .next t ∧ marks i t ∧ t.mem = u.mem ∧ t.coh = u.coh
            ∧ t.work.qtail = u.work.qtail.set word ((tail + 1) % size)
            ∧ ∃ e ∈ t.work.origin, e = (word, tail, p.l.asid, p.l.prv)))

/-! ### Class 6: the matrix unit (12) -/

/-- R227 to R232, R241, R244, R60: MZ zeroes its tiles; MMA and MMAS make their checks and start with pass 0, the PC where it is; a pass
contributes each product of its row of A and its row of B, in order, to each of the 4,096 elements of its z tile and to nothing else,
the unit takes the mode of the alarm, and after the last pass the PC goes on by 12. `passTerms` lists the products; for a dense
operand pair in y tiles, a float format, they are as R224 and R229 place them. What PERF_MESC gains is a free value.
Model's choices: assumption logs 43, 55, 56 and 57. -/
def Obligations.MatrixPassesContributeProducts : Prop :=
  ∀ (s : State) (h : Hdr) (sh : Shape) (nk : NK) (d dn sa : Reg) (a b : MSrc) (x : Ex) (p : Iss) (k : Ctx) (n : Bms),
    let c := x.cur
    let Z (b : Block) (m i j : Nat) : ZEl := (zTileOf b m).el i j
    let multiply (i : Instr) (high : Prop) : Prop :=
      (mulOf x.r i = none → Traps s i x false ⟨3, 0, none⟩)
      ∧ ∀ m, mulOf x.r i = some m →
        (∀ cause hi, (hi = true ↔ high) → mulCheck p.b m hi = some cause → Traps s i x false ⟨cause, 0, none⟩)
        ∧ (¬high → mulCheck p.b m false = none → tilesBusy p.b (shapeZs m.sh m.d) (mopTiles m.a m.la ++ mopTiles m.b m.lb) = true →
            exec i s = .next s)
        ∧ (¬high → mulCheck p.b m false = none → tilesBusy p.b (shapeZs m.sh m.d) (mopTiles m.a m.la ++ mopTiles m.b m.lb) = false →
            ∃ t, exec i s = .next t ∧ blockOf t c.blk = some { p.b with bms := some { n with prog := some (0, i), ctx := { k with order := k.order + 1 } } }
              ∧ (coreState t (64 * p.b.die + p.b.core)).narrow = s.power.alarm ∧ t.mem = s.mem ∧ t.coh = s.coh)
    (Acts s (.mz h d dn) h x p k →
      (p.b.ztiles.length < d.toNat + dn.toNat → Traps s (.mz h d dn) x false ⟨3, 0, none⟩)
      ∧ (d.toNat + dn.toNat ≤ p.b.ztiles.length → tilesBusy p.b ((List.range dn.toNat).map fun q => d.toNat + q) [] = false →
          ∃ t r' b', exec (.mz h d dn) s = .next t ∧ regsOf t c.blk c.who = some r' ∧ Written s x (.mz h d dn) h 0 0 (fun _ => 0) r'
            ∧ blockOf t c.blk = some b' ∧ b' = { p.b with ztiles := b'.ztiles, bms := b'.bms } ∧ t.mem = s.mem ∧ t.coh = s.coh
            ∧ ∀ m i j, Z b' m i j = if d.toNat ≤ m ∧ m < d.toNat + dn.toNat then ⟨0, ⟨0, false, false, 0, 0⟩⟩ else Z p.b m i j))
    ∧ (Acts s (.mma h sh d a b) h x p k → p.b.bms = some n → multiply (.mma h sh d a b) False)
    ∧ (Acts s (.mmas h sh nk d sa b) h x p k → p.b.bms = some n →
        multiply (.mmas h sh nk d sa b) ((x.r.rd .ctl (sa.toNat + 2)).toNat / 2 ^ 24 ≠ 0))
    ∧ ∀ blk B i op pass mi ni, blockOf s blk = some B → B.bms = some n → n.prog = some (pass, i) → mulOf n.regs i = some op → B.halted = false →
        issOf s blk bmsWho = some p → s.power.frozen = false → pass < (shapeDims op.sh).1 * (shapeDims op.sh).2 → op.d + pass < B.ztiles.length →
        pass = mi + (shapeDims op.sh).1 * ni → mi < (shapeDims op.sh).1 →
        (∀ r q, r < 64 → q < 64 → let e := Z B (op.d + pass) r q
          e.s = wrapS e.s ∧ e.st.count < 65536 ∧ e.st.ninf < 128 ∧ e.st.pinf < 128) →
        ∃ t B' n', exec (.matrixPassComplete blk) s = .next t ∧ blockOf t blk = some B' ∧ B'.bms = some n'
          ∧ (coreState t (64 * B.die + B.core)).narrow = s.power.alarm ∧ t.mem = s.mem ∧ t.coh = s.coh
          ∧ B' = { B with ztiles := B'.ztiles, bms := some n' }
          ∧ n' = { n with replay := n'.replay, fill := n'.fill, ctx := { n.ctx with gregs := n'.ctx.gregs, kpreds := n'.ctx.kpreds }
                          prog := if pass + 1 = (shapeDims op.sh).1 * (shapeDims op.sh).2 then none else some (pass + 1, i)
                          pc := if pass + 1 = (shapeDims op.sh).1 * (shapeDims op.sh).2 then (n.pc + 12) % 2 ^ 48 else n.pc }
          ∧ (∀ m r q, m ≠ op.d + pass → Z B' m r q = Z B m r q)
          ∧ (∀ r q, r < 64 → q < 64 → ∃ steps : List La, steps.length = (passTerms B op mi ni r q).length + 1
              ∧ (∀ u, steps[0]? = some u → u.s = (Z B (op.d + pass) r q).s ∧ u.st = (Z B (op.d + pass) r q).st)
              ∧ (∀ u, steps[(passTerms B op mi ni r q).length]? = some u → Z B' (op.d + pass) r q = ⟨u.s, u.st⟩)
              ∧ ∀ e u w v, steps[e]? = some u → steps[e + 1]? = some w → (passTerms B op mi ni r q)[e]? = some v → Contributed u v w)
          ∧ ∀ ya yb f, op.a = .tile ya f → op.b = .tile yb f → op.sparse = none → op.la.ys = 1 → op.lb.ys = 1 → mfmtBytes f ≠ 1 →
              ∀ r q e, r < 64 → q < 64 → e < 384 / mfmtBytes f → (passTerms B op mi ni r q)[e]? = some (vmul
                (fdecode (mfmtFp f) ((yTileOf B (ya + mi)).read (384 * r + mfmtBytes f * e) (mfmtBytes f)))
                (fdecode (mfmtFp f) ((yTileOf B (yb + ni)).read (384 * q + mfmtBytes f * e) (mfmtBytes f))))

/-- R233 to R239, R241: MDRAIN, MSPILL and MFILL make their checks and start with row 0, MSPILL taking its SEQ; a check that fails traps
with no effect. A row of MDRAIN into scratchpad without a residual writes for each element one value rounded once, as ACRND with the
drain's scale, +0 where the drain generator drops it, and nothing else; any other row reads its residual and then writes. A row of
MSPILL merges each element into its line of the cluster; a row of MFILL reads S and status of each line. After the last row `.clr`
zeroes the tiles, MFILL's take what was read, SEQ goes on by one, and so does the PC; a row that fails traps there. Lines are those that
the cluster can serve at once.
Model's choices: assumption logs 54 and 95. -/
def Obligations.MatrixTilesLeaveAndReturn : Prop :=
  ∀ (s : State) (h : Hdr) (t : Ty) (rm : Rm) (sat : Bool) (y : DrainX) (sh : Shape) (clr : Bool) (d a : Reg) (x : Ex) (p P : Iss) (k : Ctx)
      (n N : Bms) (blk r : Nat),
    let c := x.cur
    let Z (b : Block) (m i j : Nat) : ZEl := (zTileOf b m).el i j
    let E (b : Block) (sh : Shape) (i j : Nat) : ZEl := Z b (d.toNat + i / 64 + (shapeDims sh).1 * (j / 64)) (i % 64) (j % 64)
    let zero : ZEl := ⟨0, ⟨0, false, false, 0, 0⟩⟩
    let rows (sh : Shape) : Nat := 64 * (shapeDims sh).1
    let cols (sh : Shape) : Nat := 64 * (shapeDims sh).2
    let covered (sh : Shape) (m : Nat) : Prop := d.toNat ≤ m ∧ m < d.toNat + (shapeDims sh).1 * (shapeDims sh).2
    let D (r : Regs) := Machine.drainOf (r.rdN .ctl a.toNat 12)
    let w := tyBytes t
    let base (r : Regs) := r.rdN .ctl a.toNat 2
    let pitch (r : Regs) := (r.rd .ctl (a.toNat + 2)).toNat
    let I := Instr.mdrain h t rm sat y d a
    let J := Instr.mspill h sh clr d a
    let K := Instr.mfill h sh d a
    let busy (sh : Shape) : Bool := tilesBusy p.b (shapeZs sh d.toNat) []
    let starts (i : Instr) (replay : Bool) (hwm : Nat) : Prop := ∃ u, exec i s = .next u ∧ u.mem = s.mem ∧ u.coh = s.coh
      ∧ blockOf u c.blk = some { p.b with bms := some { n with
          prog := some (0, i), replay := replay, fill := [], ctx := { k with order := k.order + 1, hwm := hwm } } }
    let at_ (i : Instr) (sh : Shape) : Prop := issOf s blk bmsWho = some P ∧ P.b.bms = some N ∧ N.prog = some (r, i) ∧ P.b.halted = false
      ∧ s.power.frozen = false ∧ r < rows sh ∧ P.l.rr = none ∧ d.toNat + (shapeDims sh).1 * (shapeDims sh).2 ≤ P.b.ztiles.length
    let goes (i : Instr) (sh : Shape) (v : State) (q : Bms → Prop) (z : Nat → Nat → Nat → ZEl) : Prop :=
      exec (.matrixPassComplete blk) s = .next v ∧ ∃ b m, blockOf v blk = some b ∧ b.bms = some m ∧ q m
        ∧ (if r + 1 < rows sh then m.prog = some (r + 1, i) ∧ m.pc = N.pc ∧ b.ztiles = P.b.ztiles
          else m.prog = none ∧ m.pc = (N.pc + 12) % 2 ^ 48 ∧ ∀ m i j, i < 64 → j < 64 → Z b m i j = z m i j)
    let cleared (on : Bool) (sh : Shape) (m i j : Nat) : ZEl := if on = true ∧ covered sh m then zero else Z P.b m i j
    let key (j : Nat) : Key := locKey P (base N.regs + r * pitch N.regs + 128 * j)
    let aligned : Prop := base N.regs % 128 = 0 ∧ pitch N.regs % 128 = 0 ∧ 128 * cols sh ≤ pitch N.regs
    let bares (u : State) : Prop := u.mem = s.mem ∧ ∀ cl q, (lineOf u cl q).map bare = (lineOf s cl q).map bare
    (Acts s I h x p k → p.b.bms = some n →
      (∀ cause ad, drainCheck s p y t d.toNat (D x.r) = some (cause, ad) → Traps s I x false ⟨cause, ad, none⟩)
      ∧ (drainCheck s p y t d.toNat (D x.r) = none → busy y.shape = true → exec I s = .next s)
      ∧ (drainCheck s p y t d.toNat (D x.r) = none → busy y.shape = false → starts I false k.hwm))
    ∧ (Acts s J h x p k → p.b.bms = some n →
      (∀ f, spillCheck s p sh d.toNat (base x.r) (pitch x.r) .write = some f → walkFault f = false → Traps s J x false f)
      ∧ (spillCheck s p sh d.toNat (base x.r) (pitch x.r) .write = none → busy sh = false →
          ownHeld s c (contribKeys (spillContribs p sh d.toNat (base x.r) (pitch x.r) (shapeIndices sh))) = false →
          starts J (isReplay k) (if isReplay k then k.hwm else k.seq)))
    ∧ (Acts s K h x p k → p.b.bms = some n →
      (∀ f, spillCheck s p sh d.toNat (base x.r) (pitch x.r) .read = some f → Traps s K x false f)
      ∧ (spillCheck s p sh d.toNat (base x.r) (pitch x.r) .read = none → busy sh = false → starts K false k.hwm))
    ∧ (at_ I y.shape → (podWrites s blk bmsWho N.ctx.order).1 = false →
      (y.glb = false → y.res = none → P.b.scr.Pairwise (fun a b => a.1 < b.1) → ∃ v, goes I y.shape v (fun _ => True) (cleared y.clr y.shape)
          ∧ v.mem = s.mem ∧ v.coh = { s.coh with ucs := v.coh.ucs }
          ∧ (∀ j < cols y.shape, let o := scrRead v blk ((D N.regs).daddr + r * (D N.regs).dpitch + j * w) w
              if y.mask && !keepBit (D N.regs).k0 (D N.regs).k1 (D N.regs).thresh (((D N.regs).row0 + r) % 2 ^ 32) (((D N.regs).col0 + j) % 2 ^ 32)
              then o = 0
              else let e := E P.b y.shape r j
                e.s = wrapS e.s → ∃ z, Rounded (fmtOf t) rm sat false e.la (fdecode f32 (D N.regs).scale) o z)
          ∧ ∀ o, ¬((D N.regs).daddr + r * (D N.regs).dpitch ≤ o ∧ o < (D N.regs).daddr + r * (D N.regs).dpitch + cols y.shape * w) →
              scrRead v blk o 1 = scrRead s blk o 1)
      ∧ ∀ s1 u v, (match y.res with
            | some (g, f) => rowRead s P N.ctx.order g ((D N.regs).raddr + r * (D N.regs).rpitch) (cols y.shape * ffmtBytes f)
            | none => (s, .ok, 0)) = (s1, .ok, v) →
          rowWrite s1 P N.ctx.order y.glb ((D N.regs).daddr + r * (D N.regs).dpitch) (cols y.shape * w)
            (drainRow P.b y t rm sat d.toNat (D N.regs) r v) = (u, .ok) → (podWrites u blk bmsWho N.ctx.order).1 = false →
          blockOf u blk = some { P.b with scr := ((blockOf u blk).map (·.scr)).getD [] } →
          ∃ u', goes I y.shape u' (fun _ => True) (cleared y.clr y.shape) ∧ u'.mem = u.mem ∧ u'.coh = { u.coh with ucs := u'.coh.ucs }
            ∧ ∀ o, scrRead u' blk o 1 = scrRead u blk o 1)
    ∧ (at_ J sh → aligned → N.replay = false → spillLines s P (base N.regs) (pitch N.regs) .write (rowIndices sh r) = none →
      (∀ j < cols sh, HasLine s P .acc (key j) ∧ waitsAtCluster s P.cl (key j) (blk, bmsWho, 0) = false) →
      ∃ v, goes J sh v (fun m => m.ctx.seq = if r + 1 < rows sh then N.ctx.seq else (N.ctx.seq + 1) % 2048) (cleared clr sh)
        ∧ v.mem = s.mem ∧ (∀ cl q, ¬(cl = P.cl ∧ ∃ j < cols sh, key j = q) → lineOf v cl q = lineOf s cl q)
        ∧ ∀ j l, j < cols sh → lineOf s P.cl (key j) = some l → ∃ l', lineOf v P.cl (key j) = some l'
            ∧ l'.part.la = La.merge l.part.la (E P.b sh r j).la ∧ l'.st = l.st ∧ l'.data = l.data)
    ∧ (at_ K sh → aligned → (∀ j < cols sh, HasLine s P .rd (key j)
        ∧ gPlace s P (base N.regs + r * pitch N.regs + 128 * j) 128 .read = .mem) →
      let el (j : Nat) : ZEl := match lineOf s P.cl (key j) with
        | some l => ⟨(La.ofImage (BitVec.ofNat 768 (lineGet l.data 0 96))).s, (La.ofImage (BitVec.ofNat 768 (lineGet l.data 0 96))).st⟩
        | none => zero
      let full := N.fill ++ (List.range (cols sh)).map fun j => (r, j, el j)
      ∃ v, bares v ∧ exec (.matrixPassComplete blk) s = .next v ∧ ∃ b m, blockOf v blk = some b ∧ b.bms = some m
        ∧ (r + 1 < rows sh → m.prog = some (r + 1, K) ∧ m.pc = N.pc ∧ m.fill = full ∧ b.ztiles = P.b.ztiles)
        ∧ (r + 1 = rows sh → (full.map fun q => (q.1, q.2.1)).Nodup → (∀ q ∈ full, q.1 < rows sh ∧ q.2.1 < cols sh) →
            m.prog = none ∧ m.pc = (N.pc + 12) % 2 ^ 48 ∧ (∀ q ∈ full, E b sh q.1 q.2.1 = q.2.2)
              ∧ ∀ m i j, ¬covered sh m → i < 64 → j < 64 → Z b m i j = Z P.b m i j))
    ∧ ∀ i sh' u f, at_ i sh' → rowsOf i = rows sh' → rowStep s P N r i = (u, .fault f) →
        ∃ v word, exec (.matrixPassComplete blk) s = .next (trapAt v ⟨blk, bmsWho, 0, N.pc, word⟩ false f) ∧ v.mem = u.mem ∧ v.coh = u.coh

/-! ### Class 6: collectives (14) -/

/-- R271 to R275, R280, R281: COLL and CREC make their checks, a fifth incomplete collective waits; a COLL that every chunk leaves waiting
for its inputs sets EPOCH and EXPECTED, zeroes the rest of its barrier object, and holds its own elements, each contributed once;
CREC keeps EPOCH, clears ABORT and ACAUSE and sends its progress vector to the other survivors. ABW goes on when DONE = EXPECTED,
raises 0x13 on ABORT, and else waits.
Model's choices: assumption logs 59 and 61. -/
def Obligations.CollectivesAreIssuedAndAwaited : Prop :=
  ∀ (s s1 : State) (h : Hdr) (op : CollOp) (y : CollX) (a : Reg) (x : Ex) (p : Iss) (k : Ctx) (v : Nat),
    let c := x.cur
    let C := { (collRead s x op y a).2.2 with members := membersOf v (collRead s x op y a).2.2.n }
    let desc := (collRead s x op y a).1
    let w := (collRead s x op y a).2.1
    let abo := (x.r.rd .ctl a.toNat).toNat
    let open_ := (((p.b.bms.map (·.colls)).getD []).filter (·.open_)).length
    let marks (i : Instr) (u : State) : Prop := ∃ r', regsOf u c.blk c.who = some r' ∧ Written s x i h 0 0 (fun _ => 0) r'
    let bytesApart (u : State) : Prop := ∀ o, ¬(C.abo ≤ o ∧ o < C.abo + 16) → scrRead u c.blk o 1 = scrRead s c.blk o 1
    let common (i : Instr) (rec_ : Bool) : Prop :=
      (∀ cause ad, collCheck s p (collRead s x op y a).2.2 w desc rec_ = some (cause, ad) → Traps s i x false ⟨cause, ad, none⟩)
      ∧ (collCheck s p (collRead s x op y a).2.2 w desc rec_ = none → 4 ≤ open_ → exec i s = .next s)
      ∧ (∀ u v n, collCheck s p (collRead s x op y a).2.2 w desc rec_ = none → open_ < 4 →
          spanRead s p (C.access 0) C.mtab (8 * C.n) = (u, .wait, v, n) → exec i s = .next (asked s u))
    let cohIs (t : State) : Prop := t.coh = { s1.coh with ucs := t.coh.ucs }
    let ready (rec_ : Bool) : Prop := collCheck s p (collRead s x op y a).2.2 w desc rec_ = none ∧ open_ < 4
      ∧ (∃ n, spanRead s p (C.access 0) C.mtab (8 * C.n) = (s1, .ok, v, n)) ∧ blockOf s1 c.blk = some p.b
      ∧ (∀ m ∈ s1.links.heldMsgs, ¬(m.1 = c.blk ∧ m.2.commid = C.commid)) ∧ p.b.scr.Pairwise fun a b => a.1 < b.1
    (Acts s (.abw h a) h x p k →
      (abo % 16 ≠ 0 → Traps s (.abw h a) x false ⟨5, abo, none⟩)
      ∧ (abo % 16 = 0 → p.b.v.scr < abo + 16 → Traps s (.abw h a) x false ⟨7, abo, none⟩)
      ∧ (abo % 16 = 0 → abo + 16 ≤ p.b.v.scr → let o := scrRead s c.blk abo 16
          (o / 2 ^ 65 % 2 = 1 → Traps s (.abw h a) x false ⟨0x13, 0, none⟩)
          ∧ (o / 2 ^ 65 % 2 = 0 → (o % 2 ^ 32 = 0 ∨ o / 2 ^ 32 % 2 ^ 32 = o % 2 ^ 32) → OnlyMarks s (.abw h a) h x)
          ∧ (o / 2 ^ 65 % 2 = 0 → o % 2 ^ 32 ≠ 0 → o / 2 ^ 32 % 2 ^ 32 ≠ o % 2 ^ 32 → exec (.abw h a) s = .next s)))
    ∧ (Acts s (.coll h op y a) h x p k →
      common (.coll h op y a) false
      ∧ ∀ f n, y.obj = .yTile n → y.fmt = .fp f → C.reduces = true → (∀ q < C.chunks, C.inputs (C.pos q C.rank) ≠ []) → ready false →
          ∃ t b' m' c', exec (.coll h op y a) s = .next t ∧ marks (.coll h op y a) t ∧ blockOf t c.blk = some b' ∧ b'.bms = some m' ∧ c' ∈ m'.colls
            ∧ b' = { p.b with scr := b'.scr, bms := some m' } ∧ bytesApart t ∧ t.mem = s1.mem ∧ cohIs t
            ∧ t.links = { s1.links with pods := t.links.pods }
            ∧ scrRead t c.blk C.abo 16 = C.expected + (scrRead s c.blk (C.abo + 12) 4 + 1) % 2 ^ 32 * 2 ^ 96
            ∧ c' = { C with epoch := (scrRead s c.blk (C.abo + 12) 4 + 1) % 2 ^ 32, parts := c'.parts, opened := c'.opened }
            ∧ ∀ q < C.chunks, ∃ images, c'.parts.get? q = some images ∧ images.length = (C.span q).2
                ∧ ∀ e g, images[e]? = some g → ∃ z u : La, z.s = 0 ∧ z.st = ⟨0, false, false, 0, 0⟩ ∧ g = La.toImage u
                    ∧ Contributed z (fdecode (ffmtFp f) ((yTileOf p.b n.toNat).read (((C.span q).1 + e) * ffmtBytes f) (ffmtBytes f))) u)
    ∧ (Acts s (.crec h op y a) h x p k →
      common (.crec h op y a) true
      ∧ ∀ q, ((p.b.bms.map (·.colls)).getD []).find? (fun d => d.abo == C.abo) = some q → ready true → 2 ≤ C.n → C.rank < C.n →
          let was (n : Nat) : Nat × Bool := (q.prog.get? n).getD (0, false)
          ∃ t b' m' c', exec (.crec h op y a) s = .next t ∧ marks (.crec h op y a) t ∧ blockOf t c.blk = some b' ∧ b'.bms = some m' ∧ c' ∈ m'.colls
            ∧ bytesApart t ∧ t.mem = s1.mem ∧ cohIs t
            ∧ (let o := scrRead t c.blk C.abo 16; let old := scrRead s c.blk C.abo 16
               o % 2 ^ 32 = C.expected % 2 ^ 32 ∧ o / 2 ^ 32 % 2 ^ 32 = (q.prog.filter fun d => d.2.2).length % 2 ^ 32
                 ∧ o / 2 ^ 64 % 2 = old / 2 ^ 64 % 2 ∧ o / 2 ^ 65 % 8 = 0 ∧ o / 2 ^ 68 = old / 2 ^ 68)
            ∧ c'.recovering = true ∧ c'.prog = q.prog ∧ c'.epoch = C.epoch
            ∧ (c'.same = true ↔ q.n = C.n ∧ q.members = C.members ∧ q.rank = C.rank)
            ∧ t.links.out = s1.links.out ++ ((List.range C.n).filter fun r => r != C.rank).map fun r =>
                (C.members.getD r 0, ⟨C.commid, C.epoch, C.n, 0, 0, C.rank, .progress ((List.range C.chunks).map was)⟩))

/-- R268 to R270, R275 to R277, R279: a well-formed packet of partials of members that the open step expects is merged element by
element; one already added counts in PERF_COLLDUP, one that its step has closed without raises LATE, as does a message of an earlier
epoch, and one that is not well formed counts as a link error. A deadline that passes closes the step with what it has and sets PARTIAL;
a step that closes sends its packed partials up, or where the chunk is decided rounds each element once, as ACRND rounds with no scale,
and then stores its progress. A member that owes an input for 1 ms, and a report of one, stop every collective with it: ABORT and its
cause; stated for a package with one block. `afterUnit` is what follows.
Model's choices: assumption logs 58, 60, 62, 63 and 65. -/
def Obligations.CollectivesTakeMessagesAndStop : Prop :=
  ∀ (s s1 : State) (blk : Nat) (m : CollMsg) (b : Block) (n : Bms) (c : Coll) (p : Iss),
    let abo (u : State) : Nat := scrRead u blk c.abo 16
    let q := m.chunk
    let at_ := c.pos q c.rank
    let seen := (c.srcs.get? q).getD []
    let got := (c.parts.get? q).getD []
    let mine (u : State) : Prop := abo u / 2 ^ 96 % 2 ^ 32 = c.epoch
    let collsOf (u : State) (d : Coll) : Prop := ∃ b' n', blockOf u blk = some b' ∧ b'.bms = some n' ∧ n'.colls = [d]
      ∧ b' = { b with scr := b'.scr, bms := some { n with colls := [d] } }
    let others (u : State) : Prop := u = { s1 with
        work := { s1.work with blocks := u.work.blocks }, links := u.links, coh := { s1.coh with ucs := u.coh.ucs } }
      ∧ u.links = { s1.links with
          heldMsgs := s1.links.heldMsgs.filter (fun e => e != (blk, m)), collDup := u.links.collDup, errors := u.links.errors
          pods := u.links.pods }
    let late (u : State) : Prop := abo u = abo s - abo s / 2 ^ 80 % 2 ^ 16 * 2 ^ 80 + min 65535 (abo s / 2 ^ 80 % 2 ^ 16 + 1) * 2 ^ 80
    let counts (u : State) (dup errors : Nat) : Prop := u.links.collDup = s1.links.collDup + dup ∧ u.links.errors = s1.links.errors + errors
    let stops (i : Instr) (cause : Nat) : Prop := ∃ u, exec i s = .next (afterUnit u blk)
      ∧ collsOf u { c with aborted := true, recovering := false }
      ∧ u = { s with work := { s.work with blocks := u.work.blocks } } ∧ abo u / 2 ^ 65 % 2 = 1 ∧ abo u / 2 ^ 66 % 4 = cause
      ∧ abo u % 2 ^ 65 = abo s % 2 ^ 65 ∧ abo u / 2 ^ 68 = abo s / 2 ^ 68
    let alone : Prop := s.work.blocks = [b] ∧ s.work.away = [] ∧ c.working = true ∧ mine s
    blockOf s blk = some b → b.bms = some n → n.colls = [c] → issOf s blk 16 = some p → b.scr.Pairwise (fun a b => a.1 < b.1) →
    (takeSent s b m = some s1 → s1 = { s with links := s1.links } → m.commid = c.commid → c.aborted = false → c.recovering = false →
      (earlier m.epoch c.epoch = true → ∃ u, exec (.collMessage blk m) s = .next (afterUnit u blk) ∧ others u ∧ collsOf u c ∧ late u
        ∧ counts u 0 0)
      ∧ ∀ ps flag tag merged, m.body = .partials ps flag tag merged → m.epoch = c.epoch → m.n = c.n → m.src < c.n → c.reduces = true →
          q < c.chunks → (∀ r ∈ m.src :: merged, c.pos q r ∈ c.inputs at_ ∧ m.step = c.closes (c.pos q r)) → (merged = [] ∨ c.swacc = true) →
          (unpackAll ps (c.span q).2 = none →
            ∃ u, exec (.collMessage blk m) s = .next (afterUnit u blk) ∧ others u ∧ collsOf u c ∧ counts u 0 1 ∧ abo u = abo s)
          ∧ ∀ vs, unpackAll ps (c.span q).2 = some vs →
          ((∃ r ∈ m.src :: merged, (m.step, r) ∈ seen) → ∃ u, exec (.collMessage blk m) s = .next (afterUnit u blk) ∧ others u ∧ collsOf u c
            ∧ counts u 1 0 ∧ abo u = abo s)
          ∧ ((∀ r ∈ m.src :: merged, (m.step, r) ∉ seen) → (c.at_ q).2 = true ∨ c.closes at_ ≤ (c.at_ q).1 →
              ∃ u, exec (.collMessage blk m) s = .next (afterUnit u blk) ∧ others u ∧ collsOf u c ∧ late u ∧ counts u 0 0)
          ∧ ((∀ r ∈ m.src :: merged, (m.step, r) ∉ seen) → (c.at_ q).2 = false → (c.at_ q).1 < c.closes at_ →
              (∃ e ∈ c.inputs at_, ∀ z ∈ seen ++ (m.src :: merged).map fun r => (m.step, r), z.2 ≠ c.rankAt q e) →
              ∃ u d, exec (.collMessage blk m) s = .next (afterUnit u blk) ∧ others u ∧ collsOf u d ∧ counts u 0 0
                ∧ d = { c with parts := d.parts, srcs := c.srcs.set q (seen ++ (m.src :: merged).map fun r => (m.step, r)) }
                ∧ (mine s → abo u = (if flag then abo s - abo s / 2 ^ 64 % 2 * 2 ^ 64 + 2 ^ 64 else abo s))
                ∧ (∀ j, j ≠ q → d.parts.get? j = c.parts.get? j)
                ∧ ∃ sums, d.parts.get? q = some sums ∧ ∀ (e : Nat) (g r : LaImage), got[e]? = some g → vs[e]? = some r →
                    sums[e]? = some (La.toImage (La.merge (La.ofImage g) (La.ofImage r)))))
    ∧ (c.waiting q = true → c.deadline ≠ 0 → ((c.opened.get? q).getD (0, 0)).1 + c.deadline ≤ s.sched.time.getD b.die 0 →
        (∀ u d, closeReduce (aboMark s blk c.abo c.epoch true) p c q = (u, some d) →
          exec (.stepDeadline blk c.commid q) s = .next (afterUnit (setColl (dropAccess u p d (ofChunk q)) blk d) blk))
        ∧ (mine s → abo (aboMark s blk c.abo c.epoch true) / 2 ^ 64 % 2 = 1))
    ∧ (let sums := (c.parts.get? q).getD []
       let store (z : State) (fin : Nat) : State × Bool := objPut z p (c.access (2 * q + 3)) (c.pvec + 4 * q) 4 (c.closes at_ % 65536 + fin)
       (at_ ≠ 0 → ∃ z, z = { s with links := z.links } ∧ z.links = { s.links with out := s.links.out ++ [(c.members.getD (c.rankAt q (c.up at_)) 0,
            ⟨c.commid, c.epoch, c.n, q, c.closes at_, c.rank, .partials (packAll sums) (decide (abo s / 2 ^ 64 % 2 = 1)) (c.tag b q) []⟩)] }
          ∧ ∀ u, store z 0 = (u, true) → closeReduce s p c q = (u, some { c with
              prog := c.prog.set q (c.closes at_, false), opened := c.opened.set q (u.sched.time.getD b.die 0, u.sched.ns) }))
        ∧ (at_ = 0 → ∀ t f, c.x.obj = .yTile t → c.x.fmt = .fp f → t.toNat < b.ytiles.length →
          ∃ z b', blockOf z blk = some b' ∧ abo z / 2 ^ 32 % 2 ^ 32 = (abo s / 2 ^ 32 % 2 ^ 32 + 1) % 2 ^ 32
            ∧ (∀ j g, j < (c.span q).2 → sums[j]? = some g →
              ∃ w, Rounded (ffmtFp f) c.x.rm false c.x.mean (La.ofImage g) (.fin false 1 0)
                ((yTileOf b' t.toNat).read (((c.span q).1 + j) * ffmtBytes f) (ffmtBytes f)) w)
            ∧ ∀ u, store z (2 ^ 31) = (u, true) → ∃ d, closeReduce s p c q = (u, some d) ∧ (d.at_ q).2 = true))
    ∧ (alone → s.power.frozen = false → (∃ j < c.chunks, (∃ e ∈ c.owing j, e ∈ c.members)
          ∧ ∃ o, c.opened.get? j = some o ∧ o.2 + 1000000 ≤ s.sched.ns) → stops (.memberTimeout blk c.commid) 1)
    ∧ ∀ cause e, alone → e ∈ c.members → 1 ≤ cause → cause ≤ 3 → stops (.collAbortReport blk e cause) cause

/-! ### Caches and homes (06) -/

/-- R113, R116, R123, R124, R125: what a cluster does with each message of its home, once its L1s have given the line back: a forward is
answered with the line, clean from E and dirty from O or M, which it keeps as S or O or gives up, or with fwd-miss, WBP telling of a
write-back under way; an Inv with InvAck, or with the partial of A; Data and Ack grant what was asked (stated for a set with room), a
refusal is kept for the requester; WBAck ends a write-back.
Model's choices: assumption logs 15, 92 and 103. -/
def Obligations.ClustersAnswerTheirHomes : Prop :=
  ∀ (s : State) (cl : Nat) (k : Key) (pre post : List Msg),
    let arrives (b : Body) : Prop := s.coh.net = pre ++ ⟨33, cl, k, b⟩ :: post ∧ (∀ n ∈ pre ++ post, n.key ≠ k) ∧ cl < 32
    let others (t : State) : Prop := t.mem = s.mem ∧ t.coh.dir = s.coh.dir ∧ t.work = s.work
      ∧ ∀ c q, ¬(c = cl ∧ q = k) → lineOf t c q = lineOf s c q
    let answers (t : State) (b : Body) : Prop := t.coh.net = pre ++ post ++ [⟨cl, 33, k, b⟩]
    let asked : Prop := ∃ r ∈ s.coh.reqs, r.1 = cl ∧ r.2.1 = k
    let done (t : State) : Prop := t.coh.reqs = s.coh.reqs.filter fun r => !(r.1 == cl && r.2.1 == k)
    let room : Prop := (s.coh.lines.filter fun c =>
      c.cl == cl && Config.clusterSet c.key.line c.key.asid == Config.clusterSet k.line k.asid).length < 16
    (∀ i b, (i = .fwdS cl k ∧ b = .fwdS) ∨ (i = .fwdInv cl k ∧ b = .fwdInv) → arrives b → ∃ t, exec i s = .next t ∧ others t
      ∧ (∀ c, lineOf s cl k = some c → c.st = .e ∨ c.st = .o ∨ c.st = .m → answers t (.fwdData c.data c.poison (c.st != .e))
          ∧ (b = .fwdInv → lineOf t cl k = none)
          ∧ (b = .fwdS → ∃ c', lineOf t cl k = some c' ∧ bare c' = bare { c with st := if c.st = .e then .s else .o } ∧ c'.l1 = [] ∧ c'.xh = none))
      ∧ ((∀ c, lineOf s cl k = some c → c.st = .s ∨ c.st = .a) → answers t (.fwdMiss (wbPending s cl k))
          ∧ (lineOf t cl k).map bare = (lineOf s cl k).map bare))
    ∧ (arrives .inv → ∃ t, exec (.inv cl k) s = .next t ∧ others t ∧ lineOf t cl k = none
      ∧ (∀ c, lineOf s cl k = some c → c.st = .a → answers t (.mrg c.part))
      ∧ ((∀ c, lineOf s cl k = some c → c.st ≠ .a) → answers t .invAck))
    ∧ (∀ st l p a, arrives (.data st l p a) → room → ∃ t, exec (.data cl k) s = .next t ∧ others t ∧ t.coh.net = pre ++ post ∧ done t
      ∧ lineOf t cl k = some ⟨cl, k, st, l, p, a, [], none, [], ⟨La.zero, []⟩⟩)
    ∧ (∀ cause, arrives (.refuse cause) → ∃ t, exec (.data cl k) s = .next t ∧ others t ∧ t.coh.net = pre ++ post ∧ done t
      ∧ lineOf t cl k = lineOf s cl k ∧ t.coh.refused = s.coh.refused ++ [(cl, k, cause)])
    ∧ (∀ a, arrives (.ack a) → asked → room → ∃ t, exec (.ack cl k) s = .next t ∧ others t ∧ t.coh.net = pre ++ post ∧ done t
      ∧ ((∀ r ∈ s.coh.reqs, r.1 = cl → r.2.1 = k → r.2.2.1 = .accA) → lineOf t cl k = some ⟨cl, k, .a, 0, false, a, [], none, [], ⟨La.zero, []⟩⟩)
      ∧ ((∀ r ∈ s.coh.reqs, r.1 = cl → r.2.1 = k → r.2.2.1 = .upg) → ∀ c, lineOf s cl k = some c →
          lineOf t cl k = some { c with st := .m, attr := a }))
    ∧ (∀ x u since, arrives .wbAck → s.coh.wbs = x ++ (cl, k, since) :: u → (∀ w ∈ x, ¬(w.1 = cl ∧ w.2.1 = k)) →
      ∃ t, exec (.wbAck cl k) s = .next t ∧ others t ∧ t.coh.net = pre ++ post ∧ lineOf t cl k = lineOf s cl k ∧ t.coh.wbs = x ++ u)

/-- R119 to R125, R257: what a home does with each message: it asks the owner and the sharers of a line as the state says, and when they
have answered, or need not, grants the request; an InvAck that an Mrg has crossed counts for nothing; it takes in write-backs, partials
and replay contributions, and counts a replay that a window knows. Stated for lines of device memory, an empty queue and a directory with room; `homeFetch` reads the home copy,
`homeAbsorb` and `homeWrite` write it.
Model's choices: assumption logs 15, 92 and 94. -/
def Obligations.HomesServeRequests : Prop :=
  ∀ (s s2 : State) (src : Nat) (k : Key) (pre post : List Msg) (T : Txn) (l : Line) (p : Bool),
    let E := dirOf s k
    let arrives (b : Body) : Prop := s.coh.net = pre ++ ⟨src, 33, k, b⟩ :: post ∧ ∀ n ∈ pre ++ post, n.key ≠ k
    let keeps (t : State) : Prop := (∀ q, q ≠ k → dirOf t q = dirOf s q) ∧ t.coh.lines = s.coh.lines ∧ t.work = s.work
    let net (t : State) (ms : List (Nat × Body)) : Prop := t.coh.net = pre ++ post ++ ms.map fun m => ⟨33, m.1, k, m.2⟩
    let entry (t : State) (st : HSt) (o : Nat) (sh : List Nat) : Prop := keeps t ∧ let e := dirOf t k
      e.st = st ∧ e.txn = none ∧ e.queue = [] ∧ e.sharers = sh ∧ (st = .he ∨ st = .ho → e.owner = o)
    let others := E.sharers.erase src
    let a := attrOf s k
    let idle : Prop := E.txn = none ∧ E.queue = [] ∧ E.wbEarly = none
    let runs : Prop := E.txn = some T ∧ T.host = false ∧ E.queue = [] ∧ E.wbEarly = none
    let waitsFor : Prop := runs ∧ T.fwd = some src ∧ T.waitWb = false ∧ T.invs = [] ∧ T.mrgs = [] ∧ (E.st = .he ∨ E.st = .ho)
    let waiting (t : State) (T : Txn) : Prop := keeps t ∧ net t [] ∧ dirOf t k = { E with txn := some T } ∧ t.mem = s.mem
    homeUp s k = true → (s.coh.dir.map (·.key)).Nodup → s.coh.dir.length < 15 → s.coh.hostTab.length < 524287 → hostAddr s k = none →
    (E.st = .hi → E.attr = none) → src < 32 →
    (∀ r i, (r = .rds ∧ i = .rds src k) ∨ (r = .rdx ∧ i = .rdx src k) ∨ (r = .upg ∧ i = .upg src k) ∨ (r = .accA ∧ i = .accA src k) →
      arrives (.req r) → idle → sliceFull s k = false → (∀ c, refusal s k src r = some c → ∃ t, exec i s = .next t ∧ net t [(src, .refuse c)] ∧ t.mem = s.mem)
      ∧ (refusal s k src r = none → let r' := judge E src r
        let asks (fwd : Option (Nat × Bool)) (invs mrgs : List Nat) : Prop := ∃ t, exec i s = .next t ∧ keeps t ∧ t.mem = s.mem
          ∧ net t ((fwd.toList.map fun o => (o.1, if o.2 then .fwdInv else .fwdS)) ++ (invs ++ mrgs).map fun d => (d, .inv))
          ∧ dirOf t k = { E with
              txn := some ⟨src, r', fwd.map (·.1), false, invs, mrgs, [], none, false, s.sched.ns⟩, late := (dirOf t k).late }
        (E.st = .hs → r' ≠ .rds → others ≠ [] → asks none others [])
        ∧ (E.st = .he → asks (some (E.owner, r' != .rds)) [] [])
        ∧ (E.st = .ho → r' = .rds → asks (some (E.owner, false)) [] [])
        ∧ (E.st = .ho → r' ≠ .rds → ¬(r' = .upg ∧ E.owner = src) → asks (some (E.owner, true)) others [])
        ∧ (E.st = .ho → r' = .upg → E.owner = src → others ≠ [] → asks none others [])
        ∧ (E.st = .ha → r' ≠ .accA → E.sharers ≠ [] → asks none [] E.sharers)
        ∧ (E.st = .ha → r' = .accA → ∃ t, exec i s = .next t ∧ net t [(src, .ack a)] ∧ entry t .ha 0 (insertNat src E.sharers) ∧ t.mem = s.mem)
        ∧ (E.st = .hi ∨ (E.st = .hs ∧ others = []) → r' = .accA → ∃ t, exec i s = .next t ∧ net t [(src, .ack a)] ∧ entry t .ha 0 [src] ∧ t.mem = s.mem)
        ∧ (E.st = .hs → others = [] → r' = .upg → ∃ t, exec i s = .next t ∧ net t [(src, .ack a)] ∧ entry t .he src [] ∧ t.mem = s.mem)
        ∧ (E.st = .hi ∨ E.st = .hs → r' = .rds → homeFetch s k false true = (s2, .ok l p) → ∃ t, exec i s = .next t ∧ t.mem = s2.mem
            ∧ if E.st = .hi ∧ a.w = true then net t [(src, .data .e l p a)] ∧ entry t .he src []
              else net t [(src, .data .s l p a)] ∧ entry t .hs 0 (insertNat src E.sharers))
        ∧ (E.st = .hi ∨ (E.st = .hs ∧ others = []) → r' = .rdx → homeFetch s k true true = (s2, .ok l p) →
            ∃ t, exec i s = .next t ∧ net t [(src, .data .m l p a)] ∧ entry t .he src [] ∧ t.mem = s2.mem)))
    ∧ (∀ q pz dirty, arrives (.fwdData q pz dirty) → waitsFor → homeBusy s k = false →
        ∃ t, exec (.fwdData src k) s = .next t
        ∧ (T.req = .rds → net t [(T.src, .data .s q pz a)] ∧ t.mem = s.mem
            ∧ if dirty then entry t .ho E.owner (insertNat T.src E.sharers) else entry t .hs 0 (insertNat T.src (insertNat E.owner E.sharers)))
        ∧ (T.req = .rdx → net t [(T.src, .data .m q pz a)] ∧ entry t .he T.src [] ∧ t.mem = s.mem)
        ∧ (T.req = .upg → net t [(T.src, .ack a)] ∧ entry t .he T.src [] ∧ t.mem = if dirty then (homeAbsorb s k q pz).mem else s.mem)
        ∧ (T.req = .accA → net t [(T.src, .ack a)] ∧ entry t .ha 0 [T.src] ∧ t.mem = if dirty then (homeAbsorb s k q pz).mem else s.mem))
    ∧ (∀ wbp, arrives (.fwdMiss wbp) → waitsFor → (wbp = true → ∃ t, exec (.fwdMiss src k) s = .next t ∧ waiting t { T with waitWb := true })
        ∧ (wbp = false → T.req = .rds → T.data = none → E.sharers = [] → a.w = true → homeFetch s k false true = (s2, .ok l p) →
            ∃ t, exec (.fwdMiss src k) s = .next t ∧ net t [(T.src, .data .e l p a)] ∧ entry t .he T.src [] ∧ t.mem = s2.mem))
    ∧ (arrives .invAck → src ∈ E.stale → ∃ t, exec (.invAck src k) s = .next t ∧ keeps t ∧ net t [] ∧ t.mem = s.mem
        ∧ (dirOf t k).stale = E.stale.erase src ∧ (dirOf t k).txn = E.txn ∧ (dirOf t k).st = E.st)
    ∧ (arrives .invAck → src ∉ E.stale → (E.txn = none → ∃ t, exec (.invAck src k) s = .next t ∧ net t [] ∧ t.coh.dir = s.coh.dir ∧ t.mem = s.mem)
        ∧ (runs → T.invs.erase src ≠ [] → ∃ t, exec (.invAck src k) s = .next t ∧ waiting t { T with invs := T.invs.erase src })
        ∧ (runs → T.fwd = none → T.waitWb = false → T.mrgs = [] → T.data = none → T.req = .upg → E.st = .hs ∨ (E.st = .ho ∧ E.owner = T.src) →
            T.invs = [src] → ∃ t, exec (.invAck src k) s = .next t ∧ net t [(T.src, .ack a)] ∧ entry t .he T.src [] ∧ t.mem = s.mem))
    ∧ (∀ d, arrives (.wb d) →
        (waitsFor → ∃ t, exec (.wb src k) s = .next t ∧ net t [] ∧ keeps t ∧ dirOf t k = { E with wbEarly := some d } ∧ t.mem = s.mem)
        ∧ (∀ s1, runs → T.fwd = some src → T.waitWb = true → T.invs = [] → T.mrgs = [] → T.data = none → T.req = .rds → E.st = .he → E.owner = src →
            E.sharers = [] → a.w = true → homeBusy s k = false → s1 = (match d with | some x => homeAbsorb s k x.1 x.2 | none => s) →
            attrOf s1 k = a → homeFetch s1 k false true = (s2, .ok l p) →
            ∃ t, exec (.wb src k) s = .next t ∧ net t [(src, .wbAck), (T.src, .data .e l p a)] ∧ entry t .he T.src [] ∧ t.mem = s2.mem)
        ∧ (idle → homeBusy s k = false → (E.st = .he ∨ E.st = .ho) → E.owner = src → ∃ t, exec (.wb src k) s = .next t ∧ net t [(src, .wbAck)]
            ∧ entry t (if E.st = .ho ∧ E.sharers ≠ [] then .hs else .hi) 0 (if E.st = .ho ∧ E.sharers ≠ [] then E.sharers else (dirOf t k).sharers)
            ∧ t.mem = match d with | some x => (homeAbsorb s k x.1 x.2).mem | none => s.mem)
        ∧ (idle → ¬((E.st = .he ∨ E.st = .ho) ∧ E.owner = src) → ∃ t, exec (.wb src k) s = .next t ∧ net t [(src, .wbAck)] ∧ t.mem = s.mem
            ∧ (dirOf t k).st = E.st ∧ keeps t))
    ∧ (∀ q, arrives (.mrg q) →
        (runs → src ∈ T.mrgs → T.mrgs.erase src ≠ [] → ∃ t, exec (.mrg src k) s = .next t
          ∧ waiting t { T with mrgs := T.mrgs.erase src, parts := T.parts ++ [(src, q)] })
        ∧ (idle → E.st = .ha → src ∈ E.sharers → homeFetch s k false true = (s2, .ok l p) → homeBusy s2 k = false →
            ∃ t, exec (.mrg src k) s = .next t ∧ net t [] ∧ t.mem = (homeWrite s2 k (laLine (La.merge (lineLa l) q.la)) p).mem
              ∧ t.coh.wins = (winAdd s k src q.tags).coh.wins ∧ (dirOf t k).st = (if E.sharers.erase src = [] then .hi else .ha)
              ∧ (E.sharers.erase src ≠ [] → (dirOf t k).sharers = E.sharers.erase src)))
    ∧ (∀ la tag, E.txn = none → E.wbEarly = none → E.st = .hi → E.queue = [(src, .replay la tag)] → refusal s k src (.replay la tag) = none →
        (∀ s1, tagTake s k tag = some s1 → ∃ t, exec (.replayContribution src k) s = .next t ∧ t.mem = s.mem ∧ t.coh.wins = s1.coh.wins
            ∧ t.coh.tagDup = s.coh.tagDup + 1 ∧ (dirOf t k).queue = [] ∧ t.coh.net = s.coh.net)
        ∧ (tagTake s k tag = none → homeFetch s k false true = (s2, .ok l p) → homeBusy s2 k = false →
            ∃ t, exec (.replayContribution src k) s = .next t ∧ t.mem = (homeWrite s2 k (laLine (La.merge (lineLa l) la)) p).mem
              ∧ t.coh.wins = s.coh.wins ∧ t.coh.tagDup = s.coh.tagDup ∧ (dirOf t k).queue = []))
    ∧ (∀ drop, E.txn = none → E.wbEarly = none → E.queue = [(34, .far drop)] →
        (E.st = .he → ∃ t, exec (.farOperation k) s = .next t ∧ t.mem = s.mem ∧ t.coh.net = s.coh.net ++ [⟨33, E.owner, k, .fwdInv⟩]
            ∧ dirOf t k = { E with queue := [], txn := some ⟨34, .far drop, some E.owner, false, [], [], [], none, false, s.sched.ns⟩ })
        ∧ (E.st = .hi → (drop = true → homeBusy s k = false) → ∃ t, exec (.farOperation k) s = .next t
            ∧ t.mem = (if drop then (discHome s k).mem else s.mem) ∧ t.coh.net = s.coh.net ∧ (dirOf t k).queue = []
            ∧ (dirOf t k).st = .hi ∧ t.coh.wins = if drop then s.coh.wins.filter fun w => w.key != k else s.coh.wins))

/-- R93, R130, R131: what the host does through the aperture and on its own lines. MemRd reads as RdS or RdX with the host as requester, poison
where the page may not be read; MemWr writes a whole line with its poison, as owner its write-back, and is dropped where it may not
write; a BIRsp closes a recall; a snoop is answered from the table, dirty data with its poison, or first recalls the line's copies; a
grant lets the transaction that asked go on. Beyond the aperture nothing happens. Stated for lines of empty queues and a directory with room.
Model's choices: assumption log 69. -/
def Obligations.TheHostReachesLines : Prop :=
  ∀ (s s2 : State) (ofs : Nat) (m : HostMeta) (d l : Line) (p z : Bool) (k : Key) (pre post : List Msg) (T : Txn) (h : HostLine),
    let A := keyOf 0 (2 ^ 47 + ofs)
    let replies (t : State) (rs : List Reply) : Prop := t.sched.replies = s.sched.replies ++ rs
    let ready (k : Key) : Prop := homeUp s k = true ∧ (s.coh.dir.map (·.key)).Nodup ∧ s.coh.dir.length < 15
      ∧ s.coh.hostTab.length < 524287 ∧ (dirOf s k).queue = [] ∧ (dirOf s k).wbEarly = none ∧ ((dirOf s k).st = .hi → (dirOf s k).attr = none)
    let idle (k : Key) : Prop := ready k ∧ (dirOf s k).txn = none
    let stands (t : State) (k : Key) (st : HSt) (o : Nat) (sh : List Nat) : Prop := let e := dirOf t k
      e.st = st ∧ e.txn = none ∧ e.queue = [] ∧ (st ≠ .hi → e.sharers = sh) ∧ (st = .he ∨ st = .ho → e.owner = o)
    let asks (t : State) (k : Key) (b : Body) : Prop := t.coh.net = s.coh.net ++ [⟨33, (dirOf s k).owner, k, b⟩] ∧ t.mem = s.mem
      ∧ ∃ T', (dirOf t k).txn = some T' ∧ T'.src = 32 ∧ T'.fwd = some (dirOf s k).owner
    (s.mgmt.barSize ≤ ofs → exec (.memRd ofs m) s = .next s ∧ exec (.memWr ofs (d, z)) s = .next s)
    ∧ (ofs < s.mgmt.barSize → (apertureOk s ofs false = false ∨ (m = .any ∧ apertureOk s ofs true = false) →
          ∃ t, exec (.memRd ofs m) s = .next t ∧ replies t [.line 0 true] ∧ t = { s with sched := t.sched })
      ∧ (apertureOk s ofs true = false → exec (.memWr ofs (d, z)) s = .next s)
      ∧ (apertureOk s ofs false = true → (m = .any → apertureOk s ofs true = true) → idle A → hostAddr s A = none →
          ((dirOf s A).st = .hi → homeFetch s A false true = (s2, .ok l p) → ∃ t, exec (.memRd ofs m) s = .next t ∧ replies t [.line l p] ∧ t.mem = s2.mem
              ∧ match m with | .any => stands t A .he 32 [] | .shared => stands t A .hs 0 (insertNat 32 (dirOf s A).sharers) | .invalid => stands t A .hi 0 [])
          ∧ ((dirOf s A).st = .he → ∃ t, exec (.memRd ofs m) s = .next t ∧ asks t A (if m = .any then .fwdInv else .fwdS)))
      ∧ (apertureOk s ofs true = true → idle A → hostAddr s A = none → homeBusy s A = false →
          ((dirOf s A).st = .he → (dirOf s A).owner = 32 → ∃ t, exec (.memWr ofs (d, z)) s = .next t ∧ t.mem = (homeAbsorb s A d z).mem ∧ stands t A .hi 0 [])
          ∧ ((dirOf s A).st = .hi → ∃ t, exec (.memWr ofs (d, z)) s = .next t ∧ t.mem = (homeWrite s A d z).mem ∧ stands t A .hi 0 [])
          ∧ ((dirOf s A).st = .he → (dirOf s A).owner ≠ 32 → ∃ t, exec (.memWr ofs (d, z)) s = .next t ∧ asks t A .fwdInv)))
    ∧ (∀ b keepS, s.coh.net = pre ++ ⟨33, 32, k, b⟩ :: post → (∀ n ∈ pre, ¬(n.dst = 32 ∧ n.key = k)) → ready k → (dirOf s k).txn = some T → T.host = false →
        hostAddr s k = none → 32 ∉ (dirOf s k).stale →
        (b = .inv → T.invs.erase 32 ≠ [] → ∃ t, exec (.biRsp k keepS) s = .next t ∧ t.coh.net = pre ++ post ∧ t.mem = s.mem
          ∧ dirOf t k = { dirOf s k with txn := some { T with invs := T.invs.erase 32 } })
        ∧ (T.fwd = some 32 → T.waitWb = false → T.invs = [] → T.mrgs = [] → T.data = none → (dirOf s k).st = .he → (dirOf s k).owner = 32 →
          (dirOf s k).sharers = [] →
          (b = .fwdInv → keepS = false → T.req = .rdx → homeFetch s k true true = (s2, .ok l p) → ∃ t, exec (.biRsp k keepS) s = .next t
            ∧ t.coh.net = pre ++ post ++ [⟨33, T.src, k, .data .m l p (attrOf s k)⟩] ∧ stands t k .he T.src [] ∧ t.mem = s2.mem)
          ∧ (b = .fwdS → keepS = true → T.req = .rds → homeFetch s k false true = (s2, .ok l p) → ∃ t, exec (.biRsp k keepS) s = .next t
            ∧ t.coh.net = pre ++ post ++ [⟨33, T.src, k, .data .s l p (attrOf s k)⟩] ∧ stands t k .hs 0 (insertNat T.src [32]) ∧ t.mem = s2.mem)))
    ∧ (∀ i inv cur, (i = .snpInv h.hpa ∧ inv = true ∧ cur = false) ∨ (i = .snpData h.hpa ∧ inv = false ∧ cur = false)
          ∨ (i = .snpCur h.hpa ∧ inv = false ∧ cur = true) →
        (hostLine s h.hpa = none → ∃ t, exec i s = .next t ∧ replies t [.snoop 0] ∧ t = { s with sched := t.sched })
        ∧ (hostLine s h.hpa = some h → h.wait = true → inv = false → ∃ t, exec i s = .next t ∧ t = { s with sched := t.sched }
            ∧ replies t [.snoop (if h.st = .invalid then 0 else if cur then 5 else 3)])
        ∧ (hostLine s h.hpa = some h → h.wait = false → h.keys = [k] → h.st ≠ .invalid → idle k → hostAddr s k = some h.hpa →
          ((inv = true ∧ (dirOf s k).st = .hi) ∨ (inv = false ∧ (dirOf s k).st = .hs ∧ (dirOf s k).sharers ≠ []) → ∃ t, exec i s = .next t
            ∧ t.mem = (if h.dirty then (hostNoted s k).mem else s.mem)
            ∧ replies t (if h.dirty then [.snoop (if inv then 2 else if cur then 6 else 4), .line h.data h.poison] else [.snoop (if inv then 1 else if cur then 5 else 3)])
            ∧ (cur = true → hostLine t h.hpa = some h) ∧ (cur = false → inv = false → hostLine t h.hpa = some { h with st := .shared, dirty := false }))
          ∧ ((dirOf s k).st = .he → ∃ t, exec i s = .next t ∧ asks t k (if inv then .fwdInv else .fwdS) ∧ replies t [])))
    ∧ ∀ g, s.coh.hostTab.find? (fun e => e.wait && e.keys.contains k) = some h → hostLine s h.hpa = some h → h.keys = [k] → h.dirty = false → g ≠ .invalid →
        ready k → hostAddr s k = some h.hpa → (dirOf s k).txn = some T → T.host = true → T.fwd = none → T.waitWb = false → T.invs = [] → T.mrgs = [] →
        T.data = none → T.req = .rds → (dirOf s k).st = .hi → ∃ t, exec (.cxlCacheResponse k g d p) s = .next t ∧ t.mem = (translate s k true).1.mem
          ∧ hostLine t h.hpa = some { h with st := g, wait := false, data := d, poison := p }
          ∧ (if g = .exclusive ∧ (attrOf s k).w = true then t.coh.net = s.coh.net ++ [⟨33, T.src, k, .data .e d p (attrOf s k)⟩] ∧ stands t k .he T.src []
             else t.coh.net = s.coh.net ++ [⟨33, T.src, k, .data .s d p (attrOf s k)⟩] ∧ stands t k .hs 0 (insertNat T.src (dirOf s k).sharers))

/-! ### Time, power, reports, registers (04, 05, 06, 07, 12, 14) -/

/-- R73, R75, R78, R105, R110, R127, R132, R133, R151, R242, R244, R284: what happens when time has passed, with nothing before it has: a lost
owner's line is poisoned and the request that waited is served with it, a request without an answer is cause 0x12 for its cluster,
an operation that waited at a home likewise, a write-back without a home or a memory is dropped; combined writes drain, the
throttle takes a window, hotness halves, budgets refill; a speculative access keeps quiet; patrol scrub reports and poisons; the
alarm and the freeze; firmware's two steps at the time page.
Model's choices: assumption logs 62, 88 and 100. -/
def Obligations.TimePasses : Prop :=
  ∀ (s s1 s2 s3 u : State) (cl die core : Nat) (k : Key) (T : Txn) (l l' : Line) (p p' : Bool),
    let now := s.sched.cycle
    let ns := s.sched.ns
    let E := dirOf s k
    let a := ((translate s2 k true).2.map pteAttr).getD ⟨.wb, false, false, false, false⟩
    let ci := 64 * die + core
    let C := coreState s ci
    (E.txn = some T → homeUp s k = true → E.queue = [] → E.wbEarly = none → T.fwd = some E.owner → T.waitWb = false → T.invs = [] → T.mrgs = [] →
        T.data = none → T.host = false → T.req = .rds → E.st = .he → E.sharers = [] → homeBusy s k = false → s.coh.dir.length < 16 →
        s.coh.hostTab.length < 524287 → hostAddr s2 k = none →
        (ns < T.since + 2000000 → exec (.homeTimeout k) s = .next s)
        ∧ (T.since + 2000000 ≤ ns → homeFetch s k false false = (s1, .ok l p) → s2 = homeAbsorb s1 k l true →
            homeFetch s2 k false true = (s3, .ok l' p') → ∃ t, exec (.homeTimeout k) s = .next t ∧ t.mem = s3.mem
              ∧ t.coh.net = s.coh.net ++ [⟨33, T.src, k, .data (if a.w then .e else .s) l' p' a⟩] ∧ (dirOf t k).txn = none))
    ∧ (let late (since : Nat) : Bool := decide (since + 2000000 ≤ ns)
       let req (r : Nat × Key × Req × Nat) : Bool := r.1 == cl && r.2.1 == k && late r.2.2.2
       let op (w : HomeWait) : Bool := w.cl == cl && w.key == k && late w.since
       let lost : Prop := ∃ w ∈ s.coh.wbs, w.1 = cl ∧ w.2.1 = k ∧ w.2.2 + 2000000 ≤ ns
       let n := (s.coh.reqs.filter req).length + (s.coh.homeWaits.filter op).length
       (0 < n → exec (.requestTimeout cl k) s = .next { s with coh := { s.coh with
          reqs := s.coh.reqs.filter fun r => !req r
          homeWaits := s.coh.homeWaits.filter fun w => !op w
          refused := s.coh.refused ++ List.replicate n (cl, k, 0x12) } })
       ∧ (n = 0 → ¬lost ∨ (homeUp s k = true ∧ memDown s k = false) → exec (.requestTimeout cl k) s = .next s)
       ∧ (n = 0 → lost → homeUp s k = false ∨ memDown s k = true → ∃ t, exec (.requestTimeout cl k) s = .next t ∧ k ∈ t.coh.dropped
            ∧ t.coh.wbs = s.coh.wbs.filter (fun w => !(w.1 == cl && w.2.1 == k)) ∧ t.coh.lines = s.coh.lines ∧ t.mem = s.mem
            ∧ ∀ m, m.key ≠ k → (m ∈ t.coh.net ↔ m ∈ s.coh.net)))
    ∧ ((∀ w ∈ s.coh.wc, w.cl = cl → now < w.since + 2048) → exec (.wcDrain cl) s = .next s)
    ∧ (∀ w, s.coh.wc = [w] → w.cl = cl → w.sent = false → w.since + 2048 ≤ now → (pteOf s w.key).map (pageKind w.key) = some .uncached →
        uncachedIdle s w.key = (s1, true) → hostAddr s1 w.key = none → ∃ t, exec (.wcDrain cl) s = .next t ∧ t.coh.wc = []
          ∧ t.mem = (homeMerge s1 w.key (w.bytes.length == 128) (fun l => w.bytes.foldl (fun l b => linePut l b.1 1 b.2.toNat) l)).mem)
    ∧ (die < 4 → core < 64 →
        let gs := rankGroups (groupsOn s die core)
        let ceil := max 1 (min 32 C.ceil)
        let cap := min ceil (if C.accs < C.hits * 8 then max 1 (C.cap - 1) else if C.hits * 32 < C.accs then min (min ceil gs.length) (C.cap + 1) else C.cap)
        (now < C.winStart + 4096 → exec (.throttleWindow die core) s = .next s)
        ∧ (C.winStart + 4096 ≤ now → (s.work.blocks.map (·.uid)).Nodup → ∃ t, exec (.throttleWindow die core) s = .next t
            ∧ coreState t ci = { C with cap := cap, hits := 0, accs := 0, winStart := C.winStart + 4096 } ∧ t.mem = s.mem ∧ t.coh = s.coh
            ∧ ∀ (n uid g : Nat) (e : Bool × Nat × Nat) (gr : Group), gs[n]? = some (uid, g, e) → groupOf s uid g = some gr →
                groupOf t uid g = some { gr with mayIssue := decide (n < cap), excluded := if n < cap then 0 else gr.excluded + 1, score := gr.score / 2 })
        ∧ (now < C.refilled + 512 → exec (.energyRefill die core) s = .next s)
        ∧ (C.refilled + 512 ≤ now → (s.work.blocks.map (·.uid)).Nodup → ∃ t, exec (.energyRefill die core) s = .next t ∧ t.mem = s.mem ∧ t.coh = s.coh
            ∧ coreState t ci = { C with refilled := C.refilled + 512 }
            ∧ ∀ b ∈ s.work.blocks, ∀ (who : Nat) (x : Ctx), b.groups.length ≤ 16 → ctxOf s b.uid who = some x → ctxOf t b.uid who = some
                (if b.die = die ∧ b.core = core then { x with energy := min C.ecap (x.energy + C.refill), bstall := false } else x)))
    ∧ (die < 4 → let last := s.motion.decayed.getD die 0
        (now < last + 2 ^ 20 → exec (.hotnessDecay die) s = .next s)
        ∧ (last + 2 ^ 20 ≤ now → exec (.hotnessDecay die) s = .next { s with
            motion := { s.motion with decayed := s.motion.decayed.set die (last + 2 ^ 20) }
            coh := { s.coh with mtlb := s.coh.mtlb.map fun e => if e.die = die then { e with hot := e.hot.map (· / 2) } else e } }))
    ∧ (∀ blk who va (i : Iss), issOf s blk who = some i → let key := keyOf i.l.asid va
        (s.power.frozen = true → exec (.speculativeAccess blk who va) s = .next s)
        ∧ (s.power.frozen = false → specOk s i va = false → exec (.speculativeAccess blk who va) s = .next { s with coh := { s.coh with specDrop := s.coh.specDrop + 1 } })
        ∧ (s.power.frozen = false → specOk s i va = true → ∀ c : CLine,
            obtain (translate s key false).1 i.cl key .rd = (u, .line c) ∧ c.poison = false
              ∨ obtain (translate s key false).1 i.cl key .rd = (u, .wait) → ∃ t, exec (.speculativeAccess blk who va) s = .next t
                ∧ t.coh = { u.coh with mtlb := s.coh.mtlb } ∧ t.mgmt.faq = s.mgmt.faq ∧ t.mem.cells = u.mem.cells ∧ t.work = u.work))
    ∧ (∀ pa o, paTarget pa ≤ 5 → s.mem.backed pa = true → pa / 65536 ∉ s.mem.dead → paHeld s pa = false →
        (s.mem.flaws.get? (pa / 64) = none → o = .clean → exec (.patrolScrub pa o) s = .next s)
        ∧ ((s.mem.flaws.get? (pa / 64) = none ∧ o = .uncorrectable) ∨ s.mem.flaws.get? (pa / 64) = some 2 → ∃ t, exec (.patrolScrub pa o) s = .next t
            ∧ t.mem = { s.mem with poison := insertNat (pa / 128) s.mem.poison, flaws := s.mem.flaws.erase (pa / 64) }
            ∧ ∃ e, t.mgmt.faq.buf = s.mgmt.faq.buf ++ [e] ∧ faqKind e = 2 ∧ ofBytes e / 2 ^ 6 % 2 ^ 46 = pa / 64 % 2 ^ 46)
        ∧ ((s.mem.flaws.get? (pa / 64) = none ∧ o = .corrected) ∨ s.mem.flaws.get? (pa / 64) = some 1 →
            let n := ((s.mem.ceCount.get? (pa / 64)).getD 0) + 1
            ∃ t, exec (.patrolScrub pa o) s = .next t ∧ t.mem.cells = s.mem.cells ∧ t.mem.poison = s.mem.poison
              ∧ (n < max 1 (s.mgmt.faq.ctl.toNat / 2 ^ 8 % 2 ^ 8) → t.mgmt.faq.buf = s.mgmt.faq.buf ∧ t.mem.ceCount.get? (pa / 64) = some n)
              ∧ (max 1 (s.mgmt.faq.ctl.toNat / 2 ^ 8 % 2 ^ 8) ≤ n → ∃ e, t.mgmt.faq.buf = s.mgmt.faq.buf ++ [e] ∧ faqKind e = 0)))
    ∧ exec .powerAlarmRise s = .next { s with power := { s.power with alarm := true } }
    ∧ exec .powerAlarmClear s = .next { s with power := { s.power with alarm := false } }
    ∧ (∀ stack < 12, ∃ t, exec (.thermalFreeze stack) s = .next t ∧ t = { s with power := { s.power with
        hot := insertNat stack s.power.hot, frozen := true, frzStart := t.power.frzStart, frzCount := t.power.frzCount } }
        ∧ (s.power.frozen = false → t.power.frzCount = s.power.frzCount + 1 ∧ t.power.frzStart = s.sched.time.getD 4 0)
        ∧ (s.power.frozen = true → t.power.frzCount = s.power.frzCount ∧ t.power.frzStart = s.power.frzStart))
    ∧ exec .thermalResume s = .next { s with
        power := { s.power with frozen := false, hot := [] }
        work := { s.work with blocks := s.work.blocks.map fun b =>
          (if (cohortOf s b.cohort).any (·.preempt) then { b with halted := true } else b) } }
    ∧ ∀ rates, s.mgmt.timePage = 0 → let seq := (s.sched.tpSeq + 1) % 2 ^ 64
        (s.sched.newRates = none → ratesOk s rates = false → exec (.timeRecalibrate rates) s = .next s)
        ∧ (s.sched.newRates = none → ratesOk s rates = true →
            exec (.timeRecalibrate rates) s = .next { s with sched := { s.sched with newRates := some rates, tpSeq := seq } })
        ∧ ∀ r, s.sched.newRates = some r →
            exec (.timeRecalibrate rates) s = .next { s with sched := { s.sched with rates := r, newRates := none, tpSeq := seq } }

/-! ### Granules in motion and the map engine (04, 05, 13) -/

/-- R76, R91, R92, R97 to R102, R105, R256: a queued 64 KiB page takes a free frame of its destination or aborts (KIND 2), a dead one commits
at once; a line copied in its time moves the cursor, the last commits the page in its mapping, every MTLB and the free frames; a
destination error, retirement or timeout aborts, and a first abort is retried; records reach the ring; a command's granule is
offered; a map command waits behind those before it; MAP, ZERO, UNMAP and PROTECT reply their refusal status with no effect or
write the leaves; a frame is retired; hotness is written; a TASK value is purged.
Model's choices: assumption logs 30, 31, 33, 73, 74, 75 and 108. -/
def Obligations.PagesMoveAndAreMapped : Prop :=
  ∀ (s s1 u : State) (e : Nat) (q : MoveReq) (rest : List MoveReq) (w : Walk) (dst a : Nat) (m : Move) (o : EccOutcome) (l : Line) (p : Bool)
    (c : MapCmd) (lf : Leaf) (r : List Byte),
    let tells (s t : State) (n : Nat) : Prop := t.sched.replies = s.sched.replies ++ [.status n]
    let room : Prop := recsHeld s e < 64 ∧ s.mgmt.mgr.ctl.getLsbD 0 = false ∧ s.power.frozen = false
    let records (t : State) (kind : Nat) (retry : Bool) (dpa asid vpn : Nat) : Prop := t.motion.recs = s.motion.recs ++ [(e, toBytes 16
      (vpn % 2 ^ 32 + asid % 2 ^ 16 * 2 ^ 32 + dpa % 2 ^ 36 * 2 ^ 52 + retry.toNat * 2 ^ 91 + kind * 2 ^ 92 + s.sched.time.getD (4 + e) 0 % 2 ^ 32 * 2 ^ 96))]
    (let va := q.vpn * 65536
      let src := w.pa va / 65536
      let d := destOf s q.asid va q.dest
      let moved : Move := ⟨e, q.asid, q.vpn, src, dst, 0, q.retry, false, q.dest, s.sched.ns, q.vpn, true⟩
      s.motion.queue = q :: rest → q.engine = e → s.motion.moves = [] → room → walk s q.asid va = some w → pageOfFrame s src = (src, 1) →
      src ∉ s.mem.retired → placeOfFrame src ≠ d →
        (freeRun s d 1 = some dst → src ∉ s.mem.dead → exec (.moveAccept e) s = .next { s with motion := { s.motion with
            queue := rest, free := s.motion.free.filter fun f => f.2.2 != dst, moves := [moved] } })
        ∧ (freeRun s d 1 = some dst → src ∈ s.mem.dead → ∃ t, exec (.moveAccept e) s = .next t ∧ dst ∈ t.mem.dead ∧ t.motion.moves = []
            ∧ t.motion.queue = rest ∧ records t 0 q.retry dst q.asid q.vpn)
        ∧ (freeRun s d 1 = none → ∃ t dpa, exec (.moveAccept e) s = .next t ∧ t = { s with motion := { s.motion with
            queue := if q.retry then rest else { q with retry := true } :: rest, recs := t.motion.recs } } ∧ records t 2 q.retry dpa q.asid q.vpn))
    ∧ (s.motion.moves = [m] → m.begun = true → m.engine = e → s.power.frozen = false →
        let from_ := m.src * 65536 + 128 * m.cursor
        let to_ := m.dst * 65536 + 128 * m.cursor
        let t1 := writeLine s1 to_ l p
        let again : List MoveReq := if m.retry then s.motion.queue else ⟨e, m.asid, m.page, m.dest, true⟩ :: s.motion.queue
        (s.sched.ns ≥ m.since + 1000 → exec (.lineCopyComplete e m.vpn m.asid o) s = .next s)
        ∧ (m.dead = false → s.sched.ns < m.since + 1000 → paHeld s from_ = false → paHeld s to_ = false → readLine (sourceFlaw s from_ o) from_ = (s1, .ok l p) →
          (m.cursor < 511 → exec (.lineCopyComplete e m.vpn m.asid o) s = .next (faqSettle { t1 with motion := { s.motion with
            moves := [{ m with cursor := m.cursor + 1, since := s1.sched.ns }] } }))
          ∧ (m.cursor = 511 → room → mappingsOf t1 m.src = [lf] → pteFrame lf.pte = m.src → m.src ∉ s.mem.retired →
            let tier := (placeOfFrame m.dst).1
            ∃ t, exec (.lineCopyComplete e m.vpn m.asid o) s = .next (faqSettle t)
              ∧ t.mem = { t1.mem with cells := Memory.write t1.mem.cells lf.at_ 8 (withFrame lf.pte m.dst tier) }
              ∧ t.coh.mtlb = s.coh.mtlb.map (fun n => if pteFrame n.pte = m.src then { n with pte := withFrame n.pte m.dst tier } else n)
              ∧ t.motion.moves = [] ∧ t.motion.free = s.motion.free ++ [((placeOfFrame m.src).1, (placeOfFrame m.src).2, m.src)]
              ∧ records t 0 m.retry m.dst m.asid m.page))
        ∧ (room → ∃ t, exec (.destWriteError e m.vpn m.asid) s = .next t ∧ records t 1 m.retry m.dst m.asid m.page
            ∧ t = { s with motion := { s.motion with moves := [], queue := again, recs := t.motion.recs } })
        ∧ (m.dead = false → m.cursor < 512 → room → m.dst ∉ s.mem.retired →
          (s.sched.ns < m.since + 1000 → exec (.cursorTimeout e m.vpn m.asid) s = .next s)
          ∧ (m.since + 1000 ≤ s.sched.ns → ∃ t, exec (.cursorTimeout e m.vpn m.asid) s = .next t ∧ records t 4 m.retry m.dst m.asid m.page
            ∧ t = { s with motion := { s.motion with moves := [], queue := again, recs := t.motion.recs
                                                     free := s.motion.free ++ [((placeOfFrame m.dst).1, (placeOfFrame m.dst).2, m.dst)] } }))
        ∧ (room → m.dst < 2 ^ 36 → ∃ t, exec (.badPageAdd m.dst) s = .next t ∧ records t 3 m.retry m.dst m.asid m.page
            ∧ m.dst ∈ t.mem.retired ∧ t.motion.moves = [] ∧ t.motion.queue = again ∧ t.motion.free = s.motion.free))
    ∧ (s.motion.moves = [] → recsHeld s e = 0 ∨ s.mgmt.mgr.ctl.getLsbD 0 = false → exec (.migrationRecordDrain e) s = .next s)
    ∧ (s.motion.recs = [(e, r)] → s.mgmt.mgr.takes = true →
        engWrite (setRing s .mgr { s.mgmt.mgr with buf := [r] }) (s.mgmt.mgr.base + 16 * s.mgmt.mgr.tail) 16 (ofBytes r) = (u, true) → u.motion.moves = [] → u.mgmt.mgr.buf = [r] →
        ∃ t, exec (.migrationRecordDrain e) s = .next t ∧ t.motion.recs = [] ∧ t.mem = u.mem ∧ t.coh = u.coh
          ∧ t.mgmt.mgr.tail = (u.mgmt.mgr.tail + 1) % u.mgmt.mgr.size ∧ t.mgmt.mgr.head = u.mgmt.mgr.head)
    ∧ (let g := s.mgmt.mgc
      let head (s t : State) (err : Bool) : Prop := t = { s with
        mgmt := { s.mgmt with mgc := { s.mgmt.mgc with
          head := (s.mgmt.mgc.head + 1) % max 1 s.mgmt.mgc.size, ctl := if err then s.mgmt.mgc.ctl ||| 0x80000000#32 else s.mgmt.mgc.ctl } }
        motion := { s.motion with cmdAt := 0 } }
      (g.ctl.getLsbD 0 = false ∨ g.head = g.tail → exec .migrationCommand s = .next s)
      ∧ ∀ v, g.ctl.getLsbD 0 = true → g.size ≠ 0 → g.head ≠ g.tail → s.power.frozen = false → engRead s (g.base + 32 * g.head) 32 = (s1, some v) →
        (v / 2 ^ 32 % 2 ^ 32 ≠ 0 ∨ v / 2 ^ 112 % 2 ^ 4 ≠ 0 ∨ v / 2 ^ 120 % 2 ^ 136 ≠ 0 ∨ tierOf (BitVec.ofNat 4 (v / 2 ^ 116)) = none →
          ∃ t, exec .migrationCommand s = .next t ∧ head s1 t true)
        ∧ ∀ tp, v / 2 ^ 32 % 2 ^ 32 = 0 → v / 2 ^ 112 % 2 ^ 4 = 0 → v / 2 ^ 120 % 2 ^ 136 = 0 → tierOf (BitVec.ofNat 4 (v / 2 ^ 116)) = some tp →
          s1.motion.cmdAt = 0 →
          (v / 2 ^ 64 % 2 ^ 32 = 0 → ∃ t, exec .migrationCommand s = .next t ∧ head s1 t false)
          ∧ (v / 2 ^ 64 % 2 ^ 32 = 1 → match offerMove s1 (v / 2 ^ 96 % 2 ^ 16) (v % 2 ^ 32 * 65536) tp false with
            | .ignored => ∃ t, exec .migrationCommand s = .next t ∧ head s1 t false
            | .taken u => ∃ t, exec .migrationCommand s = .next t ∧ head u t false
            | .full _ => exec .migrationCommand s = .next s1))
    ∧ (let ls := mappingsOf s c.frame
      let end_ := c.va + c.count * 2 ^ c.size
      let outside : Prop := c.asid ≠ 0 ∧ 2 ^ 47 < end_
      let refused (i : Instr) (n : Nat) : Prop := ∃ t, exec i s = .next t ∧ tells s t n ∧ t = { s with sched := t.sched }
      let shared : Prop := if c.w then ls ≠ [] else 4 ≤ ls.length ∨ ∃ l ∈ ls, pteW l.pte = true
      let C := wholeLeaves s c
      let beyond : Prop := C.asid ≠ 0 ∧ 2 ^ 47 < C.va + C.count * 2 ^ C.size
      let aliased : Prop := ∃ l ∈ leavesIn s C, ∃ k ∈ leavesOf s, k.at_ ≠ l.at_ ∧ pteFrame k.pte < pteFrame l.pte + 2 ^ (l.size - 16)
        ∧ pteFrame l.pte < pteFrame k.pte + 2 ^ (k.size - 16)
      let narrows : Prop := c.w = false ∧ ∃ l ∈ leavesIn s C, pteW l.pte = true
      (∀ x y ys, x ∈ [(.map c, (0, c)), (.zero c, (1, c)), (.unmap c, (2, c)), (.protect c, (3, c))] → s.motion.mapq = y :: ys → mapAny y s = (u, false) →
        exec x.1 s = .next { u with motion := { u.motion with mapq := y :: ys ++ [x.2] } }) ∧ (s.motion.mapq = [] →
      (∀ i zero, (i = .map c ∧ zero = false) ∨ (i = .zero c ∧ zero = true) → c.size = 16 → c.count = 1 → c.va < 2 ^ 48 →
        (outside → refused i 5)
        ∧ (¬outside → leavesIn s c ≠ [] → refused i 1)
        ∧ (¬outside → leavesIn s c = [] → shared → refused i 2)
        ∧ (¬outside → leavesIn s c = [] → ¬shared → c.frame ∈ s.mem.retired → refused i 3)
        ∧ (¬outside → leavesIn s c = [] → ¬shared → c.frame ∉ s.mem.retired → entryFor s c.asid c.va 4 = (s1, some a) →
          let pte := mapLeaf c zero 0
          ∃ t, exec i s = .next t ∧ tells s1 t 0 ∧ t.mem.cells = Memory.write s1.mem.cells a 8 pte ∧ pte % 4 = 3 ∧ pte / 2 ^ 16 % 2 ^ 36 = c.frame % 2 ^ 36
            ∧ (pte / 2 ^ 10 % 2 = 1 ↔ c.asid = 0) ∧ (pte / 2 ^ 6 % 2 = 1 ↔ c.rd = true) ∧ (pte / 2 ^ 7 % 2 = 1 ↔ c.w = true)
            ∧ (pte / 2 ^ 8 % 2 = 1 ↔ c.x = true) ∧ (pte / 2 ^ 9 % 2 = 1 ↔ c.u = true) ∧ (pte / 2 ^ 56 % 2 = 1 ↔ zero = true)
            ∧ (zero = true → c.tier ≠ .none → c.frame ∈ t.mem.dead)))
      ∧ (∀ i, i = .unmap c ∨ i = .protect c → beyond → refused i 5)
      ∧ (¬beyond → leasedIn s C = true → refused (.unmap c) 4)
      ∧ (¬beyond → leasedIn s C = true → narrows → refused (.protect c) 4)
      ∧ (¬beyond → c.w = true → aliased → refused (.protect c) 2)
      ∧ (¬beyond → leasedIn s C = false → (flushRange s C = (s1, false) → ∃ t, exec (.unmap c) s = .next t
            ∧ t = { s1 with motion := { s1.motion with mapq := [(2, c)] } })
        ∧ (flushRange s C = (s1, true) → s1.motion.moves = [] → ∃ t, exec (.unmap c) s = .next t ∧ tells s1 t 0
          ∧ t.mem = { s1.mem with cells := (leavesIn s1 C).foldl (fun b l => Memory.write b l.at_ 8 (l.pte - 1)) s1.mem.cells }
          ∧ t.coh = { (dropEntries s1 C).coh with wins := s1.coh.wins.filter fun w => !(rangeKeys s1 C).contains w.key }))
      ∧ (¬beyond → leasedIn s C = false ∨ ¬narrows → c.w = false ∨ ¬aliased → (flushRange s C = (s1, false) → ∃ t, exec (.protect c) s = .next t
            ∧ t = { s1 with motion := { s1.motion with mapq := [(3, c)] } })
        ∧ (flushRange s C = (s1, true) → ∃ t, exec (.protect c) s = .next t ∧ tells s1 t 0
          ∧ t.mem = { s1.mem with cells := (leavesIn s1 C).foldl (fun b l => Memory.write b l.at_ 8 (mapProtect C l.pte)) s1.mem.cells }
          ∧ t.coh = { s1.coh with mtlb := s1.coh.mtlb.map fun e => if mapHasEntry C e then { e with pte := mapProtect C e.pte } else e }))))
    ∧ (∀ frame, let f := frame % 2 ^ 36
      (∀ m ∈ s.motion.moves, m.dst ≠ f) → s.mem.badList.length < 4096 → ∃ t, exec (.badPageAdd frame) s = .next t ∧ tells s t 0
        ∧ t = { s with sched := t.sched, mem := { s.mem with retired := insertNat f s.mem.retired, badList := insertNat f s.mem.badList } })
    ∧ (∀ va, let b := s.coh.mtlb.flatMap fun e => (List.range e.hot.length).flatMap fun j => toBytes 8 (Config.hotsnapEntry e.asid (e.vpn + j) (e.hot.getD j 0))
      engWrite s va b.length (ofBytes b) = (u, true) →
        ∃ t, exec (.hotsnap va) s = .next t ∧ tells u t 0 ∧ t = { u with sched := t.sched })
    ∧ ∀ task, (task ∉ s.work.purge → exec (.tagPurge task) s = .next s)
      ∧ (task ∈ s.work.purge → ∃ t, exec (.tagPurge task) s = .next t ∧ t = { s with coh := { s.coh with wins := t.coh.wins }
                                                                                     work := { s.work with purge := s.work.purge.erase task } }
        ∧ ∀ w, w ∈ t.coh.wins ↔ w.tags ≠ [] ∧ ∃ v ∈ s.coh.wins, w = { v with tags := v.tags.filter fun x => x.1 / 2 ^ 16 != task })

/-! ### Links and the pod (14) -/

/-- R261 to R264, R266 to R270: a new flit enters the replay buffer of the module that its messages' keys select, a request in its
turn, and a resent one only in order; a good flit's ACK frees what it covers, the expected flit is accepted and its requests
performed once, any other is dropped; a CRC failure is counted, asked for again, and the ninth within 1 µs degrades the module,
whose flits move, marked RR; an ACK alone makes the sender resend; a module comes back on half its lanes, on all, or down, and an
edge with none is fatal; a pod request is served or refused; a completion, or 1 ms without one, ends a request and counts a lost
write; a packed partial is expanded and merged, and a sum that is due leaves packed. What is left of a module's state is as before.
Model's choices: assumption logs 15, 36, 58, 62, 82 and 106. -/
def Obligations.LinksCarryFlitsAndPodRequests : Prop :=
  ∀ (s u : State) (l : LinkId) (snd got : List Byte) (num key peer tag id o : Nat) (x : PodPend) (ok : Bool) (data : List Byte) (line : Line)
    (port slot : Nat) (b : List Byte) (old : List LaImage),
    let m := moduleOf s l
    let l' := opposite l
    let f := flitOf snd
    let only (s t : State) (links : Links) : Prop := t = { s with links := { links with mods := t.links.mods } }
    let left (a : Nat) : List Flit := m.replay.filter fun g => !decide ((a + 1024 - g.seq % 1024) % 1024 < 512)
    let narrows (t : State) (narrow : Bool) : Prop := ∀ k, k = l ∨ k = l' → (moduleOf t k).retraining = true ∧ (moduleOf t k).narrow = narrow
    let moved (s t : State) : Prop := ∀ i, nextModule s l = some i → l.mod < edgeModules l.edge →
      let m := moduleOf s l
      let a := moduleOf s { l with mod := i }
      (moduleOf t l).moved = some i ∧ (moduleOf t l).replay = m.replay.drop (512 - a.replay.length)
      ∧ ∃ fs : List Flit, (moduleOf t { l with mod := i }).replay = a.replay ++ fs ∧ fs.length = min (512 - a.replay.length) m.replay.length
          ∧ ∀ (j : Nat) (g : Flit), j < fs.length → m.replay[j]? = some g → fs[j]? = some { g with rr := true, seq := (a.seq + j) % 1024 }
    let sender := linkTarget l'
    let to_ := 8 * linkTarget l + sender
    let inTurn : Prop := keyModule s l key = l.mod ∧ num / 2 ^ 13 % 8 = sender ∧ num % 2 ^ 13 = (s.links.nextReq.get? to_).getD 0
      ∧ (outstanding s to_).length < 2048 ∧ ∀ q ∈ unacked s l sender, (num % 2 ^ 13 + 2 ^ 13 - q) % 2 ^ 13 < 2048
    (f.kind = 1 → sendFlit s l f = some s)
    ∧ (f.kind = 0 → m.resend = none → f.rr = true ∨ f.seq ≠ m.seq ∨ 512 ≤ m.replay.length → sendFlit s l f = none)
    ∧ (f.kind = 0 → m.resend = none → f.rr = false → f.seq = m.seq → m.replay.length < 512 →
        (Config.linkMessages f.payload = [] → ∃ t, sendFlit s l f = some t ∧ only s t s.links
          ∧ moduleOf t l = { m with replay := m.replay ++ [f], seq := (m.seq + 1) % 1024 })
        ∧ (Config.linkMessages f.payload = [(false, num, key)] → keyHome l key = l.mod →
          (¬inTurn → num / 2 ^ 13 % 8 = sender → sendFlit s l f = none)
          ∧ (inTurn → ∃ t, sendFlit s l f = some t ∧ moduleOf t l = { m with replay := m.replay ++ [f], seq := (m.seq + 1) % 1024 }
            ∧ outstanding t to_ = outstanding s to_ ++ [num] ∧ t.links.nextReq.get? to_ = some ((num + 1) % 2 ^ 13))))
    ∧ (∀ q, f.kind = 0 → m.resend = some q →
        let kept : Prop := f.seq = q ∧ ∃ g ∈ m.replay, g.seq = q ∧ g.rr = f.rr ∧ g.payload = f.payload
        (¬kept → sendFlit s l f = none)
        ∧ (kept → ∃ t, sendFlit s l f = some t ∧ only s t s.links
          ∧ moduleOf t l = { m with resend := if (q + 1) % 1024 = m.seq then none else some ((q + 1) % 1024) }))
    ∧ (m.up = false ∨ m.retraining = true ∨ sendFlit s l f = none → exec (.flitReceive l snd got) s = .next s)
    ∧ (m.up = true → m.retraining = false → sendFlit s l f = some u →
        let g := flitOf got
        let v := if g.av then ackSender u l' g.ack (g.kind == 1) else u
        let r := moduleOf v l
        let n := moduleOf u l
        let now := u.sched.time.getD (linkTarget l) 0
        let crcs := (n.crcs.filter fun t => decide (now < t + 1000)) ++ [now]
        (flitOk got = true → g.kind ≠ 0 ∨ g.seq ≠ r.expect → exec (.flitReceive l snd got) s = .next v)
        ∧ (flitOk got = true → g.kind = 0 → g.seq = r.expect →
          (Config.linkMessages g.payload = [] → ∃ t, exec (.flitReceive l snd got) s = .next t ∧ only v t v.links
            ∧ moduleOf t l = { r with expect := (r.expect + 1) % 1024, nak := none })
          ∧ (Config.linkMessages g.payload = [(false, num, key)] → let k := 8 * linkTarget l + num / 2 ^ 13 % 8
            let done := (v.links.done.get? k).getD []
            ∃ t, exec (.flitReceive l snd got) s = .next t ∧ moduleOf t l = { r with expect := (r.expect + 1) % 1024, nak := none }
              ∧ t.mem = v.mem ∧ t.coh = v.coh
              ∧ (num ∉ done → t.links.delivered = v.links.delivered ++ [num] ∧ num ∈ (t.links.done.get? k).getD [])
              ∧ (num ∈ done → t.links.delivered = v.links.delivered ∧ t.links.done = v.links.done
                  ∧ t.links.replies.get? k = some ((v.links.replies.get? k).getD [] ++ [num])))
          ∧ (Config.linkMessages g.payload = [(true, num, key)] → num / 2 ^ 13 % 8 = linkTarget l → let k := 8 * sender + linkTarget l
            ∃ t, exec (.flitReceive l snd got) s = .next t ∧ t.links.delivered = v.links.delivered
              ∧ t.links.outst.get? k = some ((outstanding v k).erase num)))
        ∧ (flitOk got = false → crcs.length < 9 → ∃ t, exec (.flitReceive l snd got) s = .next t ∧ only u t { u.links with errors := u.links.errors + 1 }
            ∧ moduleOf t l = { n with crcs := crcs, nak := some ((n.expect + 1023) % 1024) })
        ∧ (flitOk got = false → 9 ≤ crcs.length → ∃ t, exec (.flitReceive l snd got) s = .next t ∧ narrows t true ∧ moved u t
            ∧ only u t { u.links with errors := u.links.errors + 1, degrade := u.links.degrade + 1 }))
    ∧ (∀ a, (m.up = false ∨ m.retraining = true → exec (.ackFlit l a) s = .next s)
        ∧ (m.up = true → m.retraining = false → ∃ t fs, exec (.ackFlit l a) s = .next t ∧ only s t s.links ∧ (moduleOf t l).replay = left a ++ fs
          ∧ ((∀ j < edgeModules l.edge, (moduleOf s { l with mod := j }).moved ≠ some l.mod) → (∀ k, k ≠ l → moduleOf t k = moduleOf s k)
            ∧ moduleOf t l = { m with replay := left a, resend := (left a).head?.map (·.seq), nak := if m.nak = some a then none else m.nak })))
    ∧ (¬(m.up = true ∧ m.retraining = false ∧ m.lanes = 32) → exec (.ucieRetrain l) s = .next s)
    ∧ (m.up = true → m.retraining = false → m.lanes = 32 → ∃ t, exec (.ucieRetrain l) s = .next t ∧ only s t s.links ∧ narrows t false ∧ moved s t)
    ∧ (m.retraining = false → ∀ ok, exec (.moduleRetrainDone l ok) s = .next s)
    ∧ (m.retraining = true → l.mod < edgeModules l.edge →
        let waits : Prop := ∃ k, (k = l ∨ k = l') ∧ (moduleOf s k).moved ≠ none ∧ (moduleOf s k).replay ≠ []
        (waits → exec (.moduleRetrainDone l true) s = .next s)
        ∧ (¬waits → ∃ t, exec (.moduleRetrainDone l true) s = .next t ∧ only s t s.links ∧ ∀ k, k = l ∨ k = l' → let n := moduleOf s k
            moduleOf t k = { n with
              retraining := false, moved := none, lanes := if n.narrow then 32 else 64
              resend := n.replay.head?.map (·.seq), expect := (n.replay.head?.map (·.seq)).getD n.seq })
        ∧ let others : Prop := ∃ j b, j < edgeModules l.edge ∧ j ≠ l.mod ∧ (moduleOf s ⟨l.edge, b, j⟩).up = true
          (others → ∃ t, exec (.moduleRetrainDone l false) s = .next t ∧ only s t s.links ∧ (moduleOf t l).up = false ∧ (moduleOf t l').up = false)
          ∧ (¬others → s.power.fatal = none → ∃ t d, exec (.moduleRetrainDone l false) s = .next t ∧ t.power.fatal = some (1, (edgeDies l.edge).1, d)))
    ∧ (peer ≠ Config.deviceId →
        let tells (u t : State) (ok : Bool) (bs : List Byte) : Prop := t = { u with sched := t.sched } ∧ t.sched.replies = u.sched.replies ++ [.podDone peer tag ok bs]
        let va := s.mgmt.podBase + o
        let c := keyOf 0 va
        (s.mgmt.podEn = false → ∀ r, ∃ t, exec (.podRequest peer tag r) s = .next t ∧ tells s t false [])
        ∧ (s.mgmt.podEn = true →
          (∀ k, 256 < k ∨ podOk s va k true false = false → ∃ t, exec (.podRequest peer tag (.read o k)) s = .next t ∧ tells s t false [])
          ∧ (∀ k, 0 < k → va % 128 + k ≤ 128 → podOk s va k true false = true → uncachedRead s agentTag c = (u, .ok line false) →
            ∃ t, exec (.podRequest peer tag (.read o k)) s = .next t ∧ tells u t true (toBytes k (lineGet line (va % 128) k)))
          ∧ (0 < data.length → va % 128 + data.length ≤ 128 → podOk s va data.length false true = true → ∀ z q,
            uncachedWrite s agentTag c (data.length == 128) (fun l => linePut l (va % 128) data.length (ofBytes data)) = (u, .ok z q) →
            ∃ t, exec (.podRequest peer tag (.write o data)) s = .next t ∧ tells u t true [])
          ∧ (256 < data.length ∨ podOk s va data.length false true = false → ∃ t, exec (.podRequest peer tag (.write o data)) s = .next t ∧ tells s t false [])
          ∧ (∀ (i : Bool → PodReq) (rmw : Nat → Nat → Rmw),
              (∃ op v w, i = (fun wide => .atom op wide o v w) ∧ rmw = fun k old => atomRmw op (8 * k) old v w)
                ∨ (∃ e n, i = (fun wide => .cas wide o e n) ∧ rmw = fun _ old => casRmw old e n) →
              ∀ wide : Bool, let k := if wide then 8 else 4
            (va % k ≠ 0 ∨ podOk s va k true true = false → ∃ t, exec (.podRequest peer tag (i wide)) s = .next t ∧ tells s t false [])
            ∧ (va % k = 0 → podOk s va k true true = true → joinLine s 0 va = (u, .ok line false) →
              let r := rmw k (lineGet line (va % 128) k)
              ∃ t, exec (.podRequest peer tag (i wide)) s = .next t
                ∧ tells (farDone (if r.write then homeAbsorb u c (linePut line (va % 128) k r.new) false else countFar u c) c) t true
                    (toBytes k (lineGet line (va % 128) k))))))
    ∧ (s.links.pods = [x] → x.id = id → x.done = none →
        let ends (t : State) (ok : Bool) (data : List Byte) : Prop := t = { s with links := { s.links with
          pods := [{ x with done := some (ok, data) }], werr := s.links.werr + (if x.write ∧ ok = false then 1 else 0) } }
        (∃ t, exec (.podCompletion id ok data) s = .next t ∧ ends t ok data)
        ∧ (s.sched.ns < x.since + 1000000 → exec (.podTimeout id) s = .next s)
        ∧ (x.since + 1000000 ≤ s.sched.ns → ∃ t, exec (.podTimeout id) s = .next t ∧ ends t false []))
    ∧ (port < 16 → slot < 64 →
        let esc := packField b 264 4
        let good : Prop := b.length = 272 + 96 * ((List.range 32).filter (bitAt esc)).length ∧ packField b 0 2 ≤ 647
          ∧ packField b 4 4 = 0 ∧ packField b 268 4 = 0
        let none_ : Prop := ∀ a ∈ s.links.adders, ¬(a.1 = port ∧ a.2.1 = slot)
        let holds (t : State) (rest : List (Nat × Nat × List LaImage)) (v : Nat → LaImage) : Prop := ∃ img, t.links.adders = rest ++ [(port, slot, img)]
          ∧ t = { s with links := { s.links with adders := t.links.adders } } ∧ img.length = 32 ∧ ∀ e < 32, img[e]? = some (v e)
        let added (e : Nat) : LaImage := La.toImage ((La.ofImage (old.getD e 0)).merge (La.ofImage (unpackEl b e)))
        let sends (t : State) (rest : List (Nat × Nat × List LaImage)) (v : Nat → LaImage) : Prop := t.links.adders = rest
          ∧ t.sched.replies = s.sched.replies ++ [.bytes (packEls ((List.range 32).map v))]
          ∧ t = { s with links := { s.links with adders := rest }, sched := t.sched }
        (¬good → ∀ d, exec (.packedPartial port slot (b, d)) s = .next { s with links := { s.links with errors := s.links.errors + 1 } })
        ∧ (good → none_ → ∃ t, exec (.packedPartial port slot (b, false)) s = .next t ∧ holds t s.links.adders (unpackEl b))
        ∧ (good → none_ → ∃ t, exec (.packedPartial port slot (b, true)) s = .next t ∧ sends t s.links.adders (unpackEl b))
        ∧ (good → s.links.adders = [(port, slot, old)] → ∃ t, exec (.packedPartial port slot (b, false)) s = .next t ∧ holds t [] added)
        ∧ (good → s.links.adders = [(port, slot, old)] → ∃ t, exec (.packedPartial port slot (b, true)) s = .next t ∧ sends t [] added)
        ∧ ∀ e < 32, (bitAt esc e = false → unpackEl b e =
              La.toImage (La.canonOf (sextN 64 (packField b (8 + 8 * e) 8) * 2 ^ packField b 0 2) ⟨packField b 2 2, false, false, 0, 0⟩))
          ∧ (bitAt esc e = true → let n := ((List.range e).filter (bitAt esc)).length
              unpackEl b e = La.toImage (La.ofImage (BitVec.ofNat 768 (packField b (272 + 96 * n) 96))).canon))

/-! ### Distribution, suspension and pre-emption (15, 16, 20) -/

/-- R75, R114, R291 to R293, R295, R297, R300, R353 to R355: a launch record at the head of a queue is checked in the order of R291 and
admitted or rejected; a cohort starts where it is placed; a task starts or is rejected; a resume record brings a cohort back, or is
rejected for want of one; tails enqueue; a core asks for work and gets the first that can be placed, on itself when it fits there;
rejected records reach their ring; a starved record raises yield requests; a cohort at one switch point suspends, or traps 0x0C; a
pre-emption halts cohorts, unless a freeze holds it, which drain, stop their copies and are saved; the driver's two answers to a
BMS trap. `admitRecord`, `startNext`, `resumeRecordAt`, `writeFrames`, `drainAll`, `drainBuffers`, `saveBlocks` are the
distributor's and the frame engine's own operations; what waits keeps what it has asked of memory (`asked`).
Model's choices: assumption logs 11, 52, 79, 80, 81, 84, 85 and 98. -/
def Obligations.WorkIsDistributedAndSuspended : Prop :=
  ∀ (s s1 u v w : State) (die core q h r x slot launch cohort blk k : Nat) (l l' : Launch) (place : List (Nat × Nat)) (ps : List Placed) (m : Loads × List Placed)
    (rs : List (Nat × Nat)) (ix : Nat) (vr : Variant) (tk : Taken) (e : List Byte) (c : Cohort) (b : Block) (id : Nat) (ids : List Nat) (tgt : PreemptTarget),
    let kind := r / 2 ^ 252 % 2 ^ 4
    let alone : Prop := queuedLaunch s q = none ∧ headRecord s q = (s1, some (h, r))
    let popped (s t : State) : Prop := s.work.taken = [] →
      t.work.qhead = s.work.qhead.set q (((s.work.qhead.get? q).getD 0 + 1) % max 1 ((s.work.qsize.get? q).getD 0))
    let waited (i : Instr) : Prop := ∃ t, exec i s = .next t ∧ t = { s with work := { s.work with tagwaits := t.work.tagwaits } };
    (let l := launchFor s q r (r / 2 ^ 228 % 2 ^ 16) (16 * (r / 2 ^ 208 % 2 ^ 20)) false
      let kn := kernelOf x l.pin
      let i : Instr := .launchRecord die q
      let runs : Prop := alone ∧ die < 4 ∧ s.mgmt.rej.buf.length < 16
      let refused (u : State) (n : Nat) : Prop := exec i s = .next (rejectAt u q h r n l.asid l.join)
      let l2 : Launch := { l with k := kn, ranges := rs }
      let t2 : State := { v with work := { v.work with launches := v.work.launches ++ [l2], nextUid := v.work.nextUid + 1 } }
      let admitted : Prop := exec i s = .next (if l.nblk = 0 then launchCheck (dequeueLaunch t2 l.id) l.id else t2);
      (runs → (kind = 0 ∨ kind = 2 → exec i s = .next (asked s s1))
        ∧ (kind = 3 →
          (readKernel s1 l.asid l.kdesc l.pin = (u, .wait) → exec i s = .next (asked s u))
          ∧ (readKernel s1 l.asid l.kdesc l.pin = (u, .bad) → refused u 8)
          ∧ (readKernel s1 l.asid l.kdesc l.pin = (u, .ok x) →
            (recordReserved r = true ∨ kernelReserved x = true → refused u 1)
            ∧ (recordReserved r = false → kernelReserved x = false →
              (kernelRange kn = true → refused u 7)
              ∧ (kernelRange kn = false → (kn.eligible u = [] → refused u 4)
                ∧ (kn.eligible u ≠ [] → (u.work.ppSlotb < kn.fmax + kn.ltpb * l.prv → refused u 5)
                  ∧ (kn.fmax + kn.ltpb * l.prv ≤ u.work.ppSlotb →
                    (l.pin = true → pinsBad x { l with k := kn } = true → refused u 6)
                    ∧ (l.pin = false ∨ pinsBad x { l with k := kn } = false →
                      (readRanges l.asid l.args x (List.range kn.nlease) u [] = (v, .inr .bad) → refused v 8)
                      ∧ (readRanges l.asid l.args x (List.range kn.nlease) u [] = (v, .inr .wait) → exec i s = .next (asked s v))
                      ∧ (readRanges l.asid l.args x (List.range kn.nlease) u [] = (v, .inl rs) →
                        ((∃ g ∈ rs, rangeOk g = false) → refused v 2)
                        ∧ ((∀ g ∈ rs, rangeOk g = true) → (neverFits v l2 = true → refused v 3) ∧ (neverFits v l2 = false → admitted))))))))))
        ∧ (kind ≠ 0 → kind ≠ 2 → kind ≠ 3 → let asid := (originOf s q h).1
          (readKernel s1 asid (r % 2 ^ 48) false = (u, .bad) → exec i s = .next (rejectAt u q h r 8 asid (r / 2 ^ 112 % 2 ^ 48)))
          ∧ (readKernel s1 asid (r % 2 ^ 48) false = (u, .ok x) → exec i s = .next (rejectAt u q h r 1 asid (r / 2 ^ 112 % 2 ^ 48)))
          ∧ (readKernel s1 asid (r % 2 ^ 48) false = (u, .wait) → exec i s = .next (asked s u))))
      ∧ ∀ n asid, u.mgmt.rej.ctl.getLsbD 0 = false → u.mgmt.rej.buf.length < 16 → (u.work.qhead.get? q).getD 0 = h →
        let t := rejectAt u q h r n asid 0
        popped u t ∧ t.work.rejects = u.work.rejects + 1 ∧ t.mgmt.rej.buf = u.mgmt.rej.buf ++ [toBytes 64 (r + n * 2 ^ 256 + q * 2 ^ 264)] ∧ t.mem = u.mem)
    ∧ (launchOf s launch = some l → let i : Instr := .blockStart die launch place slot
        let n := min (l.cohb + 1) (l.nblk - l.next)
        let mine : Prop := l.queued = true ∧ mayPop s die l.queue false = true
        (¬mine → exec i s = .next s)
        ∧ (mine → startNext s l slot (some place) = none → waited i)
        ∧ (mine → startNext s l slot (some place) = some u → exec i s = .next (served die l.queue u))
        ∧ (mine → n ≠ 0 → l.failed = false → rangesMapped s l = true → l.k.prog ≠ 0 → l.k.place = [] →
          fitCohort s l l.next n [] = some (ix, vr, m) → takeFor s l.id 0 slot ((List.range n).map (l.next + ·)) = some tk →
          place.length = n → diesAllowed (place.map (·.1)) = true → (placeGiven s vr place [] []).map (·.2) = some ps →
          ∃ t bs, exec i s = .next t ∧ t.work.blocks = s.work.blocks ++ bs ∧ bs.length = n ∧ t.mem = s.mem
            ∧ t.coh = { s.coh with icache := s.coh.icache.filter fun e => !(place.any fun p => 64 * p.1 + p.2 == e.1) }
            ∧ (∀ (i : Nat) (b : Block), bs[i]? = some b → b.launch = launch ∧ b.index = l.next + i ∧ b.inCoh = i ∧ b.vidx = ix ∧ b.v = vr
              ∧ place[i]? = some (b.die, b.core) ∧ tk.slots.getD i 0 = b.slot ∧ tk.saves.getD i 0 = b.save ∧ tk.tasks.getD i 0 = b.task)
            ∧ ∃ l', launchOf t launch = some l' ∧ l' = { l with next := l.next + n, leased := true, queued := decide (l.next + n < l.nblk) }))
    ∧ (alone → mayPop s die q false = true → kind = 0 → ∀ p : Nat × Nat, let i : Instr := .taskRecord die q p slot
        let o := originOf s1 q h
        let l := launchFor s1 q r o.1 o.2 true
        let r0 := putBits r 167 1 0
        (awayFor s1 r0 ≠ none → resumeRecordAt s1 q h r0 (some [p]) = .done u → exec i s = .next (served die q u))
        ∧ (∀ n, awayFor s1 r0 = none → admitRecord s1 r l = (u, .refused n) → exec i s = .next (served die q (rejectAt u q h r n l.asid l.join)))
        ∧ (awayFor s1 r0 = none → admitRecord s1 r l = (u, .wait) → exec i s = .next (asked s u))
        ∧ (awayFor s1 r0 = none → admitRecord s1 r l = (u, .ok l') → rangesMapped u l' = false → waited i)
        ∧ (∀ sp, awayFor s1 r0 = none → r / 2 ^ 48 % 2 ^ 16 = 0xFFFF → admitRecord s1 r l = (u, .ok l') → rangesMapped u l' = true →
          startTask.resumePlacesNew u l' (some p) = some (ix, vr, [(p.1, p.2, sp)]) → takeFor u l'.id (r / 2 ^ 64 % 2 ^ 48) slot [0] = some tk →
          ∃ t b, exec i s = .next t ∧ t.work.blocks = u.work.blocks ++ [b] ∧ b.launch = l'.id ∧ b.index = 0 ∧ b.die = p.1 ∧ b.core = p.2 ∧ b.v = vr
            ∧ b.frame = r / 2 ^ 64 % 2 ^ 48 ∧ t.work.launches = u.work.launches ++ [{ l' with next := 1, leased := true }] ∧ popped u t ∧ t.mem = u.mem))
    ∧ (let i : Instr := .blockResume die q place
        let comes (j k : State) (y : Tried) : Prop := match y with
          | .done t => exec i j = .next (served die q t)
          | .wait t => exec i j = .next (asked k t)
          | .no => exec i j = .next k
        (firstResume s q = (u, none) → exec i s = .next (asked s u))
        ∧ (∀ n, firstResume s q = (u, some (some n)) → (mayPop s die q true = false → exec i s = .next s)
          ∧ (mayPop s die q true = true → comes s s (resumeRecordAt u q n.1 n.2 (some place))))
        ∧ (firstResume s q = (u, some none) → (queuedLaunch s q ≠ none ∨ mayPop s die q false = false → exec i s = .next s)
          ∧ (alone → mayPop s die q false = true → (kind ≠ 2 → exec i s = .next s)
            ∧ (kind = 2 → comes s s (resumeRecordAt s1 q h r (some place)))))
        ∧ (awayFor s1 r = none → r.testBit 167 = false →
            resumeRecordAt s1 q h r (some place) = .done (rejectAt s1 q h r 1 (originOf s1 q h).1 (r / 2 ^ 112 % 2 ^ 48))))
    ∧ (let n := (s.work.qsize.get? q).getD 0
        let old := (s.work.qtail.get? q).getD 0;
        (n = 0 ∨ 64 ≤ q ∨ s.boot.step < 7 → exec (.qtail q k) s = .next s)
        ∧ (n ≠ 0 → q < 64 → 7 ≤ s.boot.step → ∃ t, exec (.qtail q k) s = .next t
          ∧ t = { s with work := { s.work with qtail := s.work.qtail.set q (k % n), enq := t.work.enq } }
          ∧ ∀ j < (k % n + n - old) % n, (q, (old + j) % n, s.sched.cycle) ∈ t.work.enq))
    ∧ (die < 4 → core < 64 → s.mgmt.rej.buf.length < 16 →
        let next (y : Bool × Nat) (given : Option (List (Nat × Nat))) : Tried := if y.1 then resumeNext s y.2 given else headNext s y.2 given
        let places := (heldQueues s).flatMap fun q => [(true, q), (false, q)]
        let find := places.find? fun y => (next y none).isDone && mayPop s die y.2 y.1
        let i : Instr := .workRequest die core
        (∀ y, find = some y → (∀ t, next y (some [(die, core)]) = .done t → exec i s = .next (served die y.2 t))
          ∧ ((next y (some [(die, core)])).isDone = false → ∀ t, next y none = .done t → exec i s = .next (served die y.2 t)))
        ∧ (find = none → (∀ y ∈ places, ∀ t, next y none ≠ .wait t) → waited i))
    ∧ (s.mgmt.rej.buf = [] ∨ s.mgmt.rej.takes = false → exec .rejectBufferDrain s = .next s)
    ∧ (s.mgmt.rej.buf = [e] → s.mgmt.rej.takes = true →
        engWrite s (s.mgmt.rej.base + 64 * s.mgmt.rej.tail) 64 (putBits (ofBytes e) 511 1 s.mgmt.rej.phase.toNat) = (u, true) → u.mgmt.rej.buf = [e] →
        ∃ t, exec .rejectBufferDrain s = .next t ∧ t.mem = u.mem ∧ t.coh = u.coh ∧ t.mgmt.rej.buf = []
          ∧ t.mgmt.rej.tail = (u.mgmt.rej.tail + 1) % u.mgmt.rej.size)
    ∧ (queueHead s q = some h → launchOf s launch = some l → let i : Instr := .yieldRequestTimeout q launch
        let since := ((s.work.enq.find? fun e => e.1 == q && e.2.1 == h).map (·.2.2)).getD s.sched.cycle
        let fits := (headNext s q none).isDone
        (l.k.prog = 0 ∨ q / 16 ≤ l.queue / 16 ∨ s.sched.cycle < since + 65536 ∨ fits = true → exec i s = .next s)
        ∧ (l.k.prog ≠ 0 → l.queue / 16 < q / 16 → since + 65536 ≤ s.sched.cycle → fits = false → ∃ cs, exec i s = .next (swptAll { s with
            work := { s.work with cohorts := cs } }) ∧ cs.length = s.work.cohorts.length ∧ ∀ (i : Nat) (c : Cohort), s.work.cohorts[i]? = some c →
              cs[i]? = some (if c.launch = launch && s.work.blocks.any (fun b => b.cohort == c.uid) then { c with yield := true, starve := some (q, h) } else c)))
    ∧ (let bs := cohortBlocks s cohort
        let leaves (s t : State) (saved : Bool) : Prop := (∀ b ∈ t.work.blocks, b.cohort ≠ cohort) ∧ t.mem = s.mem ∧ t.coh = { s.coh with ucs := t.coh.ucs }
          ∧ ∀ b ∈ s.work.blocks, b.cohort = cohort → ∃ a ∈ t.work.away, a.cohort = cohort ∧ a.index = b.index ∧ a.saved = saved ∧ a.slot = b.slot ∧ a.save = b.save
        cohortOf s cohort = some c → bs.head? = some b → launchOf s b.launch = some l →
          (let i : Instr := .switchSuspend cohort
            let due : Prop := s.power.frozen = false ∧ (∀ b ∈ bs, b.halted = false) ∧ cohortOwes s cohort = false ∧ (∀ b ∈ bs, ∀ m, b.bms = some m → m.st = .exited)
              ∧ cohortSuspends s cohort = none
            let q := queueOf w cohort
            let rec_ := resumeRecord l 2 q b.index id (frameAt w b) none
            (due → c.yield = false ∨ cohortAtSwpt s cohort = false → exec i s = .next s)
            ∧ (due → c.yield = true → cohortAtSwpt s cohort = true → blockSwpt b = some (id :: ids) →
              (drainBuffers s cohort = (w, false) → exec i s = .next w)
              ∧ (drainBuffers s cohort = (w, true) →
                (∀ y, unevenGroup bs = some y ∨ (unevenGroup bs = none ∧ openPhase w cohort bs = some y) → exec i s = .next (raiseAt w bs y 0x0C 0))
                ∧ (unevenGroup bs = none → openPhase w cohort bs = none →
                  (writeFrames l bs.length id bs w = (u, false) → exec i s = .next (asked w u))
                  ∧ (writeFrames l bs.length id bs w = (u, true) →
                    (queueAppend u q rec_ l.asid l.prv = (v, false) → exec i s = .next (asked w v))
                    ∧ (queueAppend u q rec_ l.asid l.prv = (v, true) → ∃ t, exec i s = .next t ∧ leaves v t false))))))
          ∧ ∀ rows, let i : Instr := .contextSave cohort rows
            (s.power.frozen = true ∨ c.preempt = false ∨ (∃ b ∈ bs, b.halted = false) → exec i s = .next s)
            ∧ (s.power.frozen = false → c.preempt = true → (∀ b ∈ bs, b.halted = true) →
              (drainAll s cohort = (u, false) → exec i s = .next u)
              ∧ (drainAll s cohort = (u, true) → (drainBuffers u cohort = (w, false) → exec i s = .next w)
                ∧ (drainBuffers u cohort = (w, true) →
                  let cs := cohortCopies w cohort
                  let z := (List.range cs.length).foldl (fun s n => stopCopy s (cs.getD n (0, 0, 0)) (rows.getD n 0)) w
                  let q := queueOf z cohort
                  (podWritesOpen z cohort = true → exec i s = .next z)
                  ∧ (podWritesOpen z cohort = false → (saveBlocks (cohortBlocks z cohort) z = (s1, false) → cohortBlocks z cohort ≠ [] → exec i s = .next (asked z s1))
                    ∧ (∀ d, (cohortBlocks z cohort).head? = some d → saveBlocks (cohortBlocks z cohort) z = (s1, true) →
                      let rec_ := resumeRecord l 2 q d.index 0xFFFF (saveVa s1 d.save) (some d.vidx)
                      (queueAppend s1 q rec_ l.asid l.prv = (v, false) → exec i s = .next (asked z v))
                      ∧ (queueAppend s1 q rec_ l.asid l.prv = (v, true) → ∃ t, exec i s = .next t ∧ leaves v t true)))))))
    ∧ (∃ t, exec (.preemptRequest tgt) s = .next t ∧ t = { s with work := { s.work with blocks := t.work.blocks, cohorts := t.work.cohorts } }
        ∧ let named (k : Nat) : Prop := ∃ b ∈ s.work.blocks, b.cohort = k ∧ ∃ n ∈ s.work.blocks, namesBlock tgt n = true
            ∧ (n.cohort = b.cohort ∨ (n.launch = b.launch ∧ ∃ l, launchOf s b.launch = some l ∧ l.k.prog = 0 ∧ l.isTask = false))
          t.work.blocks.length = s.work.blocks.length ∧ t.work.cohorts.length = s.work.cohorts.length
          ∧ (∀ (i : Nat) (b : Block), s.work.blocks[i]? = some b →
              t.work.blocks[i]? = some (if s.power.frozen = false ∧ (cohortOf t b.cohort).any (·.preempt) then { b with halted := true } else b))
          ∧ ∀ (i : Nat) (c : Cohort), s.work.cohorts[i]? = some c → (named c.uid → t.work.cohorts[i]? = some { c with preempt := true })
            ∧ (¬named c.uid → t.work.cohorts[i]? = some c))
    ∧ (∀ m, blockOf s blk = some b → b.bms = some m →
        (m.st ≠ .trapped → exec (.bmsResume blk) s = .next s ∧ exec (.blockEnd blk) s = .next s)
        ∧ (m.st = .trapped → exec (.blockEnd blk) s = .next (endCohort s b.cohort b.launch none)
          ∧ ∃ t, exec (.bmsResume blk) s = .next t ∧ t = { s with work := { s.work with blocks := t.work.blocks } }
            ∧ blockOf t blk = some { b with bms := some { m with st := .run, trap := none } } ∧ ∀ j, j ≠ blk → blockOf t j = blockOf s j))

/-! ### Reset, trust, fatal errors (20, 24; 04, 06) -/

/-- R78, R79, R133, R362 to R364, R398 to R402: what a package reset leaves, with the firmware chain measured or refused; the host
link; a die's cores or uncore in reset, gracefully or not, and their return; a fatal error, once, with its dump; BOOT_STATUS; a
firmware update measured, refused or turned away by a full log; an attestation report with its signature. A reset is stated where
nothing of the die is in flight. What a package reset keeps is the model's choice (assumption log 38).
Model's choices: assumption logs 35, 38, 86 and 87. -/
def Obligations.ResetsAndFatalErrors : Prop :=
  ∀ (s u : State) (die : Nat) (f f1 f2 f3 : Firmware) (nonce : BitVec 256) (k : Key) (c : CLine),
    let tells (s t : State) (r : Reply) : Prop := t.sched.replies = s.sched.replies ++ [r]
    let digest (f : Firmware) : BitVec 256 := Config.sha256 (Firmware.header f ++ f.body)
    let extend (m d : BitVec 256) : BitVec 256 := Config.sha256 (digestBytes m ++ digestBytes d);
    (∃ t, exec .packageReset s = .next t ∧ t.work.blocks = [] ∧ t.work.launches = [] ∧ t.work.away = [] ∧ t.coh = State.reset.coh
        ∧ t.mem.cells = s.mem.cells ∧ t.mem.poison = s.mem.poison ∧ t.mem.dead = s.mem.dead ∧ t.mem.retired = s.mem.badList
        ∧ t.motion = State.reset.motion ∧ t.boot.flash = s.boot.flash ∧ t.boot.roll = s.boot.roll)
    ∧ (s.boot.flash = [f1, f2, f3] → f1.stage = 1 → f2.stage = 2 → f3.stage = 3 →
        (imageReason s.boot 1 f1 = 0 → imageReason s.boot 2 f2 = 0 → imageReason s.boot 3 f3 = 0 → (∀ e < 8, edgeDown (resetKeeping s) e = false) →
          ∃ t, exec .packageReset s = .next t ∧ t.boot = { s.boot with
            status := 48, step := 5, hostUp := false, meas := [extend 0 (digest f1), extend 0 (digest f2), extend 0 (digest f3)]
            log := [(1, f1.rollback, digest f1, 0), (2, f2.rollback, digest f2, 0), (3, f3.rollback, digest f3, 0)] })
        ∧ (imageReason s.boot 1 f1 ≠ 0 → ∃ t, exec .packageReset s = .next t ∧ t.boot.status = 16 + imageReason s.boot 1 f1 ∧ t.boot.log = []
          ∧ t.boot.meas = [0, 0, 0] ∧ t.power.coresDown = [0, 1, 2, 3] ∧ t.power.uncoreDown = [0, 1, 2, 3, 4, 5]))
    ∧ (∀ ok, (s.boot.step ≠ 5 ∨ ok = false → exec (.hostLinkRetry ok) s = .next s)
        ∧ (s.boot.step = 5 → ok = true → ∃ t, exec (.hostLinkRetry ok) s = .next t
            ∧ t = { s with mem := { s.mem with cap := enableCaps s.mem.cap }, boot := { s.boot with step := 7, hostUp := true }, sched := t.sched }
            ∧ tells s t (.frames (enableCaps s.mem.cap) (s.mem.badList.map (· * 65536)))))
    ∧ (∀ cores uncore, let i : Instr := .dieResetGraceful die cores uncore
        (6 ≤ die ∨ (∃ b ∈ s.work.blocks, b.die = die) → exec i s = .next s)
        ∧ (die < 6 → (∀ b ∈ s.work.blocks, b.die ≠ die) → (if uncore then recallHomes (flushDie s die) die else (flushDie s die, true)) = (u, true) →
          (∀ c ∈ u.coh.lines, onDie die c.cl = false) → (∀ w ∈ u.coh.wbs, onDie die w.1 = false) →
          ∃ t, exec i s = .next t ∧ t.mem = u.mem ∧ t.coh.lines = u.coh.lines ∧ t.coh.dir = u.coh.dir ∧ t.work = u.work
            ∧ (cores = true → die < 4 → die ∈ t.power.coresDown ∧ (∀ x ∈ t.cores, x.1 / 64 ≠ die) ∧ (∀ x ∈ t.trace, x.1 / 64 ≠ die))
            ∧ (cores = false ∨ 4 ≤ die → t.power.coresDown = u.power.coresDown ∧ t.cores = u.cores)
            ∧ (uncore = true → die ∈ t.power.uncoreDown ∧ ∀ e ∈ t.coh.mtlb, e.die ≠ die)
            ∧ (uncore = false → t.power.uncoreDown = u.power.uncoreDown ∧ t.coh.mtlb = u.coh.mtlb)))
    ∧ (let i : Instr := .dieResetCoreAbrupt die
        let u := settleKeys s (keysHeld s die);
        (4 ≤ die → exec i s = .next s)
        ∧ (die < 4 → (∀ b ∈ s.work.blocks, b.die ≠ die) → u.coh.lines.filter (fun c => onDie die c.cl) = [c] →
          let gone := dropLine u c.cl c.key
          let z := poisonHome gone c.key
          let owned : Prop := (c.st = .m ∨ c.st = .o ∨ c.st = .a) ∧ homeBusy gone c.key = false ∧ homeUp gone c.key = true
          ∃ t, exec i s = .next t ∧ die ∈ t.power.coresDown ∧ (∀ c ∈ t.coh.lines, onDie die c.cl = false) ∧ (∀ r ∈ t.coh.reqs, onDie die r.1 = false)
            ∧ (∀ w ∈ t.coh.wc, onDie die w.cl = false)
            ∧ (owned → hostAddr z c.key = none → t.mem = z.mem)
            ∧ (∀ hpa e, owned → hostAddr z c.key = some hpa → hostLine z hpa = some e → e.keys = [c.key] → e.st ≠ .invalid →
                (dirOf z c.key).st = .he → (dirOf z c.key).owner = c.cl →
                t.sched.replies = z.sched.replies ++ [.evict hpa (if e.dirty then some (e.data, e.poison) else none)])
            ∧ (c.st = .m ∨ c.st = .o ∨ c.st = .a → homeBusy gone c.key = true ∨ homeUp gone c.key = false → c.key ∈ t.coh.dropped)
            ∧ (c.st = .e ∨ c.st = .s → hostAddr gone c.key = none → t.mem = u.mem)))
    ∧ (let i : Instr := .dieResetUncoreAbrupt die
        let u := settleKeys s (keysHomed s die);
        (6 ≤ die → exec i s = .next s)
        ∧ (die < 6 → ∃ t, exec i s = .next t ∧ t.mem = u.mem ∧ t.coh.lines = u.coh.lines ∧ t.power = { u.power with uncoreDown := insertNat die u.power.uncoreDown }
          ∧ t.coh.mtlb = u.coh.mtlb.filter (fun e => e.die != die) ∧ t.work = u.work))
    ∧ (let w := (keysHomed s die).foldl reported
          { s with power := { s.power with uncoreDown := s.power.uncoreDown.erase die } };
        (die ∉ s.power.uncoreDown → exec (.uncoreReturn die) s = .next s)
        ∧ (die ∈ s.power.uncoreDown → s.coh.dropped = [] → exec (.uncoreReturn die) s = .next w ∧ w.mem = s.mem ∧ w.coh.lines = s.coh.lines)
        ∧ (die ∈ s.power.uncoreDown → s.coh.dropped = [k] →
            (homeUp w k = false ∨ homeBusy w k = true → exec (.uncoreReturn die) s = .next w)
            ∧ (homeUp w k = true → homeBusy w k = false → ∃ t, exec (.uncoreReturn die) s = .next t
              ∧ t.mem = (poisonHome { w with coh := { w.coh with dropped := [] } } k).mem ∧ t.coh.dropped = [])))
    ∧ exec (.coreResetEnd die) s = .next (yieldCheck { s with power := { s.power with coresDown := s.power.coresDown.erase die } })
    ∧ (let falls (i : Instr) (cause die detail : Nat) : Prop := ∃ t, exec i s = .next t
          ∧ t = { s with sched := t.sched, mgmt := { s.mgmt with irqs := s.mgmt.irqs + 1 }
                         power := { s.power with fatal := some (cause, die, detail), coresDown := [0, 1, 2, 3], uncoreDown := [0, 1, 2, 3, 5] } }
          ∧ let size := min s.mgmt.fdSize (32 + (dumpBody s).length)
            let h := 0xF940 + Config.fwVersion.toNat * 2 ^ 64 + cause * 2 ^ 80 + die * 2 ^ 88 + detail * 2 ^ 96 + size * 2 ^ 160
              + s.sched.time.getD 4 0 % 2 ^ 64 * 2 ^ 192
            tells s t (.hostWr s.mgmt.fdBase ((toBytes 32 h ++ dumpBody s).take size));
        (s.power.fatal = none → falls .watchdogExpiry 4 4 0 ∧ (∀ w, falls (.uncorrectableStateError die w) 3 die (die % 8 + onChipCode w * 8))
          ∧ (s.power.frozen = true → s.power.frzStart + 10 ^ 9 ≤ s.sched.time.getD 4 0 → s.power.hot ≠ [] → falls .freezeTimeout 2 4 0))
        ∧ (s.power.frozen = false ∨ s.sched.time.getD 4 0 < s.power.frzStart + 10 ^ 9 ∨ s.power.hot = [] → exec .freezeTimeout s = .next s)
        ∧ (s.power.fatal ≠ none → exec .watchdogExpiry s = .next s ∧ ∀ w, exec (.uncorrectableStateError die w) s = .next s))
    ∧ (∃ t, exec .mailboxStatus s = .next t ∧ tells s t (.status s.boot.status) ∧ t = { s with sched := t.sched })
    ∧ (let i : Instr := .firmwareUpdate f
        let only (n : Nat) : Prop := ∃ t, exec i s = .next t ∧ tells s t (.status n) ∧ t = { s with sched := t.sched };
        (f.stage < 1 ∨ 3 < f.stage → only (16 * f.stage + 1))
        ∧ (1 ≤ f.stage → f.stage ≤ 3 → (imageReason s.boot f.stage f ≠ 0 → only (16 * f.stage + imageReason s.boot f.stage f))
          ∧ (imageReason s.boot f.stage f = 0 → 64 ≤ s.boot.log.length → only Config.logFull)
          ∧ (imageReason s.boot f.stage f = 0 → s.boot.log.length < 64 → ∃ t, exec i s = .next t ∧ tells s t (.status 0)
            ∧ t = { s with sched := t.sched, boot := { s.boot with
                flash := (s.boot.flash.filter fun g => g.stage != f.stage) ++ [f]
                log := s.boot.log ++ [(f.stage, f.rollback, digest f, s.sched.time.getD 4 0)]
                meas := s.boot.meas.modify (f.stage - 1) fun m => extend m (digest f) } })))
    ∧ (let rep := digestBytes nonce ++ s.boot.meas.flatMap digestBytes ++ toBytes 4 s.boot.log.length ++ toBytes 4 s.boot.status
          ++ toBytes 8 (s.sched.time.getD 4 0) ++ toBytes 8 s.boot.serial.toNat ++ digestBytes (Config.sha256 (s.boot.log.flatMap logBytes)) ++ toBytes 8 0
        ∃ t, exec (.attestRequest nonce) s = .next t ∧ tells s t (.bytes (rep ++ Config.attestSign s.boot.devKey rep)) ∧ t = { s with sched := t.sched })

/-! ### Debug, trace, recording, causal experiments, registers (04, 05, 15, 20, 22, 23) -/

/-- R75, R102, R371 to R377, R379, R385, R388, R390, R392: debug commands with their statuses and records, the sampler, trace control,
recording and replay, progress points, and what a write of a management register leaves. Rings that the device writes are stated
with EN clear or nothing buffered; `gid` names group `g` of block `u`, whose entry `idx` is `q`.
Model's choices: assumption logs 23, 72, 77, 89, 90 and 91. -/
def Obligations.DebugCommandsAndRegisters : Prop :=
  ∀ (s w : State) (launch gid idx set u g f slot pc ci die core : Nat) (m : LaneMask) (b : Block) (l : Launch) (gr : Group) (q : Path) (p : Pend) (i : Iss)
    (v : Dword) (e : List Byte) (y : Yarrow),
    let tells (s t : State) (r : Reply) : Prop := t.sched.replies = s.sched.replies ++ [r]
    let only (i : Instr) (n : Nat) : Prop := ∃ t, exec i s = .next t ∧ tells s t (.status n) ∧ t = { s with sched := t.sched }
    let entry (kind idx set pc : Nat) (m : LaneMask) : List Byte := toBytes 32 (s.sched.time.getD b.die 0 % 2 ^ 64 + l.asid % 2 ^ 16 * 2 ^ 80 + gid * 2 ^ 96
      + kind * 2 ^ 128 + idx * 2 ^ 138 + set * 2 ^ 141 + pc % 2 ^ 48 * 2 ^ 144 + m.toNat * 2 ^ 192)
    let named : Prop := groupWith s gid = some (u, g) ∧ blockOf s u = some b ∧ launchOfBlock s u = some l ∧ b.groups[g]? = some gr ∧ gr.paths[idx]? = some q ∧ idx < 8
    let room : Prop := s.mgmt.dbq.ctl.getLsbD 0 = false ∧ s.mgmt.dbq.buf.length < 64
    let c := coreIndex die core;
    (launchOf s launch = some l →
      (l.dbg ≠ none → ∀ mode, only (.attach launch mode) 1)
      ∧ (l.dbg = none → ∀ mode, ∃ t, exec (.attach launch mode) s = .next t ∧ tells s t (.status 0) ∧ launchOf t launch = some { l with dbg := some mode }
          ∧ t = { s with sched := t.sched, work := { s.work with launches := t.work.launches } })
      ∧ (∃ t, exec (.detach launch) s = .next t ∧ ∃ r, tells r t (.status 0) ∧ t = { r with sched := t.sched }
          ∧ r = settleBlocks (modLaunch ((launchBlocks s launch).foldl (fun s b => modBlock s b.uid releaseAll) s) launch fun l => { l with dbg := none, bps := [] })
            (launchBlocks s launch))
      ∧ ((∀ b ∈ s.work.blocks, b.launch ≠ launch) → ∃ t, exec (.detach launch) s = .next t ∧ launchOf t launch = some { l with dbg := none, bps := [] })
      ∧ (l.dbg = none → only (.bpset launch slot pc) 6 ∧ only (.bpclr launch slot) 6)
      ∧ (l.dbg ≠ none → (∃ t, exec (.bpset launch slot pc) s = .next t ∧ tells s t (.status 0) ∧ launchOf t launch = some { l with bps := l.bps.set (slot % 8) pc })
          ∧ ∃ t, exec (.bpclr launch slot) s = .next t ∧ tells s t (.status 0) ∧ launchOf t launch = some { l with bps := l.bps.erase (slot % 8) })
      ∧ (∀ clkt base size mode, (l.k.nlease = 0 → only (.record launch clkt base size mode) 1)
          ∧ (l.k.nlease ≠ 0 → ∃ t, exec (.record launch clkt base size mode) s = .next t ∧ tells s t (.status 0)
            ∧ launchOf t launch = some { l with rr := some ⟨mode, clkt, base, size, 0, 0, []⟩ }
            ∧ ∀ b, blockOf s b.uid = some b → b.launch = launch → blockOf t b.uid = some { b with groups := b.groups.map fun g => { g with gclk := 0, redc := [], replayed := 0 } }))
      ∧ (let base := l.cxd.getD 4 0
        ∃ t, exec (.ppcntRead launch) s = .next t ∧ t = { s with sched := t.sched } ∧ tells s t (.words (l.ppcnt.map (·.toNat) ++
          [base + ((l.cxd.getD 0 0 - base) + (l.cxd.getD 1 0 - base) + (l.cxd.getD 2 0 - base) + (l.cxd.getD 3 0 - base)), l.cxn]))))
    ∧ exec .cxExchange s = .next { s with work := { s.work with launches := s.work.launches.map fun l => { l with cxd := List.replicate 5 (cxTotal l) } } }
    ∧ (groupWith s gid = none → only (.hold gid idx) 2 ∧ only (.release gid idx) 3 ∧ only (.step gid idx) 3 ∧ (∀ m, only (.split gid idx set m) 3)
        ∧ ∀ it, only (.rdstate gid it) 2 ∧ only (.wrstate gid it v) 2)
    ∧ (named →
      (q.st = .free → only (.hold gid idx) 2)
      ∧ (q.st ≠ .free → q.mask = [m] → m ≠ 0 → room → ∃ t, exec (.hold gid idx) s = .next t ∧ tells s t (.status 0) ∧ t.mgmt.dbq.buf = s.mgmt.dbq.buf ++ [entry 4 idx 0 q.pc m]
          ∧ groupOf t u g = some { gr with paths := gr.paths.set idx { q with held := true } } ∧ t.mem = s.mem)
      ∧ (q.held = false → only (.release gid idx) 3 ∧ only (.step gid idx) 3 ∧ ∀ m, only (.split gid idx set m) 3)
      ∧ (q.held = true → (∃ t, exec (.release gid idx) s = .next t ∧ ∃ r, tells r t (.status 0) ∧ t = { r with sched := t.sched }
            ∧ r = afterUnit (modPath s u g idx fun q => { q with held := false, step := false }) u)
          ∧ (∃ t, exec (.step gid idx) s = .next t ∧ tells s t (.status 0) ∧ groupOf t u g = some { gr with paths := gr.paths.set idx { q with step := true } }
            ∧ t.mem = s.mem ∧ t.coh = s.coh)
          ∧ (unpassed s u g idx = true → exec (.split gid idx set m) s = .next s)
          ∧ (unpassed s u g idx = false → freeEntry gr = none → only (.split gid idx set m) 4)
          ∧ (unpassed s u g idx = false → freeEntry gr = some f → q.st ≠ .free →
            let own := q.mask.getD set 0
            let lanes : Prop := m ≠ 0 ∧ m &&& own = m ∧ m ≠ own;
            (¬lanes → only (.split gid idx set m) 5)
            ∧ (lanes → room → ∃ t q1 q2, exec (.split gid idx set m) s = .next t ∧ tells s t (.status 0) ∧ pathOf t u g idx = some q1 ∧ pathOf t u g f = some q2
              ∧ q1 = { q with mask := q1.mask } ∧ q2 = { q with mask := q2.mask, dlist := none, unrep := true, kills := [], trap := none, step := false }
              ∧ (∀ j < q.mask.length, q1.mask.getD j 0 = (if j = set then own &&& ~~~m else q.mask.getD j 0) ∧ q2.mask.getD j 0 = if j = set then m else 0)
              ∧ t.mgmt.dbq.buf = s.mgmt.dbq.buf ++ [entry 5 f set q.pc m] ∧ t.mem = s.mem)))
      ∧ (∀ it, (itemPending s u g it = true → exec (.rdstate gid it) s = .next s)
          ∧ (itemPending s u g it = false → ∃ t, exec (.rdstate gid it) s = .next t ∧ t = { s with sched := t.sched } ∧ tells s t (.words (match it with
            | .vreg j l n => [((gr.regs b.v).rdV j l n).toNat] | .greg n => [((gr.regs b.v).rdG n).toNat] | .lpred j l i => [((gr.regs b.v).rdP j l i).toNat]
            | .kpred i => [((gr.regs b.v).rdK i).toNat] | .counter i => [((gr.ctx.ctrs.getD i 0) % 2 ^ 16).toNat]
            | .pathMask i j => (match gr.paths[i]? with | some p => [(p.mask.getD j 0).toNat] | none => [])
            | it => itemValue gr b.v it)))
          ∧ (mayWrite gr it = false → only (.wrstate gid it v) 3)
          ∧ (mayWrite gr it = true → itemPending s u g it = true → exec (.wrstate gid it v) s = .next s)
          ∧ (mayWrite gr it = true → itemPending s u g it = false → ∃ t, exec (.wrstate gid it v) s = .next t ∧ tells (writeItem s u g it v.toNat) t (.status 0)
            ∧ t = { writeItem s u g it v.toNat with sched := t.sched }))
      ∧ (mayWrite gr (.greg idx) = true ↔ ∀ r ∈ gr.paths, r.st ≠ .free → r.held = true)
      ∧ (g ≠ bmsWho → ∀ n, 0 < n → n < 128 → ∃ r, regsOf (writeItem s u g (.greg n) v.toNat) u g = some r ∧ r.rdG n = BitVec.ofNat 32 v.toNat
          ∧ ∀ k < 128, k ≠ n → r.rdG k = (gr.regs b.v).rdG k))
    ∧ (let k := (s.mgmt.smpQuad.get? c).getD 0
      let t0 : State := { s with mgmt := { s.mgmt with smpQuad := s.mgmt.smpQuad.set c ((k + 1) % 4) } };
      (s.mgmt.smp = 0 → exec (.pcSample die core) s = .next s)
      ∧ (s.mgmt.smp ≠ 0 → die < 4 → core < 64 → (coreState s c).lastIssue.getD k none = none → exec (.pcSample die core) s = .next t0)
      ∧ (s.mgmt.smp ≠ 0 → die < 4 → core < 64 → (coreState s c).lastIssue.getD k none = some (u, g, idx) → blockOf s u = some b → launchOfBlock s u = some l →
          gidOf b l.isTask g = gid → pathOf s u g idx = some q → q.mask = [m] → m ≠ 0 → room → ∃ t, exec (.pcSample die core) s = .next t
            ∧ t = { t0 with mgmt := { t0.mgmt with dbq := t.mgmt.dbq } } ∧ t.mgmt.dbq = { s.mgmt.dbq with buf := s.mgmt.dbq.buf ++ [entry 0 idx 0 q.pc m] }))
    ∧ (yarrowOf s c = y → die < 4 → core < 64 → ∀ x : Word, let x' := x &&& 0xFFFF0003#32;
        (x.getLsbD 0 = y.ctl.getLsbD 0 ∧ x.getLsbD 0 = false ∨ x.getLsbD 0 = true ∧ y.ctl.getLsbD 0 = true → exec (.ytrCtl die core x) s = .next (setYarrow s c { y with ctl := x' }))
        ∧ (x.getLsbD 0 = false → y.ctl.getLsbD 0 = true → y.bits = [] → y.loss = none → exec (.ytrCtl die core x) s = .next (setYarrow s c
            { y with ctl := x', loss := none, due := false, bits := [], owner := none, last := none }))
        ∧ (x.getLsbD 0 = true → y.ctl.getLsbD 0 = false → let on := setYarrow s c { y with ctl := x', due := true }
          exec (.ytrCtl die core x) s = .next (if 15 ≤ y.size - (y.tail - y.head) then ySync on die core else on)))
    ∧ (issOf s u g = none → exec (.replayWaitEnd u g) s = .next s)
    ∧ (issOf s u g = some i → (i.l.rr = none ∨ (∃ r, i.l.rr = some r ∧ r.mode ≠ 2) → exec (.replayWaitEnd u g) s = .next s)
        ∧ (∀ r, i.l.rr = some r → r.mode = 2 → windowOf s u g = [p] → p.isStore = false → tryData s i p = (w, .yes) →
          exec (.replayWaitEnd u g) s = .next (afterUnit w u)))
    ∧ (s.mgmt.faq.buf = [] → exec .faqBufferDrain s = .next s
        ∧ ∀ x : Word, let r := s.mgmt.faq
          let ctl := (x &&& 0x0000FF03#32) ||| (r.ctl &&& 0xC0000000#32 &&& ~~~x)
          let r' : Ring := if x.getLsbD 0 = true ∧ r.ctl.getLsbD 0 = false then { r with ctl := ctl, head := 0, tail := 0, phase := true } else { r with ctl := ctl }
          exec (.faqCtl x) s = .next { s with mgmt := { s.mgmt with faq := r' } })
    ∧ (s.mgmt.faq.buf = [e] → s.mgmt.faq.takes = true →
        engWrite s (s.mgmt.faq.base + 16 * s.mgmt.faq.tail) 16 (putBits (ofBytes e) 63 1 s.mgmt.faq.phase.toNat) = (w, true) → w.mgmt.faq.buf = [e] →
        ∃ t, exec .faqBufferDrain s = .next t ∧ t.mem = w.mem ∧ t.coh = w.coh ∧ t.mgmt.faq.buf = [] ∧ t.mgmt.faq.tail = (w.mgmt.faq.tail + 1) % w.mgmt.faq.size)
    ∧ (let n := v.toNat
      let sets (r : MReg) (t : State) : Prop := exec (.registerWrite r v) s = .next t
      let ctl (r : Ring) : Ring := let c := (BitVec.ofNat 32 n &&& 3#32) ||| (r.ctl &&& 0x80000000#32 &&& ~~~BitVec.ofNat 32 n)
        if v.getLsbD 0 = true ∧ r.ctl.getLsbD 0 = false then { r with ctl := c, head := 0, tail := 0, phase := true } else { r with ctl := c }
      sets .asidtBase { s with mgmt := { s.mgmt with asidt := n } } ∧ sets .tspillBase { s with work := { s.work with tspill := n } }
      ∧ sets .rthEntry { s with mgmt := { s.mgmt with rth := n } } ∧ sets .podBase { s with mgmt := { s.mgmt with podBase := n } }
      ∧ sets .podEn { s with mgmt := { s.mgmt with podEn := v.getLsbD 0 } } ∧ sets .timePage { s with mgmt := { s.mgmt with timePage := n } }
      ∧ sets .mgcBase { s with mgmt := { s.mgmt with mgc := { s.mgmt.mgc with base := n } } } ∧ sets .mgcSize { s with mgmt := { s.mgmt with mgc := { s.mgmt.mgc with size := n } } }
      ∧ sets .mgcHead s ∧ sets .mgcTail { s with mgmt := { s.mgmt with mgc := { s.mgmt.mgc with tail := n } } }
      ∧ sets .mgcCtl { s with
          mgmt := { s.mgmt with mgc := ctl s.mgmt.mgc }
          motion := { s.motion with cmdAt := if v.getLsbD 0 = true ∧ s.mgmt.mgc.ctl.getLsbD 0 = false then 0 else s.motion.cmdAt } }
      ∧ (s.mgmt.rej.buf = [] → sets .rejBase { s with mgmt := { s.mgmt with rej := { s.mgmt.rej with base := n } } }
        ∧ sets .rejHead { s with mgmt := { s.mgmt with rej := { s.mgmt.rej with head := n } } } ∧ sets .rejCtl { s with mgmt := { s.mgmt with rej := ctl s.mgmt.rej } })
      ∧ (s.mgmt.trq.buf = [] → sets .trqSize { s with mgmt := { s.mgmt with trq := { s.mgmt.trq with size := n } } }
        ∧ sets .trqCtl { s with mgmt := { s.mgmt with trq := ctl s.mgmt.trq } })
      ∧ (s.mgmt.dbq.buf = [] → sets .dbqBase { s with mgmt := { s.mgmt with dbq := { s.mgmt.dbq with base := n } } }
        ∧ sets .dbqCtl { s with mgmt := { s.mgmt with dbq := ctl s.mgmt.dbq } })
      ∧ (s.motion.recs = [] → s.motion.moves = [] → sets .mgrCtl { s with mgmt := { s.mgmt with mgr := ctl s.mgmt.mgr } })
      ∧ (∀ k, sets (.qBase k) { s with work := { s.work with qbase := s.work.qbase.set k n } } ∧ sets (.qSize k) { s with work := { s.work with qsize := s.work.qsize.set k n } })
      ∧ sets .ppoolBase { s with work := { s.work with ppBase := n } } ∧ sets .ppoolSlots { s with work := { s.work with ppSlots := n } }
      ∧ sets .ppoolSlotb { s with work := { s.work with ppSlotb := n } } ∧ sets .csaBase { s with work := { s.work with csaBase := n } }
      ∧ sets .csaSlots { s with work := { s.work with csaSlots := n } } ∧ sets .csaSlotb { s with work := { s.work with csaSlotb := n } }
      ∧ sets (.ytrBase ci) (setYarrow s ci { yarrowOf s ci with base := n }) ∧ sets (.ytrSize ci) (setYarrow s ci { yarrowOf s ci with size := n })
      ∧ sets (.ytrHead ci) (setYarrow s ci { yarrowOf s ci with head := n })
      ∧ sets (.refill ci) { s with cores := s.cores.set ci { coreState s ci with refill := n } } ∧ sets (.ecap ci) { s with cores := s.cores.set ci { coreState s ci with ecap := n } }
      ∧ sets (.ecost slot) { s with power := { s.power with ecost := s.power.ecost.set slot n } } ∧ sets .smpPeriod { s with mgmt := { s.mgmt with smp := n } }
      ∧ sets (.cxRangeLo slot) { s with mgmt := { s.mgmt with cxRange := s.mgmt.cxRange.modify slot fun p => (n, p.2) } }
      ∧ sets (.cxRangeHi slot) { s with mgmt := { s.mgmt with cxRange := s.mgmt.cxRange.modify slot fun p => (p.1, n) } }
      ∧ sets .fdumpBase { s with mgmt := { s.mgmt with fdBase := n } } ∧ sets .fdumpSize { s with mgmt := { s.mgmt with fdSize := n } }
      ∧ sets (.tansyPromote slot) { s with motion := { s.motion with promote := s.motion.promote.set slot n } }
      ∧ sets (.tansyDemote slot) { s with motion := { s.motion with demote := s.motion.demote.set slot n } }
      ∧ sets .tansyPolicy { s with motion := { s.motion with policy := v.getLsbD 0 } }
      ∧ (∀ a, sets (.hintEnable a) { s with motion := { s.motion with hints := if v.getLsbD 0 then insertNat a s.motion.hints else s.motion.hints.erase a } })
      ∧ (∀ k o, sets (.freeFrame k o) { s with motion := { s.motion with free := s.motion.free ++ [(k, o, n)] } })
      ∧ (if ∃ j < 8, n = 2 ^ (40 + j) then sets .barSize { s with mgmt := { s.mgmt with barSize := n } } else sets .barSize s))
end

