-- ==== Sys2Proof/Laws/Dispatch.lean ====
section
/-!
SUPPORT. The meaning that `exec` runs, one lemma an instruction.
-/

namespace Sys2Proof.Machine

@[simp] theorem exec_iadd (h t sat d a b s) : exec (.iadd h t sat d a b) s = execIadd h t sat d a b s := rfl
@[simp] theorem exec_isub (h t sat d a b s) : exec (.isub h t sat d a b) s = execIsub h t sat d a b s := rfl
@[simp] theorem exec_imul (h t sat d a b s) : exec (.imul h t sat d a b) s = execImul h t sat d a b s := rfl
@[simp] theorem exec_imulh (h t d a b s) : exec (.imulh h t d a b) s = execImulh h t d a b s := rfl
@[simp] theorem exec_imad (h t sat d a b c s) : exec (.imad h t sat d a b c) s = execImad h t sat d a b c s := rfl
@[simp] theorem exec_idiv (h t d a b s) : exec (.idiv h t d a b) s = execIdiv h t d a b s := rfl
@[simp] theorem exec_irem (h t d a b s) : exec (.irem h t d a b) s = execIrem h t d a b s := rfl
@[simp] theorem exec_imin (h t d a b s) : exec (.imin h t d a b) s = execImin h t d a b s := rfl
@[simp] theorem exec_imax (h t d a b s) : exec (.imax h t d a b) s = execImax h t d a b s := rfl
@[simp] theorem exec_iabs (h t sat d a s) : exec (.iabs h t sat d a) s = execIabs h t sat d a s := rfl
@[simp] theorem exec_and (h t d a b s) : exec (.and h t d a b) s = execAnd h t d a b s := rfl
@[simp] theorem exec_or (h t d a b s) : exec (.or h t d a b) s = execOr h t d a b s := rfl
@[simp] theorem exec_xor (h t d a b s) : exec (.xor h t d a b) s = execXor h t d a b s := rfl
@[simp] theorem exec_shl (h t d a b s) : exec (.shl h t d a b) s = execShl h t d a b s := rfl
@[simp] theorem exec_shr (h t d a b s) : exec (.shr h t d a b) s = execShr h t d a b s := rfl
@[simp] theorem exec_sar (h t d a b s) : exec (.sar h t d a b) s = execSar h t d a b s := rfl
@[simp] theorem exec_bfx (h t d a b c s) : exec (.bfx h t d a b c) s = execBfx h t d a b c s := rfl
@[simp] theorem exec_bfi (h t d a b c s) : exec (.bfi h t d a b c) s = execBfi h t d a b c s := rfl
@[simp] theorem exec_popc (h t d a s) : exec (.popc h t d a) s = execPopc h t d a s := rfl
@[simp] theorem exec_clz (h t d a s) : exec (.clz h t d a) s = execClz h t d a s := rfl
@[simp] theorem exec_brev (h t d a s) : exec (.brev h t d a) s = execBrev h t d a s := rfl
@[simp] theorem exec_lea (h t sh d a b s) : exec (.lea h t sh d a b) s = execLea h t sh d a b s := rfl
@[simp] theorem exec_mov (h t d a s) : exec (.mov h t d a) s = execMov h t d a s := rfl
@[simp] theorem exec_movi (h t d x s) : exec (.movi h t d x) s = execMovi h t d x s := rfl
@[simp] theorem exec_sel (h t p d a b s) : exec (.sel h t p d a b) s = execSel h t p d a b s := rfl
@[simp] theorem exec_icmp (h c t d a b s) : exec (.icmp h c t d a b) s = execIcmp h c t d a b s := rfl
@[simp] theorem exec_plop (h tt d a b s) : exec (.plop h tt d a b) s = execPlop h tt d a b s := rfl
@[simp] theorem exec_pmov (h dir r s) : exec (.pmov h dir r) s = execPmov h dir r s := rfl
@[simp] theorem exec_shfl (h m t d a b s) : exec (.shfl h m t d a b) s = execShfl h m t d a b s := rfl
@[simp] theorem exec_vote (h m d a s) : exec (.vote h m d a) s = execVote h m d a s := rfl
@[simp] theorem exec_getl (h t d a b s) : exec (.getl h t d a b) s = execGetl h t d a b s := rfl
@[simp] theorem exec_setl (h t d a b s) : exec (.setl h t d a b) s = execSetl h t d a b s := rfl
@[simp] theorem exec_fadd (h t rm sat d a b s) : exec (.fadd h t rm sat d a b) s = execFadd h t rm sat d a b s := rfl
@[simp] theorem exec_fmul (h t rm sat d a b s) : exec (.fmul h t rm sat d a b) s = execFmul h t rm sat d a b s := rfl
@[simp] theorem exec_ffma (h t rm sat d a b c s) : exec (.ffma h t rm sat d a b c) s = execFfma h t rm sat d a b c s := rfl
@[simp] theorem exec_fmin (h t nan d a b s) : exec (.fmin h t nan d a b) s = execFmin h t nan d a b s := rfl
@[simp] theorem exec_fmax (h t nan d a b s) : exec (.fmax h t nan d a b) s = execFmax h t nan d a b s := rfl
@[simp] theorem exec_fcmp (h c t d a b s) : exec (.fcmp h c t d a b) s = execFcmp h c t d a b s := rfl
@[simp] theorem exec_fclass (h t d a s) : exec (.fclass h t d a) s = execFclass h t d a s := rfl
@[simp] theorem exec_frnd (h t rm d a s) : exec (.frnd h t rm d a) s = execFrnd h t rm d a s := rfl
@[simp] theorem exec_fscl (h t rm d a b s) : exec (.fscl h t rm d a b) s = execFscl h t rm d a b s := rfl
@[simp] theorem exec_frcp (h t d a s) : exec (.frcp h t d a) s = execFrcp h t d a s := rfl
@[simp] theorem exec_frsq (h t d a s) : exec (.frsq h t d a) s = execFrsq h t d a s := rfl
@[simp] theorem exec_fsqrt (h t rm d a s) : exec (.fsqrt h t rm d a) s = execFsqrt h t rm d a s := rfl
@[simp] theorem exec_fdiv (h t rm d a b s) : exec (.fdiv h t rm d a b) s = execFdiv h t rm d a b s := rfl
@[simp] theorem exec_fexp2 (h t d a s) : exec (.fexp2 h t d a) s = execFexp2 h t d a s := rfl
@[simp] theorem exec_flog2 (h t d a s) : exec (.flog2 h t d a) s = execFlog2 h t d a s := rfl
@[simp] theorem exec_fsin (h t d a s) : exec (.fsin h t d a) s = execFsin h t d a s := rfl
@[simp] theorem exec_fcos (h t d a s) : exec (.fcos h t d a) s = execFcos h t d a s := rfl
@[simp] theorem exec_fcvt (h td ts rm sat d a s) : exec (.fcvt h td ts rm sat d a) s = execFcvt h td ts rm sat d a s := rfl
@[simp] theorem exec_ftoi (h td ts rm sat d a s) : exec (.ftoi h td ts rm sat d a) s = execFtoi h td ts rm sat d a s := rfl
@[simp] theorem exec_itof (h td ts rm d a s) : exec (.itof h td ts rm d a) s = execItof h td ts rm d a s := rfl
@[simp] theorem exec_acz (h d s) : exec (.acz h d) s = execAcz h d s := rfl
@[simp] theorem exec_acadd (h t d a s) : exec (.acadd h t d a) s = execAcadd h t d a s := rfl
@[simp] theorem exec_acfma (h t d a b s) : exec (.acfma h t d a b) s = execAcfma h t d a b s := rfl
@[simp] theorem exec_acdot (h t d a b s) : exec (.acdot h t d a b) s = execAcdot h t d a b s := rfl
@[simp] theorem exec_acmrg (h d a s) : exec (.acmrg h d a) s = execAcmrg h d a s := rfl
@[simp] theorem exec_acred (h d a s) : exec (.acred h d a) s = execAcred h d a s := rfl
@[simp] theorem exec_acnorm (h d a s) : exec (.acnorm h d a) s = execAcnorm h d a s := rfl
@[simp] theorem exec_acrnd (h t rm sat mean d a scale rep s) : exec (.acrnd h t rm sat mean d a scale rep) s = execAcrnd h t rm sat mean d a scale rep s := rfl
@[simp] theorem exec_acscl (h d a b s) : exec (.acscl h d a b) s = execAcscl h d a b s := rfl
@[simp] theorem exec_acxt (h d a b s) : exec (.acxt h d a b) s = execAcxt h d a b s := rfl
@[simp] theorem exec_acins (h d a b s) : exec (.acins h d a b) s = execAcins h d a b s := rfl
@[simp] theorem exec_actst (h c d a s) : exec (.actst h c d a) s = execActst h c d a s := rfl
@[simp] theorem exec_acld (h sp d a m s) : exec (.acld h sp d a m) s = execAcld h sp d a m s := rfl
@[simp] theorem exec_acst (h sp canon d a m s) : exec (.acst h sp canon d a m) s = execAcst h sp canon d a m s := rfl
@[simp] theorem exec_ld (h sp t acq al d a m s) : exec (.ld h sp t acq al d a m) s = execLd h sp t acq al d a m s := rfl
@[simp] theorem exec_st (h sp t rel al d a m s) : exec (.st h sp t rel al d a m) s = execSt h sp t rel al d a m s := rfl
@[simp] theorem exec_pref (h mode a m s) : exec (.pref h mode a m) s = execPref h mode a m s := rfl
@[simp] theorem exec_waitc (h d b s) : exec (.waitc h d b) s = execWaitc h d b s := rfl
@[simp] theorem exec_fence (h o m s) : exec (.fence h o m) s = execFence h o m s := rfl
@[simp] theorem exec_cpy (h a s) : exec (.cpy h a) s = execCpy h a s := rfl
@[simp] theorem exec_seal (h d s) : exec (.seal h d) s = execSeal h d s := rfl
@[simp] theorem exec_cbw (h b s) : exec (.cbw h b) s = execCbw h b s := rfl
@[simp] theorem exec_dep (h t a b s) : exec (.dep h t a b) s = execDep h t a b s := rfl
@[simp] theorem exec_cadd (h d b s) : exec (.cadd h d b) s = execCadd h d b s := rfl
@[simp] theorem exec_disc (h a b m s) : exec (.disc h a b m) s = execDisc h a b m s := rfl
@[simp] theorem exec_mhint (h tp a b m s) : exec (.mhint h tp a b m) s = execMhint h tp a b m s := rfl
@[simp] theorem exec_lqry (h d a m s) : exec (.lqry h d a m) s = execLqry h d a m s := rfl
@[simp] theorem exec_region (h idx s) : exec (.region h idx) s = execRegion h idx s := rfl
@[simp] theorem exec_atom (h op far t o d a m s) : exec (.atom h op far t o d a m) s = execAtom h op far t o d a m s := rfl
@[simp] theorem exec_acas (h far t o d a m s) : exec (.acas h far t o d a m) s = execAcas h far t o d a m s := rfl
@[simp] theorem exec_aadd (h f rel d a m s) : exec (.aadd h f rel d a m) s = execAadd h f rel d a m s := rfl
@[simp] theorem exec_afin (h mean clr t rm acq d a m s) : exec (.afin h mean clr t rm acq d a m) s = execAfin h mean clr t rm acq d a m s := rfl
@[simp] theorem exec_bra (h off s) : exec (.bra h off) s = execBra h off s := rfl
@[simp] theorem exec_brx (h a s) : exec (.brx h a) s = execBrx h a s := rfl
@[simp] theorem exec_vbr (h inv p jofs off s) : exec (.vbr h inv p jofs off) s = execVbr h inv p jofs off s := rfl
@[simp] theorem exec_join (h s) : exec (.join h) s = execJoin h s := rfl
@[simp] theorem exec_loop (h off s) : exec (.loop h off) s = execLoop h off s := rfl
@[simp] theorem exec_brk (h s) : exec (.brk h) s = execBrk h s := rfl
@[simp] theorem exec_call (h off s) : exec (.call h off) s = execCall h off s := rfl
@[simp] theorem exec_callx (h a s) : exec (.callx h a) s = execCallx h a s := rfl
@[simp] theorem exec_ret (h s) : exec (.ret h) s = execRet h s := rfl
@[simp] theorem exec_throw (h inv p s) : exec (.throw h inv p) s = execThrow h inv p s := rfl
@[simp] theorem exec_barArrive (h coh nb cnt s) : exec (.barArrive h coh nb cnt) s = execBarArrive h coh nb cnt s := rfl
@[simp] theorem exec_barWait (h coh nb s) : exec (.barWait h coh nb) s = execBarWait h coh nb s := rfl
@[simp] theorem exec_barSync (h coh nb cnt s) : exec (.barSync h coh nb cnt) s = execBarSync h coh nb cnt s := rfl
@[simp] theorem exec_exit (h s) : exec (.exit h) s = execExit h s := rfl
@[simp] theorem exec_yield (h s) : exec (.yield h) s = execYield h s := rfl
@[simp] theorem exec_nop (h s) : exec (.nop h) s = execNop h s := rfl
@[simp] theorem exec_sleep (h b s) : exec (.sleep h b) s = execSleep h b s := rfl
@[simp] theorem exec_suspend (h a b s) : exec (.suspend h a b) s = execSuspend h a b s := rfl
@[simp] theorem exec_signal (h a b s) : exec (.signal h a b) s = execSignal h a b s := rfl
@[simp] theorem exec_spawn (h a b s) : exec (.spawn h a b) s = execSpawn h a b s := rfl
@[simp] theorem exec_launch (h a b s) : exec (.launch h a b) s = execLaunch h a b s := rfl
@[simp] theorem exec_swpt (h id s) : exec (.swpt h id) s = execSwpt h id s := rfl
@[simp] theorem exec_mz (h d n s) : exec (.mz h d n) s = execMz h d n s := rfl
@[simp] theorem exec_mma (h sh d a b s) : exec (.mma h sh d a b) s = execMma h sh d a b s := rfl
@[simp] theorem exec_mmas (h sh nk d sa b s) : exec (.mmas h sh nk d sa b) s = execMmas h sh nk d sa b s := rfl
@[simp] theorem exec_mdrain (h t rm sat x d a s) : exec (.mdrain h t rm sat x d a) s = execMdrain h t rm sat x d a s := rfl
@[simp] theorem exec_mspill (h sh clr d a s) : exec (.mspill h sh clr d a) s = execMspill h sh clr d a s := rfl
@[simp] theorem exec_mfill (h sh d a s) : exec (.mfill h sh d a) s = execMfill h sh d a s := rfl
@[simp] theorem exec_coll (h op x a s) : exec (.coll h op x a) s = execColl h op x a s := rfl
@[simp] theorem exec_abw (h a s) : exec (.abw h a) s = execAbw h a s := rfl
@[simp] theorem exec_crec (h op x a s) : exec (.crec h op x a) s = execCrec h op x a s := rfl
@[simp] theorem exec_gets (h sr d s) : exec (.gets h sr d) s = execGets h sr d s := rfl
@[simp] theorem exec_sets (h sr a s) : exec (.sets h sr a) s = execSets h sr a s := rfl
@[simp] theorem exec_trap (h code s) : exec (.trap h code) s = execTrap h code s := rfl
@[simp] theorem exec_rett (h skip s) : exec (.rett h skip) s = execRett h skip s := rfl
@[simp] theorem exec_bkpt (h s) : exec (.bkpt h) s = execBkpt h s := rfl
@[simp] theorem exec_ppt (h n s) : exec (.ppt h n) s = execPpt h n s := rfl
@[simp] theorem exec_tmark (h a s) : exec (.tmark h a) s = execTmark h a s := rfl
@[simp] theorem exec_loadDataReturn (blk who op s) : exec (.loadDataReturn blk who op) s = execLoadDataReturn blk who op s := rfl
@[simp] theorem exec_storePerformed (blk who op s) : exec (.storePerformed blk who op) s = execStorePerformed blk who op s := rfl
@[simp] theorem exec_memoryFaultArrival (blk who op s) : exec (.memoryFaultArrival blk who op) s = execMemoryFaultArrival blk who op s := rfl
@[simp] theorem exec_copyComplete (blk who copy s) : exec (.copyComplete blk who copy) s = execCopyComplete blk who copy s := rfl
@[simp] theorem exec_copyFailure (blk who copy timeout s) : exec (.copyFailure blk who copy timeout) s = execCopyFailure blk who copy timeout s := rfl
@[simp] theorem exec_depositApplied (dep s) : exec (.depositApplied dep) s = execDepositApplied dep s := rfl
@[simp] theorem exec_sleepExpiry (blk grp path s) : exec (.sleepExpiry blk grp path) s = execSleepExpiry blk grp path s := rfl
@[simp] theorem exec_matrixPassComplete (blk s) : exec (.matrixPassComplete blk) s = execMatrixPassComplete blk s := rfl
@[simp] theorem exec_rds (src k s) : exec (.rds src k) s = execRds src k s := rfl
@[simp] theorem exec_rdx (src k s) : exec (.rdx src k) s = execRdx src k s := rfl
@[simp] theorem exec_upg (src k s) : exec (.upg src k) s = execUpg src k s := rfl
@[simp] theorem exec_wb (src k s) : exec (.wb src k) s = execWb src k s := rfl
@[simp] theorem exec_accA (src k s) : exec (.accA src k) s = execAccA src k s := rfl
@[simp] theorem exec_mrg (src k s) : exec (.mrg src k) s = execMrg src k s := rfl
@[simp] theorem exec_fwdS (dst k s) : exec (.fwdS dst k) s = execFwdS dst k s := rfl
@[simp] theorem exec_fwdInv (dst k s) : exec (.fwdInv dst k) s = execFwdInv dst k s := rfl
@[simp] theorem exec_inv (dst k s) : exec (.inv dst k) s = execInv dst k s := rfl
@[simp] theorem exec_data (dst k s) : exec (.data dst k) s = execData dst k s := rfl
@[simp] theorem exec_ack (dst k s) : exec (.ack dst k) s = execAck dst k s := rfl
@[simp] theorem exec_fwdData (src k s) : exec (.fwdData src k) s = execFwdData src k s := rfl
@[simp] theorem exec_fwdMiss (src k s) : exec (.fwdMiss src k) s = execFwdMiss src k s := rfl
@[simp] theorem exec_invAck (src k s) : exec (.invAck src k) s = execInvAck src k s := rfl
@[simp] theorem exec_wbAck (dst k s) : exec (.wbAck dst k) s = execWbAck dst k s := rfl
@[simp] theorem exec_farOperation (k s) : exec (.farOperation k) s = execFarOperation k s := rfl
@[simp] theorem exec_replayContribution (src k s) : exec (.replayContribution src k) s = execReplayContribution src k s := rfl
@[simp] theorem exec_memRd (ofs m s) : exec (.memRd ofs m) s = execMemRd ofs m s := rfl
@[simp] theorem exec_memWr (ofs d s) : exec (.memWr ofs d) s = execMemWr ofs d s := rfl
@[simp] theorem exec_biRsp (k keepS s) : exec (.biRsp k keepS) s = execBiRsp k keepS s := rfl
@[simp] theorem exec_snpInv (hpa s) : exec (.snpInv hpa) s = execSnpInv hpa s := rfl
@[simp] theorem exec_snpData (hpa s) : exec (.snpData hpa) s = execSnpData hpa s := rfl
@[simp] theorem exec_snpCur (hpa s) : exec (.snpCur hpa) s = execSnpCur hpa s := rfl
@[simp] theorem exec_cxlCacheResponse (k g d poison s) : exec (.cxlCacheResponse k g d poison) s = execCxlCacheResponse k g d poison s := rfl
@[simp] theorem exec_homeTimeout (k s) : exec (.homeTimeout k) s = execHomeTimeout k s := rfl
@[simp] theorem exec_requestTimeout (cl k s) : exec (.requestTimeout cl k) s = execRequestTimeout cl k s := rfl
@[simp] theorem exec_wcDrain (cl s) : exec (.wcDrain cl) s = execWcDrain cl s := rfl
@[simp] theorem exec_throttleWindow (die core s) : exec (.throttleWindow die core) s = execThrottleWindow die core s := rfl
@[simp] theorem exec_hotnessDecay (die s) : exec (.hotnessDecay die) s = execHotnessDecay die s := rfl
@[simp] theorem exec_speculativeAccess (blk who va s) : exec (.speculativeAccess blk who va) s = execSpeculativeAccess blk who va s := rfl
@[simp] theorem exec_patrolScrub (pa o s) : exec (.patrolScrub pa o) s = execPatrolScrub pa o s := rfl
@[simp] theorem exec_faqBufferDrain (s) : exec .faqBufferDrain s = execFaqBufferDrain s := rfl
@[simp] theorem exec_faqCtl (v s) : exec (.faqCtl v) s = execFaqCtl v s := rfl
@[simp] theorem exec_registerWrite (r v s) : exec (.registerWrite r v) s = execRegisterWrite r v s := rfl
@[simp] theorem exec_energyRefill (die core s) : exec (.energyRefill die core) s = execEnergyRefill die core s := rfl
@[simp] theorem exec_powerAlarmRise (s) : exec .powerAlarmRise s = execPowerAlarmRise s := rfl
@[simp] theorem exec_powerAlarmClear (s) : exec .powerAlarmClear s = execPowerAlarmClear s := rfl
@[simp] theorem exec_thermalFreeze (stack s) : exec (.thermalFreeze stack) s = execThermalFreeze stack s := rfl
@[simp] theorem exec_thermalResume (s) : exec .thermalResume s = execThermalResume s := rfl
@[simp] theorem exec_freezeTimeout (s) : exec .freezeTimeout s = execFreezeTimeout s := rfl
@[simp] theorem exec_moveAccept (engine s) : exec (.moveAccept engine) s = execMoveAccept engine s := rfl
@[simp] theorem exec_lineCopyComplete (engine vpn asid o s) : exec (.lineCopyComplete engine vpn asid o) s = execLineCopyComplete engine vpn asid o s := rfl
@[simp] theorem exec_destWriteError (engine vpn asid s) : exec (.destWriteError engine vpn asid) s = execDestWriteError engine vpn asid s := rfl
@[simp] theorem exec_cursorTimeout (engine vpn asid s) : exec (.cursorTimeout engine vpn asid) s = execCursorTimeout engine vpn asid s := rfl
@[simp] theorem exec_migrationCommand (s) : exec .migrationCommand s = execMigrationCommand s := rfl
@[simp] theorem exec_migrationRecordDrain (engine s) : exec (.migrationRecordDrain engine) s = execMigrationRecordDrain engine s := rfl
@[simp] theorem exec_map (c s) : exec (.map c) s = execMap c s := rfl
@[simp] theorem exec_unmap (c s) : exec (.unmap c) s = execUnmap c s := rfl
@[simp] theorem exec_protect (c s) : exec (.protect c) s = execProtect c s := rfl
@[simp] theorem exec_zero (c s) : exec (.zero c) s = execZero c s := rfl
@[simp] theorem exec_badPageAdd (frame s) : exec (.badPageAdd frame) s = execBadPageAdd frame s := rfl
@[simp] theorem exec_hotsnap (va s) : exec (.hotsnap va) s = execHotsnap va s := rfl
@[simp] theorem exec_tagPurge (task s) : exec (.tagPurge task) s = execTagPurge task s := rfl
@[simp] theorem exec_flitReceive (l b c s) : exec (.flitReceive l b c) s = execFlitReceive l b c s := rfl
@[simp] theorem exec_ackFlit (l ack s) : exec (.ackFlit l ack) s = execAckFlit l ack s := rfl
@[simp] theorem exec_moduleRetrainDone (l ok s) : exec (.moduleRetrainDone l ok) s = execModuleRetrainDone l ok s := rfl
@[simp] theorem exec_ucieRetrain (l s) : exec (.ucieRetrain l) s = execUcieRetrain l s := rfl
@[simp] theorem exec_podRequest (peer tag r s) : exec (.podRequest peer tag r) s = execPodRequest peer tag r s := rfl
@[simp] theorem exec_podCompletion (id ok data s) : exec (.podCompletion id ok data) s = execPodCompletion id ok data s := rfl
@[simp] theorem exec_podTimeout (id s) : exec (.podTimeout id) s = execPodTimeout id s := rfl
@[simp] theorem exec_packedPartial (port slot p s) :
    exec (.packedPartial port slot p) s = execPackedPartial port slot p s := rfl
@[simp] theorem exec_collMessage (blk m s) : exec (.collMessage blk m) s = execCollMessage blk m s := rfl
@[simp] theorem exec_stepDeadline (blk commid chunk s) : exec (.stepDeadline blk commid chunk) s = execStepDeadline blk commid chunk s := rfl
@[simp] theorem exec_memberTimeout (blk commid s) : exec (.memberTimeout blk commid) s = execMemberTimeout blk commid s := rfl
@[simp] theorem exec_collAbortReport (blk entry cause s) :
    exec (.collAbortReport blk entry cause) s = execCollAbortReport blk entry cause s := rfl
@[simp] theorem exec_timeRecalibrate (rates s) : exec (.timeRecalibrate rates) s = execTimeRecalibrate rates s := rfl
@[simp] theorem exec_launchRecord (die q s) : exec (.launchRecord die q) s = execLaunchRecord die q s := rfl
@[simp] theorem exec_blockStart (die launch place slot s) : exec (.blockStart die launch place slot) s = execBlockStart die launch place slot s := rfl
@[simp] theorem exec_blockResume (die q place s) : exec (.blockResume die q place) s = execBlockResume die q place s := rfl
@[simp] theorem exec_taskRecord (die q place slot s) : exec (.taskRecord die q place slot) s = execTaskRecord die q place slot s := rfl
@[simp] theorem exec_qtail (q v s) : exec (.qtail q v) s = execQtail q v s := rfl
@[simp] theorem exec_workRequest (die core s) : exec (.workRequest die core) s = execWorkRequest die core s := rfl
@[simp] theorem exec_rejectBufferDrain (s) : exec .rejectBufferDrain s = execRejectBufferDrain s := rfl
@[simp] theorem exec_yieldRequestTimeout (q launch s) : exec (.yieldRequestTimeout q launch) s = execYieldRequestTimeout q launch s := rfl
@[simp] theorem exec_switchSuspend (cohort s) : exec (.switchSuspend cohort) s = execSwitchSuspend cohort s := rfl
@[simp] theorem exec_preemptRequest (t s) : exec (.preemptRequest t) s = execPreemptRequest t s := rfl
@[simp] theorem exec_contextSave (cohort rows s) : exec (.contextSave cohort rows) s = execContextSave cohort rows s := rfl
@[simp] theorem exec_bmsResume (blk s) : exec (.bmsResume blk) s = execBmsResume blk s := rfl
@[simp] theorem exec_blockEnd (blk s) : exec (.blockEnd blk) s = execBlockEnd blk s := rfl
@[simp] theorem exec_packageReset (s) : exec .packageReset s = execPackageReset s := rfl
@[simp] theorem exec_hostLinkRetry (ok s) : exec (.hostLinkRetry ok) s = execHostLinkRetry ok s := rfl
@[simp] theorem exec_dieResetGraceful (die cores uncore s) : exec (.dieResetGraceful die cores uncore) s = execDieResetGraceful die cores uncore s := rfl
@[simp] theorem exec_dieResetCoreAbrupt (die s) : exec (.dieResetCoreAbrupt die) s = execDieResetCoreAbrupt die s := rfl
@[simp] theorem exec_dieResetUncoreAbrupt (die s) : exec (.dieResetUncoreAbrupt die) s = execDieResetUncoreAbrupt die s := rfl
@[simp] theorem exec_uncoreReturn (die s) : exec (.uncoreReturn die) s = execUncoreReturn die s := rfl
@[simp] theorem exec_watchdogExpiry (s) : exec .watchdogExpiry s = execWatchdogExpiry s := rfl
@[simp] theorem exec_uncorrectableStateError (die w s) : exec (.uncorrectableStateError die w) s = execUncorrectableStateError die w s := rfl
@[simp] theorem exec_mailboxStatus (s) : exec .mailboxStatus s = execMailboxStatus s := rfl
@[simp] theorem exec_firmwareUpdate (img s) : exec (.firmwareUpdate img) s = execFirmwareUpdate img s := rfl
@[simp] theorem exec_attestRequest (nonce s) : exec (.attestRequest nonce) s = execAttestRequest nonce s := rfl
@[simp] theorem exec_attach (launch mode s) : exec (.attach launch mode) s = execAttach launch mode s := rfl
@[simp] theorem exec_detach (launch s) : exec (.detach launch) s = execDetach launch s := rfl
@[simp] theorem exec_hold (gid idx s) : exec (.hold gid idx) s = execHold gid idx s := rfl
@[simp] theorem exec_release (gid idx s) : exec (.release gid idx) s = execRelease gid idx s := rfl
@[simp] theorem exec_step (gid idx s) : exec (.step gid idx) s = execStep gid idx s := rfl
@[simp] theorem exec_split (gid idx set m s) : exec (.split gid idx set m) s = execSplit gid idx set m s := rfl
@[simp] theorem exec_bpset (launch slot pc s) : exec (.bpset launch slot pc) s = execBpset launch slot pc s := rfl
@[simp] theorem exec_bpclr (launch slot s) : exec (.bpclr launch slot) s = execBpclr launch slot s := rfl
@[simp] theorem exec_rdstate (gid it s) : exec (.rdstate gid it) s = execRdstate gid it s := rfl
@[simp] theorem exec_wrstate (gid it v s) : exec (.wrstate gid it v) s = execWrstate gid it v s := rfl
@[simp] theorem exec_pcSample (die core s) : exec (.pcSample die core) s = execPcSample die core s := rfl
@[simp] theorem exec_ytrCtl (die core v s) : exec (.ytrCtl die core v) s = execYtrCtl die core v s := rfl
@[simp] theorem exec_record (launch clkt rplBase rplSize mode s) : exec (.record launch clkt rplBase rplSize mode) s = execRecord launch clkt rplBase rplSize mode s := rfl
@[simp] theorem exec_replayWaitEnd (blk who s) : exec (.replayWaitEnd blk who) s = execReplayWaitEnd blk who s := rfl
@[simp] theorem exec_ppcntRead (launch s) : exec (.ppcntRead launch) s = execPpcntRead launch s := rfl
@[simp] theorem exec_cxExchange (s) : exec .cxExchange s = execCxExchange s := rfl
@[simp] theorem exec_coreResetEnd (die s) : exec (.coreResetEnd die) s = execCoreResetEnd die s := rfl

end Sys2Proof.Machine
end

