-- ==== Sys2Proof/Laws/Links.lean ====
section
/-!
SUPPORT. Bytes and flits (14 R261): the bytes of a natural give it back, and a flit laid out passes its CRC.
-/

namespace Sys2Proof.Machine

@[simp] theorem toBytes_length : ∀ n x, (toBytes n x).length = n
  | 0, _ => rfl
  | n + 1, x => by simp [toBytes, toBytes_length n]

theorem ofBytes_toBytes : ∀ n x, ofBytes (toBytes n x) = x % 256 ^ n
  | 0, x => by simp [toBytes, ofBytes, Nat.mod_one]
  | n + 1, x => by
    rw [toBytes, ofBytes, ofBytes_toBytes n, BitVec.toNat_ofNat, Nat.pow_succ 256 n, Nat.mul_comm (256 ^ n) 256, Nat.mod_mul]

theorem crcBit_lt {c : Nat} (h : c < 2 ^ 64) : crcBit c < 2 ^ 64 := by
  by_cases hb : c / 2 ^ 63 % 2 = 1
  · rw [crcBit, if_pos (show bitAt c 63 = true from beq_iff_eq.mpr hb)]
    exact Nat.xor_lt_two_pow (Nat.mod_lt _ (by decide)) (by decide)
  · rw [crcBit, if_neg (show ¬bitAt c 63 = true from mt beq_iff_eq.mp hb)]
    omega

theorem crcBits_lt : ∀ n {c : Nat}, c < 2 ^ 64 → crcBits n c < 2 ^ 64
  | 0, _, h => h
  | n + 1, _, h => crcBits_lt n (crcBit_lt h)

theorem crc64_lt (b : List Byte) : crc64 b < 2 ^ 64 := by
  suffices h : ∀ (b : List Byte) c, c < 2 ^ 64 → b.foldl (fun c x => crcBits 8 (c ^^^ (x.toNat * 2 ^ 56))) c < 2 ^ 64 from h b 0 (by decide)
  intro b
  induction b with
  | nil => exact fun _ h => h
  | cons x r ih => exact fun c h => ih _ (crcBits_lt 8 (Nat.xor_lt_two_pow h (by have := x.isLt; omega)))

theorem crcOk_append {b : List Byte} (h : b.length = 248) : flitOk (b ++ toBytes 8 (crc64 b)) = true := by
  rw [flitOk, List.drop_append_of_le_length (by omega), List.drop_of_length_le (by omega), List.take_append_of_le_length (by omega),
    List.take_of_length_le (by omega), List.nil_append, ofBytes_toBytes, Nat.mod_eq_of_lt (Nat.lt_of_lt_of_le (crc64_lt b) (by decide : 2 ^ 64 ≤ 256 ^ 8))]
  simp [h]

/-- A flit as its sender lays it out passes the receiver's CRC (R261). -/
theorem flitOk_flitBytes (f : Flit) : flitOk (flitBytes f) = true := by
  refine crcOk_append ?_
  rw [List.length_append, toBytes_length, List.length_take, List.length_append, List.length_replicate]
  omega

end Sys2Proof.Machine
end

