-- ==== Sys2Proof/Laws/LongAcc.lean ====
section
/-!
SUPPORT. Long accumulators (03 R61 to R68, 11 R203, R205): images read back, a segment addition keeps the value modulo
2^648, and one contribution changes S and the status word as the rules say.
-/

namespace Sys2Proof.Machine

/-- The storage of an accumulator within its fields (R61 to R63). -/
def La.Formed (a : La) : Prop :=
  (a.seg.length = 10 ∧ ∀ x ∈ a.seg, x < 2 ^ 64) ∧ (a.car.length = 10 ∧ ∀ c ∈ a.car, -128 ≤ c ∧ c ≤ 127) ∧ a.g < 256
    ∧ a.st.count < 65536 ∧ a.st.ninf < 128 ∧ a.st.pinf < 128

/-- The sum of R61 before it is read modulo 2^648. -/
def La.raw (a : La) : Int := (packNat 64 a.seg : Nat) + (a.g * 2 ^ 640 : Nat) + carrySum 0 a.car

theorem La.s_raw (a : La) : a.s = wrapS a.raw := rfl

theorem packNat_set (k : Nat) (l : List Nat) (i v : Nat) (h : i < l.length) :
    (packNat k (l.set i v) : Int) = packNat k l + ((v : Int) - (l.getD i 0 : Nat)) * 2 ^ (k * i) := by
  induction l generalizing i with
  | nil => simp at h
  | cons x l ih =>
    cases i with
    | zero => simp [packNat]; omega
    | succ i =>
      have := ih i (by simpa using h)
      simp only [List.set_cons_succ, packNat, Int.natCast_add, Int.natCast_mul, this, List.getD_cons_succ, Nat.mul_succ, Int.pow_add]
      have e : (2:Int) ^ (k * i) * 2 ^ k = ((2 ^ k : Nat) : Int) * 2 ^ (k * i) := by simp [Int.mul_comm]
      rw [e, Int.mul_add, Int.add_assoc, Int.mul_comm ((v:Int) - _) (2 ^ (k * i)), ← Int.mul_assoc, Int.mul_comm ((v:Int) - _) (_ * _)]

theorem carrySum_set (j : Nat) (l : List Int) (i : Nat) (v : Int) (h : i < l.length) :
    carrySum j (l.set i v) = carrySum j l + (v - l.getD i 0) * 2 ^ (64 * (j + i) + 64) := by
  induction l generalizing i j with
  | nil => simp at h
  | cons x l ih =>
    cases i with
    | zero => simp [carrySum, Int.sub_mul]; omega
    | succ i =>
      have := ih (j + 1) i (by simpa using h)
      simp only [List.set_cons_succ, carrySum, this, List.getD_cons_succ]
      rw [show j + 1 + i = j + (i + 1) by omega]; omega

theorem wrapS_add (x k : Int) : wrapS (x + k * 2 ^ 648) = wrapS x := by
  simp only [wrapS]; rw [Int.add_mul_emod_self_right]

theorem wrapS_sub (x : Int) : ∃ k, wrapS x = x + k * 2 ^ 648 := by
  simp only [wrapS]
  generalize (2 : Int) ^ 648 = M
  generalize (2 : Int) ^ 647 = H
  have := Int.mul_ediv_add_emod x M
  have hc := Int.mul_comm M (x / M)
  split
  · exact ⟨-(x / M), by rw [Int.neg_mul]; omega⟩
  · exact ⟨-(x / M) - 1, by rw [Int.sub_mul, Int.neg_mul]; omega⟩

theorem getD_mem_lt {l : List Nat} {B : Nat} (h : ∀ x ∈ l, x < B) (hB : 0 < B) (i : Nat) : l.getD i 0 < B := by
  rw [List.getD_eq_getElem?_getD]
  cases e : l[i]? with
  | none => exact hB
  | some x => exact h x (List.mem_of_getElem? e)

theorem getD_mem_car {l : List Int} (h : ∀ c ∈ l, -128 ≤ c ∧ c ≤ 127) (i : Nat) : -128 ≤ l.getD i 0 ∧ l.getD i 0 ≤ 127 := by
  rw [List.getD_eq_getElem?_getD]
  cases e : l[i]? with
  | none => simp
  | some x => exact h x (List.mem_of_getElem? e)

theorem mem_set_or {α : Type} {l : List α} {i : Nat} {v x : α} (h : x ∈ l.set i v) : x = v ∨ x ∈ l := by
  rcases List.mem_or_eq_of_mem_set h with h | h
  · exact .inr h
  · exact .inl h

theorem addSeg_spec (fuel : Nat) : ∀ (a : La) (i : Nat) (t : Int), a.Formed → i ≤ 10 → 11 - i ≤ fuel → -(2 ^ 64) < t → t < 2 ^ 64 →
    (La.addSeg fuel a i t).Formed ∧ (La.addSeg fuel a i t).st = a.st
      ∧ (∃ k : Int, (La.addSeg fuel a i t).raw = a.raw + t * 2 ^ (64 * i) + k * 2 ^ 648)
      ∧ ∀ j < i, (La.addSeg fuel a i t).car.getD j 0 = a.car.getD j 0 := by
  induction fuel with
  | zero => intro a i t _ hi hf; omega
  | succ fuel ih =>
    intro a i t hF hi hf ht1 ht2
    obtain ⟨⟨hsl, hs⟩, ⟨hcl, hc⟩, hg, hst⟩ := hF
    unfold La.addSeg
    by_cases h10 : i ≥ 10
    · rw [if_pos h10]
      have hi10 : i = 10 := by omega
      subst hi10
      refine ⟨⟨⟨hsl, hs⟩, ⟨hcl, hc⟩, ?_, hst⟩, rfl, ?_, fun j _ => rfl⟩
      · show (((a.g : Int) + t) % 256).toNat < 256; omega
      · refine ⟨-(((a.g : Int) + t) / 256), ?_⟩
        have := Int.mul_ediv_add_emod ((a.g : Int) + t) 256
        simp only [La.raw]
        have e : (((((a.g : Int) + t) % 256).toNat : Nat) : Int) = ((a.g : Int) + t) % 256 := by omega
        simp only [Int.natCast_mul, e]
        have e2 : ((2 ^ 640 : Nat) : Int) = 2 ^ 640 := Int.natCast_pow 2 640
        have e3 : (2 : Int) ^ 648 = 256 * 2 ^ 640 := Int.pow_add 2 8 640
        have e4 : (2 : Int) ^ (64 * 10) = 2 ^ 640 := rfl
        have e5 : ((a.g : Int) + t) % 256 = (a.g : Int) + t - 256 * (((a.g : Int) + t) / 256) := by omega
        rw [e2, e3, e4, e5]
        generalize (2 : Int) ^ 640 = G
        rw [Int.sub_mul, Int.add_mul, Int.neg_mul, ← Int.mul_assoc, Int.mul_comm (((a.g : Int) + t) / 256) 256]
        omega
    · rw [if_neg h10]
      have hi9 : i < 10 := by omega
      have hx := getD_mem_lt hs (by decide) i
      have hcr := getD_mem_car hc i
      dsimp only
      generalize hX : ((a.seg.getD i 0 : Nat) : Int) + t = x at *
      generalize hd : (if x ≥ 2 ^ 64 then (1 : Int) else if x < 0 then -1 else 0) = d
      have hdr : 0 ≤ x - d * 2 ^ 64 ∧ x - d * 2 ^ 64 < 2 ^ 64 ∧ (d = 1 ∨ d = -1 ∨ d = 0) := by
        subst hd; split
        · omega
        · split <;> omega
      have hp := packNat_set 64 a.seg i (x - d * 2 ^ 64).toNat (by omega)
      rw [Int.toNat_of_nonneg hdr.1] at hp
      have hseg : ∀ y ∈ a.seg.set i (x - d * 2 ^ 64).toNat, y < 2 ^ 64 := by
        intro y hy
        rcases mem_set_or hy with h | h
        · omega
        · exact hs y h
      have hpow : (2 : Int) ^ 64 * 2 ^ (64 * i) = 2 ^ (64 * i + 64) := by rw [Int.mul_comm, ← Int.pow_add]
      have hp' : (packNat 64 (a.seg.set i (x - d * 2 ^ 64).toNat) : Int) = packNat 64 a.seg + t * 2 ^ (64 * i) - d * 2 ^ (64 * i + 64) := by
        rw [hp, ← hpow, ← Int.mul_assoc]
        have : x - d * 2 ^ 64 - ((a.seg.getD i 0 : Nat) : Int) = t - d * 2 ^ 64 := by omega
        rw [this, Int.sub_mul]; omega
      by_cases hd0 : d = 0
      · rw [if_pos hd0]
        refine ⟨⟨⟨by simpa using hsl, hseg⟩, ⟨hcl, hc⟩, hg, hst⟩, rfl, ⟨0, ?_⟩, fun j _ => rfl⟩
        subst hd0; simp only [La.raw, hp']; omega
      · rw [if_neg hd0]
        by_cases hres : a.car.getD i 0 + d < -128 ∨ a.car.getD i 0 + d > 127
        · rw [if_pos hres]
          have hF1 : La.Formed { seg := a.seg.set i (x - d * 2 ^ 64).toNat, car := a.car.set i 0, g := a.g, st := a.st } := by
            refine ⟨⟨by simpa using hsl, hseg⟩, ⟨by simpa using hcl, ?_⟩, hg, hst⟩
            intro c hcm
            rcases mem_set_or hcm with h | h
            · omega
            · exact hc c h
          obtain ⟨⟨⟨b1, b2⟩, ⟨b3, b4⟩, b5⟩, f2, ⟨k, f3⟩, f4⟩ :=
            ih _ (i + 1) (a.car.getD i 0) hF1 (by omega) (by omega) (by omega) (by omega)
          generalize hb : La.addSeg fuel { seg := a.seg.set i (x - d * 2 ^ 64).toNat, car := a.car.set i 0, g := a.g, st := a.st } (i + 1) (a.car.getD i 0) = b at *
          have hbi : b.car.getD i 0 = 0 := by
            rw [f4 i (by omega)]
            simp only [List.getD_eq_getElem?_getD, List.getElem?_set_self (show i < a.car.length by omega), Option.getD_some]
          refine ⟨⟨⟨b1, b2⟩, ⟨by simpa using b3, ?_⟩, b5⟩, f2, ⟨k, ?_⟩, ?_⟩
          · intro c hcm
            rcases mem_set_or hcm with h | h
            · omega
            · exact b4 c h
          · have c1 := carrySum_set 0 a.car i 0 (by omega)
            have c2 := carrySum_set 0 b.car i (b.car.getD i 0 + d) (by omega)
            rw [hbi, Nat.zero_add] at c2
            rw [Nat.zero_add] at c1
            simp only [La.raw, hp', c1] at f3
            simp only [La.raw, hbi, c2]
            rw [show 64 * (i + 1) = 64 * i + 64 by omega] at f3
            simp only [Int.zero_add, Int.sub_zero, Int.zero_sub, Int.neg_mul] at f3 ⊢
            omega
          · intro j hj
            have := f4 j (by omega)
            simp only [List.getD_eq_getElem?_getD] at this ⊢
            rw [List.getElem?_set_ne (by omega), this, List.getElem?_set_ne (by omega)]
        · rw [if_neg hres]
          refine ⟨⟨⟨by simpa using hsl, hseg⟩, ⟨by simpa using hcl, ?_⟩, hg, hst⟩, rfl, ⟨0, ?_⟩, ?_⟩
          · intro c hcm
            rcases mem_set_or hcm with h | h
            · omega
            · exact hc c h
          · have c2 := carrySum_set 0 a.car i (a.car.getD i 0 + d) (by omega)
            rw [Nat.zero_add] at c2
            simp only [La.raw, hp', c2]
            rw [show a.car.getD i 0 + d - a.car.getD i 0 = d by omega]; omega
          · intro j hj
            simp only [List.getD_eq_getElem?_getD]
            rw [List.getElem?_set_ne (by omega)]

theorem packNat_lt (k : Nat) (l : List Nat) (h : ∀ x ∈ l, x < 2 ^ k) : packNat k l < 2 ^ (k * l.length) := by
  induction l with
  | nil => simp [packNat]
  | cons x l ih =>
    have h1 := ih (fun y hy => h y (List.mem_cons_of_mem _ hy))
    have h2 := h x (List.mem_cons_self ..)
    simp only [packNat, List.length_cons, Nat.mul_succ, Nat.pow_add]
    have : 2 ^ k * packNat k l + 2 ^ k ≤ 2 ^ k * 2 ^ (k * l.length) := by
      rw [← Nat.mul_succ]; exact Nat.mul_le_mul_left _ h1
    rw [Nat.mul_comm (2 ^ (k * l.length))]; omega

theorem packNat_get (k : Nat) (l : List Nat) (h : ∀ x ∈ l, x < 2 ^ k) (j : Nat) (hj : j < l.length) :
    packNat k l / 2 ^ (k * j) % 2 ^ k = l.getD j 0 := by
  induction l generalizing j with
  | nil => simp at hj
  | cons x l ih =>
    have h2 := h x (List.mem_cons_self ..)
    cases j with
    | zero => simp [packNat, Nat.add_mul_mod_self_left, Nat.mod_eq_of_lt h2]
    | succ j =>
      have := ih (fun y hy => h y (List.mem_cons_of_mem _ hy)) j (by simpa using hj)
      rw [List.getD_cons_succ, ← this, packNat, Nat.mul_succ, Nat.add_comm (k * j) k, Nat.pow_add, ← Nat.div_div_eq_div_mul,
        Nat.add_mul_div_left _ _ (Nat.two_pow_pos k), Nat.div_eq_of_lt h2, Nat.zero_add]

theorem map_range_getD (l : List α) (d : α) : (List.range l.length).map (fun j => l.getD j d) = l := by
  apply List.ext_getElem
  · simp
  · intro i h1 h2
    simp [List.getD_eq_getElem?_getD, List.getElem?_eq_getElem h2]

theorem byteInt_mod (c : Int) (h : -128 ≤ c ∧ c ≤ 127) : byteInt (c % 256).toNat = c := by
  simp only [byteInt]; split <;> omega

theorem LaStatus.ofNat_toNat (s : LaStatus) (h : s.count < 65536 ∧ s.ninf < 128 ∧ s.pinf < 128) : LaStatus.ofNat s.toNat = s := by
  obtain ⟨c, l, n, ni, pi⟩ := s
  simp only [LaStatus.toNat, LaStatus.ofNat] at *
  obtain ⟨h1, h2, h3⟩ := h
  have hl : l.toNat < 2 := by cases l <;> decide
  have hn : n.toNat < 2 := by cases n <;> decide
  have el : (l.toNat == 1) = l := by cases l <;> rfl
  have en : (n.toNat == 1) = n := by cases n <;> rfl
  have e1 : (pi + ni * 2 ^ 7 + n.toNat * 2 ^ 14 + l.toNat * 2 ^ 15 + c * 2 ^ 16) / 2 ^ 16 % 65536 = c := by omega
  have e2 : (pi + ni * 2 ^ 7 + n.toNat * 2 ^ 14 + l.toNat * 2 ^ 15 + c * 2 ^ 16) / 2 ^ 15 % 2 = l.toNat := by omega
  have e3 : (pi + ni * 2 ^ 7 + n.toNat * 2 ^ 14 + l.toNat * 2 ^ 15 + c * 2 ^ 16) / 2 ^ 14 % 2 = n.toNat := by omega
  have e4 : (pi + ni * 2 ^ 7 + n.toNat * 2 ^ 14 + l.toNat * 2 ^ 15 + c * 2 ^ 16) / 2 ^ 7 % 128 = ni := by omega
  have e5 : (pi + ni * 2 ^ 7 + n.toNat * 2 ^ 14 + l.toNat * 2 ^ 15 + c * 2 ^ 16) % 128 = pi := by omega
  rw [e1, e2, e3, e4, e5, el, en]

theorem LaStatus.toNat_lt (s : LaStatus) (h : s.count < 65536 ∧ s.ninf < 128 ∧ s.pinf < 128) : s.toNat < 2 ^ 32 := by
  obtain ⟨c, l, n, ni, pi⟩ := s
  simp only [LaStatus.toNat] at *
  have hl : l.toNat < 2 := by cases l <;> decide
  have hn : n.toNat < 2 := by cases n <;> decide
  omega

theorem mod_digit (N a k n : Nat) (h : a + k ≤ n) : N % 2 ^ n / 2 ^ a % 2 ^ k = N / 2 ^ a % 2 ^ k := by
  have : (2 : Nat) ^ n = 2 ^ a * 2 ^ (n - a) := by rw [← Nat.pow_add]; congr 1; omega
  rw [this, Nat.mod_mul_right_div_self, Nat.mod_mod_of_dvd _ (Nat.pow_dvd_pow 2 (by omega))]

/-- The image of a formed accumulator reads back as it (R62). -/
theorem La.ofImage_toImage (a : La) (h : a.Formed) : La.ofImage a.toImage = a := by
  obtain ⟨⟨hsl, hs⟩, ⟨hcl, hc⟩, hg, hst⟩ := h
  obtain ⟨seg, car, g, st⟩ := a
  simp only at *
  have hst' := LaStatus.toNat_lt st hst
  have hm : seg.map (· % 2 ^ 64) = seg := by
    exact (List.map_congr_left (g := id) (fun x hx => Nat.mod_eq_of_lt (hs x hx))).trans (List.map_id _)
  have hcb : ∀ y ∈ car.map (fun c => (c % 256).toNat), y < 2 ^ 8 := by
    intro y hy; simp only [List.mem_map] at hy; obtain ⟨c, _, rfl⟩ := hy; omega
  have l1 := packNat_lt 64 seg hs
  have l2 := packNat_lt 8 _ hcb
  simp only [List.length_map, hsl, hcl] at l1 l2
  simp only [La.toImage, La.ofImage, hm, Nat.mod_eq_of_lt hg, Nat.mod_eq_of_lt hst', BitVec.toNat_ofNat]
  generalize hA : packNat 64 seg = A at *
  generalize hB : packNat 8 (car.map fun c => (c % 256).toNat) = B at *
  generalize hW : st.toNat = W at *
  have hN : A + 2 ^ 640 * B + 2 ^ 720 * g + 2 ^ 736 * W = A + 2 ^ 640 * (B + 2 ^ 80 * (g + 2 ^ 16 * W)) := by
    have p1 : (2 : Nat) ^ 720 = 2 ^ 640 * 2 ^ 80 := (by rw [← Nat.pow_add])
    have p2 : (2 : Nat) ^ 736 = 2 ^ 640 * 2 ^ 80 * 2 ^ 16 := by rw [← Nat.pow_add, ← Nat.pow_add]
    rw [p1, p2]
    generalize (2 : Nat) ^ 640 = P
    generalize (2 : Nat) ^ 80 = Q
    rw [Nat.mul_add, Nat.mul_add, Nat.mul_add, ← Nat.mul_assoc, ← Nat.mul_assoc, ← Nat.mul_assoc]; omega
  rw [hN]
  simp only [Nat.reduceMul] at l1 l2
  have hP : 0 < (2 : Nat) ^ 640 := Nat.two_pow_pos 640
  have hQ : 0 < (2 : Nat) ^ 80 := Nat.two_pow_pos 80
  have e1 : (A + 2 ^ 640 * (B + 2 ^ 80 * (g + 2 ^ 16 * W))) % 2 ^ 640 = A := by
    rw [Nat.add_mul_mod_self_left, Nat.mod_eq_of_lt l1]
  have d1 : (A + 2 ^ 640 * (B + 2 ^ 80 * (g + 2 ^ 16 * W))) / 2 ^ 640 = B + 2 ^ 80 * (g + 2 ^ 16 * W) := by
    rw [Nat.add_mul_div_left _ _ hP, Nat.div_eq_of_lt l1, Nat.zero_add]
  have d2 : (B + 2 ^ 80 * (g + 2 ^ 16 * W)) / 2 ^ 80 = g + 2 ^ 16 * W := by
    rw [Nat.add_mul_div_left _ _ hQ, Nat.div_eq_of_lt l2, Nat.zero_add]
  have e2 : (A + 2 ^ 640 * (B + 2 ^ 80 * (g + 2 ^ 16 * W))) / 2 ^ 640 % 2 ^ 80 = B := by
    rw [d1, Nat.add_mul_mod_self_left, Nat.mod_eq_of_lt l2]
  have d3 : (A + 2 ^ 640 * (B + 2 ^ 80 * (g + 2 ^ 16 * W))) / 2 ^ 720 = g + 2 ^ 16 * W := by
    rw [show (2 : Nat) ^ 720 = 2 ^ 640 * 2 ^ 80 from (by rw [← Nat.pow_add]), ← Nat.div_div_eq_div_mul, d1, d2]
  have e3 : (A + 2 ^ 640 * (B + 2 ^ 80 * (g + 2 ^ 16 * W))) / 2 ^ 720 % 256 = g := by rw [d3]; omega
  have e4 : (A + 2 ^ 640 * (B + 2 ^ 80 * (g + 2 ^ 16 * W))) / 2 ^ 736 % 2 ^ 32 = W := by
    rw [show (2 : Nat) ^ 736 = 2 ^ 720 * 2 ^ 16 from (by rw [← Nat.pow_add]), ← Nat.div_div_eq_div_mul, d3]; omega
  have hlt : A + 2 ^ 640 * (B + 2 ^ 80 * (g + 2 ^ 16 * W)) < 2 ^ 768 := by
    have h1 : g + 2 ^ 16 * W < 2 ^ 48 := by omega
    have h2 : B + 2 ^ 80 * (g + 2 ^ 16 * W) < 2 ^ 128 := by
      have := Nat.mul_le_mul_left (2 ^ 80) h1; have p : (2 : Nat) ^ 128 = 2 ^ 80 * 2 ^ 48 := (by rw [← Nat.pow_add])
      rw [Nat.succ_eq_add_one, Nat.mul_add, Nat.mul_one] at this; rw [p]; omega
    have := Nat.mul_le_mul_left (2 ^ 640) h2
    rw [Nat.succ_eq_add_one, Nat.mul_add, Nat.mul_one] at this
    rw [show (2 : Nat) ^ 768 = 2 ^ 640 * 2 ^ 128 from (by rw [← Nat.pow_add])]
    generalize (2 : Nat) ^ 640 = P at *
    omega
  rw [Nat.mod_eq_of_lt hlt]
  rw [e3, e4, La.mk.injEq]
  refine ⟨?_, ?_, rfl, ?_⟩
  · have hl := map_range_getD seg 0
    rw [hsl] at hl
    refine Eq.trans ?_ hl
    apply List.map_congr_left
    intro j hj
    have hj : j < 10 := by simpa using hj
    have hb := packNat_get 64 seg hs j (by omega)
    rw [hA, ← e1] at hb
    rw [← hb, mod_digit _ _ _ _ (by omega)]
  · have hl := map_range_getD car 0
    rw [hcl] at hl
    refine Eq.trans ?_ hl
    apply List.map_congr_left
    intro j hj
    have hj : j < 10 := by simpa using hj
    have hb := packNat_get 8 _ hcb j (by simp [hcl, hj])
    have hm : (car.map fun c => (c % 256).toNat).getD j 0 = (car.getD j 0 % 256).toNat := by
      simp only [List.getD_eq_getElem?_getD, List.getElem?_map]; cases car[j]? <;> rfl
    rw [hB, hm, ← e2] at hb
    rw [← byteInt_mod _ (getD_mem_car hc j), ← hb]
    have e8 : (256 : Nat) = 2 ^ 8 := rfl
    rw [mod_digit _ _ _ _ (by omega), Nat.div_div_eq_div_mul, ← Nat.pow_add, e8]
  · rw [← hW]; exact LaStatus.ofNat_toNat st hst

theorem lowBit_le (n : Nat) (h : n ≠ 0) : ∃ o, n = 2 ^ lowBit n * o ∧ o % 2 = 1 := by
  -- n &&& (2^k - n) isolates the lowest set bit
  suffices hh : ∀ n, n ≠ 0 → ∀ k, n < 2 ^ k → ∃ z o, n = 2 ^ z * o ∧ o % 2 = 1 ∧ n &&& (2 ^ k - n) = 2 ^ z by
    obtain ⟨z, o, h1, h2, h3⟩ := hh n h (Nat.log2 n + 1) Nat.lt_log2_self
    refine ⟨o, ?_, h2⟩
    rw [lowBit, h3, Nat.log2_two_pow]; exact h1
  intro n
  induction n using Nat.strongRecOn with
  | ind n ih =>
    intro h0 k hk
    cases k with
    | zero => simp at hk; omega
    | succ k =>
      rcases Nat.mod_two_eq_zero_or_one n with e | e
      · obtain ⟨z, o, h1, h2, h3⟩ := ih (n / 2) (by omega) (by omega) k (by rw [Nat.pow_succ] at hk; omega)
        refine ⟨z + 1, o, ?_, h2, ?_⟩
        · rw [Nat.pow_succ, Nat.mul_right_comm]; omega
        · have : 2 ^ (k + 1) - n = 2 * (2 ^ k - n / 2) := by rw [Nat.pow_succ]; omega
          apply Nat.eq_of_testBit_eq
          intro i
          have h4 := congrArg (fun x => x.testBit (i - 1)) h3
          cases i with
          | zero => simp [Nat.testBit_zero, Nat.pow_succ]; omega
          | succ i =>
            simp only [Nat.add_sub_cancel, Nat.testBit_and] at h4
            rw [Nat.testBit_and, this, Nat.testBit_succ, Nat.testBit_succ, Nat.mul_div_cancel_left _ (by decide), Nat.testBit_succ, Nat.pow_succ,
              Nat.mul_div_cancel _ (by decide)]
            exact h4
      · refine ⟨0, n, by simp, e, ?_⟩
        apply Nat.eq_of_testBit_eq
        intro i
        cases i with
        | zero =>
          rw [Nat.testBit_and, Nat.testBit_zero, Nat.testBit_zero]
          have : (2 ^ (k + 1) - n) % 2 = 1 := by rw [Nat.pow_succ] at hk ⊢; omega
          simp [e, this]
        | succ i =>
          rw [Nat.testBit_and, Nat.testBit_succ, Nat.testBit_succ, Nat.testBit_succ]
          have e2 : (2 ^ (k + 1) - n) / 2 = 2 ^ k - 1 - n / 2 := by rw [Nat.pow_succ] at hk ⊢; omega
          rw [e2, show (2:Nat) ^ k - 1 - n / 2 = 2 ^ k - (n / 2 + 1) by omega, Nat.testBit_two_pow_sub_succ (by rw [Nat.pow_succ] at hk; omega)]
          cases (n / 2).testBit i <;> simp

theorem lowBit_odd (z o : Nat) (ho : o % 2 = 1) : lowBit (2 ^ z * o) = z := by
  have hpos : 0 < 2 ^ z * o := Nat.mul_pos (Nat.two_pow_pos z) (by omega)
  obtain ⟨o', h1, h2⟩ := lowBit_le (2 ^ z * o) (by omega)
  generalize lowBit (2 ^ z * o) = y at *
  rcases Nat.lt_trichotomy y z with h | h | h
  · have : z = y + (z - y - 1) + 1 := by omega
    rw [this, Nat.pow_succ, Nat.pow_add, Nat.mul_assoc, Nat.mul_assoc] at h1
    have := Nat.eq_of_mul_eq_mul_left (Nat.two_pow_pos y) h1
    rw [← Nat.mul_assoc, Nat.mul_right_comm] at this; omega
  · exact h
  · have : y = z + (y - z - 1) + 1 := by omega
    rw [this, Nat.pow_succ, Nat.pow_add, Nat.mul_assoc, Nat.mul_assoc] at h1
    have := Nat.eq_of_mul_eq_mul_left (Nat.two_pow_pos z) h1
    rw [← Nat.mul_assoc, Nat.mul_right_comm] at this; omega

theorem addPart_spec (a : La) (q : Int) (hF : a.Formed) (hq : q ≠ 0) (hb : q.natAbs < 2 ^ (lowBit q.natAbs + 64)) :
    (a.addPart q).Formed ∧ (a.addPart q).st = a.st ∧ ∃ k : Int, (a.addPart q).raw = a.raw + q + k * 2 ^ 648 := by
  obtain ⟨o, h1, h2⟩ := lowBit_le q.natAbs (by omega)
  generalize hz : lowBit q.natAbs = z at *
  unfold La.addPart
  rw [if_neg hq]
  simp only [hz]
  generalize hj : min (z / 64) 10 = j
  have hjz : 64 * j ≤ z := by omega
  have hdvd : ∃ w : Int, q = w * 2 ^ (64 * j) := by
    have : q.natAbs = 2 ^ (z - 64 * j) * o * 2 ^ (64 * j) := by
      rw [h1, Nat.mul_right_comm, ← Nat.pow_add]; congr 2; omega
    have h3 : ((q.natAbs : Nat) : Int) = ((2 ^ (z - 64 * j) * o : Nat) : Int) * 2 ^ (64 * j) := by rw [this]; simp
    rcases Int.natAbs_eq q with e | e
    · exact ⟨((2 ^ (z - 64 * j) * o : Nat) : Int), by omega⟩
    · exact ⟨-((2 ^ (z - 64 * j) * o : Nat) : Int), by rw [Int.neg_mul]; omega⟩
  obtain ⟨w, hw⟩ := hdvd
  have hP : (0 : Int) < 2 ^ (64 * j) := Int.pow_pos (by decide)
  have hwq : q.fdiv (2 ^ (64 * j)) = w := by
    rw [hw, Int.fdiv_eq_ediv_of_nonneg _ (by omega), Int.mul_ediv_cancel _ (by omega)]
  rw [hwq]
  have hlo : 0 ≤ w % 2 ^ 64 ∧ w % 2 ^ 64 < 2 ^ 64 := ⟨Int.emod_nonneg _ (by decide), Int.emod_lt_of_pos _ (by decide)⟩
  have hhi : w - w % 2 ^ 64 = 2 ^ 64 * (w / 2 ^ 64) := by have := Int.mul_ediv_add_emod w (2 ^ 64); omega
  have hhi' : (w - w % 2 ^ 64) / 2 ^ 64 = w / 2 ^ 64 := by rw [hhi]; exact Int.mul_ediv_cancel_left _ (by decide)
  rw [hhi']
  obtain ⟨f1, f2, ⟨k, f3⟩, _⟩ := addSeg_spec 12 a j (w % 2 ^ 64) hF (by omega) (by omega) (by omega) (by omega)
  by_cases hc : w / 2 ^ 64 ≠ 0 ∧ j < 10
  · rw [if_pos hc]
    have hwb : w.natAbs < 2 ^ 127 := by
      have e1 : q.natAbs = w.natAbs * 2 ^ (64 * j) := by
        rw [hw, Int.natAbs_mul]; congr 1
      have e2 : q.natAbs < 2 ^ 127 * 2 ^ (64 * j) := by
        rw [← Nat.pow_add]; exact Nat.lt_of_lt_of_le hb (Nat.pow_le_pow_right (by decide) (by omega))
      rw [e1] at e2
      exact Nat.lt_of_mul_lt_mul_right e2
    obtain ⟨g1, g2, ⟨k', g3⟩, _⟩ := addSeg_spec 12 _ (j + 1) (w / 2 ^ 64) f1 (by omega) (by omega) (by omega) (by omega)
    refine ⟨g1, g2.trans f2, k + k', ?_⟩
    rw [g3, f3, hw]
    have e : (2 : Int) ^ (64 * (j + 1)) = 2 ^ 64 * 2 ^ (64 * j) := by rw [← Int.pow_add]; congr 1; omega
    have e3 : w * 2 ^ (64 * j) = w % 2 ^ 64 * 2 ^ (64 * j) + w / 2 ^ 64 * (2 ^ 64 * 2 ^ (64 * j)) := by
      rw [← Int.mul_assoc, ← Int.add_mul]; congr 1; rw [Int.mul_comm (w / 2 ^ 64)]; omega
    rw [e, e3, Int.add_mul]; omega
  · rw [if_neg hc]
    refine ⟨f1, f2, ?_⟩
    by_cases hj10 : j = 10
    · subst hj10
      refine ⟨k - w / 2 ^ 64 * 2 ^ 56, ?_⟩
      rw [f3, hw]
      have e : (2 : Int) ^ 648 = 2 ^ 8 * 2 ^ (64 * 10) := Int.pow_add 2 8 640
      have e2 : w = w % 2 ^ 64 + w / 2 ^ 64 * 2 ^ 56 * 2 ^ 8 := by have := Int.mul_ediv_add_emod w (2 ^ 64); omega
      rw [Int.sub_mul]
      have e3 : w / 2 ^ 64 * 2 ^ 56 * 2 ^ 648 = w / 2 ^ 64 * 2 ^ 56 * 2 ^ 8 * 2 ^ (64 * 10) := by rw [e, Int.mul_assoc (_ * _) (2 ^ 8)]
      have e4 : w * 2 ^ (64 * 10) = w % 2 ^ 64 * 2 ^ (64 * 10) + w / 2 ^ 64 * 2 ^ 56 * 2 ^ 8 * 2 ^ (64 * 10) := by
        rw [← Int.add_mul, ← e2]
      rw [e3, e4]
      generalize w % 2 ^ 64 * 2 ^ (64 * 10) = X
      generalize w / 2 ^ 64 * 2 ^ 56 * 2 ^ 8 * 2 ^ (64 * 10) = Y
      generalize k * 2 ^ 648 = Z
      omega
    · have h0 : w / 2 ^ 64 = 0 := by
        rcases Int.lt_trichotomy (w / 2 ^ 64) 0 with h | h | h
        · exact absurd ⟨by omega, by omega⟩ hc
        · exact h
        · exact absurd ⟨by omega, by omega⟩ hc
      refine ⟨k, ?_⟩
      rw [f3, hw, show w % 2 ^ 64 = w by omega]

/-- A contribution adds T to S modulo 2^648 and 1 to COUNT, which saturates (R203, R66). -/
theorem addContribution_spec (a : La) (t : Int) (hF : a.Formed) (hb : t.natAbs < 2 ^ (lowBit t.natAbs + 106)) :
    (a.addContribution t).Formed ∧ (a.addContribution t).st = a.st.bump
      ∧ (a.addContribution t).s = wrapS (a.s + t) := by
  have hF' : La.Formed { a with st := a.st.bump } := by
    obtain ⟨f1, f2, f3, f4, f5⟩ := hF
    refine ⟨f1, f2, f3, ?_, f5⟩
    simp only [LaStatus.bump]; omega
  have hs : ∀ (b : La) (k : Int), b.raw = a.raw + t + k * 2 ^ 648 → b.s = wrapS (a.s + t) := by
    intro b k hk
    obtain ⟨k', hk'⟩ := wrapS_sub a.raw
    rw [La.s_raw, La.s_raw, hk, wrapS_add, hk', Int.add_right_comm, wrapS_add]
  unfold La.addContribution
  dsimp only
  by_cases h0 : t = 0
  · rw [if_pos h0]
    exact ⟨hF', rfl, hs _ 0 (by rw [h0, Int.add_zero, Int.zero_mul, Int.add_zero]; rfl)⟩
  rw [if_neg h0]
  obtain ⟨o, h1, h2⟩ := lowBit_le t.natAbs (by omega)
  generalize hz : lowBit t.natAbs = z at *
  generalize hm : t.natAbs = m at *
  have hσ : ∀ x : Nat, (if t < 0 then (-1 : Int) else 1) * x = if t < 0 then -(x : Int) else x := by
    intro x; split <;> omega
  have hσa : ∀ x : Nat, ((if t < 0 then (-1 : Int) else 1) * x).natAbs = x := by
    intro x; rw [hσ]; split <;> omega
  split
  · rename_i hlt
    have ht : (if t < 0 then (-1 : Int) else 1) * (m : Nat) = t := by rw [hσ]; split <;> omega
    rw [ht]
    obtain ⟨p1, p2, k, p3⟩ := addPart_spec { a with st := a.st.bump } t hF' h0 (by rw [hm, hz]; exact hlt)
    exact ⟨p1, p2, hs _ k p3⟩
  · have hZ := Nat.two_pow_pos z
    have el : m % 2 ^ (z + 53) = 2 ^ z * (o % 2 ^ 53) := by rw [h1, Nat.pow_add, Nat.mul_mod_mul_left]
    have eh : m - m % 2 ^ (z + 53) = 2 ^ (z + 53) * (o / 2 ^ 53) := by
      have := Nat.mod_add_div o (2 ^ 53)
      rw [el, h1, ← Nat.mul_sub, Nat.pow_add, Nat.mul_assoc]; congr 1; omega
    have hl0 : m % 2 ^ (z + 53) ≠ 0 := by
      rw [el]; intro h; rcases Nat.mul_eq_zero.1 h with h | h <;> omega
    have hh0 : m - m % 2 ^ (z + 53) ≠ 0 := by
      rename_i hge
      have : m % 2 ^ (z + 53) < 2 ^ (z + 64) :=
        Nat.lt_of_lt_of_le (Nat.mod_lt _ (Nat.two_pow_pos _)) (Nat.pow_le_pow_right (by decide) (by omega))
      omega
    have bl : m % 2 ^ (z + 53) < 2 ^ (lowBit (m % 2 ^ (z + 53)) + 64) := by
      rw [el, lowBit_odd z (o % 2 ^ 53) (by omega), ← el]
      exact Nat.lt_of_lt_of_le (Nat.mod_lt _ (Nat.two_pow_pos _)) (Nat.pow_le_pow_right (by decide) (by omega))
    have bh : m - m % 2 ^ (z + 53) < 2 ^ (lowBit (m - m % 2 ^ (z + 53)) + 64) := by
      have h53 : o / 2 ^ 53 ≠ 0 := by intro h; rw [h, Nat.mul_zero] at eh; omega
      obtain ⟨o', q1, q2⟩ := lowBit_le (o / 2 ^ 53) h53
      have e : m - m % 2 ^ (z + 53) = 2 ^ (z + 53 + lowBit (o / 2 ^ 53)) * o' := by
        rw [eh, Nat.pow_add _ (z + 53), Nat.mul_assoc, ← q1]
      rw [e, lowBit_odd _ _ q2, ← e]
      exact Nat.lt_of_le_of_lt (Nat.sub_le ..) (Nat.lt_of_lt_of_le hb (Nat.pow_le_pow_right (by decide) (by omega)))
    have l0 : (if t < 0 then (-1 : Int) else 1) * (m % 2 ^ (z + 53) : Nat) ≠ 0 := by rw [hσ]; split <;> omega
    have q0 : (if t < 0 then (-1 : Int) else 1) * (m - m % 2 ^ (z + 53) : Nat) ≠ 0 := by rw [hσ]; split <;> omega
    obtain ⟨p1, p2, k, p3⟩ := addPart_spec { a with st := a.st.bump } _ hF' l0 (by rw [hσa]; exact bl)
    obtain ⟨r1, r2, k', r3⟩ := addPart_spec _ _ p1 q0 (by rw [hσa]; exact bh)
    refine ⟨r1, r2.trans p2, hs _ (k + k') ?_⟩
    rw [r3, p3]
    have : (if t < 0 then (-1 : Int) else 1) * (m % 2 ^ (z + 53) : Nat) + (if t < 0 then (-1 : Int) else 1) * (m - m % 2 ^ (z + 53) : Nat) = t := by
      have := Nat.mod_le m (2 ^ (z + 53))
      rw [hσ, hσ]; split <;> omega
    have hr : La.raw { a with st := a.st.bump } = a.raw := rfl
    rw [Int.add_mul, hr]
    omega


theorem formed_ofImage (i : LaImage) : (La.ofImage i).Formed := by
  refine ⟨⟨by simp [La.ofImage], ?_⟩, ⟨by simp [La.ofImage], ?_⟩, Nat.mod_lt _ (by decide), Nat.mod_lt _ (by decide), Nat.mod_lt _ (by decide),
    Nat.mod_lt _ (by decide)⟩
  · intro x hx
    simp only [La.ofImage, List.mem_map] at hx
    obtain ⟨j, _, rfl⟩ := hx
    exact Nat.mod_lt _ (by decide)
  · intro c hc
    simp only [La.ofImage, List.mem_map] at hc
    obtain ⟨j, _, rfl⟩ := hc
    have := Nat.mod_lt (i.toNat / 2 ^ (640 + 8 * j)) (show 256 > 0 by decide)
    simp only [byteInt]; split <;> omega

theorem toNat_mod_div (s : Int) (n m : Nat) : (s % 2 ^ (n + m)).toNat / 2 ^ n < 2 ^ m := by
  have h1 := Int.emod_lt_of_pos s (show (0 : Int) < 2 ^ (n + m) from Int.pow_pos (by decide))
  have h2 := Int.emod_nonneg s (show (2 : Int) ^ (n + m) ≠ 0 from Int.ne_of_gt (Int.pow_pos (by decide)))
  apply Nat.div_lt_of_lt_mul
  rw [← Nat.pow_add]
  have e : ((2 ^ (n + m) : Nat) : Int) = 2 ^ (n + m) := by simp
  rw [← e] at h1 h2 ⊢
  omega

theorem formed_canonOf (s : Int) (st : LaStatus) (h : st.count < 65536 ∧ st.ninf < 128 ∧ st.pinf < 128) : (La.canonOf s st).Formed := by
  refine ⟨⟨by simp [La.canonOf], ?_⟩, ⟨by simp [La.canonOf], ?_⟩, ?_, h⟩
  · intro x hx
    simp only [La.canonOf, List.mem_map] at hx
    obtain ⟨j, _, rfl⟩ := hx
    exact Nat.mod_lt _ (by decide)
  · intro c hc
    simp only [La.canonOf, List.mem_replicate] at hc
    omega
  · exact toNat_mod_div s 640 8

theorem packNat_digits (k n x : Nat) : packNat k ((List.range n).map fun j => x / 2 ^ (k * j) % 2 ^ k) = x % 2 ^ (k * n) := by
  induction n generalizing x with
  | zero => simp [packNat, Nat.mod_one]
  | succ n ih =>
    rw [List.range_succ_eq_map, List.map_cons, List.map_map, packNat]
    have : ((fun j => x / 2 ^ (k * j) % 2 ^ k) ∘ Nat.succ) = fun j => x / 2 ^ k / 2 ^ (k * j) % 2 ^ k := by
      funext j; simp only [Function.comp, Nat.succ_eq_add_one, Nat.mul_succ, Nat.div_div_eq_div_mul, ← Nat.pow_add]; rw [Nat.add_comm]
    rw [this, ih, Nat.mul_zero, Nat.pow_zero, Nat.div_one, Nat.mul_succ, Nat.add_comm (k * n), Nat.pow_add, Nat.mod_mul]

theorem carrySum_zero (n j : Nat) : carrySum j (List.replicate n 0) = 0 := by
  induction n generalizing j with
  | zero => rfl
  | succ n ih => simp [List.replicate_succ, carrySum, ih]

/-- The canonical image stands for its S (R68). -/
theorem canonOf_s (s : Int) (st : LaStatus) : (La.canonOf s st).s = wrapS s := by
  have h2 := Int.emod_nonneg s (show (2 : Int) ^ 648 ≠ 0 from Int.ne_of_gt (Int.pow_pos (by decide)))
  have h : (La.canonOf s st).raw = s % 2 ^ 648 := by
    simp only [La.raw, La.canonOf, packNat_digits, carrySum_zero, Int.add_zero]
    have := Nat.mod_add_div (s % 2 ^ 648).toNat (2 ^ 640)
    rw [← Int.natCast_add, Nat.mul_comm _ (2 ^ 640), show (64 * 10) = 640 from rfl, this]
    exact Int.toNat_of_nonneg h2
  rw [La.s_raw, h]
  simp only [wrapS, Int.emod_emod]

theorem wrapS_wrapS (x : Int) : wrapS (wrapS x) = wrapS x := by
  obtain ⟨k, hk⟩ := wrapS_sub x
  rw [hk, wrapS_add, ← hk]

@[simp] theorem La.wrapS_s (a : La) : wrapS a.s = a.s := wrapS_wrapS _

theorem wrapS_add_wrapS (x y : Int) : wrapS (wrapS x + y) = wrapS (x + y) := by
  obtain ⟨k, hk⟩ := wrapS_sub x
  rw [hk, Int.add_right_comm, wrapS_add]

theorem lowBit_bound (m j : Nat) (hm : m < 2 ^ 106) : m * 2 ^ j < 2 ^ (lowBit (m * 2 ^ j) + 106) := by
  by_cases h0 : m = 0
  · subst h0; rw [Nat.zero_mul]; exact Nat.two_pow_pos _
  obtain ⟨o, h1, h2⟩ := lowBit_le m h0
  have e : m * 2 ^ j = 2 ^ (lowBit m + j) * o := by rw [Nat.pow_add, Nat.mul_right_comm, ← h1]
  rw [e, lowBit_odd _ _ h2, Nat.pow_add _ (_ + _)]
  have ho : o < 2 ^ 106 := by
    have : o ≤ m := by rw [h1]; exact Nat.le_mul_of_pos_left _ (Nat.two_pow_pos _)
    omega
  exact Nat.mul_lt_mul_of_pos_left ho (Nat.two_pow_pos _)

theorem mul_pow_div (m k n : Nat) : m * 2 ^ n / 2 ^ k = if k ≤ n then m * 2 ^ (n - k) else m / 2 ^ (k - n) := by
  split
  · have : (2 : Nat) ^ n = 2 ^ (n - k) * 2 ^ k := by rw [← Nat.pow_add]; congr 1; omega
    rw [this, ← Nat.mul_assoc, Nat.mul_div_cancel _ (Nat.two_pow_pos _)]
  · have : (2 : Nat) ^ k = 2 ^ n * 2 ^ (k - n) := by rw [← Nat.pow_add]; congr 1; omega
    rw [this, ← Nat.div_div_eq_div_mul, Nat.mul_div_cancel _ (Nat.two_pow_pos _)]

theorem scaled_bound (m : Nat) (e : Int) (hm : m < 2 ^ 106) :
    (scaleFrac m 1 e).1 * 2 ^ 300 / (scaleFrac m 1 e).2 < 2 ^ (lowBit ((scaleFrac m 1 e).1 * 2 ^ 300 / (scaleFrac m 1 e).2) + 106) := by
  cases e with
  | ofNat k =>
    have e : (scaleFrac m 1 (.ofNat k)).1 * 2 ^ 300 / (scaleFrac m 1 (.ofNat k)).2 = m * 2 ^ (k + 300) := by
      simp only [scaleFrac, Nat.div_one, Nat.pow_add, Nat.mul_assoc]
    rw [e]; exact lowBit_bound m _ hm
  | negSucc k =>
    simp only [scaleFrac, Nat.one_mul]
    rw [mul_pow_div]
    split
    · exact lowBit_bound m _ hm
    · rw [← Nat.mul_one (m / _), show (1 : Nat) = 2 ^ 0 from rfl]
      exact lowBit_bound _ _ (Nat.lt_of_le_of_lt (Nat.div_le_self ..) hm)

/-- The magnitude a contribution may carry: a value of a format, or a product of two (R65). -/
def Small : FVal → Prop
  | .fin _ m _ => m < 2 ^ 106
  | _ => True

/-- Whether a finite value's magnitude lies below a bound. -/
def Below (M : Nat) : FVal → Prop
  | .fin _ m _ => m < M
  | _ => True

theorem below_fdecode (t : Ty) (b : Nat) : Below (2 ^ 53) (fdecode (fmtOf t) b) := by
  have h : ∀ f : Fmt, f.frac ≤ 52 → Below (2 ^ 53) (fdecode f b) := by
    intro f hf
    have h1 := Nat.mod_lt b (Nat.two_pow_pos f.frac)
    have h2 : 2 ^ f.frac ≤ 2 ^ 52 := Nat.pow_le_pow_right (by decide) hf
    simp only [fdecode]
    split
    · split <;> trivial
    · split <;> simp only [Below] <;> omega
  exact h _ (by cases t <;> decide)

theorem small_fdecode (t : Ty) (b : Nat) : Small (fdecode (fmtOf t) b) := by
  have := below_fdecode t b
  revert this
  generalize fdecode (fmtOf t) b = x
  cases x <;> intro h <;> first | trivial | (simp only [Below, Small] at *; omega)

theorem small_product (t : Ty) (a b : Nat) : Small (vmul (fdecode (fmtOf t) a) (fdecode (fmtOf t) b)) := by
  have ha := below_fdecode t a
  have hb := below_fdecode t b
  revert ha hb
  generalize fdecode (fmtOf t) a = x
  generalize fdecode (fmtOf t) b = y
  intro ha hb
  cases x <;> cases y <;> simp only [vmul] <;> (try split) <;> try trivial
  simp only [Small, Below] at *
  rename_i m _ _ n _
  have h3 : m * n ≤ (2 ^ 53 - 1) * (2 ^ 53 - 1) := Nat.mul_le_mul (by omega) (by omega)
  omega

/-- One contribution changes S by the integer of its value, cut toward zero, or only the status word (R64, R65, R205). -/
theorem contribute_spec (a : La) (v : FVal) (hF : a.Formed) (hv : Small v) :
    (a.contribute v).Formed ∧ Safety.Contributed a v (a.contribute v) := by
  have hinf : ∀ neg, La.Formed { a with st := a.st.bumpInf neg } := by
    intro neg
    obtain ⟨f1, f2, f3, f4, f5, f6⟩ := hF
    refine ⟨f1, f2, f3, ?_⟩
    cases neg <;> simp only [LaStatus.bumpInf, LaStatus.bump, if_true, Bool.false_eq_true, if_false] <;> omega
  cases v with
  | nan =>
    obtain ⟨f1, f2, f3, f4, f5⟩ := hF
    exact ⟨⟨f1, f2, f3, by simp only [La.contribute, LaStatus.bump]; omega, f5⟩, rfl, rfl⟩
  | inf neg => exact ⟨hinf neg, rfl, by cases neg <;> rfl⟩
  | fin neg m e =>
    have hb := scaled_bound m e hv
    have hd : 0 < (scaleFrac m 1 e).2 := by unfold scaleFrac; split <;> first | exact Nat.one_pos | exact Nat.mul_pos Nat.one_pos (Nat.two_pow_pos _)
    simp only [La.contribute, Safety.Contributed]
    generalize (scaleFrac m 1 e).1 = n at *
    generalize (scaleFrac m 1 e).2 = d at *
    generalize (2 : Nat) ^ 339 = B
    by_cases hbig : B * d ≤ n
    · rw [if_pos hbig, if_pos hbig]; exact ⟨hinf neg, rfl, by cases neg <;> rfl⟩
    rw [if_neg hbig, if_neg hbig]
    generalize hM : n * 2 ^ 300 = M at *
    have hF' : ∀ l, La.Formed { a with st := { a.st with lowloss := l } } := fun l => hF
    have key : ∀ b : La, b.Formed → b.s = a.s → (b.addContribution (if neg then -((M / d : Nat) : Int) else (M / d : Nat))).Formed
        ∧ (b.addContribution (if neg then -((M / d : Nat) : Int) else (M / d : Nat))).st = b.st.bump
        ∧ (b.addContribution (if neg then -((M / d : Nat) : Int) else (M / d : Nat))).s = wrapS (a.s + (if neg then -((M / d : Nat) : Int) else (M / d : Nat))) := by
      intro b hb' hs
      rw [← hs]
      apply addContribution_spec b _ hb'
      have : ∀ q : Nat, (if neg = true then -(q : Int) else q).natAbs = q := by intro q; split <;> omega
      rw [this]; exact hb
    have hlo := Nat.div_mul_le_self M d
    have hhi : M < (M / d + 1) * d := by have := Nat.lt_div_mul_add (a := M) hd; rw [Nat.add_mul]; omega
    by_cases hex : M / d * d = M
    · rw [if_pos hex]
      obtain ⟨k1, k2, k3⟩ := key a hF rfl
      refine ⟨k1, M / d, hlo, hhi, k3, ?_⟩
      rw [k2]; simp [LaStatus.bump, hex]
    · rw [if_neg hex]
      obtain ⟨k1, k2, k3⟩ := key { a with st := { a.st with lowloss := true } } (hF' true) rfl
      refine ⟨k1, M / d, hlo, hhi, k3, ?_⟩
      rw [k2]; simp [LaStatus.bump, hex]
end Sys2Proof.Machine
end

