-- ==== Sys2Proof/Laws/Maps.lean ====
section
/-!
SUPPORT. What maps from naturals answer after a key is set or erased.
-/

namespace Sys2Proof.Machine

@[simp] theorem SMap.get?_set_same {α : Type} (m : SMap α) (k : Nat) (v : α) : (m.set k v).get? k = some v := by
  induction m with
  | nil => simp [SMap.set, SMap.get?]
  | cons x r ih =>
    simp only [SMap.set]
    split
    · simp [SMap.get?]
    · split
      · simp [SMap.get?]
      · rename_i _ h
        simp [SMap.get?, h, ih]

theorem SMap.get?_set_other {α : Type} (m : SMap α) {j k : Nat} (v : α) (h : j ≠ k) : (m.set k v).get? j = m.get? j := by
  induction m with
  | nil => simp [SMap.set, SMap.get?, h]
  | cons x r ih =>
    simp only [SMap.set]
    split
    · simp [SMap.get?, h]
    · split
      · rename_i _ e
        subst e
        simp [SMap.get?, h]
      · simp [SMap.get?, ih]

/-- What a map answers after a key is set. -/
theorem SMap.get?_set {α : Type} (m : SMap α) (j k : Nat) (v : α) :
    (m.set k v).get? j = if j = k then some v else m.get? j := by
  split
  · rename_i h; subst h; simp
  · rename_i h; exact SMap.get?_set_other m v h

theorem SMap.get?_erase_other {α : Type} (m : SMap α) {j k : Nat} (h : j ≠ k) : (m.erase k).get? j = m.get? j := by
  induction m with
  | nil => rfl
  | cons x r ih =>
    simp only [SMap.erase]
    split
    · rename_i e; subst e; simp [SMap.get?, h]
    · simp [SMap.get?, ih]

end Sys2Proof.Machine
end

