-- ==== Sys2Proof/Laws/Memory.lean ====
section
/-!
SUPPORT. Device memory as a list of cells (04 R71): the canonical form, which every write keeps and reset has; what is
written is read back, and every other byte stays.
-/

namespace Sys2Proof.Machine

/-- The canonical form, address by address. -/
def Memory.Canon : Memory → Prop
  | [] => True
  | c :: r => c.2 ≠ 0 ∧ (∀ d ∈ r, c.1 < d.1) ∧ Memory.Canon r

theorem Memory.wf_iff (m : Memory) : Memory.wf m = true ↔ Memory.Canon m := by
  induction m with
  | nil => simp [Memory.wf, Memory.rising, Memory.Canon]
  | cons c r ih =>
    cases r with
    | nil => simp [Memory.wf, Memory.rising, Memory.Canon]
    | cons d r =>
      have h : Memory.wf (c :: d :: r) = true ↔ c.1 < d.1 ∧ c.2 ≠ 0 ∧ Memory.wf (d :: r) = true := by
        simp only [Memory.wf, Memory.rising, List.all_cons, Bool.and_eq_true, decide_eq_true_eq, bne_iff_ne]
        constructor
        · rintro ⟨⟨h1, h2⟩, h3, h4⟩; exact ⟨h1, h3, h2, h4⟩
        · rintro ⟨h1, h3, h2, h4⟩; exact ⟨⟨h1, h2⟩, h3, h4⟩
      rw [h, ih]
      constructor
      · rintro ⟨h1, h2, h3⟩
        refine ⟨h2, fun e he => ?_, h3⟩
        rcases List.mem_cons.1 he with rfl | he
        · exact h1
        · exact Nat.lt_trans h1 (h3.2.1 e he)
      · rintro ⟨h1, h2, h3⟩
        exact ⟨h2 d (List.mem_cons_self ..), h1, h3⟩

theorem Memory.canon_filter (m : Memory) (p : Host.Cell → Bool) (h : Memory.Canon m) : Memory.Canon (m.filter p) := by
  induction m with
  | nil => trivial
  | cons c r ih =>
    obtain ⟨h1, h2, h3⟩ := h
    rw [List.filter_cons]
    split
    · exact ⟨h1, fun d hd => h2 d (List.mem_filter.1 hd).1, ih h3⟩
    · exact ih h3

theorem Memory.canon_append {m n : Memory} (hm : Memory.Canon m) (hn : Memory.Canon n) (h : ∀ c ∈ m, ∀ d ∈ n, c.1 < d.1) :
    Memory.Canon (m ++ n) := by
  induction m with
  | nil => exact hn
  | cons c r ih =>
    obtain ⟨h1, h2, h3⟩ := hm
    refine ⟨h1, fun d hd => ?_, ih h3 (fun e he => h e (List.mem_cons_of_mem _ he))⟩
    rcases List.mem_append.1 hd with hd | hd
    · exact h2 d hd
    · exact h c (List.mem_cons_self ..) d hd

theorem Memory.mem_cellsOf {a n v : Nat} {c : Host.Cell} (h : c ∈ Memory.cellsOf a n v) : a ≤ c.1 ∧ c.1 < a + n := by
  induction n generalizing a v with
  | zero => simp [Memory.cellsOf] at h
  | succ n ih =>
    simp only [Memory.cellsOf] at h
    split at h
    · have := ih h; omega
    · rcases List.mem_cons.1 h with rfl | h
      · simp only; omega
      · have := ih h; omega

theorem Memory.canon_cellsOf (a n v : Nat) : Memory.Canon (Memory.cellsOf a n v) := by
  induction n generalizing a v with
  | zero => trivial
  | succ n ih =>
    simp only [Memory.cellsOf]
    split
    · exact ih _ _
    · rename_i h
      refine ⟨?_, fun d hd => ?_, ih _ _⟩
      · intro h0
        have := congrArg BitVec.toNat h0
        simp at this; omega
      · have := Memory.mem_cellsOf hd; simp only; omega

/-- Every write keeps the canonical form. -/
theorem Memory.write_wf {m : Memory} (a n v : Nat) (h : Memory.wf m = true) : Memory.wf (Memory.write m a n v) = true := by
  rw [Memory.wf_iff] at h ⊢
  refine Memory.canon_append (Memory.canon_append (Memory.canon_filter _ _ h) (Memory.canon_cellsOf ..) ?_) (Memory.canon_filter _ _ h) ?_
  · intro c hc d hd
    have := Memory.mem_cellsOf hd
    have h1 := (List.mem_filter.1 hc).2
    simp only [decide_eq_true_eq] at h1; omega
  · intro c hc d hd
    have h2 := (List.mem_filter.1 hd).2
    simp only [decide_eq_true_eq] at h2
    rcases List.mem_append.1 hc with hc | hc
    · have h1 := (List.mem_filter.1 hc).2
      simp only [decide_eq_true_eq] at h1; omega
    · have := Memory.mem_cellsOf hc; omega

theorem reset_memory_wf : Memory.wf State.reset.mem.cells = true := rfl

/-! ### Reading -/

theorem Memory.read_append (m n : Memory) (a k : Nat) : Memory.read (m ++ n) a k = Memory.read m a k + Memory.read n a k := by
  induction m with
  | nil => simp [Memory.read]
  | cons c r ih => simp only [List.cons_append, Memory.read, ih, Nat.add_assoc]

theorem Memory.read_outside {m : Memory} {a k : Nat} (h : ∀ c ∈ m, ¬(a ≤ c.1 ∧ c.1 < a + k)) : Memory.read m a k = 0 := by
  induction m with
  | nil => rfl
  | cons c r ih =>
    obtain ⟨x, b⟩ := c
    have h1 := h (x, b) (List.mem_cons_self ..)
    simp only [Memory.read]
    rw [if_neg h1, ih (fun d hd => h d (List.mem_cons_of_mem _ hd))]

theorem Memory.read_filter (m : Memory) (p : Host.Cell → Bool) (a k : Nat) (h : ∀ c : Host.Cell, a ≤ c.1 → c.1 < a + k → p c = true) :
    Memory.read (m.filter p) a k = Memory.read m a k := by
  induction m with
  | nil => rfl
  | cons c r ih =>
    obtain ⟨x, b⟩ := c
    rw [List.filter_cons]
    by_cases hp : p (x, b) = true
    · rw [if_pos hp]; simp only [Memory.read, ih]
    · rw [if_neg hp]
      have hn : ¬(a ≤ x ∧ x < a + k) := fun hc => hp (h (x, b) hc.1 hc.2)
      simp only [Memory.read, ih]
      rw [if_neg hn, Nat.zero_add]

theorem Memory.read_cellsOf (a n v : Nat) : Memory.read (Memory.cellsOf a n v) a n = v % 256 ^ n := by
  suffices h : ∀ n d a v, Memory.read (Memory.cellsOf (a + d) n v) a (d + n) = v % 256 ^ n * 256 ^ d by
    have := h n 0 a v
    simpa using this
  intro n
  induction n with
  | zero => intro d a v; simp [Memory.cellsOf, Memory.read, Nat.mod_one]
  | succ n ih =>
    intro d a v
    have e : v % 256 ^ (n + 1) = v % 256 + 256 * (v / 256 % 256 ^ n) := by rw [Nat.pow_succ', Nat.mod_mul]
    have hrec : Memory.read (Memory.cellsOf (a + d + 1) n (v / 256)) a (d + (n + 1)) = v / 256 % 256 ^ n * 256 ^ (d + 1) := by
      have := ih (d + 1) a (v / 256)
      rw [← Nat.add_assoc, Nat.add_assoc d 1 n, Nat.add_comm 1 n] at this; exact this
    simp only [Memory.cellsOf]
    split
    · rename_i h
      rw [hrec, e, h, Nat.zero_add, Nat.pow_succ', ← Nat.mul_assoc, Nat.mul_comm (_ % _) 256]
    · simp only [Memory.read]
      rw [if_pos (by omega), hrec, e, Nat.add_mul, BitVec.toNat_ofNat]
      have : v % 2 ^ 8 = v % 256 := rfl
      rw [this, show a + d - a = d by omega, Nat.pow_succ', ← Nat.mul_assoc, Nat.mul_comm (_ % _) 256]

/-- A write is read back. -/
theorem Memory.read_write (m : Memory) (a n v : Nat) : Memory.read (Memory.write m a n v) a n = v % 256 ^ n := by
  rw [Memory.write, Memory.read_append, Memory.read_append, Memory.read_cellsOf, Memory.read_outside, Memory.read_outside, Nat.zero_add, Nat.add_zero]
  · intro c hc
    have := (List.mem_filter.1 hc).2
    simp only [decide_eq_true_eq] at this; omega
  · intro c hc
    have := (List.mem_filter.1 hc).2
    simp only [decide_eq_true_eq] at this; omega

/-- Bytes apart from a write are as before. -/
theorem Memory.read_write_apart (m : Memory) (a n v b k : Nat) (h : b + k ≤ a ∨ a + n ≤ b) :
    Memory.read (Memory.write m a n v) b k = Memory.read m b k := by
  have e : Memory.read (Memory.cellsOf a n v) b k = 0 := by
    apply Memory.read_outside
    intro c hc
    have := Memory.mem_cellsOf hc; omega
  rw [Memory.write, Memory.read_append, Memory.read_append, e]
  rcases h with h | h
  · have e1 : Memory.read (m.filter fun c => decide (a + n ≤ c.1)) b k = 0 := by
      apply Memory.read_outside
      intro c hc
      have := (List.mem_filter.1 hc).2
      simp only [decide_eq_true_eq] at this; omega
    rw [e1, Memory.read_filter m _ b k (fun c h1 h2 => by simp only [decide_eq_true_eq]; omega)]; rfl
  · have e1 : Memory.read (m.filter fun c => decide (c.1 < a)) b k = 0 := by
      apply Memory.read_outside
      intro c hc
      have := (List.mem_filter.1 hc).2
      simp only [decide_eq_true_eq] at this; omega
    rw [e1, Memory.read_filter m _ b k (fun c h1 h2 => by simp only [decide_eq_true_eq]; omega)]
    omega

/-- One byte of a wider read. -/
theorem Memory.read_succ (m : Memory) (a n : Nat) : Memory.read m a (n + 1) = Memory.read m a 1 + 256 * Memory.read m (a + 1) n := by
  induction m with
  | nil => simp [Memory.read]
  | cons c r ih =>
    obtain ⟨x, b⟩ := c
    simp only [Memory.read]
    rw [ih, Nat.mul_add]
    by_cases h1 : x = a
    · subst h1
      rw [if_pos (by omega), if_pos (by omega), if_neg (by omega)]; omega
    · by_cases h2 : a + 1 ≤ x ∧ x < a + 1 + n
      · rw [if_pos (by omega), if_neg (by omega), if_pos h2]
        have : x - a = x - (a + 1) + 1 := by omega
        rw [this, Nat.pow_succ', Nat.mul_comm 256 (b.toNat * _), Nat.mul_comm 256 (256 ^ _), ← Nat.mul_assoc]; omega
      · rw [if_neg (by omega), if_neg (by omega), if_neg h2]; omega

theorem Memory.read_one_lt {m : Memory} (h : Memory.Canon m) (a : Nat) : Memory.read m a 1 < 256 := by
  induction m with
  | nil => simp [Memory.read]
  | cons c r ih =>
    obtain ⟨x, b⟩ := c
    simp only [Memory.read]
    by_cases hx : x = a
    · subst hx
      rw [if_pos (by omega), Memory.read_outside (fun d hd => by have := h.2.1 d hd; simp only at this; omega)]
      have := b.isLt; simp; omega
    · rw [if_neg (by omega), Nat.zero_add]; exact ih h.2.2

/-- The bytes of a read. -/
theorem Memory.read_bytes {m : Memory} (h : Memory.Canon m) (n a k : Nat) (hk : k < n) :
    Memory.read m (a + k) 1 = Memory.read m a n / 256 ^ k % 256 := by
  induction n generalizing a k with
  | zero => omega
  | succ n ih =>
    have hs := Memory.read_succ m a n
    rw [hs]
    have h1 := Memory.read_one_lt h a
    cases k with
    | zero => simp only [Nat.add_zero, Nat.pow_zero, Nat.div_one]; omega
    | succ k =>
      have := ih (a + 1) k (by omega)
      rw [show a + (k + 1) = a + 1 + k by omega, this, Nat.pow_succ', ← Nat.div_div_eq_div_mul]
      congr 2; omega

/-- Two memories in canonical form with the same bytes are the same. -/
theorem Memory.canon_ext {m n : Memory} (hm : Memory.Canon m) (hn : Memory.Canon n)
    (h : ∀ a, Memory.byte m a = Memory.byte n a) : m = n := by
  have head : ∀ {c : Host.Cell} {r : Memory}, Memory.Canon (c :: r) → Memory.byte (c :: r) c.1 = c.2 := by
    intro c r hc
    obtain ⟨x, b⟩ := c
    simp only [Memory.byte, Memory.read]
    rw [if_pos (by omega), Memory.read_outside (fun d hd => by have := hc.2.1 d hd; simp only at this; omega)]
    simp
  have below : ∀ {r : Memory} {a : Nat}, (∀ d ∈ r, a < d.1) → Memory.byte r a = 0 := by
    intro r a hr
    simp only [Memory.byte]
    rw [Memory.read_outside (fun d hd => by have := hr d hd; omega)]; rfl
  induction m generalizing n with
  | nil =>
    cases n with
    | nil => rfl
    | cons d r =>
      have := h d.1
      rw [head hn] at this
      exact absurd this.symm hn.1
  | cons c r ih =>
    cases n with
    | nil =>
      have := h c.1
      rw [head hm] at this
      exact absurd this hm.1
    | cons d t =>
      have e : c.1 = d.1 := by
        rcases Nat.lt_trichotomy c.1 d.1 with hl | he | hl
        · have h1 := h c.1
          rw [head hm, below (r := d :: t)] at h1
          · exact absurd h1 hm.1
          · intro y hy
            rcases List.mem_cons.1 hy with rfl | hy
            · exact hl
            · exact Nat.lt_trans hl (hn.2.1 y hy)
        · exact he
        · have h1 := h d.1
          rw [head hn, below (r := c :: r)] at h1
          · exact absurd h1.symm hn.1
          · intro y hy
            rcases List.mem_cons.1 hy with rfl | hy
            · exact hl
            · exact Nat.lt_trans hl (hm.2.1 y hy)
      have e2 : c.2 = d.2 := by
        have h1 := h c.1
        rw [head hm, e, head hn] at h1; exact h1
      have ec : c = d := Prod.ext e e2
      subst ec
      congr 1
      apply ih hm.2.2 hn.2.2
      intro a
      have h1 := h a
      by_cases ha : a = c.1
      · subst ha
        rw [below hm.2.1, below hn.2.1]
      · obtain ⟨x, b⟩ := c
        simp only [Memory.byte, Memory.read] at h1 ⊢
        rw [if_neg (by simp only at ha; omega), Nat.zero_add, Nat.zero_add] at h1
        exact h1

end Sys2Proof.Machine
end

