-- ==== Sys2Proof/Laws/Registers.lean ====
section
/-!
SUPPORT. What a register view answers after writes and marks (09 R162, R169, 15 R287), by slot and register.
-/

namespace Sys2Proof.Machine

open Sys2Proof.Safety

@[simp] theorem Regs.wr_span (r : Regs) (sl : Slot) (n : Nat) (w : Word) : (r.wr sl n w).span = r.span := by
  cases sl <;> simp only [Regs.wr, Regs.wrV, Regs.wrG] <;> split <;> rfl
@[simp] theorem Regs.wr_seed (r : Regs) (sl : Slot) (n : Nat) (w : Word) : (r.wr sl n w).seed = r.seed := by
  cases sl <;> simp only [Regs.wr, Regs.wrV, Regs.wrG] <;> split <;> rfl
@[simp] theorem Regs.wr_p (r : Regs) (sl : Slot) (n : Nat) (w : Word) : (r.wr sl n w).p = r.p := by
  cases sl <;> simp only [Regs.wr, Regs.wrV, Regs.wrG] <;> split <;> rfl
@[simp] theorem Regs.wr_k (r : Regs) (sl : Slot) (n : Nat) (w : Word) : (r.wr sl n w).k = r.k := by
  cases sl <;> simp only [Regs.wr, Regs.wrV, Regs.wrG] <;> split <;> rfl
@[simp] theorem Regs.wr_bms (r : Regs) (sl : Slot) (n : Nat) (w : Word) : (r.wr sl n w).bms = r.bms := by
  cases sl <;> simp only [Regs.wr, Regs.wrV, Regs.wrG] <;> split <;> rfl
@[simp] theorem Regs.wr_sets (r : Regs) (sl : Slot) (n : Nat) (w : Word) : (r.wr sl n w).sets = r.sets := by
  cases sl <;> simp only [Regs.wr, Regs.wrV, Regs.wrG] <;> split <;> rfl
@[simp] theorem Regs.kill_span (r : Regs) (sl : Slot) (n : Nat) : (r.kill sl n).span = r.span := by
  unfold Regs.kill; cases sl <;> split <;> rfl
@[simp] theorem Regs.kill_seed (r : Regs) (sl : Slot) (n : Nat) : (r.kill sl n).seed = r.seed := by
  unfold Regs.kill; cases sl <;> split <;> rfl
@[simp] theorem Regs.kill_p (r : Regs) (sl : Slot) (n : Nat) : (r.kill sl n).p = r.p := by
  unfold Regs.kill; cases sl <;> split <;> rfl
@[simp] theorem Regs.kill_k (r : Regs) (sl : Slot) (n : Nat) : (r.kill sl n).k = r.k := by
  unfold Regs.kill; cases sl <;> split <;> rfl
@[simp] theorem Regs.kill_bms (r : Regs) (sl : Slot) (n : Nat) : (r.kill sl n).bms = r.bms := by
  unfold Regs.kill; cases sl <;> split <;> rfl
@[simp] theorem Regs.kill_sets (r : Regs) (sl : Slot) (n : Nat) : (r.kill sl n).sets = r.sets := by
  unfold Regs.kill; cases sl <;> split <;> rfl

/-- Two registers of vector slots share a key only if they are one register of one slot. -/
theorem Regs.vkey_inj (r : Regs) {j l n j' l' n' : Nat} (hl : l < 64) (hl' : l' < 64) (hn : n < r.span) (hn' : n' < r.span)
    (h : r.vkey j l n = r.vkey j' l' n') : j = j' ∧ l = l' ∧ n = n' := by
  simp only [Regs.vkey] at h
  have h1 : n + j * r.span = n' + j' * r.span ∧ l = l' := by omega
  have hj : j = j' := by
    rcases Nat.lt_trichotomy j j' with hlt | heq | hgt
    · have := Nat.mul_le_mul_right r.span hlt; rw [Nat.succ_mul] at this; omega
    · exact heq
    · have := Nat.mul_le_mul_right r.span hgt; rw [Nat.succ_mul] at this; omega
  subst hj
  exact ⟨rfl, h1.2, by omega⟩

/-- The hard-wired register reads zero whatever was written (R162). -/
@[simp] theorem Regs.rd_zero (r : Regs) (sl : Slot) : r.rd sl 0 = 0 := by
  cases sl <;> simp [Regs.rd, Regs.rdV, Regs.rdG]

@[simp] theorem Regs.wr_zero (r : Regs) (sl : Slot) (w : Word) : r.wr sl 0 w = r := by
  cases sl <;> simp [Regs.wr, Regs.wrV, Regs.wrG]

/-- A register read after a write of one register (R162, R287). -/
theorem Regs.rd_wr (r : Regs) {sl sl' : Slot} {n m : Nat} (w : Word) (hs : SlotOk sl) (hs' : SlotOk sl') (hm : Holds r sl m)
    (hn : Holds r sl' n) : (r.wr sl' n w).rd sl m = if sl = sl' ∧ m = n ∧ n ≠ 0 then w else r.rd sl m := by
  by_cases hz : n = 0
  · subst hz; simp
  by_cases hmz : m = 0
  · subst hmz; simp; intro _ h; exact absurd h.symm hz
  cases sl with
  | ctl =>
    cases sl' with
    | ctl =>
      simp only [Regs.rd, Regs.wr, Regs.rdG, Regs.wrG, hz, hmz, if_false, SMap.get?_set, true_and, ne_eq, not_false_eq_true, and_true]
      by_cases e : m = n <;> simp [e]
    | lane j l => simp [Regs.rd, Regs.wr, Regs.rdG, Regs.wrV, hz, hmz]
  | lane j l =>
    cases sl' with
    | ctl => simp [Regs.rd, Regs.wr, Regs.rdV, Regs.wrG, hz, hmz, Regs.vkey]
    | lane j' l' =>
      simp only [Regs.rd, Regs.wr, Regs.rdV, Regs.wrV, hz, hmz, if_false]
      have hv : ∀ x, Regs.vkey { r with v := x } j l m = r.vkey j l m := fun _ => rfl
      simp only [hv, SMap.get?_set]
      by_cases e : r.vkey j l m = r.vkey j' l' n
      · obtain ⟨rfl, rfl, rfl⟩ := Regs.vkey_inj r hs hs' hm hn e
        simp [hmz]
      · have hne : ¬(Slot.lane j l = Slot.lane j' l' ∧ m = n) := by
          rintro ⟨h1, rfl⟩; simp only [Slot.lane.injEq] at h1; obtain ⟨rfl, rfl⟩ := h1; exact e rfl
        rw [if_neg e, if_neg (fun h => hne ⟨h.1, h.2.1⟩)]

/-- A register read after a mark (R169). -/
theorem Regs.rd_kill (r : Regs) {sl sl' : Slot} {n m : Nat} (hs : SlotOk sl) (hs' : SlotOk sl') (hm : Holds r sl m)
    (hn : Holds r sl' n) : (r.kill sl' n).rd sl m = if sl = sl' ∧ m = n then 0 else r.rd sl m := by
  by_cases hz : n = 0
  · subst hz; simp only [Regs.kill, if_true]; split
    · rename_i h; rw [h.2]; simp
    · rfl
  by_cases hmz : m = 0
  · subst hmz; simp
  cases sl with
  | ctl =>
    cases sl' with
    | ctl =>
      simp only [Regs.rd, Regs.kill, Regs.rdG, hz, hmz, if_false, SMap.get?_set, true_and]
      by_cases e : m = n <;> simp [e]
    | lane j l => simp [Regs.rd, Regs.kill, Regs.rdG, hz, hmz]
  | lane j l =>
    cases sl' with
    | ctl => simp [Regs.rd, Regs.kill, Regs.rdV, hz, hmz, Regs.vkey]
    | lane j' l' =>
      simp only [Regs.rd, Regs.kill, Regs.rdV, hz, hmz, if_false]
      have hv : ∀ x, Regs.vkey { r with v := x } j l m = r.vkey j l m := fun _ => rfl
      simp only [hv, SMap.get?_set]
      by_cases e : r.vkey j l m = r.vkey j' l' n
      · obtain ⟨rfl, rfl, rfl⟩ := Regs.vkey_inj r hs hs' hm hn e
        simp
      · have hne : ¬(Slot.lane j l = Slot.lane j' l' ∧ m = n) := by
          rintro ⟨h1, rfl⟩; simp only [Slot.lane.injEq] at h1; obtain ⟨rfl, rfl⟩ := h1; exact e rfl
        rw [if_neg e, if_neg hne]

/-! ### Several registers -/

theorem Regs.holds_congr {r r' : Regs} (h : r'.span = r.span) {sl : Slot} {n : Nat} (hr : Holds r sl n) : Holds r' sl n := by
  cases sl with
  | ctl => trivial
  | lane j l => simp only [Holds, h]; exact hr

@[simp] theorem Regs.wrN_span (r : Regs) (sl : Slot) (d c v : Nat) : (r.wrN sl d c v).span = r.span := by
  induction c generalizing r d v with
  | zero => rfl
  | succ c ih => simp [Regs.wrN, ih]
@[simp] theorem Regs.wrN_seed (r : Regs) (sl : Slot) (d c v : Nat) : (r.wrN sl d c v).seed = r.seed := by
  induction c generalizing r d v with
  | zero => rfl
  | succ c ih => simp [Regs.wrN, ih]
@[simp] theorem Regs.wrN_p (r : Regs) (sl : Slot) (d c v : Nat) : (r.wrN sl d c v).p = r.p := by
  induction c generalizing r d v with
  | zero => rfl
  | succ c ih => simp [Regs.wrN, ih]
@[simp] theorem Regs.wrN_k (r : Regs) (sl : Slot) (d c v : Nat) : (r.wrN sl d c v).k = r.k := by
  induction c generalizing r d v with
  | zero => rfl
  | succ c ih => simp [Regs.wrN, ih]
@[simp] theorem Regs.killN_span (r : Regs) (sl : Slot) (d c : Nat) : (r.killN sl d c).span = r.span := by
  induction c generalizing r d with
  | zero => rfl
  | succ c ih => simp [Regs.killN, ih]
@[simp] theorem Regs.killN_seed (r : Regs) (sl : Slot) (d c : Nat) : (r.killN sl d c).seed = r.seed := by
  induction c generalizing r d with
  | zero => rfl
  | succ c ih => simp [Regs.killN, ih]
@[simp] theorem Regs.killN_p (r : Regs) (sl : Slot) (d c : Nat) : (r.killN sl d c).p = r.p := by
  induction c generalizing r d with
  | zero => rfl
  | succ c ih => simp [Regs.killN, ih]
@[simp] theorem Regs.killN_k (r : Regs) (sl : Slot) (d c : Nat) : (r.killN sl d c).k = r.k := by
  induction c generalizing r d with
  | zero => rfl
  | succ c ih => simp [Regs.killN, ih]

/-- A register read after a write of consecutive registers (R15, R162). -/
theorem Regs.rd_wrN (r : Regs) {sl sl' : Slot} {d m : Nat} (c v : Nat) (hs : SlotOk sl) (hs' : SlotOk sl') (hm : Holds r sl m)
    (hd : ∀ k < c, Holds r sl' (d + k)) :
    (r.wrN sl' d c v).rd sl m =
      if sl = sl' ∧ d ≤ m ∧ m < d + c ∧ m ≠ 0 then BitVec.ofNat 32 (v / 2 ^ (32 * (m - d))) else r.rd sl m := by
  induction c generalizing r d v with
  | zero => simp only [Regs.wrN]; rw [if_neg]; omega
  | succ c ih =>
    have hd0 : Holds r sl' d := hd 0 (by omega)
    simp only [Regs.wrN]
    rw [ih (r := r.wr sl' d (BitVec.ofNat 32 v)) (d := d + 1) (v / 2 ^ 32) (Regs.holds_congr (by simp) hm)
        (fun k hk => by have h := hd (k + 1) (by omega); rw [Nat.add_comm k 1, ← Nat.add_assoc] at h; exact Regs.holds_congr (by simp) h),
      Regs.rd_wr r _ hs hs' hm hd0]
    by_cases e : sl = sl'
    · simp only [e, true_and]
      by_cases h1 : m = d
      · subst h1
        rw [if_neg (by omega)]
        by_cases hz : m = 0
        · subst hz; simp
        · rw [if_pos ⟨rfl, hz⟩, if_pos ⟨by omega, by omega, hz⟩]; simp
      · rw [if_neg (fun h : m = d ∧ d ≠ 0 => h1 h.1)]
        by_cases h2 : d + 1 ≤ m ∧ m < d + 1 + c ∧ m ≠ 0
        · rw [if_pos h2, if_pos ⟨by omega, by omega, h2.2.2⟩, Nat.div_div_eq_div_mul, ← Nat.pow_add]
          congr 3; omega
        · rw [if_neg h2, if_neg (by omega)]
    · simp [e]

/-- A register read after a mark of consecutive registers (R169). -/
theorem Regs.rd_killN (r : Regs) {sl sl' : Slot} {d m : Nat} (c : Nat) (hs : SlotOk sl) (hs' : SlotOk sl') (hm : Holds r sl m)
    (hd : ∀ k < c, Holds r sl' (d + k)) :
    (r.killN sl' d c).rd sl m = if sl = sl' ∧ d ≤ m ∧ m < d + c then 0 else r.rd sl m := by
  induction c generalizing r d with
  | zero => simp only [Regs.killN]; rw [if_neg]; omega
  | succ c ih =>
    have hd0 : Holds r sl' d := hd 0 (by omega)
    simp only [Regs.killN]
    rw [ih (r := r.kill sl' d) (d := d + 1) (Regs.holds_congr (by simp) hm)
        (fun k hk => by have h := hd (k + 1) (by omega); rw [Nat.add_comm k 1, ← Nat.add_assoc] at h; exact Regs.holds_congr (by simp) h),
      Regs.rd_kill r hs hs' hm hd0]
    by_cases e : sl = sl'
    · simp only [e, true_and]
      by_cases h1 : m = d
      · subst h1
        rw [if_neg (by omega), if_pos rfl, if_pos ⟨by omega, by omega⟩]
      · rw [if_neg h1]
        by_cases h2 : d + 1 ≤ m ∧ m < d + 1 + c
        · rw [if_pos h2, if_pos ⟨by omega, by omega⟩]
        · rw [if_neg h2, if_neg (by omega)]
    · simp [e]

/-! ### Every slot of an instruction -/

theorem writeSlots_cons (sl : Slot) (ss : List Slot) (d : Reg) (n : Nat) (f : Slot → Nat) (r : Regs) :
    writeSlots (sl :: ss) d n f r = writeSlots ss d n f (r.wrN sl d.toNat n (f sl)) := rfl

@[simp] theorem writeSlots_span (ss : List Slot) (d : Reg) (n : Nat) (f : Slot → Nat) (r : Regs) :
    (writeSlots ss d n f r).span = r.span := by
  induction ss generalizing r with
  | nil => rfl
  | cons sl ss ih => simp [writeSlots_cons, ih]
@[simp] theorem writeSlots_seed (ss : List Slot) (d : Reg) (n : Nat) (f : Slot → Nat) (r : Regs) :
    (writeSlots ss d n f r).seed = r.seed := by
  induction ss generalizing r with
  | nil => rfl
  | cons sl ss ih => simp [writeSlots_cons, ih]
@[simp] theorem writeSlots_p (ss : List Slot) (d : Reg) (n : Nat) (f : Slot → Nat) (r : Regs) :
    (writeSlots ss d n f r).p = r.p := by
  induction ss generalizing r with
  | nil => rfl
  | cons sl ss ih => simp [writeSlots_cons, ih]
@[simp] theorem writeSlots_k (ss : List Slot) (d : Reg) (n : Nat) (f : Slot → Nat) (r : Regs) :
    (writeSlots ss d n f r).k = r.k := by
  induction ss generalizing r with
  | nil => rfl
  | cons sl ss ih => simp [writeSlots_cons, ih]

/-- Every register after D is written in every slot: D's registers hold the slot's value, all others are as before. -/
theorem rd_writeSlots (r : Regs) {ss : List Slot} {d : Reg} {n m : Nat} {sl : Slot} (f : Slot → Nat)
    (hss : ∀ q ∈ ss, SlotOk q ∧ ∀ k < n, Holds r q (d.toNat + k)) (hs : SlotOk sl) (hm : Holds r sl m) :
    (writeSlots ss d n f r).rd sl m =
      if sl ∈ ss ∧ d.toNat ≤ m ∧ m < d.toNat + n ∧ m ≠ 0 then BitVec.ofNat 32 (f sl / 2 ^ (32 * (m - d.toNat))) else r.rd sl m := by
  induction ss generalizing r with
  | nil => simp [writeSlots]
  | cons q ss ih =>
    have hq := hss q (by simp)
    rw [writeSlots_cons, ih (r := r.wrN q d.toNat n (f q))
        (fun p hp => ⟨(hss p (by simp [hp])).1, fun k hk => Regs.holds_congr (by simp) ((hss p (by simp [hp])).2 k hk)⟩)
        (Regs.holds_congr (by simp) hm), Regs.rd_wrN r n (f q) hs hq.1 hm hq.2]
    by_cases h : d.toNat ≤ m ∧ m < d.toNat + n ∧ m ≠ 0
    · by_cases e : sl ∈ ss
      · rw [if_pos ⟨e, h⟩, if_pos ⟨by simp [e], h⟩]
      · rw [if_neg (fun x => e x.1)]
        by_cases e' : sl = q
        · rw [if_pos ⟨e', h⟩, if_pos ⟨by simp [e'], h⟩, e']
        · rw [if_neg (fun x => e' x.1), if_neg (fun x => by simp [e, e'] at x)]
    · rw [if_neg (fun x => h x.2), if_neg (fun x => h x.2), if_neg (fun x => h x.2)]

@[simp] theorem killSlots_span (ss : List Slot) (a n : Nat) (r : Regs) :
    (ss.foldl (fun r sl => Regs.killN r sl a n) r).span = r.span := by
  induction ss generalizing r with
  | nil => rfl
  | cons sl ss ih => simp [List.foldl, ih]
@[simp] theorem killSlots_seed (ss : List Slot) (a n : Nat) (r : Regs) :
    (ss.foldl (fun r sl => Regs.killN r sl a n) r).seed = r.seed := by
  induction ss generalizing r with
  | nil => rfl
  | cons sl ss ih => simp [List.foldl, ih]
@[simp] theorem killSlots_p (ss : List Slot) (a n : Nat) (r : Regs) :
    (ss.foldl (fun r sl => Regs.killN r sl a n) r).p = r.p := by
  induction ss generalizing r with
  | nil => rfl
  | cons sl ss ih => simp [List.foldl, ih]
@[simp] theorem killSlots_k (ss : List Slot) (a n : Nat) (r : Regs) :
    (ss.foldl (fun r sl => Regs.killN r sl a n) r).k = r.k := by
  induction ss generalizing r with
  | nil => rfl
  | cons sl ss ih => simp [List.foldl, ih]

theorem rd_killSlots (r : Regs) {ss : List Slot} {a n m : Nat} {sl : Slot}
    (hss : ∀ q ∈ ss, SlotOk q ∧ ∀ k < n, Holds r q (a + k)) (hs : SlotOk sl) (hm : Holds r sl m) :
    (ss.foldl (fun r sl => Regs.killN r sl a n) r).rd sl m = if sl ∈ ss ∧ a ≤ m ∧ m < a + n then 0 else r.rd sl m := by
  induction ss generalizing r with
  | nil => simp
  | cons q ss ih =>
    have hq := hss q (by simp)
    simp only [List.foldl]
    rw [ih (r := r.killN q a n)
        (fun p hp => ⟨(hss p (by simp [hp])).1, fun k hk => Regs.holds_congr (by simp) ((hss p (by simp [hp])).2 k hk)⟩)
        (Regs.holds_congr (by simp) hm), Regs.rd_killN r n hs hq.1 hm hq.2]
    by_cases h : a ≤ m ∧ m < a + n
    · by_cases e : sl ∈ ss
      · rw [if_pos ⟨e, h⟩, if_pos ⟨by simp [e], h⟩]
      · rw [if_neg (fun x => e x.1)]
        by_cases e' : sl = q
        · rw [if_pos ⟨e', h⟩, if_pos ⟨by simp [e'], h⟩]
        · rw [if_neg (fun x => e' x.1), if_neg (fun x => by simp [e, e'] at x)]
    · rw [if_neg (fun x => h x.2), if_neg (fun x => h x.2), if_neg (fun x => h x.2)]

theorem markFold_keeps {α : Type} (us : List (Nat × Nat)) (ss : List Slot) (p : Regs → α)
    (h : ∀ (r : Regs) a n, p (ss.foldl (fun r sl => Regs.killN r sl a n) r) = p r) (r : Regs) :
    p (us.foldl (fun r u => ss.foldl (fun r sl => Regs.killN r sl u.1 u.2) r) r) = p r := by
  induction us generalizing r with
  | nil => rfl
  | cons u us ih => simp only [List.foldl]; rw [ih, h]

@[simp] theorem markDeadRegs_span (i : Instr) (h : Hdr) (ss : List Slot) (r : Regs) : (markDeadRegs i h ss r).span = r.span :=
  markFold_keeps _ ss Regs.span (by simp) r
@[simp] theorem markDeadRegs_seed (i : Instr) (h : Hdr) (ss : List Slot) (r : Regs) : (markDeadRegs i h ss r).seed = r.seed :=
  markFold_keeps _ ss Regs.seed (by simp) r
@[simp] theorem markDeadRegs_p (i : Instr) (h : Hdr) (ss : List Slot) (r : Regs) : (markDeadRegs i h ss r).p = r.p :=
  markFold_keeps _ ss Regs.p (by simp) r
@[simp] theorem markDeadRegs_k (i : Instr) (h : Hdr) (ss : List Slot) (r : Regs) : (markDeadRegs i h ss r).k = r.k :=
  markFold_keeps _ ss Regs.k (by simp) r

/-- A register that no hint of the instruction marks is as before the marks (R169). -/
theorem rd_markDeadRegs (i : Instr) (h : Hdr) {ss : List Slot} (r : Regs) {m : Nat} {sl : Slot}
    (hss : ∀ q ∈ ss, SlotOk q ∧ ∀ u ∈ lastUses i h, ∀ k < u.2, Holds r q (u.1 + k)) (hs : SlotOk sl) (hm : Holds r sl m)
    (hu : ¬(sl ∈ ss ∧ Marked i h m)) : (markDeadRegs i h ss r).rd sl m = r.rd sl m := by
  simp only [markDeadRegs, Marked] at *
  generalize lastUses i h = us at *
  induction us generalizing r with
  | nil => rfl
  | cons u us ih =>
    simp only [List.foldl]
    have hsp := killSlots_span ss u.1 u.2 r
    rw [ih _ (Regs.holds_congr hsp hm)
        (fun q hq => ⟨(hss q hq).1, fun u' h' k hk => Regs.holds_congr hsp ((hss q hq).2 u' (by simp [h']) k hk)⟩)
        (fun x => hu ⟨x.1, by obtain ⟨u', h1, h2⟩ := x.2; exact ⟨u', by simp [h1], h2⟩⟩),
      rd_killSlots r (fun q hq => ⟨(hss q hq).1, (hss q hq).2 u (by simp)⟩) hs hm, if_neg]
    exact fun x => hu ⟨x.1, u, by simp, x.2⟩

/-- A register that a hint marks reads zero after the marks (R169). -/
theorem rd_marked (i : Instr) (h : Hdr) {ss : List Slot} (r : Regs) {m : Nat} {sl : Slot}
    (hss : ∀ q ∈ ss, SlotOk q ∧ ∀ u ∈ lastUses i h, ∀ k < u.2, Holds r q (u.1 + k)) (hs : SlotOk sl) (hm : Holds r sl m)
    (hu : sl ∈ ss ∧ Marked i h m) : (markDeadRegs i h ss r).rd sl m = 0 := by
  simp only [markDeadRegs, Marked] at *
  generalize lastUses i h = us at *
  induction us generalizing r with
  | nil => simp at hu
  | cons u us ih =>
    simp only [List.foldl]
    by_cases hh : ∃ u' ∈ us, u'.1 ≤ m ∧ m < u'.1 + u'.2
    · have hsp := killSlots_span ss u.1 u.2 r
      exact ih _ (Regs.holds_congr hsp hm)
        (fun q hq => ⟨(hss q hq).1, fun u' h' k hk => Regs.holds_congr hsp ((hss q hq).2 u' (by simp [h']) k hk)⟩) ⟨hu.1, hh⟩
    · have hu1 : u.1 ≤ m ∧ m < u.1 + u.2 := by
        obtain ⟨u', h1, h2⟩ := hu.2
        rcases List.mem_cons.1 h1 with rfl | h1
        · exact h2
        · exact absurd ⟨u', h1, h2⟩ hh
      have key := rd_killSlots r (a := u.1) (n := u.2) (m := m) (sl := sl) (fun q hq => ⟨(hss q hq).1, (hss q hq).2 u (by simp)⟩) hs hm
      rw [if_pos ⟨hu.1, hu1⟩] at key
      generalize hr : List.foldl (fun r sl => r.killN sl u.1 u.2) r ss = r' at key ⊢
      have hsp : r'.span = r.span := by rw [← hr]; simp
      clear ih
      have gen : ∀ (us : List (Nat × Nat)) (r' : Regs), r'.span = r.span → r'.rd sl m = 0 →
          (∀ q ∈ ss, ∀ u ∈ us, ∀ k < u.2, Holds r q (u.1 + k)) →
          (us.foldl (fun r u => ss.foldl (fun r sl => Regs.killN r sl u.1 u.2) r) r').rd sl m = 0 := by
        intro us
        induction us with
        | nil => intro r' _ h _; exact h
        | cons v us ih =>
          intro r' hsp h hall
          simp only [List.foldl]
          apply ih
          · simp [hsp]
          · rw [rd_killSlots r' (fun q hq => ⟨(hss q hq).1, fun k hk => Regs.holds_congr hsp (hall q hq v (by simp) k hk)⟩) hs (Regs.holds_congr hsp hm)]
            split
            · rfl
            · exact h
          · exact fun q hq w hw => hall q hq w (by simp [hw])
      exact gen us r' hsp key fun q hq w hw => (hss q hq).2 w (by simp [hw])

end Sys2Proof.Machine
end

