-- ==== Sys2Proof/Laws/State.lean ====
section
/-!
SUPPORT. What the updates of a state leave as it was, one lemma a field, and what the accessors of blocks, groups, paths,
contexts and registers answer after an update.
-/

namespace Sys2Proof.Machine

@[simp] theorem modBlock_sched (s : State) (uid : Nat) (f : Block → Block) : (modBlock s uid f).sched = s.sched := rfl
@[simp] theorem modBlock_mem (s : State) (uid : Nat) (f : Block → Block) : (modBlock s uid f).mem = s.mem := rfl
@[simp] theorem modBlock_coh (s : State) (uid : Nat) (f : Block → Block) : (modBlock s uid f).coh = s.coh := rfl
@[simp] theorem modBlock_motion (s : State) (uid : Nat) (f : Block → Block) : (modBlock s uid f).motion = s.motion := rfl
@[simp] theorem modBlock_mgmt (s : State) (uid : Nat) (f : Block → Block) : (modBlock s uid f).mgmt = s.mgmt := rfl
@[simp] theorem modBlock_links (s : State) (uid : Nat) (f : Block → Block) : (modBlock s uid f).links = s.links := rfl
@[simp] theorem modBlock_trace (s : State) (uid : Nat) (f : Block → Block) : (modBlock s uid f).trace = s.trace := rfl
@[simp] theorem modBlock_cores (s : State) (uid : Nat) (f : Block → Block) : (modBlock s uid f).cores = s.cores := rfl
@[simp] theorem modBlock_power (s : State) (uid : Nat) (f : Block → Block) : (modBlock s uid f).power = s.power := rfl
@[simp] theorem modBlock_boot (s : State) (uid : Nat) (f : Block → Block) : (modBlock s uid f).boot = s.boot := rfl
@[simp] theorem modBlock_cohorts (s : State) (uid : Nat) (f : Block → Block) : (modBlock s uid f).work.cohorts = s.work.cohorts := rfl
@[simp] theorem modBlock_away (s : State) (uid : Nat) (f : Block → Block) : (modBlock s uid f).work.away = s.work.away := rfl
@[simp] theorem modBlock_launches (s : State) (uid : Nat) (f : Block → Block) : (modBlock s uid f).work.launches = s.work.launches := rfl
@[simp] theorem modBlock_deposits (s : State) (uid : Nat) (f : Block → Block) : (modBlock s uid f).work.deposits = s.work.deposits := rfl
@[simp] theorem modBlock_nextUid (s : State) (uid : Nat) (f : Block → Block) : (modBlock s uid f).work.nextUid = s.work.nextUid := rfl
@[simp] theorem modBlock_qbase (s : State) (uid : Nat) (f : Block → Block) : (modBlock s uid f).work.qbase = s.work.qbase := rfl
@[simp] theorem modBlock_qsize (s : State) (uid : Nat) (f : Block → Block) : (modBlock s uid f).work.qsize = s.work.qsize := rfl
@[simp] theorem modBlock_qhead (s : State) (uid : Nat) (f : Block → Block) : (modBlock s uid f).work.qhead = s.work.qhead := rfl
@[simp] theorem modBlock_qtail (s : State) (uid : Nat) (f : Block → Block) : (modBlock s uid f).work.qtail = s.work.qtail := rfl
@[simp] theorem modBlock_rot (s : State) (uid : Nat) (f : Block → Block) : (modBlock s uid f).work.rot = s.work.rot := rfl
@[simp] theorem modBlock_enq (s : State) (uid : Nat) (f : Block → Block) : (modBlock s uid f).work.enq = s.work.enq := rfl
@[simp] theorem modBlock_origin (s : State) (uid : Nat) (f : Block → Block) : (modBlock s uid f).work.origin = s.work.origin := rfl
@[simp] theorem modBlock_joins (s : State) (uid : Nat) (f : Block → Block) : (modBlock s uid f).work.joins = s.work.joins := rfl
@[simp] theorem modBlock_purge (s : State) (uid : Nat) (f : Block → Block) : (modBlock s uid f).work.purge = s.work.purge := rfl
@[simp] theorem modBlock_tagwait (s : State) (uid : Nat) (f : Block → Block) : (modBlock s uid f).work.tagwait = s.work.tagwait := rfl
@[simp] theorem modBlock_taken (s : State) (uid : Nat) (f : Block → Block) : (modBlock s uid f).work.taken = s.work.taken := rfl
@[simp] theorem modBlock_tagwaits (s : State) (uid : Nat) (f : Block → Block) : (modBlock s uid f).work.tagwaits = s.work.tagwaits := rfl
@[simp] theorem modBlock_rejects (s : State) (uid : Nat) (f : Block → Block) : (modBlock s uid f).work.rejects = s.work.rejects := rfl
@[simp] theorem modBlock_ppBase (s : State) (uid : Nat) (f : Block → Block) : (modBlock s uid f).work.ppBase = s.work.ppBase := rfl
@[simp] theorem modBlock_ppSlots (s : State) (uid : Nat) (f : Block → Block) : (modBlock s uid f).work.ppSlots = s.work.ppSlots := rfl
@[simp] theorem modBlock_ppSlotb (s : State) (uid : Nat) (f : Block → Block) : (modBlock s uid f).work.ppSlotb = s.work.ppSlotb := rfl
@[simp] theorem modBlock_csaBase (s : State) (uid : Nat) (f : Block → Block) : (modBlock s uid f).work.csaBase = s.work.csaBase := rfl
@[simp] theorem modBlock_csaSlots (s : State) (uid : Nat) (f : Block → Block) : (modBlock s uid f).work.csaSlots = s.work.csaSlots := rfl
@[simp] theorem modBlock_csaSlotb (s : State) (uid : Nat) (f : Block → Block) : (modBlock s uid f).work.csaSlotb = s.work.csaSlotb := rfl
@[simp] theorem modBlock_tspill (s : State) (uid : Nat) (f : Block → Block) : (modBlock s uid f).work.tspill = s.work.tspill := rfl

@[simp] theorem modGroup_sched (s : State) (uid g : Nat) (f : Group → Group) : (modGroup s uid g f).sched = s.sched := rfl
@[simp] theorem modGroup_mem (s : State) (uid g : Nat) (f : Group → Group) : (modGroup s uid g f).mem = s.mem := rfl
@[simp] theorem modGroup_coh (s : State) (uid g : Nat) (f : Group → Group) : (modGroup s uid g f).coh = s.coh := rfl
@[simp] theorem modGroup_motion (s : State) (uid g : Nat) (f : Group → Group) : (modGroup s uid g f).motion = s.motion := rfl
@[simp] theorem modGroup_mgmt (s : State) (uid g : Nat) (f : Group → Group) : (modGroup s uid g f).mgmt = s.mgmt := rfl
@[simp] theorem modGroup_links (s : State) (uid g : Nat) (f : Group → Group) : (modGroup s uid g f).links = s.links := rfl
@[simp] theorem modGroup_trace (s : State) (uid g : Nat) (f : Group → Group) : (modGroup s uid g f).trace = s.trace := rfl
@[simp] theorem modGroup_cores (s : State) (uid g : Nat) (f : Group → Group) : (modGroup s uid g f).cores = s.cores := rfl
@[simp] theorem modGroup_power (s : State) (uid g : Nat) (f : Group → Group) : (modGroup s uid g f).power = s.power := rfl
@[simp] theorem modGroup_boot (s : State) (uid g : Nat) (f : Group → Group) : (modGroup s uid g f).boot = s.boot := rfl
@[simp] theorem modGroup_cohorts (s : State) (uid g : Nat) (f : Group → Group) : (modGroup s uid g f).work.cohorts = s.work.cohorts := rfl
@[simp] theorem modGroup_away (s : State) (uid g : Nat) (f : Group → Group) : (modGroup s uid g f).work.away = s.work.away := rfl
@[simp] theorem modGroup_launches (s : State) (uid g : Nat) (f : Group → Group) : (modGroup s uid g f).work.launches = s.work.launches := rfl
@[simp] theorem modGroup_deposits (s : State) (uid g : Nat) (f : Group → Group) : (modGroup s uid g f).work.deposits = s.work.deposits := rfl
@[simp] theorem modGroup_nextUid (s : State) (uid g : Nat) (f : Group → Group) : (modGroup s uid g f).work.nextUid = s.work.nextUid := rfl
@[simp] theorem modGroup_qbase (s : State) (uid g : Nat) (f : Group → Group) : (modGroup s uid g f).work.qbase = s.work.qbase := rfl
@[simp] theorem modGroup_qsize (s : State) (uid g : Nat) (f : Group → Group) : (modGroup s uid g f).work.qsize = s.work.qsize := rfl
@[simp] theorem modGroup_qhead (s : State) (uid g : Nat) (f : Group → Group) : (modGroup s uid g f).work.qhead = s.work.qhead := rfl
@[simp] theorem modGroup_qtail (s : State) (uid g : Nat) (f : Group → Group) : (modGroup s uid g f).work.qtail = s.work.qtail := rfl
@[simp] theorem modGroup_rot (s : State) (uid g : Nat) (f : Group → Group) : (modGroup s uid g f).work.rot = s.work.rot := rfl
@[simp] theorem modGroup_enq (s : State) (uid g : Nat) (f : Group → Group) : (modGroup s uid g f).work.enq = s.work.enq := rfl
@[simp] theorem modGroup_origin (s : State) (uid g : Nat) (f : Group → Group) : (modGroup s uid g f).work.origin = s.work.origin := rfl
@[simp] theorem modGroup_joins (s : State) (uid g : Nat) (f : Group → Group) : (modGroup s uid g f).work.joins = s.work.joins := rfl
@[simp] theorem modGroup_purge (s : State) (uid g : Nat) (f : Group → Group) : (modGroup s uid g f).work.purge = s.work.purge := rfl
@[simp] theorem modGroup_tagwait (s : State) (uid g : Nat) (f : Group → Group) : (modGroup s uid g f).work.tagwait = s.work.tagwait := rfl
@[simp] theorem modGroup_taken (s : State) (uid g : Nat) (f : Group → Group) : (modGroup s uid g f).work.taken = s.work.taken := rfl
@[simp] theorem modGroup_tagwaits (s : State) (uid g : Nat) (f : Group → Group) : (modGroup s uid g f).work.tagwaits = s.work.tagwaits := rfl
@[simp] theorem modGroup_rejects (s : State) (uid g : Nat) (f : Group → Group) : (modGroup s uid g f).work.rejects = s.work.rejects := rfl
@[simp] theorem modGroup_ppBase (s : State) (uid g : Nat) (f : Group → Group) : (modGroup s uid g f).work.ppBase = s.work.ppBase := rfl
@[simp] theorem modGroup_ppSlots (s : State) (uid g : Nat) (f : Group → Group) : (modGroup s uid g f).work.ppSlots = s.work.ppSlots := rfl
@[simp] theorem modGroup_ppSlotb (s : State) (uid g : Nat) (f : Group → Group) : (modGroup s uid g f).work.ppSlotb = s.work.ppSlotb := rfl
@[simp] theorem modGroup_csaBase (s : State) (uid g : Nat) (f : Group → Group) : (modGroup s uid g f).work.csaBase = s.work.csaBase := rfl
@[simp] theorem modGroup_csaSlots (s : State) (uid g : Nat) (f : Group → Group) : (modGroup s uid g f).work.csaSlots = s.work.csaSlots := rfl
@[simp] theorem modGroup_csaSlotb (s : State) (uid g : Nat) (f : Group → Group) : (modGroup s uid g f).work.csaSlotb = s.work.csaSlotb := rfl
@[simp] theorem modGroup_tspill (s : State) (uid g : Nat) (f : Group → Group) : (modGroup s uid g f).work.tspill = s.work.tspill := rfl

@[simp] theorem modBms_sched (s : State) (uid : Nat) (f : Bms → Bms) : (modBms s uid f).sched = s.sched := rfl
@[simp] theorem modBms_mem (s : State) (uid : Nat) (f : Bms → Bms) : (modBms s uid f).mem = s.mem := rfl
@[simp] theorem modBms_coh (s : State) (uid : Nat) (f : Bms → Bms) : (modBms s uid f).coh = s.coh := rfl
@[simp] theorem modBms_motion (s : State) (uid : Nat) (f : Bms → Bms) : (modBms s uid f).motion = s.motion := rfl
@[simp] theorem modBms_mgmt (s : State) (uid : Nat) (f : Bms → Bms) : (modBms s uid f).mgmt = s.mgmt := rfl
@[simp] theorem modBms_links (s : State) (uid : Nat) (f : Bms → Bms) : (modBms s uid f).links = s.links := rfl
@[simp] theorem modBms_trace (s : State) (uid : Nat) (f : Bms → Bms) : (modBms s uid f).trace = s.trace := rfl
@[simp] theorem modBms_cores (s : State) (uid : Nat) (f : Bms → Bms) : (modBms s uid f).cores = s.cores := rfl
@[simp] theorem modBms_power (s : State) (uid : Nat) (f : Bms → Bms) : (modBms s uid f).power = s.power := rfl
@[simp] theorem modBms_boot (s : State) (uid : Nat) (f : Bms → Bms) : (modBms s uid f).boot = s.boot := rfl
@[simp] theorem modBms_cohorts (s : State) (uid : Nat) (f : Bms → Bms) : (modBms s uid f).work.cohorts = s.work.cohorts := rfl
@[simp] theorem modBms_away (s : State) (uid : Nat) (f : Bms → Bms) : (modBms s uid f).work.away = s.work.away := rfl
@[simp] theorem modBms_launches (s : State) (uid : Nat) (f : Bms → Bms) : (modBms s uid f).work.launches = s.work.launches := rfl
@[simp] theorem modBms_deposits (s : State) (uid : Nat) (f : Bms → Bms) : (modBms s uid f).work.deposits = s.work.deposits := rfl
@[simp] theorem modBms_nextUid (s : State) (uid : Nat) (f : Bms → Bms) : (modBms s uid f).work.nextUid = s.work.nextUid := rfl
@[simp] theorem modBms_qbase (s : State) (uid : Nat) (f : Bms → Bms) : (modBms s uid f).work.qbase = s.work.qbase := rfl
@[simp] theorem modBms_qsize (s : State) (uid : Nat) (f : Bms → Bms) : (modBms s uid f).work.qsize = s.work.qsize := rfl
@[simp] theorem modBms_qhead (s : State) (uid : Nat) (f : Bms → Bms) : (modBms s uid f).work.qhead = s.work.qhead := rfl
@[simp] theorem modBms_qtail (s : State) (uid : Nat) (f : Bms → Bms) : (modBms s uid f).work.qtail = s.work.qtail := rfl
@[simp] theorem modBms_rot (s : State) (uid : Nat) (f : Bms → Bms) : (modBms s uid f).work.rot = s.work.rot := rfl
@[simp] theorem modBms_enq (s : State) (uid : Nat) (f : Bms → Bms) : (modBms s uid f).work.enq = s.work.enq := rfl
@[simp] theorem modBms_origin (s : State) (uid : Nat) (f : Bms → Bms) : (modBms s uid f).work.origin = s.work.origin := rfl
@[simp] theorem modBms_joins (s : State) (uid : Nat) (f : Bms → Bms) : (modBms s uid f).work.joins = s.work.joins := rfl
@[simp] theorem modBms_purge (s : State) (uid : Nat) (f : Bms → Bms) : (modBms s uid f).work.purge = s.work.purge := rfl
@[simp] theorem modBms_tagwait (s : State) (uid : Nat) (f : Bms → Bms) : (modBms s uid f).work.tagwait = s.work.tagwait := rfl
@[simp] theorem modBms_taken (s : State) (uid : Nat) (f : Bms → Bms) : (modBms s uid f).work.taken = s.work.taken := rfl
@[simp] theorem modBms_tagwaits (s : State) (uid : Nat) (f : Bms → Bms) : (modBms s uid f).work.tagwaits = s.work.tagwaits := rfl
@[simp] theorem modBms_rejects (s : State) (uid : Nat) (f : Bms → Bms) : (modBms s uid f).work.rejects = s.work.rejects := rfl
@[simp] theorem modBms_ppBase (s : State) (uid : Nat) (f : Bms → Bms) : (modBms s uid f).work.ppBase = s.work.ppBase := rfl
@[simp] theorem modBms_ppSlots (s : State) (uid : Nat) (f : Bms → Bms) : (modBms s uid f).work.ppSlots = s.work.ppSlots := rfl
@[simp] theorem modBms_ppSlotb (s : State) (uid : Nat) (f : Bms → Bms) : (modBms s uid f).work.ppSlotb = s.work.ppSlotb := rfl
@[simp] theorem modBms_csaBase (s : State) (uid : Nat) (f : Bms → Bms) : (modBms s uid f).work.csaBase = s.work.csaBase := rfl
@[simp] theorem modBms_csaSlots (s : State) (uid : Nat) (f : Bms → Bms) : (modBms s uid f).work.csaSlots = s.work.csaSlots := rfl
@[simp] theorem modBms_csaSlotb (s : State) (uid : Nat) (f : Bms → Bms) : (modBms s uid f).work.csaSlotb = s.work.csaSlotb := rfl
@[simp] theorem modBms_tspill (s : State) (uid : Nat) (f : Bms → Bms) : (modBms s uid f).work.tspill = s.work.tspill := rfl

@[simp] theorem modPath_sched (s : State) (uid g p : Nat) (f : Path → Path) : (modPath s uid g p f).sched = s.sched := rfl
@[simp] theorem modPath_mem (s : State) (uid g p : Nat) (f : Path → Path) : (modPath s uid g p f).mem = s.mem := rfl
@[simp] theorem modPath_coh (s : State) (uid g p : Nat) (f : Path → Path) : (modPath s uid g p f).coh = s.coh := rfl
@[simp] theorem modPath_motion (s : State) (uid g p : Nat) (f : Path → Path) : (modPath s uid g p f).motion = s.motion := rfl
@[simp] theorem modPath_mgmt (s : State) (uid g p : Nat) (f : Path → Path) : (modPath s uid g p f).mgmt = s.mgmt := rfl
@[simp] theorem modPath_links (s : State) (uid g p : Nat) (f : Path → Path) : (modPath s uid g p f).links = s.links := rfl
@[simp] theorem modPath_trace (s : State) (uid g p : Nat) (f : Path → Path) : (modPath s uid g p f).trace = s.trace := rfl
@[simp] theorem modPath_cores (s : State) (uid g p : Nat) (f : Path → Path) : (modPath s uid g p f).cores = s.cores := rfl
@[simp] theorem modPath_power (s : State) (uid g p : Nat) (f : Path → Path) : (modPath s uid g p f).power = s.power := rfl
@[simp] theorem modPath_boot (s : State) (uid g p : Nat) (f : Path → Path) : (modPath s uid g p f).boot = s.boot := rfl
@[simp] theorem modPath_cohorts (s : State) (uid g p : Nat) (f : Path → Path) : (modPath s uid g p f).work.cohorts = s.work.cohorts := rfl
@[simp] theorem modPath_away (s : State) (uid g p : Nat) (f : Path → Path) : (modPath s uid g p f).work.away = s.work.away := rfl
@[simp] theorem modPath_launches (s : State) (uid g p : Nat) (f : Path → Path) : (modPath s uid g p f).work.launches = s.work.launches := rfl
@[simp] theorem modPath_deposits (s : State) (uid g p : Nat) (f : Path → Path) : (modPath s uid g p f).work.deposits = s.work.deposits := rfl
@[simp] theorem modPath_nextUid (s : State) (uid g p : Nat) (f : Path → Path) : (modPath s uid g p f).work.nextUid = s.work.nextUid := rfl
@[simp] theorem modPath_qbase (s : State) (uid g p : Nat) (f : Path → Path) : (modPath s uid g p f).work.qbase = s.work.qbase := rfl
@[simp] theorem modPath_qsize (s : State) (uid g p : Nat) (f : Path → Path) : (modPath s uid g p f).work.qsize = s.work.qsize := rfl
@[simp] theorem modPath_qhead (s : State) (uid g p : Nat) (f : Path → Path) : (modPath s uid g p f).work.qhead = s.work.qhead := rfl
@[simp] theorem modPath_qtail (s : State) (uid g p : Nat) (f : Path → Path) : (modPath s uid g p f).work.qtail = s.work.qtail := rfl
@[simp] theorem modPath_rot (s : State) (uid g p : Nat) (f : Path → Path) : (modPath s uid g p f).work.rot = s.work.rot := rfl
@[simp] theorem modPath_enq (s : State) (uid g p : Nat) (f : Path → Path) : (modPath s uid g p f).work.enq = s.work.enq := rfl
@[simp] theorem modPath_origin (s : State) (uid g p : Nat) (f : Path → Path) : (modPath s uid g p f).work.origin = s.work.origin := rfl
@[simp] theorem modPath_joins (s : State) (uid g p : Nat) (f : Path → Path) : (modPath s uid g p f).work.joins = s.work.joins := rfl
@[simp] theorem modPath_purge (s : State) (uid g p : Nat) (f : Path → Path) : (modPath s uid g p f).work.purge = s.work.purge := rfl
@[simp] theorem modPath_tagwait (s : State) (uid g p : Nat) (f : Path → Path) : (modPath s uid g p f).work.tagwait = s.work.tagwait := rfl
@[simp] theorem modPath_taken (s : State) (uid g p : Nat) (f : Path → Path) : (modPath s uid g p f).work.taken = s.work.taken := rfl
@[simp] theorem modPath_tagwaits (s : State) (uid g p : Nat) (f : Path → Path) : (modPath s uid g p f).work.tagwaits = s.work.tagwaits := rfl
@[simp] theorem modPath_rejects (s : State) (uid g p : Nat) (f : Path → Path) : (modPath s uid g p f).work.rejects = s.work.rejects := rfl
@[simp] theorem modPath_ppBase (s : State) (uid g p : Nat) (f : Path → Path) : (modPath s uid g p f).work.ppBase = s.work.ppBase := rfl
@[simp] theorem modPath_ppSlots (s : State) (uid g p : Nat) (f : Path → Path) : (modPath s uid g p f).work.ppSlots = s.work.ppSlots := rfl
@[simp] theorem modPath_ppSlotb (s : State) (uid g p : Nat) (f : Path → Path) : (modPath s uid g p f).work.ppSlotb = s.work.ppSlotb := rfl
@[simp] theorem modPath_csaBase (s : State) (uid g p : Nat) (f : Path → Path) : (modPath s uid g p f).work.csaBase = s.work.csaBase := rfl
@[simp] theorem modPath_csaSlots (s : State) (uid g p : Nat) (f : Path → Path) : (modPath s uid g p f).work.csaSlots = s.work.csaSlots := rfl
@[simp] theorem modPath_csaSlotb (s : State) (uid g p : Nat) (f : Path → Path) : (modPath s uid g p f).work.csaSlotb = s.work.csaSlotb := rfl
@[simp] theorem modPath_tspill (s : State) (uid g p : Nat) (f : Path → Path) : (modPath s uid g p f).work.tspill = s.work.tspill := rfl

@[simp] theorem modCtx_sched (s : State) (uid who : Nat) (f : Ctx → Ctx) : (modCtx s uid who f).sched = s.sched := by unfold modCtx; split <;> rfl
@[simp] theorem modCtx_mem (s : State) (uid who : Nat) (f : Ctx → Ctx) : (modCtx s uid who f).mem = s.mem := by unfold modCtx; split <;> rfl
@[simp] theorem modCtx_coh (s : State) (uid who : Nat) (f : Ctx → Ctx) : (modCtx s uid who f).coh = s.coh := by unfold modCtx; split <;> rfl
@[simp] theorem modCtx_motion (s : State) (uid who : Nat) (f : Ctx → Ctx) : (modCtx s uid who f).motion = s.motion := by unfold modCtx; split <;> rfl
@[simp] theorem modCtx_mgmt (s : State) (uid who : Nat) (f : Ctx → Ctx) : (modCtx s uid who f).mgmt = s.mgmt := by unfold modCtx; split <;> rfl
@[simp] theorem modCtx_links (s : State) (uid who : Nat) (f : Ctx → Ctx) : (modCtx s uid who f).links = s.links := by unfold modCtx; split <;> rfl
@[simp] theorem modCtx_trace (s : State) (uid who : Nat) (f : Ctx → Ctx) : (modCtx s uid who f).trace = s.trace := by unfold modCtx; split <;> rfl
@[simp] theorem modCtx_cores (s : State) (uid who : Nat) (f : Ctx → Ctx) : (modCtx s uid who f).cores = s.cores := by unfold modCtx; split <;> rfl
@[simp] theorem modCtx_power (s : State) (uid who : Nat) (f : Ctx → Ctx) : (modCtx s uid who f).power = s.power := by unfold modCtx; split <;> rfl
@[simp] theorem modCtx_boot (s : State) (uid who : Nat) (f : Ctx → Ctx) : (modCtx s uid who f).boot = s.boot := by unfold modCtx; split <;> rfl
@[simp] theorem modCtx_cohorts (s : State) (uid who : Nat) (f : Ctx → Ctx) : (modCtx s uid who f).work.cohorts = s.work.cohorts := by unfold modCtx; split <;> rfl
@[simp] theorem modCtx_away (s : State) (uid who : Nat) (f : Ctx → Ctx) : (modCtx s uid who f).work.away = s.work.away := by unfold modCtx; split <;> rfl
@[simp] theorem modCtx_launches (s : State) (uid who : Nat) (f : Ctx → Ctx) : (modCtx s uid who f).work.launches = s.work.launches := by unfold modCtx; split <;> rfl
@[simp] theorem modCtx_deposits (s : State) (uid who : Nat) (f : Ctx → Ctx) : (modCtx s uid who f).work.deposits = s.work.deposits := by unfold modCtx; split <;> rfl
@[simp] theorem modCtx_nextUid (s : State) (uid who : Nat) (f : Ctx → Ctx) : (modCtx s uid who f).work.nextUid = s.work.nextUid := by unfold modCtx; split <;> rfl
@[simp] theorem modCtx_qbase (s : State) (uid who : Nat) (f : Ctx → Ctx) : (modCtx s uid who f).work.qbase = s.work.qbase := by unfold modCtx; split <;> rfl
@[simp] theorem modCtx_qsize (s : State) (uid who : Nat) (f : Ctx → Ctx) : (modCtx s uid who f).work.qsize = s.work.qsize := by unfold modCtx; split <;> rfl
@[simp] theorem modCtx_qhead (s : State) (uid who : Nat) (f : Ctx → Ctx) : (modCtx s uid who f).work.qhead = s.work.qhead := by unfold modCtx; split <;> rfl
@[simp] theorem modCtx_qtail (s : State) (uid who : Nat) (f : Ctx → Ctx) : (modCtx s uid who f).work.qtail = s.work.qtail := by unfold modCtx; split <;> rfl
@[simp] theorem modCtx_rot (s : State) (uid who : Nat) (f : Ctx → Ctx) : (modCtx s uid who f).work.rot = s.work.rot := by unfold modCtx; split <;> rfl
@[simp] theorem modCtx_enq (s : State) (uid who : Nat) (f : Ctx → Ctx) : (modCtx s uid who f).work.enq = s.work.enq := by unfold modCtx; split <;> rfl
@[simp] theorem modCtx_origin (s : State) (uid who : Nat) (f : Ctx → Ctx) : (modCtx s uid who f).work.origin = s.work.origin := by unfold modCtx; split <;> rfl
@[simp] theorem modCtx_joins (s : State) (uid who : Nat) (f : Ctx → Ctx) : (modCtx s uid who f).work.joins = s.work.joins := by unfold modCtx; split <;> rfl
@[simp] theorem modCtx_purge (s : State) (uid who : Nat) (f : Ctx → Ctx) : (modCtx s uid who f).work.purge = s.work.purge := by unfold modCtx; split <;> rfl
@[simp] theorem modCtx_tagwait (s : State) (uid who : Nat) (f : Ctx → Ctx) : (modCtx s uid who f).work.tagwait = s.work.tagwait := by unfold modCtx; split <;> rfl
@[simp] theorem modCtx_taken (s : State) (uid who : Nat) (f : Ctx → Ctx) : (modCtx s uid who f).work.taken = s.work.taken := by unfold modCtx; split <;> rfl
@[simp] theorem modCtx_tagwaits (s : State) (uid who : Nat) (f : Ctx → Ctx) : (modCtx s uid who f).work.tagwaits = s.work.tagwaits := by unfold modCtx; split <;> rfl
@[simp] theorem modCtx_rejects (s : State) (uid who : Nat) (f : Ctx → Ctx) : (modCtx s uid who f).work.rejects = s.work.rejects := by unfold modCtx; split <;> rfl
@[simp] theorem modCtx_ppBase (s : State) (uid who : Nat) (f : Ctx → Ctx) : (modCtx s uid who f).work.ppBase = s.work.ppBase := by unfold modCtx; split <;> rfl
@[simp] theorem modCtx_ppSlots (s : State) (uid who : Nat) (f : Ctx → Ctx) : (modCtx s uid who f).work.ppSlots = s.work.ppSlots := by unfold modCtx; split <;> rfl
@[simp] theorem modCtx_ppSlotb (s : State) (uid who : Nat) (f : Ctx → Ctx) : (modCtx s uid who f).work.ppSlotb = s.work.ppSlotb := by unfold modCtx; split <;> rfl
@[simp] theorem modCtx_csaBase (s : State) (uid who : Nat) (f : Ctx → Ctx) : (modCtx s uid who f).work.csaBase = s.work.csaBase := by unfold modCtx; split <;> rfl
@[simp] theorem modCtx_csaSlots (s : State) (uid who : Nat) (f : Ctx → Ctx) : (modCtx s uid who f).work.csaSlots = s.work.csaSlots := by unfold modCtx; split <;> rfl
@[simp] theorem modCtx_csaSlotb (s : State) (uid who : Nat) (f : Ctx → Ctx) : (modCtx s uid who f).work.csaSlotb = s.work.csaSlotb := by unfold modCtx; split <;> rfl
@[simp] theorem modCtx_tspill (s : State) (uid who : Nat) (f : Ctx → Ctx) : (modCtx s uid who f).work.tspill = s.work.tspill := by unfold modCtx; split <;> rfl

@[simp] theorem putRegs_sched (s : State) (uid who : Nat) (r : Regs) : (putRegs s uid who r).sched = s.sched := by unfold putRegs; split <;> rfl
@[simp] theorem putRegs_mem (s : State) (uid who : Nat) (r : Regs) : (putRegs s uid who r).mem = s.mem := by unfold putRegs; split <;> rfl
@[simp] theorem putRegs_coh (s : State) (uid who : Nat) (r : Regs) : (putRegs s uid who r).coh = s.coh := by unfold putRegs; split <;> rfl
@[simp] theorem putRegs_motion (s : State) (uid who : Nat) (r : Regs) : (putRegs s uid who r).motion = s.motion := by unfold putRegs; split <;> rfl
@[simp] theorem putRegs_mgmt (s : State) (uid who : Nat) (r : Regs) : (putRegs s uid who r).mgmt = s.mgmt := by unfold putRegs; split <;> rfl
@[simp] theorem putRegs_links (s : State) (uid who : Nat) (r : Regs) : (putRegs s uid who r).links = s.links := by unfold putRegs; split <;> rfl
@[simp] theorem putRegs_trace (s : State) (uid who : Nat) (r : Regs) : (putRegs s uid who r).trace = s.trace := by unfold putRegs; split <;> rfl
@[simp] theorem putRegs_cores (s : State) (uid who : Nat) (r : Regs) : (putRegs s uid who r).cores = s.cores := by unfold putRegs; split <;> rfl
@[simp] theorem putRegs_power (s : State) (uid who : Nat) (r : Regs) : (putRegs s uid who r).power = s.power := by unfold putRegs; split <;> rfl
@[simp] theorem putRegs_boot (s : State) (uid who : Nat) (r : Regs) : (putRegs s uid who r).boot = s.boot := by unfold putRegs; split <;> rfl
@[simp] theorem putRegs_cohorts (s : State) (uid who : Nat) (r : Regs) : (putRegs s uid who r).work.cohorts = s.work.cohorts := by unfold putRegs; split <;> rfl
@[simp] theorem putRegs_away (s : State) (uid who : Nat) (r : Regs) : (putRegs s uid who r).work.away = s.work.away := by unfold putRegs; split <;> rfl
@[simp] theorem putRegs_launches (s : State) (uid who : Nat) (r : Regs) : (putRegs s uid who r).work.launches = s.work.launches := by unfold putRegs; split <;> rfl
@[simp] theorem putRegs_deposits (s : State) (uid who : Nat) (r : Regs) : (putRegs s uid who r).work.deposits = s.work.deposits := by unfold putRegs; split <;> rfl
@[simp] theorem putRegs_nextUid (s : State) (uid who : Nat) (r : Regs) : (putRegs s uid who r).work.nextUid = s.work.nextUid := by unfold putRegs; split <;> rfl
@[simp] theorem putRegs_qbase (s : State) (uid who : Nat) (r : Regs) : (putRegs s uid who r).work.qbase = s.work.qbase := by unfold putRegs; split <;> rfl
@[simp] theorem putRegs_qsize (s : State) (uid who : Nat) (r : Regs) : (putRegs s uid who r).work.qsize = s.work.qsize := by unfold putRegs; split <;> rfl
@[simp] theorem putRegs_qhead (s : State) (uid who : Nat) (r : Regs) : (putRegs s uid who r).work.qhead = s.work.qhead := by unfold putRegs; split <;> rfl
@[simp] theorem putRegs_qtail (s : State) (uid who : Nat) (r : Regs) : (putRegs s uid who r).work.qtail = s.work.qtail := by unfold putRegs; split <;> rfl
@[simp] theorem putRegs_rot (s : State) (uid who : Nat) (r : Regs) : (putRegs s uid who r).work.rot = s.work.rot := by unfold putRegs; split <;> rfl
@[simp] theorem putRegs_enq (s : State) (uid who : Nat) (r : Regs) : (putRegs s uid who r).work.enq = s.work.enq := by unfold putRegs; split <;> rfl
@[simp] theorem putRegs_origin (s : State) (uid who : Nat) (r : Regs) : (putRegs s uid who r).work.origin = s.work.origin := by unfold putRegs; split <;> rfl
@[simp] theorem putRegs_joins (s : State) (uid who : Nat) (r : Regs) : (putRegs s uid who r).work.joins = s.work.joins := by unfold putRegs; split <;> rfl
@[simp] theorem putRegs_purge (s : State) (uid who : Nat) (r : Regs) : (putRegs s uid who r).work.purge = s.work.purge := by unfold putRegs; split <;> rfl
@[simp] theorem putRegs_tagwait (s : State) (uid who : Nat) (r : Regs) : (putRegs s uid who r).work.tagwait = s.work.tagwait := by unfold putRegs; split <;> rfl
@[simp] theorem putRegs_taken (s : State) (uid who : Nat) (r : Regs) : (putRegs s uid who r).work.taken = s.work.taken := by unfold putRegs; split <;> rfl
@[simp] theorem putRegs_tagwaits (s : State) (uid who : Nat) (r : Regs) : (putRegs s uid who r).work.tagwaits = s.work.tagwaits := by unfold putRegs; split <;> rfl
@[simp] theorem putRegs_rejects (s : State) (uid who : Nat) (r : Regs) : (putRegs s uid who r).work.rejects = s.work.rejects := by unfold putRegs; split <;> rfl
@[simp] theorem putRegs_ppBase (s : State) (uid who : Nat) (r : Regs) : (putRegs s uid who r).work.ppBase = s.work.ppBase := by unfold putRegs; split <;> rfl
@[simp] theorem putRegs_ppSlots (s : State) (uid who : Nat) (r : Regs) : (putRegs s uid who r).work.ppSlots = s.work.ppSlots := by unfold putRegs; split <;> rfl
@[simp] theorem putRegs_ppSlotb (s : State) (uid who : Nat) (r : Regs) : (putRegs s uid who r).work.ppSlotb = s.work.ppSlotb := by unfold putRegs; split <;> rfl
@[simp] theorem putRegs_csaBase (s : State) (uid who : Nat) (r : Regs) : (putRegs s uid who r).work.csaBase = s.work.csaBase := by unfold putRegs; split <;> rfl
@[simp] theorem putRegs_csaSlots (s : State) (uid who : Nat) (r : Regs) : (putRegs s uid who r).work.csaSlots = s.work.csaSlots := by unfold putRegs; split <;> rfl
@[simp] theorem putRegs_csaSlotb (s : State) (uid who : Nat) (r : Regs) : (putRegs s uid who r).work.csaSlotb = s.work.csaSlotb := by unfold putRegs; split <;> rfl
@[simp] theorem putRegs_tspill (s : State) (uid who : Nat) (r : Regs) : (putRegs s uid who r).work.tspill = s.work.tspill := by unfold putRegs; split <;> rfl

@[simp] theorem goto_sched (s : State) (c : Cur) (pc : Nat) : (goto s c pc).sched = s.sched := by unfold goto; split <;> rfl
@[simp] theorem goto_mem (s : State) (c : Cur) (pc : Nat) : (goto s c pc).mem = s.mem := by unfold goto; split <;> rfl
@[simp] theorem goto_coh (s : State) (c : Cur) (pc : Nat) : (goto s c pc).coh = s.coh := by unfold goto; split <;> rfl
@[simp] theorem goto_motion (s : State) (c : Cur) (pc : Nat) : (goto s c pc).motion = s.motion := by unfold goto; split <;> rfl
@[simp] theorem goto_mgmt (s : State) (c : Cur) (pc : Nat) : (goto s c pc).mgmt = s.mgmt := by unfold goto; split <;> rfl
@[simp] theorem goto_links (s : State) (c : Cur) (pc : Nat) : (goto s c pc).links = s.links := by unfold goto; split <;> rfl
@[simp] theorem goto_trace (s : State) (c : Cur) (pc : Nat) : (goto s c pc).trace = s.trace := by unfold goto; split <;> rfl
@[simp] theorem goto_cores (s : State) (c : Cur) (pc : Nat) : (goto s c pc).cores = s.cores := by unfold goto; split <;> rfl
@[simp] theorem goto_power (s : State) (c : Cur) (pc : Nat) : (goto s c pc).power = s.power := by unfold goto; split <;> rfl
@[simp] theorem goto_boot (s : State) (c : Cur) (pc : Nat) : (goto s c pc).boot = s.boot := by unfold goto; split <;> rfl
@[simp] theorem goto_cohorts (s : State) (c : Cur) (pc : Nat) : (goto s c pc).work.cohorts = s.work.cohorts := by unfold goto; split <;> rfl
@[simp] theorem goto_away (s : State) (c : Cur) (pc : Nat) : (goto s c pc).work.away = s.work.away := by unfold goto; split <;> rfl
@[simp] theorem goto_launches (s : State) (c : Cur) (pc : Nat) : (goto s c pc).work.launches = s.work.launches := by unfold goto; split <;> rfl
@[simp] theorem goto_deposits (s : State) (c : Cur) (pc : Nat) : (goto s c pc).work.deposits = s.work.deposits := by unfold goto; split <;> rfl
@[simp] theorem goto_nextUid (s : State) (c : Cur) (pc : Nat) : (goto s c pc).work.nextUid = s.work.nextUid := by unfold goto; split <;> rfl
@[simp] theorem goto_qbase (s : State) (c : Cur) (pc : Nat) : (goto s c pc).work.qbase = s.work.qbase := by unfold goto; split <;> rfl
@[simp] theorem goto_qsize (s : State) (c : Cur) (pc : Nat) : (goto s c pc).work.qsize = s.work.qsize := by unfold goto; split <;> rfl
@[simp] theorem goto_qhead (s : State) (c : Cur) (pc : Nat) : (goto s c pc).work.qhead = s.work.qhead := by unfold goto; split <;> rfl
@[simp] theorem goto_qtail (s : State) (c : Cur) (pc : Nat) : (goto s c pc).work.qtail = s.work.qtail := by unfold goto; split <;> rfl
@[simp] theorem goto_rot (s : State) (c : Cur) (pc : Nat) : (goto s c pc).work.rot = s.work.rot := by unfold goto; split <;> rfl
@[simp] theorem goto_enq (s : State) (c : Cur) (pc : Nat) : (goto s c pc).work.enq = s.work.enq := by unfold goto; split <;> rfl
@[simp] theorem goto_origin (s : State) (c : Cur) (pc : Nat) : (goto s c pc).work.origin = s.work.origin := by unfold goto; split <;> rfl
@[simp] theorem goto_joins (s : State) (c : Cur) (pc : Nat) : (goto s c pc).work.joins = s.work.joins := by unfold goto; split <;> rfl
@[simp] theorem goto_purge (s : State) (c : Cur) (pc : Nat) : (goto s c pc).work.purge = s.work.purge := by unfold goto; split <;> rfl
@[simp] theorem goto_tagwait (s : State) (c : Cur) (pc : Nat) : (goto s c pc).work.tagwait = s.work.tagwait := by unfold goto; split <;> rfl
@[simp] theorem goto_taken (s : State) (c : Cur) (pc : Nat) : (goto s c pc).work.taken = s.work.taken := by unfold goto; split <;> rfl
@[simp] theorem goto_tagwaits (s : State) (c : Cur) (pc : Nat) : (goto s c pc).work.tagwaits = s.work.tagwaits := by unfold goto; split <;> rfl
@[simp] theorem goto_rejects (s : State) (c : Cur) (pc : Nat) : (goto s c pc).work.rejects = s.work.rejects := by unfold goto; split <;> rfl
@[simp] theorem goto_ppBase (s : State) (c : Cur) (pc : Nat) : (goto s c pc).work.ppBase = s.work.ppBase := by unfold goto; split <;> rfl
@[simp] theorem goto_ppSlots (s : State) (c : Cur) (pc : Nat) : (goto s c pc).work.ppSlots = s.work.ppSlots := by unfold goto; split <;> rfl
@[simp] theorem goto_ppSlotb (s : State) (c : Cur) (pc : Nat) : (goto s c pc).work.ppSlotb = s.work.ppSlotb := by unfold goto; split <;> rfl
@[simp] theorem goto_csaBase (s : State) (c : Cur) (pc : Nat) : (goto s c pc).work.csaBase = s.work.csaBase := by unfold goto; split <;> rfl
@[simp] theorem goto_csaSlots (s : State) (c : Cur) (pc : Nat) : (goto s c pc).work.csaSlots = s.work.csaSlots := by unfold goto; split <;> rfl
@[simp] theorem goto_csaSlotb (s : State) (c : Cur) (pc : Nat) : (goto s c pc).work.csaSlotb = s.work.csaSlotb := by unfold goto; split <;> rfl
@[simp] theorem goto_tspill (s : State) (c : Cur) (pc : Nat) : (goto s c pc).work.tspill = s.work.tspill := by unfold goto; split <;> rfl

@[simp] theorem modLaunch_sched (s : State) (id : Nat) (f : Launch → Launch) : (modLaunch s id f).sched = s.sched := rfl
@[simp] theorem modLaunch_mem (s : State) (id : Nat) (f : Launch → Launch) : (modLaunch s id f).mem = s.mem := rfl
@[simp] theorem modLaunch_coh (s : State) (id : Nat) (f : Launch → Launch) : (modLaunch s id f).coh = s.coh := rfl
@[simp] theorem modLaunch_motion (s : State) (id : Nat) (f : Launch → Launch) : (modLaunch s id f).motion = s.motion := rfl
@[simp] theorem modLaunch_mgmt (s : State) (id : Nat) (f : Launch → Launch) : (modLaunch s id f).mgmt = s.mgmt := rfl
@[simp] theorem modLaunch_links (s : State) (id : Nat) (f : Launch → Launch) : (modLaunch s id f).links = s.links := rfl
@[simp] theorem modLaunch_trace (s : State) (id : Nat) (f : Launch → Launch) : (modLaunch s id f).trace = s.trace := rfl
@[simp] theorem modLaunch_cores (s : State) (id : Nat) (f : Launch → Launch) : (modLaunch s id f).cores = s.cores := rfl
@[simp] theorem modLaunch_power (s : State) (id : Nat) (f : Launch → Launch) : (modLaunch s id f).power = s.power := rfl
@[simp] theorem modLaunch_boot (s : State) (id : Nat) (f : Launch → Launch) : (modLaunch s id f).boot = s.boot := rfl
@[simp] theorem modLaunch_blocks (s : State) (id : Nat) (f : Launch → Launch) : (modLaunch s id f).work.blocks = s.work.blocks := rfl
@[simp] theorem modLaunch_cohorts (s : State) (id : Nat) (f : Launch → Launch) : (modLaunch s id f).work.cohorts = s.work.cohorts := rfl
@[simp] theorem modLaunch_away (s : State) (id : Nat) (f : Launch → Launch) : (modLaunch s id f).work.away = s.work.away := rfl
@[simp] theorem modLaunch_deposits (s : State) (id : Nat) (f : Launch → Launch) : (modLaunch s id f).work.deposits = s.work.deposits := rfl
@[simp] theorem modLaunch_nextUid (s : State) (id : Nat) (f : Launch → Launch) : (modLaunch s id f).work.nextUid = s.work.nextUid := rfl
@[simp] theorem modLaunch_qbase (s : State) (id : Nat) (f : Launch → Launch) : (modLaunch s id f).work.qbase = s.work.qbase := rfl
@[simp] theorem modLaunch_qsize (s : State) (id : Nat) (f : Launch → Launch) : (modLaunch s id f).work.qsize = s.work.qsize := rfl
@[simp] theorem modLaunch_qhead (s : State) (id : Nat) (f : Launch → Launch) : (modLaunch s id f).work.qhead = s.work.qhead := rfl
@[simp] theorem modLaunch_qtail (s : State) (id : Nat) (f : Launch → Launch) : (modLaunch s id f).work.qtail = s.work.qtail := rfl
@[simp] theorem modLaunch_rot (s : State) (id : Nat) (f : Launch → Launch) : (modLaunch s id f).work.rot = s.work.rot := rfl
@[simp] theorem modLaunch_enq (s : State) (id : Nat) (f : Launch → Launch) : (modLaunch s id f).work.enq = s.work.enq := rfl
@[simp] theorem modLaunch_origin (s : State) (id : Nat) (f : Launch → Launch) : (modLaunch s id f).work.origin = s.work.origin := rfl
@[simp] theorem modLaunch_joins (s : State) (id : Nat) (f : Launch → Launch) : (modLaunch s id f).work.joins = s.work.joins := rfl
@[simp] theorem modLaunch_purge (s : State) (id : Nat) (f : Launch → Launch) : (modLaunch s id f).work.purge = s.work.purge := rfl
@[simp] theorem modLaunch_tagwait (s : State) (id : Nat) (f : Launch → Launch) : (modLaunch s id f).work.tagwait = s.work.tagwait := rfl
@[simp] theorem modLaunch_taken (s : State) (id : Nat) (f : Launch → Launch) : (modLaunch s id f).work.taken = s.work.taken := rfl
@[simp] theorem modLaunch_tagwaits (s : State) (id : Nat) (f : Launch → Launch) : (modLaunch s id f).work.tagwaits = s.work.tagwaits := rfl
@[simp] theorem modLaunch_rejects (s : State) (id : Nat) (f : Launch → Launch) : (modLaunch s id f).work.rejects = s.work.rejects := rfl
@[simp] theorem modLaunch_ppBase (s : State) (id : Nat) (f : Launch → Launch) : (modLaunch s id f).work.ppBase = s.work.ppBase := rfl
@[simp] theorem modLaunch_ppSlots (s : State) (id : Nat) (f : Launch → Launch) : (modLaunch s id f).work.ppSlots = s.work.ppSlots := rfl
@[simp] theorem modLaunch_ppSlotb (s : State) (id : Nat) (f : Launch → Launch) : (modLaunch s id f).work.ppSlotb = s.work.ppSlotb := rfl
@[simp] theorem modLaunch_csaBase (s : State) (id : Nat) (f : Launch → Launch) : (modLaunch s id f).work.csaBase = s.work.csaBase := rfl
@[simp] theorem modLaunch_csaSlots (s : State) (id : Nat) (f : Launch → Launch) : (modLaunch s id f).work.csaSlots = s.work.csaSlots := rfl
@[simp] theorem modLaunch_csaSlotb (s : State) (id : Nat) (f : Launch → Launch) : (modLaunch s id f).work.csaSlotb = s.work.csaSlotb := rfl
@[simp] theorem modLaunch_tspill (s : State) (id : Nat) (f : Launch → Launch) : (modLaunch s id f).work.tspill = s.work.tspill := rfl

@[simp] theorem modCohort_sched (s : State) (coh : Nat) (f : Cohort → Cohort) : (modCohort s coh f).sched = s.sched := rfl
@[simp] theorem modCohort_mem (s : State) (coh : Nat) (f : Cohort → Cohort) : (modCohort s coh f).mem = s.mem := rfl
@[simp] theorem modCohort_coh (s : State) (coh : Nat) (f : Cohort → Cohort) : (modCohort s coh f).coh = s.coh := rfl
@[simp] theorem modCohort_motion (s : State) (coh : Nat) (f : Cohort → Cohort) : (modCohort s coh f).motion = s.motion := rfl
@[simp] theorem modCohort_mgmt (s : State) (coh : Nat) (f : Cohort → Cohort) : (modCohort s coh f).mgmt = s.mgmt := rfl
@[simp] theorem modCohort_links (s : State) (coh : Nat) (f : Cohort → Cohort) : (modCohort s coh f).links = s.links := rfl
@[simp] theorem modCohort_trace (s : State) (coh : Nat) (f : Cohort → Cohort) : (modCohort s coh f).trace = s.trace := rfl
@[simp] theorem modCohort_cores (s : State) (coh : Nat) (f : Cohort → Cohort) : (modCohort s coh f).cores = s.cores := rfl
@[simp] theorem modCohort_power (s : State) (coh : Nat) (f : Cohort → Cohort) : (modCohort s coh f).power = s.power := rfl
@[simp] theorem modCohort_boot (s : State) (coh : Nat) (f : Cohort → Cohort) : (modCohort s coh f).boot = s.boot := rfl
@[simp] theorem modCohort_blocks (s : State) (coh : Nat) (f : Cohort → Cohort) : (modCohort s coh f).work.blocks = s.work.blocks := rfl
@[simp] theorem modCohort_away (s : State) (coh : Nat) (f : Cohort → Cohort) : (modCohort s coh f).work.away = s.work.away := rfl
@[simp] theorem modCohort_launches (s : State) (coh : Nat) (f : Cohort → Cohort) : (modCohort s coh f).work.launches = s.work.launches := rfl
@[simp] theorem modCohort_deposits (s : State) (coh : Nat) (f : Cohort → Cohort) : (modCohort s coh f).work.deposits = s.work.deposits := rfl
@[simp] theorem modCohort_nextUid (s : State) (coh : Nat) (f : Cohort → Cohort) : (modCohort s coh f).work.nextUid = s.work.nextUid := rfl
@[simp] theorem modCohort_qbase (s : State) (coh : Nat) (f : Cohort → Cohort) : (modCohort s coh f).work.qbase = s.work.qbase := rfl
@[simp] theorem modCohort_qsize (s : State) (coh : Nat) (f : Cohort → Cohort) : (modCohort s coh f).work.qsize = s.work.qsize := rfl
@[simp] theorem modCohort_qhead (s : State) (coh : Nat) (f : Cohort → Cohort) : (modCohort s coh f).work.qhead = s.work.qhead := rfl
@[simp] theorem modCohort_qtail (s : State) (coh : Nat) (f : Cohort → Cohort) : (modCohort s coh f).work.qtail = s.work.qtail := rfl
@[simp] theorem modCohort_rot (s : State) (coh : Nat) (f : Cohort → Cohort) : (modCohort s coh f).work.rot = s.work.rot := rfl
@[simp] theorem modCohort_enq (s : State) (coh : Nat) (f : Cohort → Cohort) : (modCohort s coh f).work.enq = s.work.enq := rfl
@[simp] theorem modCohort_origin (s : State) (coh : Nat) (f : Cohort → Cohort) : (modCohort s coh f).work.origin = s.work.origin := rfl
@[simp] theorem modCohort_joins (s : State) (coh : Nat) (f : Cohort → Cohort) : (modCohort s coh f).work.joins = s.work.joins := rfl
@[simp] theorem modCohort_purge (s : State) (coh : Nat) (f : Cohort → Cohort) : (modCohort s coh f).work.purge = s.work.purge := rfl
@[simp] theorem modCohort_tagwait (s : State) (coh : Nat) (f : Cohort → Cohort) : (modCohort s coh f).work.tagwait = s.work.tagwait := rfl
@[simp] theorem modCohort_taken (s : State) (coh : Nat) (f : Cohort → Cohort) : (modCohort s coh f).work.taken = s.work.taken := rfl
@[simp] theorem modCohort_tagwaits (s : State) (coh : Nat) (f : Cohort → Cohort) : (modCohort s coh f).work.tagwaits = s.work.tagwaits := rfl
@[simp] theorem modCohort_rejects (s : State) (coh : Nat) (f : Cohort → Cohort) : (modCohort s coh f).work.rejects = s.work.rejects := rfl
@[simp] theorem modCohort_ppBase (s : State) (coh : Nat) (f : Cohort → Cohort) : (modCohort s coh f).work.ppBase = s.work.ppBase := rfl
@[simp] theorem modCohort_ppSlots (s : State) (coh : Nat) (f : Cohort → Cohort) : (modCohort s coh f).work.ppSlots = s.work.ppSlots := rfl
@[simp] theorem modCohort_ppSlotb (s : State) (coh : Nat) (f : Cohort → Cohort) : (modCohort s coh f).work.ppSlotb = s.work.ppSlotb := rfl
@[simp] theorem modCohort_csaBase (s : State) (coh : Nat) (f : Cohort → Cohort) : (modCohort s coh f).work.csaBase = s.work.csaBase := rfl
@[simp] theorem modCohort_csaSlots (s : State) (coh : Nat) (f : Cohort → Cohort) : (modCohort s coh f).work.csaSlots = s.work.csaSlots := rfl
@[simp] theorem modCohort_csaSlotb (s : State) (coh : Nat) (f : Cohort → Cohort) : (modCohort s coh f).work.csaSlotb = s.work.csaSlotb := rfl
@[simp] theorem modCohort_tspill (s : State) (coh : Nat) (f : Cohort → Cohort) : (modCohort s coh f).work.tspill = s.work.tspill := rfl

@[simp] theorem modCore_sched (s : State) (i : Nat) (f : Core → Core) : (modCore s i f).sched = s.sched := rfl
@[simp] theorem modCore_work (s : State) (i : Nat) (f : Core → Core) : (modCore s i f).work = s.work := rfl
@[simp] theorem modCore_mem (s : State) (i : Nat) (f : Core → Core) : (modCore s i f).mem = s.mem := rfl
@[simp] theorem modCore_coh (s : State) (i : Nat) (f : Core → Core) : (modCore s i f).coh = s.coh := rfl
@[simp] theorem modCore_motion (s : State) (i : Nat) (f : Core → Core) : (modCore s i f).motion = s.motion := rfl
@[simp] theorem modCore_mgmt (s : State) (i : Nat) (f : Core → Core) : (modCore s i f).mgmt = s.mgmt := rfl
@[simp] theorem modCore_links (s : State) (i : Nat) (f : Core → Core) : (modCore s i f).links = s.links := rfl
@[simp] theorem modCore_trace (s : State) (i : Nat) (f : Core → Core) : (modCore s i f).trace = s.trace := rfl
@[simp] theorem modCore_power (s : State) (i : Nat) (f : Core → Core) : (modCore s i f).power = s.power := rfl
@[simp] theorem modCore_boot (s : State) (i : Nat) (f : Core → Core) : (modCore s i f).boot = s.boot := rfl

/-! ### Blocks and groups -/

theorem find?_modify {α : Type} (l : List α) (key : α → Nat) (uid : Nat) (f : α → α) (hf : ∀ b, key (f b) = key b) (j : Nat) :
    (l.map fun b => if key b = uid then f b else b).find? (fun b => key b == j)
      = (l.find? fun b => key b == j).map fun b => if j = uid then f b else b := by
  induction l with
  | nil => rfl
  | cons x r ih =>
    simp only [List.map, List.find?]
    have hk : key (if key x = uid then f x else x) = key x := by split <;> simp [hf]
    rw [hk]
    by_cases h : key x = j
    · subst h; simp
    · simp only [beq_eq_false_iff_ne.2 h]; exact ih

/-- A block after a change of one (its name is kept). -/
theorem blockOf_modBlock (s : State) (uid j : Nat) (f : Block → Block) (hf : ∀ b, (f b).uid = b.uid) :
    blockOf (modBlock s uid f) j = (blockOf s j).map fun b => if j = uid then f b else b :=
  find?_modify s.work.blocks Block.uid uid f hf j

theorem blockOf_modGroup (s : State) (uid g j : Nat) (f : Group → Group) :
    blockOf (modGroup s uid g f) j = (blockOf s j).map fun b => if j = uid then { b with groups := b.groups.modify g f } else b :=
  blockOf_modBlock s uid j _ fun _ => rfl

theorem blockOf_modBms (s : State) (uid j : Nat) (f : Bms → Bms) :
    blockOf (modBms s uid f) j = (blockOf s j).map fun b => if j = uid then { b with bms := b.bms.map f } else b :=
  blockOf_modBlock s uid j _ fun _ => rfl

/-- A group after a change of one. -/
theorem groupOf_modGroup (s : State) (uid g j k : Nat) (f : Group → Group) :
    groupOf (modGroup s uid g f) j k = (groupOf s j k).map fun x => if j = uid ∧ k = g then f x else x := by
  simp only [groupOf, blockOf_modGroup]
  cases blockOf s j with
  | none => rfl
  | some b =>
    by_cases hj : j = uid
    · simp only [hj, Option.map, if_true, true_and]
      by_cases hk : k = g
      · subst hk; simp; cases b.groups[k]? <;> rfl
      · simp [Ne.symm hk, hk]; cases b.groups[k]? <;> rfl
    · simp [hj]

theorem groupOf_modBms (s : State) (uid j k : Nat) (f : Bms → Bms) : groupOf (modBms s uid f) j k = groupOf s j k := by
  simp only [groupOf, blockOf_modBms]
  cases blockOf s j with
  | none => rfl
  | some b => by_cases hj : j = uid <;> simp [hj]

/-- A path after a change of one. -/
theorem pathOf_modPath (s : State) (uid g p j k q : Nat) (f : Path → Path) :
    pathOf (modPath s uid g p f) j k q = (pathOf s j k q).map fun x => if j = uid ∧ k = g ∧ q = p then f x else x := by
  simp only [pathOf, modPath, groupOf_modGroup]
  cases groupOf s j k with
  | none => rfl
  | some x =>
    by_cases h : j = uid ∧ k = g
    · simp only [h, Option.map, and_self, if_true, true_and]
      by_cases hq : q = p
      · subst hq; simp; cases x.paths[q]? <;> rfl
      · simp [Ne.symm hq, hq]; cases x.paths[q]? <;> rfl
    · have h3 : ¬(j = uid ∧ k = g ∧ q = p) := fun x => h ⟨x.1, x.2.1⟩
      simp only [h, h3, Option.map, if_false]; cases x.paths[q]? <;> rfl

/-- A path after a change of its group that leaves its paths. -/
theorem pathOf_modGroup (s : State) (uid g j k q : Nat) (f : Group → Group) (hf : ∀ x, (f x).paths = x.paths) :
    pathOf (modGroup s uid g f) j k q = pathOf s j k q := by
  simp only [pathOf, groupOf_modGroup]
  cases groupOf s j k with
  | none => rfl
  | some x => simp only [Option.map]; split <;> simp [hf]

/-! ### Contexts and registers -/

/-- A BMS context's name is no group's of a block with at most 16 groups (R255). -/
theorem ctxOf_modCtx (s : State) (uid who j k : Nat) (f : Ctx → Ctx) :
    ctxOf (modCtx s uid who f) j k = (ctxOf s j k).map fun x => if j = uid ∧ k = who then f x else x := by
  unfold modCtx
  split
  · rename_i hw
    simp only [ctxOf, blockOf_modBms]
    cases blockOf s j with
    | none => rfl
    | some b =>
      by_cases hj : j = uid
      · subst hj
        by_cases hk : k = bmsWho
        · simp only [hk, hw, Option.map, if_true, and_self]; cases b.bms <;> rfl
        · have hkw : ¬k = who := by rw [hw]; exact hk
          simp only [hk, hkw, Option.map, if_false, if_true, and_false]; cases b.groups[k]? <;> rfl
      · simp [hj]
  · rename_i hw
    simp only [ctxOf, blockOf_modGroup]
    cases blockOf s j with
    | none => rfl
    | some b =>
      by_cases hj : j = uid
      · subst hj
        by_cases hk : k = bmsWho
        · have hkw : ¬k = who := by rw [hk]; exact fun e => hw e.symm
          simp only [hk, Option.map, if_true]
          have : ¬bmsWho = who := fun e => hw e.symm
          simp only [this, and_false, if_false]; cases b.bms <;> rfl
        · simp only [hk, Option.map, if_false, if_true, true_and]
          by_cases hkw : k = who
          · subst hkw; simp; cases b.groups[k]? <;> rfl
          · simp [Ne.symm hkw, hkw]; cases b.groups[k]? <;> rfl
      · simp [hj]

/-- The registers of an issuer after they are stored: the files are the stored view's, the shape is the issuer's own. -/
theorem regsOf_putRegs (s : State) (uid who : Nat) (old r : Regs) (h : regsOf s uid who = some old) :
    regsOf (putRegs s uid who r) uid who
      = some { old with v := if who = bmsWho then old.v else r.v, g := r.g
                        p := if who = bmsWho then old.p else r.p, k := r.k } := by
  unfold putRegs
  split
  · rename_i hw
    simp only [regsOf, blockOf_modBms] at h ⊢
    cases hb : blockOf s uid with
    | none => simp [hb] at h
    | some b =>
      simp only [hb, hw, if_true, Option.map] at h ⊢
      cases hm : b.bms with
      | none => simp [hm] at h
      | some m => simp only [hm] at h ⊢; cases h; rfl
  · rename_i hw
    simp only [regsOf, blockOf_modGroup] at h ⊢
    cases hb : blockOf s uid with
    | none => simp [hb] at h
    | some b =>
      simp only [hb, hw, if_false, if_true, Option.map] at h ⊢
      cases hg : b.groups[who]? with
      | none => simp [hg] at h
      | some x =>
        simp only [hg] at h ⊢
        simp only [Option.some.injEq] at h
        subst h
        simp [Group.regs, hg]

/-- A change of a group's context that leaves its registers, or of anything else of it. -/
theorem regsOf_modGroup (s : State) (uid g j k : Nat) (f : Group → Group) (hf : ∀ x v, (f x).regs v = x.regs v) :
    regsOf (modGroup s uid g f) j k = regsOf s j k := by
  simp only [regsOf, blockOf_modGroup]
  cases blockOf s j with
  | none => rfl
  | some b =>
    by_cases hj : j = uid
    · simp only [hj, Option.map, if_true]
      split
      · rfl
      · by_cases hk : k = g
        · subst hk; simp; cases b.groups[k]? <;> simp [hf]
        · simp [Ne.symm hk]
    · simp [hj]

theorem regsOf_modBms (s : State) (uid j k : Nat) (f : Bms → Bms) (hf : ∀ x, (f x).regs = x.regs) :
    regsOf (modBms s uid f) j k = regsOf s j k := by
  simp only [regsOf, blockOf_modBms]
  cases blockOf s j with
  | none => rfl
  | some b =>
    by_cases hj : j = uid
    · simp only [hj, Option.map, if_true]
      split
      · cases b.bms <;> simp [hf]
      · rfl
    · simp [hj]

theorem regsOf_modCtx (s : State) (uid who j k : Nat) (f : Ctx → Ctx) (hg : ∀ x, (f x).gregs = x.gregs)
    (hk : ∀ x, (f x).kpreds = x.kpreds) : regsOf (modCtx s uid who f) j k = regsOf s j k := by
  unfold modCtx
  split
  · exact regsOf_modBms _ _ _ _ _ fun x => by simp [Bms.regs, hg, hk]
  · exact regsOf_modGroup _ _ _ _ _ _ fun x v => by simp [Group.regs, hg, hk]

theorem regsOf_modPath (s : State) (uid g p j k : Nat) (f : Path → Path) : regsOf (modPath s uid g p f) j k = regsOf s j k :=
  regsOf_modGroup _ _ _ _ _ _ fun _ _ => rfl

@[simp] theorem regsOf_goto (s : State) (c : Cur) (pc j k : Nat) : regsOf (goto s c pc) j k = regsOf s j k := by
  unfold goto
  split
  · exact regsOf_modBms _ _ _ _ _ fun _ => rfl
  · exact regsOf_modPath _ _ _ _ _ _ _

@[simp] theorem regsOf_bumpOrder (s : State) (uid who j k : Nat) : regsOf (bumpOrder s uid who) j k = regsOf s j k :=
  regsOf_modCtx _ _ _ _ _ _ (fun _ => rfl) fun _ => rfl

@[simp] theorem regsOf_pass (s : State) (c : Cur) (j k : Nat) : regsOf (pass s c) j k = regsOf s j k := by
  simp [pass]

@[simp] theorem regsOf_noteOpbuf (s : State) (x : Ex) (i : Instr) (h : Hdr) (j k : Nat) :
    regsOf (noteOpbuf s x i h) j k = regsOf s j k := by
  unfold noteOpbuf
  split
  · rfl
  · exact regsOf_modGroup _ _ _ _ _ _ fun _ _ => rfl

end Sys2Proof.Machine
end

