-- ==== Sys2Proof/Laws/Operations.lean ====
section
/-!
SUPPORT. What the shared operations of register instructions do: the slots an instruction executes in, retirement, one
value a slot, one predicate a slot.
-/

namespace Sys2Proof.Machine

open Sys2Proof.Safety

/-! ### Slots -/

theorem mem_lanesOf {m : LaneMask} {l : Nat} : l ∈ lanesOf m ↔ l < 64 ∧ m.getLsbD l = true := by
  simp [lanesOf]

theorem slotOk_of_slotsFrom (ms : List LaneMask) (j : Nat) : ∀ sl ∈ slotsFrom j ms, ∃ j' l, sl = .lane j' l ∧ l < 64 := by
  induction ms generalizing j with
  | nil => simp [slotsFrom]
  | cons m r ih =>
    intro sl h
    simp only [slotsFrom, List.mem_append, List.mem_map] at h
    rcases h with ⟨l, hl, rfl⟩ | h
    · exact ⟨j, l, rfl, (mem_lanesOf.1 hl).1⟩
    · exact ih _ sl h

/-- An executing slot is the control thread in group form, else a lane of a set. -/
theorem mem_activeSlots {r : Regs} {h : Hdr} {m : List LaneMask} {sl : Slot} (hs : sl ∈ activeSlots r h m) :
    if h.g then sl = .ctl else ∃ j l, sl = .lane j l ∧ l < 64 := by
  simp only [activeSlots, List.mem_filter] at hs
  split
  · rename_i hg; simpa [hg] using hs.1
  · rename_i hg; simp only [hg] at hs; exact slotOk_of_slotsFrom m 0 sl hs.1

theorem exOf_some {s : State} {h : Hdr} {x : Ex} (hx : exOf s h = some x) :
    s.sched.cur = some x.cur ∧ regsOf s x.cur.blk x.cur.who = some x.r ∧ x.mask = maskAt s x.cur
      ∧ x.slots = activeSlots x.r h x.mask := by
  unfold exOf at hx
  split at hx
  · exact absurd hx (by simp)
  · rename_i c hc
    split at hx
    · exact absurd hx (by simp)
    · rename_i r hr
      simp only [Option.some.injEq] at hx
      subst hx
      exact ⟨hc, hr, rfl, rfl⟩

theorem slots_ok {s : State} {h : Hdr} {x : Ex} (hx : exOf s h = some x) : ∀ sl ∈ x.slots, SlotOk sl := by
  intro sl hs
  rw [(exOf_some hx).2.2.2] at hs
  have := mem_activeSlots hs
  split at this
  · subst this; trivial
  · obtain ⟨j, l, rfl, hl⟩ := this; exact hl

/-- In lane form every executing slot is a lane; in group form it is the control thread. -/
theorem slots_form {s : State} {h : Hdr} {x : Ex} (hx : exOf s h = some x) :
    ∀ sl ∈ x.slots, if h.g then sl = .ctl else ∃ j l, sl = .lane j l ∧ l < 64 := by
  intro sl hs
  rw [(exOf_some hx).2.2.2] at hs
  exact mem_activeSlots hs

/-! ### Retirement -/

/-- The registers that an instruction's writes go into: marked, or as they were while it has not retired (R139, R169). -/
def marked (s : State) (x : Ex) (i : Instr) (h : Hdr) : Regs := if late s x.cur then x.r else markDeadRegs i h x.slots x.r

theorem modGroup_id (s : State) (uid who : Nat) : modGroup s uid who (fun g => g) = s := by
  simp only [modGroup, modBlock]
  have : (fun b : Block => if b.uid = uid then { b with groups := b.groups.modify who fun g => g } else b) = id := by
    funext b; split
    · show { b with groups := b.groups.modify who id } = b; rw [List.modify_id]
    · rfl
  rw [this, List.map_id]

theorem modGroup_modGroup (s : State) (uid who : Nat) (f g : Group → Group) :
    modGroup (modGroup s uid who f) uid who g = modGroup s uid who fun x => g (f x) := by
  simp only [modGroup, modBlock, List.map_map]
  congr 2
  apply List.map_congr_left
  intro b _
  simp only [Function.comp]
  by_cases h : b.uid = uid
  · simp only [h, if_true]
    congr 1
    apply List.ext_getElem?
    intro i
    simp only [List.getElem?_modify]
    split <;> cases b.groups[i]? <;> rfl
  · simp [h]

theorem modBms_modBms (s : State) (uid : Nat) (f g : Bms → Bms) :
    modBms (modBms s uid f) uid g = modBms s uid fun x => g (f x) := by
  simp only [modBms, modBlock, List.map_map]
  congr 2
  apply List.map_congr_left
  intro b _
  simp only [Function.comp]
  by_cases h : b.uid = uid
  · simp only [h, if_true]; cases b.bms <;> rfl
  · simp [h]

theorem noteOpbuf_group (s : State) (x : Ex) (i : Instr) (h : Hdr) :
    ∃ f, (∀ g : Group, ∃ u, f g = { g with opbuf := u }) ∧ noteOpbuf s x i h = modGroup s x.cur.blk x.cur.who f := by
  unfold noteOpbuf
  split
  · exact ⟨fun g => g, fun g => ⟨g.opbuf, rfl⟩, (modGroup_id _ _ _).symm⟩
  · exact ⟨_, fun g => ⟨_, rfl⟩, rfl⟩

/-- What an instruction of a group writes, as one change of the group. -/
theorem commit_group (s : State) (x : Ex) (i : Instr) (h : Hdr) (new : Regs → Regs) (hw : x.cur.who ≠ bmsWho) :
    ∃ f, (∀ g : Group, ∃ u a o, f g =
        { g with vregs := (new (marked s x i h)).v, preds := (new (marked s x i h)).p, undo := u, ahead := a, opbuf := o
                 ctx := { g.ctx with gregs := (new (marked s x i h)).g, kpreds := (new (marked s x i h)).k } })
      ∧ commit s x i h new = modGroup s x.cur.blk x.cur.who f := by
  have hl : (decide (x.cur.who ≠ bmsWho) && unpassed s x.cur.blk x.cur.who x.cur.path) = late s x.cur := by
    simp [late, bne, hw]
  simp only [commit, hl, marked]
  split <;> rename_i hc
  · obtain ⟨f, hf, e⟩ := noteOpbuf_group (modGroup (putRegs s x.cur.blk x.cur.who (new x.r)) x.cur.blk x.cur.who fun g =>
      { g.recorded x.cur.path (orderOf s x.cur.blk x.cur.who) (writtenCells x.r new) with
        ahead := g.ahead ++ [⟨x.cur.path, orderOf s x.cur.blk x.cur.who,
          (marksOf i h x.slots x.r).filter fun m => !(writtenCells x.r new).any fun q => q.markedBy m⟩] }) x i h
    rw [e]
    simp only [putRegs, if_neg hw, modGroup_modGroup]
    refine ⟨_, fun g => ?_, rfl⟩
    obtain ⟨o, ho⟩ := hf _
    exact ⟨_, _, o, by rw [ho]; rfl⟩
  · obtain ⟨f, hf, e⟩ := noteOpbuf_group (modGroup (putRegs s x.cur.blk x.cur.who (new (markDeadRegs i h x.slots x.r))) x.cur.blk x.cur.who fun g =>
      g.settled (writtenCells x.r fun r => new (markDeadRegs i h x.slots r))) x i h
    rw [e]
    simp only [putRegs, if_neg hw, modGroup_modGroup]
    refine ⟨_, fun g => ?_, rfl⟩
    obtain ⟨o, ho⟩ := hf _
    exact ⟨_, _, o, by rw [ho]; rfl⟩

/-- Retirement of a group's instruction as one change of the group. -/
theorem retire_group (s : State) (x : Ex) (i : Instr) (h : Hdr) (new : Regs → Regs) (hw : x.cur.who ≠ bmsWho) :
    ∃ f, (∀ g : Group, ∃ u a o, f g =
        { g with vregs := (new (marked s x i h)).v, preds := (new (marked s x i h)).p, undo := u, ahead := a, opbuf := o
                 paths := g.paths.modify x.cur.path fun q => { q with pc := nextPc x.cur }
                 ctx := { g.ctx with gregs := (new (marked s x i h)).g
                                     kpreds := (new (marked s x i h)).k, order := g.ctx.order + 1 } })
      ∧ retire s x i h new = modGroup s x.cur.blk x.cur.who f := by
  obtain ⟨f, hf, e⟩ := commit_group s x i h new hw
  simp only [retire, pass, e, goto, bumpOrder, modCtx, if_neg hw, modPath, modGroup_modGroup]
  refine ⟨_, fun g => ?_, rfl⟩
  obtain ⟨u, a, o, ho⟩ := hf g
  exact ⟨u, a, o, by rw [ho]⟩

/-- Retirement of a BMS instruction as one change of the context. -/
theorem retire_bms (s : State) (x : Ex) (i : Instr) (h : Hdr) (new : Regs → Regs) (hw : x.cur.who = bmsWho) :
    retire s x i h new = modBms s x.cur.blk fun m =>
      { m with pc := nextPc x.cur
               ctx := { m.ctx with gregs := (new (marked s x i h)).g
                                   kpreds := (new (marked s x i h)).k, order := m.ctx.order + 1 } } := by
  simp [retire, pass, commit, goto, bumpOrder, modCtx, putRegs, noteOpbuf, marked, late, hw, modBms_modBms]

/-- What retirement leaves: the frame of every register instruction. -/
theorem retire_retires {s : State} {h : Hdr} {x : Ex} (hx : exOf s h = some x) (i : Instr) (new : Regs → Regs) :
    Retires s (retire s x i h new) x.cur := by
  have hr := (exOf_some hx).2.1
  have hb : ∃ b, blockOf s x.cur.blk = some b := by
    unfold regsOf at hr
    split at hr
    · exact absurd hr (by simp)
    · exact ⟨_, by assumption⟩
  obtain ⟨b, hb⟩ := hb
  simp only [regsOf, hb] at hr
  by_cases hw : x.cur.who = bmsWho
  · rw [retire_bms s x i h new hw]
    refine ⟨rfl, fun j hj => by simp [blockOf_modBms, hj], b, _, hb, by rw [blockOf_modBms, hb]; rfl, ?_⟩
    simp only [hw, if_true] at hr ⊢
    cases hm : b.bms with
    | none => simp [hm] at hr
    | some m => exact ⟨m, _, rfl, rfl, rfl⟩
  · obtain ⟨f, hf, e⟩ := retire_group s x i h new hw
    rw [e]
    refine ⟨rfl, fun j hj => by simp [blockOf_modGroup, hj], b, _, hb, by rw [blockOf_modGroup, hb]; rfl, ?_⟩
    simp only [hw, if_false] at hr ⊢
    cases hg : b.groups[x.cur.who]? with
    | none => simp [hg] at hr
    | some g =>
      refine ⟨g, f g, rfl, ?_, ?_⟩
      · simp only [if_true]; congr 1
        apply List.ext_getElem?
        intro k
        by_cases hk : x.cur.who = k
        · subst hk; simp [hg, List.getElem?_set_self (List.getElem?_eq_some_iff.1 hg).1]
        · simp [hk]
      · obtain ⟨u, a, o, hfg⟩ := hf g
        rw [hfg]

/-- The registers after an instruction's writes. -/
theorem regsOf_commit {s : State} {h : Hdr} {x : Ex} (hx : exOf s h = some x) (i : Instr) (new : Regs → Regs) :
    regsOf (commit s x i h new) x.cur.blk x.cur.who
      = some { x.r with
          v := if x.cur.who = bmsWho then x.r.v else (new (marked s x i h)).v
          g := (new (marked s x i h)).g
          p := if x.cur.who = bmsWho then x.r.p else (new (marked s x i h)).p
          k := (new (marked s x i h)).k } := by
  have hl : (decide (x.cur.who ≠ bmsWho) && unpassed s x.cur.blk x.cur.who x.cur.path) = late s x.cur := by
    by_cases hw : x.cur.who = bmsWho <;> simp [late, bne, hw]
  simp only [commit, hl, marked]
  split
  · rw [regsOf_noteOpbuf, regsOf_modGroup _ _ _ _ _ _ (by intros; rfl)]
    exact regsOf_putRegs s _ _ _ _ (exOf_some hx).2.1
  · rw [regsOf_noteOpbuf]
    split
    · rename_i hw; rw [regsOf_putRegs s _ _ _ _ (exOf_some hx).2.1]; simp [hw]
    · rename_i hw; rw [regsOf_modGroup _ _ _ _ _ _ (by intros; rfl), regsOf_putRegs s _ _ _ _ (exOf_some hx).2.1]; simp [hw]

/-- The registers after retirement. -/
theorem regsOf_retire {s : State} {h : Hdr} {x : Ex} (hx : exOf s h = some x) (i : Instr) (new : Regs → Regs) :
    regsOf (retire s x i h new) x.cur.blk x.cur.who
      = some { x.r with
          v := if x.cur.who = bmsWho then x.r.v else (new (marked s x i h)).v
          g := (new (marked s x i h)).g
          p := if x.cur.who = bmsWho then x.r.p else (new (marked s x i h)).p
          k := (new (marked s x i h)).k } := by
  simp only [retire, regsOf_pass]
  exact regsOf_commit hx i new

/-! ### One value a slot -/

/-- An operand field that a lane-form word may hold: not a record of g registers and not an s descriptor. -/
def laneUse : Option Use → Bool
  | some ⟨.rec8, _, _⟩ | some ⟨.sdesc _ _, _, _⟩ => false
  | _ => true

/-- The registers of an operand field of a lane-form word lie below the budget (R16). -/
theorem useSpan_lt {g : Bool} {b : Nat} {u : Option Use} (hl : laneUse u = true) (hg : g = false) (hb : useBudget g b u = true) :
    ∀ k < (useSpan u).2, (useSpan u).1 + k < b := by
  subst hg
  rcases u with _ | ⟨kd, r, rd⟩
  · intro k hk; exact absurd hk (Nat.not_lt_zero k)
  · cases kd <;> simp [laneUse, useSpan, useBudget] at hl hb ⊢ <;> omega

theorem budget_uses {b : Nat} {i : Instr} {h : Hdr} (hh : hdrOf i = some h) (hb : budgetOk b i = true) :
    useBudget h.g b (uses i).d = true ∧ useBudget h.g b (uses i).a = true ∧ useBudget h.g b (uses i).b = true
      ∧ useBudget h.g b (uses i).c = true := by
  simpa [budgetOk, hh, and_assoc] using hb

/-- The slots and the marks of an instruction name registers that the slots' sets hold. -/
theorem issues_marks {s : State} {i : Instr} {h : Hdr} {x : Ex} (hx : Issues s i h x)
    (hl : laneUse (uses i).a = true ∧ laneUse (uses i).b = true) :
    ∀ q ∈ x.slots, SlotOk q ∧ ∀ u ∈ lastUses i h, ∀ k < u.2, Holds x.r q (u.1 + k) := by
  intro q hq
  refine ⟨slots_ok hx.2.1 q hq, fun u hu k hk => ?_⟩
  have hf := slots_form hx.2.1 q hq
  split at hf
  · subst hf; trivial
  · rename_i hg
    obtain ⟨j, l, rfl, _⟩ := hf
    have hg' : h.g = false := by simpa using hg
    have hb : budgetOk x.r.span i = true := by
      rcases hx.2.2.2 with hw | hb
      · have hwf := hx.2.2.1
        simp [WellFormed, formOk, hx.1, streamOf, hw, hg'] at hwf
      · exact hb
    have hbu := budget_uses hx.1 hb
    simp only [lastUses, List.mem_append] at hu
    rcases hu with hu | hu
    · split at hu
      · simp only [List.mem_singleton] at hu; subst hu; exact useSpan_lt hl.1 hg' hbu.2.1 k hk
      · simp at hu
    · split at hu
      · simp only [List.mem_singleton] at hu; subst hu; exact useSpan_lt hl.2 hg' hbu.2.2.1 k hk
      · simp at hu

/-- The registers of D are registers that the slots' sets hold. -/
theorem issues_dest {s : State} {i : Instr} {h : Hdr} {x : Ex} (hx : Issues s i h x) (hl : laneUse (uses i).d = true) :
    ∀ q ∈ x.slots, SlotOk q ∧ ∀ k < (useSpan (uses i).d).2, Holds x.r q ((useSpan (uses i).d).1 + k) := by
  intro q hq
  refine ⟨slots_ok hx.2.1 q hq, fun k hk => ?_⟩
  have hf := slots_form hx.2.1 q hq
  split at hf
  · subst hf; trivial
  · rename_i hg
    obtain ⟨j, l, rfl, _⟩ := hf
    have hg' : h.g = false := by simpa using hg
    have hb : budgetOk x.r.span i = true := by
      rcases hx.2.2.2 with hw | hb
      · have hwf := hx.2.2.1
        simp [WellFormed, formOk, hx.1, streamOf, hw, hg'] at hwf
      · exact hb
    exact useSpan_lt hl hg' (budget_uses hx.1 hb).1 k hk

/-- In group form, or with the BMS, no lane executes. -/
theorem bms_ctl {s : State} {i : Instr} {h : Hdr} {x : Ex} (hx : Issues s i h x) (hw : x.cur.who = bmsWho) : h.g = true := by
  have hwf := hx.2.2.1
  cases hg : h.g with
  | true => rfl
  | false => simp [WellFormed, formOk, hx.1, streamOf, hw, hg] at hwf

/-- A register of the view after retirement. -/
theorem rd_retired {x : Ex} {r1 : Regs} (hsp : r1.span = x.r.span) (hseed : r1.seed = x.r.seed) (hw : x.cur.who = bmsWho → r1.v = x.r.v)
    (sl : Slot) (m : Nat) :
    Regs.rd { x.r with v := if x.cur.who = bmsWho then x.r.v else r1.v, g := r1.g
                       p := if x.cur.who = bmsWho then x.r.p else r1.p, k := r1.k } sl m = r1.rd sl m := by
  cases sl with
  | ctl => simp [Regs.rd, Regs.rdG, hseed]
  | lane j l =>
    have hv : (if x.cur.who = bmsWho then x.r.v else r1.v) = r1.v := by
      split
      · exact (hw (by assumption)).symm
      · rfl
    simp only [Regs.rd, Regs.rdV, Regs.vkey, hsp, hseed, hv]

theorem wrN_ctl_v (r : Regs) (d c v : Nat) : (r.wrN .ctl d c v).v = r.v := by
  induction c generalizing r d v with
  | zero => rfl
  | succ c ih => simp only [Regs.wrN, ih, Regs.wr, Regs.wrG]; split <;> rfl

theorem killN_ctl_v (r : Regs) (d c : Nat) : (r.killN .ctl d c).v = r.v := by
  induction c generalizing r d with
  | zero => rfl
  | succ c ih => simp only [Regs.killN, ih, Regs.kill]; split <;> rfl

theorem writeSlots_ctl_v {ss : List Slot} (hs : ∀ q ∈ ss, q = .ctl) (d : Reg) (n : Nat) (f : Slot → Nat) (r : Regs) :
    (writeSlots ss d n f r).v = r.v := by
  induction ss generalizing r with
  | nil => rfl
  | cons q ss ih =>
    rw [writeSlots_cons, ih (fun p hp => hs p (by simp [hp])), hs q (by simp), wrN_ctl_v]

theorem markDeadRegs_ctl_v {ss : List Slot} (hs : ∀ q ∈ ss, q = .ctl) (i : Instr) (h : Hdr) (r : Regs) :
    (markDeadRegs i h ss r).v = r.v := by
  refine markFold_keeps _ ss Regs.v (fun r a n => ?_) r
  induction ss generalizing r with
  | nil => rfl
  | cons q ss ih => simp only [List.foldl]; rw [ih (fun p hp => hs p (by simp [hp])), hs q (by simp), killN_ctl_v]

theorem rdPred_congr {a b : Regs} (hp : a.p = b.p) (hk : a.k = b.k) (hs : a.seed = b.seed) (sl : Slot) (n : Nat) :
    a.rdPred sl n = b.rdPred sl n := by
  cases sl <;> simp [Regs.rdPred, Regs.rdP, Regs.rdK, hp, hk, hs]

@[simp] theorem marked_span (s : State) (x : Ex) (i : Instr) (h : Hdr) : (marked s x i h).span = x.r.span := by
  unfold marked; split <;> simp
@[simp] theorem marked_seed (s : State) (x : Ex) (i : Instr) (h : Hdr) : (marked s x i h).seed = x.r.seed := by
  unfold marked; split <;> simp
@[simp] theorem marked_p (s : State) (x : Ex) (i : Instr) (h : Hdr) : (marked s x i h).p = x.r.p := by unfold marked; split <;> simp
@[simp] theorem marked_k (s : State) (x : Ex) (i : Instr) (h : Hdr) : (marked s x i h).k = x.r.k := by unfold marked; split <;> simp

theorem marked_ctl_v {s : State} {x : Ex} (hs : ∀ q ∈ x.slots, q = .ctl) (i : Instr) (h : Hdr) : (marked s x i h).v = x.r.v := by
  unfold marked; split
  · rfl
  · exact markDeadRegs_ctl_v hs i h x.r

/-- A register that no hint of the instruction marks. -/
theorem rd_unmarked {s : State} {x : Ex} {i : Instr} {h : Hdr} {sl : Slot} {m : Nat}
    (hx : ∀ q ∈ x.slots, SlotOk q ∧ ∀ u ∈ lastUses i h, ∀ k < u.2, Holds x.r q (u.1 + k)) (hs : SlotOk sl) (hh : Holds x.r sl m)
    (hu : ¬(sl ∈ x.slots ∧ Marked i h m)) : (marked s x i h).rd sl m = x.r.rd sl m := by
  unfold marked; split
  · rfl
  · exact rd_markDeadRegs i h x.r hx hs hh hu

/-- A register that a hint of the instruction marks (R139, R169). -/
theorem rd_whenMarked {s : State} {x : Ex} {i : Instr} {h : Hdr} {sl : Slot} {m : Nat}
    (hx : ∀ q ∈ x.slots, SlotOk q ∧ ∀ u ∈ lastUses i h, ∀ k < u.2, Holds x.r q (u.1 + k)) (hs : SlotOk sl) (hh : Holds x.r sl m)
    (hu : sl ∈ x.slots ∧ Marked i h m) : (marked s x i h).rd sl m = markedRead s x sl m := by
  unfold marked markedRead; split
  · rfl
  · exact rd_marked i h x.r hx hs hh hu

/-- A retiring instruction that writes one value a slot. -/
theorem retire_gives {s : State} {i : Instr} {h : Hdr} {x : Ex} (hx : Issues s i h x) {d : Reg} {n : Nat}
    (hd : useSpan (uses i).d = (d.toNat, n))
    (hl : laneUse (uses i).d = true ∧ laneUse (uses i).a = true ∧ laneUse (uses i).b = true) (val : Slot → Nat) :
    ∃ t r', Host.Outcome.next (retire s x i h (writeSlots x.slots d n val)) = (.next t : Host.Outcome State Fault Refusal)
      ∧ Retires s t x.cur ∧ regsOf t x.cur.blk x.cur.who = some r' ∧ Written s x i h d n val r' := by
  refine ⟨_, _, rfl, retire_retires hx.2.1 i _, regsOf_retire hx.2.1 i _, ?_⟩
  have hm := issues_marks hx hl.2
  have hdst : ∀ q ∈ x.slots, SlotOk q ∧ ∀ k < n, Holds x.r q (d.toNat + k) := by
    have := issues_dest hx hl.1; rwa [hd] at this
  have hdst' : ∀ q ∈ x.slots, SlotOk q ∧ ∀ k < n, Holds (marked s x i h) q (d.toNat + k) :=
    fun q hq => ⟨(hdst q hq).1, fun k hk => Regs.holds_congr (by simp) ((hdst q hq).2 k hk)⟩
  have hv : x.cur.who = bmsWho → (writeSlots x.slots d n val (marked s x i h)).v = x.r.v := by
    intro hw
    have hg := bms_ctl hx hw
    have hc : ∀ q ∈ x.slots, q = .ctl := fun q hq => by have := slots_form hx.2.1 q hq; simpa [hg] using this
    rw [writeSlots_ctl_v hc, marked_ctl_v hc]
  have hrd := fun sl m => rd_retired (x := x) (r1 := writeSlots x.slots d n val (marked s x i h)) (by simp) (by simp) hv sl m
  refine ⟨fun sl hs k hk h0 => ?_, fun sl => Regs.rd_zero _ sl, fun sl m ho hh hn hmk => ?_, fun sl m ho hh hn hmk => ?_, fun sl m => ?_⟩
  · rw [hrd, rd_writeSlots _ val hdst' (hdst sl hs).1 ((hdst' sl hs).2 k hk), if_pos ⟨hs, by omega, by omega, h0⟩]
    congr 4; omega
  · rw [hrd, rd_writeSlots _ val hdst' ho (Regs.holds_congr (by simp) hh), if_neg (fun y => hn ⟨y.1, y.2.1, y.2.2.1⟩)]
    exact rd_unmarked hm ho hh hmk
  · rw [hrd, rd_writeSlots _ val hdst' ho (Regs.holds_congr (by simp) hh), if_neg (fun y => hn ⟨y.1, y.2.1, y.2.2.1⟩)]
    exact rd_whenMarked hm ho hh hmk
  · exact rdPred_congr (b := x.r) (by simp) (by simp) (by rfl) sl m

/-- A register instruction of one value a slot completes with it (R173). -/
theorem valueOp_gives {s : State} {i : Instr} {h : Hdr} {x : Ex} (hx : Issues s i h x) {d : Reg} {n : Nat}
    (hd : useSpan (uses i).d = (d.toNat, n))
    (hl : laneUse (uses i).d = true ∧ laneUse (uses i).a = true ∧ laneUse (uses i).b = true) (f : Regs → Slot → Nat) :
    ∃ t r', valueOp s i h d n f = .next t
      ∧ Retires s t x.cur ∧ regsOf t x.cur.blk x.cur.who = some r' ∧ Written s x i h d n (f x.r) r' := by
  simp only [valueOp, hx.2.1]
  exact retire_gives hx hd hl (f x.r)

/-! ### One predicate a slot -/

/-- Predicate p0 and k0 read true whatever was written (R162). -/
@[simp] theorem Regs.rdPred_zero (r : Regs) (sl : Slot) : r.rdPred sl 0 = true := by
  cases sl <;> simp [Regs.rdPred, Regs.rdP, Regs.rdK]

@[simp] theorem Regs.wrPred_zero (r : Regs) (sl : Slot) (b : Bool) : r.wrPred sl 0 b = r := by
  cases sl <;> simp [Regs.wrPred, Regs.wrP, Regs.wrK]

/-- A predicate read after a write of one (R162, R287). -/
theorem Regs.rdPred_wrPred (r : Regs) {sl sl' : Slot} {n m : Nat} (b : Bool) (hs : SlotOk sl) (hs' : SlotOk sl')
    (hm : m < 16) (hn : n < 16) :
    (r.wrPred sl' n b).rdPred sl m = if sl = sl' ∧ m = n ∧ n ≠ 0 then b else r.rdPred sl m := by
  by_cases hz : n = 0
  · subst hz; simp
  by_cases hmz : m = 0
  · subst hmz; rw [Regs.rdPred_zero, Regs.rdPred_zero, if_neg]; exact fun h => hz h.2.1.symm
  cases sl with
  | ctl =>
    cases sl' with
    | ctl =>
      simp only [Regs.rdPred, Regs.wrPred, Regs.rdK, Regs.wrK, hz, hmz, if_false, SMap.get?_set, true_and, ne_eq, not_false_eq_true, and_true]
      by_cases e : m = n <;> simp [e]
    | lane j l => simp [Regs.rdPred, Regs.wrPred, Regs.rdK, Regs.wrP, hz, hmz]
  | lane j l =>
    cases sl' with
    | ctl => simp [Regs.rdPred, Regs.wrPred, Regs.rdP, Regs.wrK, hz, hmz]
    | lane j' l' =>
      simp only [Regs.rdPred, Regs.wrPred, Regs.rdP, Regs.wrP, hz, hmz, if_false, SMap.get?_set]
      have hl : l < 64 := hs
      have hl' : l' < 64 := hs'
      by_cases e : (j * 16 + m) * 64 + l = (j' * 16 + n) * 64 + l'
      · have : j = j' ∧ l = l' ∧ m = n := by omega
        obtain ⟨rfl, rfl, rfl⟩ := this
        simp [hmz]
      · have hne : ¬(Slot.lane j l = Slot.lane j' l' ∧ m = n) := by
          rintro ⟨h1, rfl⟩; simp only [Slot.lane.injEq] at h1; obtain ⟨rfl, rfl⟩ := h1; exact e rfl
        rw [if_neg e, if_neg (fun h => hne ⟨h.1, h.2.1⟩)]

theorem Regs.wrPred_keeps (r : Regs) (sl : Slot) (n : Nat) (b : Bool) :
    (r.wrPred sl n b).v = r.v ∧ (r.wrPred sl n b).g = r.g ∧ (r.wrPred sl n b).span = r.span ∧ (r.wrPred sl n b).seed = r.seed := by
  cases sl <;> simp only [Regs.wrPred, Regs.wrP, Regs.wrK] <;> split <;> exact ⟨rfl, rfl, rfl, rfl⟩

theorem writePreds_cons (sl : Slot) (ss : List Slot) (d : Reg) (f : Slot → Bool) (r : Regs) :
    writePreds (sl :: ss) d f r = writePreds ss d f (r.wrPred sl d.toNat (f sl)) := rfl

theorem writePreds_keeps (ss : List Slot) (d : Reg) (f : Slot → Bool) (r : Regs) :
    (writePreds ss d f r).v = r.v ∧ (writePreds ss d f r).g = r.g ∧ (writePreds ss d f r).span = r.span
      ∧ (writePreds ss d f r).seed = r.seed := by
  induction ss generalizing r with
  | nil => exact ⟨rfl, rfl, rfl, rfl⟩
  | cons q ss ih =>
    have h := Regs.wrPred_keeps r q d.toNat (f q)
    have := ih (r.wrPred q d.toNat (f q))
    rw [writePreds_cons]
    exact ⟨this.1.trans h.1, this.2.1.trans h.2.1, this.2.2.1.trans h.2.2.1, this.2.2.2.trans h.2.2.2⟩

theorem rd_congr {a b : Regs} (hv : a.v = b.v) (hg : a.g = b.g) (hp : a.span = b.span) (hs : a.seed = b.seed) (sl : Slot) (n : Nat) :
    a.rd sl n = b.rd sl n := by
  cases sl <;> simp [Regs.rd, Regs.rdV, Regs.rdG, Regs.vkey, hv, hg, hp, hs]

theorem rdPred_writePreds (r : Regs) {ss : List Slot} {d : Reg} {m : Nat} {sl : Slot} (f : Slot → Bool)
    (hss : ∀ q ∈ ss, SlotOk q) (hs : SlotOk sl) (hm : m < 16) (hd : d.toNat < 16) :
    (writePreds ss d f r).rdPred sl m = if sl ∈ ss ∧ m = d.toNat ∧ d.toNat ≠ 0 then f sl else r.rdPred sl m := by
  induction ss generalizing r with
  | nil => simp [writePreds]
  | cons q ss ih =>
    rw [writePreds_cons, ih _ (fun p hp => hss p (by simp [hp])), Regs.rdPred_wrPred r _ hs (hss q (by simp)) hm hd]
    by_cases h : m = d.toNat ∧ d.toNat ≠ 0
    · by_cases e : sl ∈ ss
      · rw [if_pos ⟨e, h⟩, if_pos ⟨by simp [e], h⟩]
      · rw [if_neg (fun x => e x.1)]
        by_cases e' : sl = q
        · rw [if_pos ⟨e', h⟩, if_pos ⟨by simp [e'], h⟩, e']
        · rw [if_neg (fun x => e' x.1), if_neg (fun x => by simp [e, e'] at x)]
    · rw [if_neg (fun x => h x.2), if_neg (fun x => h x.2), if_neg (fun x => h x.2)]

/-- A predicate of the view after retirement. -/
theorem rdPred_retired {x : Ex} {r1 : Regs} (hseed : r1.seed = x.r.seed) (hw : x.cur.who = bmsWho → r1.p = x.r.p)
    (sl : Slot) (m : Nat) :
    Regs.rdPred { x.r with v := if x.cur.who = bmsWho then x.r.v else r1.v, g := r1.g
                           p := if x.cur.who = bmsWho then x.r.p else r1.p, k := r1.k } sl m = r1.rdPred sl m := by
  cases sl with
  | ctl => simp [Regs.rdPred, Regs.rdK, hseed]
  | lane j l =>
    have hp : (if x.cur.who = bmsWho then x.r.p else r1.p) = r1.p := by
      split
      · exact (hw (by assumption)).symm
      · rfl
    simp only [Regs.rdPred, Regs.rdP, hseed, hp]

theorem writePreds_ctl_p {ss : List Slot} (hs : ∀ q ∈ ss, q = .ctl) (d : Reg) (f : Slot → Bool) (r : Regs) :
    (writePreds ss d f r).p = r.p := by
  induction ss generalizing r with
  | nil => rfl
  | cons q ss ih =>
    rw [writePreds_cons, ih (fun p hp => hs p (by simp [hp])), hs q (by simp)]
    simp only [Regs.wrPred, Regs.wrK]; split <;> rfl

theorem issues_pred {s : State} {i : Instr} {h : Hdr} {x : Ex} (hx : Issues s i h x) {d : Reg}
    (hd : (uses i).d = some ⟨.pred, d, false⟩) : d.toNat < 16 := by
  have hwf := hx.2.2.1
  simp only [WellFormed, Bool.and_eq_true] at hwf
  have ho := hwf.2
  simp only [operandsOk, hx.1, hd, useOk?, useOk, Bool.and_eq_true, decide_eq_true_eq] at ho
  have h1 := ho.1.1.1.1.1.2
  split at h1 <;> omega

/-- A retiring instruction that writes one predicate a slot. -/
theorem retire_givesPred {s : State} {i : Instr} {h : Hdr} {x : Ex} (hx : Issues s i h x) {d : Reg}
    (hd : (uses i).d = some ⟨.pred, d, false⟩) (hl : laneUse (uses i).a = true ∧ laneUse (uses i).b = true) (val : Slot → Bool) :
    ∃ t r', Host.Outcome.next (retire s x i h (writePreds x.slots d val)) = (.next t : Host.Outcome State Fault Refusal)
      ∧ Retires s t x.cur ∧ regsOf t x.cur.blk x.cur.who = some r' ∧ WrittenPred s x i h d val r' := by
  refine ⟨_, _, rfl, retire_retires hx.2.1 i _, regsOf_retire hx.2.1 i _, ?_⟩
  have hm := issues_marks hx hl
  have hd16 := issues_pred hx hd
  have hok := slots_ok hx.2.1
  obtain ⟨kv, kg, ksp, ksd⟩ := writePreds_keeps x.slots d val (marked s x i h)
  have hc : x.cur.who = bmsWho → ∀ q ∈ x.slots, q = .ctl := by
    intro hw q hq
    have := slots_form hx.2.1 q hq
    simpa [bms_ctl hx hw] using this
  have hrd := fun sl m => rd_retired (x := x) (r1 := writePreds x.slots d val (marked s x i h)) (by rw [ksp]; simp)
    (by rw [ksd]; simp) (fun hw => by rw [kv, marked_ctl_v (hc hw)]) sl m
  have hrp := fun sl m => rdPred_retired (x := x) (r1 := writePreds x.slots d val (marked s x i h))
    (by rw [ksd]; simp) (fun hw => by rw [writePreds_ctl_p (hc hw)]; simp) sl m
  have hmark : ∀ sl m, (marked s x i h).rdPred sl m = x.r.rdPred sl m :=
    fun sl m => rdPred_congr (by simp) (by simp) (by simp) sl m
  refine ⟨fun sl hs h0 => ?_, fun sl => Regs.rdPred_zero _ sl, fun sl m ho h16 hn => ?_, fun sl m ho hh hmk => ?_, fun sl m ho hh hmk => ?_⟩
  · rw [hrp, rdPred_writePreds _ val hok (hok sl hs) hd16 hd16, if_pos ⟨hs, rfl, h0⟩]
  · rw [hrp, rdPred_writePreds _ val hok ho h16 hd16, if_neg (fun y => hn ⟨y.1, y.2.1⟩), hmark]
  · rw [hrd, rd_congr kv kg ksp ksd]; exact rd_unmarked hm ho hh hmk
  · rw [hrd, rd_congr kv kg ksp ksd]; exact rd_whenMarked hm ho hh hmk

/-- A register instruction of one predicate a slot completes with it (R173). -/
theorem predOp_gives {s : State} {i : Instr} {h : Hdr} {x : Ex} (hx : Issues s i h x) {d : Reg}
    (hd : (uses i).d = some ⟨.pred, d, false⟩) (hl : laneUse (uses i).a = true ∧ laneUse (uses i).b = true) (f : Regs → Slot → Bool) :
    ∃ t r', predOp s i h d f = .next t
      ∧ Retires s t x.cur ∧ regsOf t x.cur.blk x.cur.who = some r' ∧ WrittenPred s x i h d (f x.r) r' := by
  simp only [predOp, hx.2.1]
  exact retire_givesPred hx hd hl (f x.r)

/-! ### Any registers written -/

theorem issues_ctl {s : State} {i : Instr} {h : Hdr} {x : Ex} (hx : Issues s i h x) (hw : x.cur.who = bmsWho) :
    ∀ q ∈ x.slots, q = .ctl := by
  intro q hq
  have := slots_form hx.2.1 q hq
  simpa [bms_ctl hx hw] using this

/-- The registers of an issuer after it retires are those the instruction makes of the marked ones. -/
theorem retire_view {s : State} {i : Instr} {h : Hdr} {x : Ex} (hx : exOf s h = some x) (new : Regs → Regs)
    (hsp : (new (marked s x i h)).span = x.r.span) (hsd : (new (marked s x i h)).seed = x.r.seed)
    (hb : x.cur.who = bmsWho → (new (marked s x i h)).v = x.r.v ∧ (new (marked s x i h)).p = x.r.p) :
    ∃ t r', Host.Outcome.next (retire s x i h new) = (.next t : Host.Outcome State Fault Refusal)
      ∧ Retires s t x.cur ∧ regsOf t x.cur.blk x.cur.who = some r'
      ∧ (∀ sl m, r'.rd sl m = (new (marked s x i h)).rd sl m)
      ∧ ∀ sl m, r'.rdPred sl m = (new (marked s x i h)).rdPred sl m :=
  ⟨_, _, rfl, retire_retires hx i _, regsOf_retire hx i _, fun sl m => rd_retired hsp hsd (fun hw => (hb hw).1) sl m,
    fun sl m => rdPred_retired hsd (fun hw => (hb hw).2) sl m⟩

/-- The marks of an instruction leave a BMS context's vector file and predicates alone. -/
theorem marks_bms {s : State} {i : Instr} {h : Hdr} {x : Ex} (hx : Issues s i h x) (hw : x.cur.who = bmsWho) :
    (marked s x i h).v = x.r.v ∧ (marked s x i h).p = x.r.p :=
  ⟨marked_ctl_v (issues_ctl hx hw) i h, by simp⟩

/-! ### Registers written for good -/

/-- The registers of an issuer after a write that retires at once: a completion's, an engine's, a debugger's. -/
theorem regsOf_putFinal {s : State} {uid who : Nat} {r : Regs} (hr : regsOf s uid who = some r) (new : Regs → Regs) :
    regsOf (putFinal s uid who new) uid who
      = some { r with v := if who = bmsWho then r.v else (new r).v, g := (new r).g
                      p := if who = bmsWho then r.p else (new r).p, k := (new r).k } := by
  simp only [putFinal, hr]
  split
  · rename_i hw; rw [regsOf_putRegs s _ _ _ _ hr]; simp [hw]
  · rename_i hw; rw [regsOf_modGroup _ _ _ _ _ _ (by intros; rfl), regsOf_putRegs s _ _ _ _ hr]; simp [hw]

end Sys2Proof.Machine
end

