-- ==== Sys2Proof/Laws/PerInstr.lean ====
section
/-!
SUPPORT. One law of every instruction: those of the instruction stream, which have a header, have a word (01 R13), and the
events that the table lists beside them have none.
-/

namespace Sys2Proof.Laws

/-- An instruction has a word exactly when it has a header. -/
def HasWord.Statement (i : Instr) : Prop := (encode i).isSome = (hdrOf i).isSome

theorem HasWord.iadd (h : Hdr) (t : Ty) (sat : Bool) (d a : Reg) (b : Opnd) : HasWord.Statement (.iadd h t sat d a b) := rfl

theorem HasWord.isub (h : Hdr) (t : Ty) (sat : Bool) (d a : Reg) (b : Opnd) : HasWord.Statement (.isub h t sat d a b) := rfl

theorem HasWord.imul (h : Hdr) (t : Ty) (sat : Bool) (d a : Reg) (b : Opnd) : HasWord.Statement (.imul h t sat d a b) := rfl

theorem HasWord.imulh (h : Hdr) (t : Ty) (d a : Reg) (b : Opnd) : HasWord.Statement (.imulh h t d a b) := rfl

theorem HasWord.imad (h : Hdr) (t : Ty) (sat : Bool) (d a b : Reg) (c : Opnd) : HasWord.Statement (.imad h t sat d a b c) := rfl

theorem HasWord.idiv (h : Hdr) (t : Ty) (d a : Reg) (b : Opnd) : HasWord.Statement (.idiv h t d a b) := rfl

theorem HasWord.irem (h : Hdr) (t : Ty) (d a : Reg) (b : Opnd) : HasWord.Statement (.irem h t d a b) := rfl

theorem HasWord.imin (h : Hdr) (t : Ty) (d a : Reg) (b : Opnd) : HasWord.Statement (.imin h t d a b) := rfl

theorem HasWord.imax (h : Hdr) (t : Ty) (d a : Reg) (b : Opnd) : HasWord.Statement (.imax h t d a b) := rfl

theorem HasWord.iabs (h : Hdr) (t : Ty) (sat : Bool) (d a : Reg) : HasWord.Statement (.iabs h t sat d a) := rfl

theorem HasWord.and (h : Hdr) (t : Ty) (d a : Reg) (b : Opnd) : HasWord.Statement (.and h t d a b) := rfl

theorem HasWord.or (h : Hdr) (t : Ty) (d a : Reg) (b : Opnd) : HasWord.Statement (.or h t d a b) := rfl

theorem HasWord.xor (h : Hdr) (t : Ty) (d a : Reg) (b : Opnd) : HasWord.Statement (.xor h t d a b) := rfl

theorem HasWord.shl (h : Hdr) (t : Ty) (d a : Reg) (b : Opnd) : HasWord.Statement (.shl h t d a b) := rfl

theorem HasWord.shr (h : Hdr) (t : Ty) (d a : Reg) (b : Opnd) : HasWord.Statement (.shr h t d a b) := rfl

theorem HasWord.sar (h : Hdr) (t : Ty) (d a : Reg) (b : Opnd) : HasWord.Statement (.sar h t d a b) := rfl

theorem HasWord.bfx (h : Hdr) (t : Ty) (d a b : Reg) (c : Opnd) : HasWord.Statement (.bfx h t d a b c) := rfl

theorem HasWord.bfi (h : Hdr) (t : Ty) (d a b : Reg) (c : Opnd) : HasWord.Statement (.bfi h t d a b c) := rfl

theorem HasWord.popc (h : Hdr) (t : Ty) (d a : Reg) : HasWord.Statement (.popc h t d a) := rfl

theorem HasWord.clz (h : Hdr) (t : Ty) (d a : Reg) : HasWord.Statement (.clz h t d a) := rfl

theorem HasWord.brev (h : Hdr) (t : Ty) (d a : Reg) : HasWord.Statement (.brev h t d a) := rfl

theorem HasWord.lea (h : Hdr) (t : Ty) (sh : BitVec 3) (d a : Reg) (b : Opnd) : HasWord.Statement (.lea h t sh d a b) := rfl

theorem HasWord.mov (h : Hdr) (t : Ty) (d a : Reg) : HasWord.Statement (.mov h t d a) := rfl

theorem HasWord.movi (h : Hdr) (t : Ty) (d : Reg) (x : Word) : HasWord.Statement (.movi h t d x) := rfl

theorem HasWord.sel (h : Hdr) (t : Ty) (p : BitVec 4) (d a : Reg) (b : Opnd) : HasWord.Statement (.sel h t p d a b) := rfl

theorem HasWord.icmp (h : Hdr) (c : CmpI) (t : Ty) (d a : Reg) (b : Opnd) : HasWord.Statement (.icmp h c t d a b) := rfl

theorem HasWord.plop (h : Hdr) (tt : BitVec 4) (d a b : Reg) : HasWord.Statement (.plop h tt d a b) := rfl

theorem HasWord.pmov (h : Hdr) (dir : PmvDir) (r : Reg) : HasWord.Statement (.pmov h dir r) := by cases dir <;> rfl

theorem HasWord.shfl (h : Hdr) (m : ShflMode) (t : Ty) (d a : Reg) (b : Opnd) : HasWord.Statement (.shfl h m t d a b) := rfl

theorem HasWord.vote (h : Hdr) (m : VoteMode) (d a : Reg) : HasWord.Statement (.vote h m d a) := rfl

theorem HasWord.getl (h : Hdr) (t : Ty) (d a : Reg) (b : Opnd) : HasWord.Statement (.getl h t d a b) := rfl

theorem HasWord.setl (h : Hdr) (t : Ty) (d a : Reg) (b : Opnd) : HasWord.Statement (.setl h t d a b) := rfl

theorem HasWord.fadd (h : Hdr) (t : Ty) (rm : Rm) (sat : Bool) (d a : Reg) (b : Opnd) : HasWord.Statement (.fadd h t rm sat d a b) := rfl

theorem HasWord.fmul (h : Hdr) (t : Ty) (rm : Rm) (sat : Bool) (d a : Reg) (b : Opnd) : HasWord.Statement (.fmul h t rm sat d a b) := rfl

theorem HasWord.ffma (h : Hdr) (t : Ty) (rm : Rm) (sat : Bool) (d a b : Reg) (c : Opnd) : HasWord.Statement (.ffma h t rm sat d a b c) := rfl

theorem HasWord.fmin (h : Hdr) (t : Ty) (nan : Bool) (d a : Reg) (b : Opnd) : HasWord.Statement (.fmin h t nan d a b) := rfl

theorem HasWord.fmax (h : Hdr) (t : Ty) (nan : Bool) (d a : Reg) (b : Opnd) : HasWord.Statement (.fmax h t nan d a b) := rfl

theorem HasWord.fcmp (h : Hdr) (c : CmpF) (t : Ty) (d a : Reg) (b : Opnd) : HasWord.Statement (.fcmp h c t d a b) := rfl

theorem HasWord.fclass (h : Hdr) (t : Ty) (d a : Reg) : HasWord.Statement (.fclass h t d a) := rfl

theorem HasWord.frnd (h : Hdr) (t : Ty) (rm : Rm) (d a : Reg) : HasWord.Statement (.frnd h t rm d a) := rfl

theorem HasWord.fscl (h : Hdr) (t : Ty) (rm : Rm) (d a : Reg) (b : Opnd) : HasWord.Statement (.fscl h t rm d a b) := rfl

theorem HasWord.frcp (h : Hdr) (t : Ty) (d a : Reg) : HasWord.Statement (.frcp h t d a) := rfl

theorem HasWord.frsq (h : Hdr) (t : Ty) (d a : Reg) : HasWord.Statement (.frsq h t d a) := rfl

theorem HasWord.fsqrt (h : Hdr) (t : Ty) (rm : Rm) (d a : Reg) : HasWord.Statement (.fsqrt h t rm d a) := rfl

theorem HasWord.fdiv (h : Hdr) (t : Ty) (rm : Rm) (d a : Reg) (b : Opnd) : HasWord.Statement (.fdiv h t rm d a b) := rfl

theorem HasWord.fexp2 (h : Hdr) (t : Ty) (d a : Reg) : HasWord.Statement (.fexp2 h t d a) := rfl

theorem HasWord.flog2 (h : Hdr) (t : Ty) (d a : Reg) : HasWord.Statement (.flog2 h t d a) := rfl

theorem HasWord.fsin (h : Hdr) (t : Ty) (d a : Reg) : HasWord.Statement (.fsin h t d a) := rfl

theorem HasWord.fcos (h : Hdr) (t : Ty) (d a : Reg) : HasWord.Statement (.fcos h t d a) := rfl

theorem HasWord.fcvt (h : Hdr) (td ts : Ty) (rm : Rm) (sat : Bool) (d a : Reg) : HasWord.Statement (.fcvt h td ts rm sat d a) := rfl

theorem HasWord.ftoi (h : Hdr) (td ts : Ty) (rm : Rm) (sat : Bool) (d a : Reg) : HasWord.Statement (.ftoi h td ts rm sat d a) := rfl

theorem HasWord.itof (h : Hdr) (td ts : Ty) (rm : Rm) (d a : Reg) : HasWord.Statement (.itof h td ts rm d a) := rfl

theorem HasWord.acz (h : Hdr) (d : Reg) : HasWord.Statement (.acz h d) := rfl

theorem HasWord.acadd (h : Hdr) (t : Ty) (d a : Reg) : HasWord.Statement (.acadd h t d a) := rfl

theorem HasWord.acfma (h : Hdr) (t : Ty) (d a b : Reg) : HasWord.Statement (.acfma h t d a b) := rfl

theorem HasWord.acdot (h : Hdr) (t : Ty) (d a b : Reg) : HasWord.Statement (.acdot h t d a b) := rfl

theorem HasWord.acmrg (h : Hdr) (d a : Reg) : HasWord.Statement (.acmrg h d a) := rfl

theorem HasWord.acred (h : Hdr) (d a : Reg) : HasWord.Statement (.acred h d a) := rfl

theorem HasWord.acnorm (h : Hdr) (d a : Reg) : HasWord.Statement (.acnorm h d a) := rfl

theorem HasWord.acrnd (h : Hdr) (t : Ty) (rm : Rm) (sat mean : Bool) (d a : Reg) (scale : AcScale) (rep : Option Reg) : HasWord.Statement (.acrnd h t rm sat mean d a scale rep) := rfl

theorem HasWord.acscl (h : Hdr) (d a : Reg) (b : Opnd) : HasWord.Statement (.acscl h d a b) := rfl

theorem HasWord.acxt (h : Hdr) (d a : Reg) (b : Opnd) : HasWord.Statement (.acxt h d a b) := rfl

theorem HasWord.acins (h : Hdr) (d a : Reg) (b : Opnd) : HasWord.Statement (.acins h d a b) := rfl

theorem HasWord.actst (h : Hdr) (c : AcCond) (d a : Reg) : HasWord.Statement (.actst h c d a) := rfl

theorem HasWord.acld (h : Hdr) (sp : Space) (d a : Reg) (m : MemX) : HasWord.Statement (.acld h sp d a m) := rfl

theorem HasWord.acst (h : Hdr) (sp : Space) (canon : Bool) (d a : Reg) (m : MemX) : HasWord.Statement (.acst h sp canon d a m) := rfl

theorem HasWord.ld (h : Hdr) (sp : Space) (t : Ty) (acq : Bool) (al : Alloc) (d a : Reg) (m : MemX) : HasWord.Statement (.ld h sp t acq al d a m) := rfl

theorem HasWord.st (h : Hdr) (sp : Space) (t : Ty) (rel : Bool) (al : Alloc) (d a : Reg) (m : MemX) : HasWord.Statement (.st h sp t rel al d a m) := rfl

theorem HasWord.pref (h : Hdr) (mode : PrefMode) (a : Reg) (m : MemX) : HasWord.Statement (.pref h mode a m) := rfl

theorem HasWord.waitc (h : Hdr) (d : Reg) (b : Opnd) : HasWord.Statement (.waitc h d b) := rfl

theorem HasWord.fence (h : Hdr) (o : FenceOrd) (m : MemX) : HasWord.Statement (.fence h o m) := rfl

theorem HasWord.cpy (h : Hdr) (a : Reg) : HasWord.Statement (.cpy h a) := rfl

theorem HasWord.seal (h : Hdr) (d : Reg) : HasWord.Statement (.seal h d) := rfl

theorem HasWord.cbw (h : Hdr) (b : Opnd) : HasWord.Statement (.cbw h b) := rfl

theorem HasWord.dep (h : Hdr) (t : Ty) (a : Reg) (b : Opnd) : HasWord.Statement (.dep h t a b) := rfl

theorem HasWord.cadd (h : Hdr) (d : Reg) (b : Opnd) : HasWord.Statement (.cadd h d b) := rfl

theorem HasWord.disc (h : Hdr) (a b : Reg) (m : MemX) : HasWord.Statement (.disc h a b m) := rfl

theorem HasWord.mhint (h : Hdr) (tp : TierPlace) (a b : Reg) (m : MemX) : HasWord.Statement (.mhint h tp a b m) := rfl

theorem HasWord.lqry (h : Hdr) (d a : Reg) (m : MemX) : HasWord.Statement (.lqry h d a m) := rfl

theorem HasWord.region (h : Hdr) (idx : BitVec 12) : HasWord.Statement (.region h idx) := rfl

theorem HasWord.atom (h : Hdr) (op : AtomOp) (far : Bool) (t : Ty) (o : Ord) (d a : Reg) (m : MemX) : HasWord.Statement (.atom h op far t o d a m) := rfl

theorem HasWord.acas (h : Hdr) (far : Bool) (t : Ty) (o : Ord) (d a : Reg) (m : MemX) : HasWord.Statement (.acas h far t o d a m) := rfl

theorem HasWord.aadd (h : Hdr) (f : AForm) (rel : Bool) (d a : Reg) (m : MemX) : HasWord.Statement (.aadd h f rel d a m) := by cases f <;> rfl

theorem HasWord.afin (h : Hdr) (mean clr : Bool) (t : Ty) (rm : Rm) (acq : Bool) (d a : Reg) (m : MemX) : HasWord.Statement (.afin h mean clr t rm acq d a m) := rfl

theorem HasWord.bra (h : Hdr) (off : Word) : HasWord.Statement (.bra h off) := rfl

theorem HasWord.brx (h : Hdr) (a : Reg) : HasWord.Statement (.brx h a) := rfl

theorem HasWord.vbr (h : Hdr) (inv : Bool) (p : BitVec 4) (jofs : BitVec 18) (off : Word) : HasWord.Statement (.vbr h inv p jofs off) := rfl

theorem HasWord.join (h : Hdr) : HasWord.Statement (.join h) := rfl

theorem HasWord.loop (h : Hdr) (off : Word) : HasWord.Statement (.loop h off) := rfl

theorem HasWord.brk (h : Hdr) : HasWord.Statement (.brk h) := rfl

theorem HasWord.call (h : Hdr) (off : Word) : HasWord.Statement (.call h off) := rfl

theorem HasWord.callx (h : Hdr) (a : Reg) : HasWord.Statement (.callx h a) := rfl

theorem HasWord.ret (h : Hdr) : HasWord.Statement (.ret h) := rfl

theorem HasWord.throw (h : Hdr) (inv : Bool) (p : BitVec 4) : HasWord.Statement (.throw h inv p) := rfl

theorem HasWord.barArrive (h : Hdr) (coh : Bool) (nb : Reg) (cnt : Opnd) : HasWord.Statement (.barArrive h coh nb cnt) := rfl

theorem HasWord.barWait (h : Hdr) (coh : Bool) (nb : Reg) : HasWord.Statement (.barWait h coh nb) := rfl

theorem HasWord.barSync (h : Hdr) (coh : Bool) (nb : Reg) (cnt : Opnd) : HasWord.Statement (.barSync h coh nb cnt) := rfl

theorem HasWord.exit (h : Hdr) : HasWord.Statement (.exit h) := rfl

theorem HasWord.yield (h : Hdr) : HasWord.Statement (.yield h) := rfl

theorem HasWord.nop (h : Hdr) : HasWord.Statement (.nop h) := rfl

theorem HasWord.sleep (h : Hdr) (b : Opnd) : HasWord.Statement (.sleep h b) := rfl

theorem HasWord.suspend (h : Hdr) (a b : Reg) : HasWord.Statement (.suspend h a b) := rfl

theorem HasWord.signal (h : Hdr) (a b : Reg) : HasWord.Statement (.signal h a b) := rfl

theorem HasWord.spawn (h : Hdr) (a b : Reg) : HasWord.Statement (.spawn h a b) := rfl

theorem HasWord.launch (h : Hdr) (a b : Reg) : HasWord.Statement (.launch h a b) := rfl

theorem HasWord.swpt (h : Hdr) (id : BitVec 16) : HasWord.Statement (.swpt h id) := rfl

theorem HasWord.mz (h : Hdr) (d n : Reg) : HasWord.Statement (.mz h d n) := rfl

theorem HasWord.mma (h : Hdr) (sh : Shape) (d : Reg) (a b : MSrc) : HasWord.Statement (.mma h sh d a b) := rfl

theorem HasWord.mmas (h : Hdr) (sh : Shape) (nk : NK) (d sa : Reg) (b : MSrc) : HasWord.Statement (.mmas h sh nk d sa b) := rfl

theorem HasWord.mdrain (h : Hdr) (t : Ty) (rm : Rm) (sat : Bool) (x : DrainX) (d a : Reg) : HasWord.Statement (.mdrain h t rm sat x d a) := rfl

theorem HasWord.mspill (h : Hdr) (sh : Shape) (clr : Bool) (d a : Reg) : HasWord.Statement (.mspill h sh clr d a) := rfl

theorem HasWord.mfill (h : Hdr) (sh : Shape) (d a : Reg) : HasWord.Statement (.mfill h sh d a) := rfl

theorem HasWord.coll (h : Hdr) (op : CollOp) (x : CollX) (a : Reg) : HasWord.Statement (.coll h op x a) := rfl

theorem HasWord.abw (h : Hdr) (a : Reg) : HasWord.Statement (.abw h a) := rfl

theorem HasWord.crec (h : Hdr) (op : CollOp) (x : CollX) (a : Reg) : HasWord.Statement (.crec h op x a) := rfl

theorem HasWord.gets (h : Hdr) (sr : BitVec 8) (d : Reg) : HasWord.Statement (.gets h sr d) := rfl

theorem HasWord.sets (h : Hdr) (sr : BitVec 8) (a : Reg) : HasWord.Statement (.sets h sr a) := rfl

theorem HasWord.trap (h : Hdr) (code : BitVec 16) : HasWord.Statement (.trap h code) := rfl

theorem HasWord.rett (h : Hdr) (skip : Bool) : HasWord.Statement (.rett h skip) := rfl

theorem HasWord.bkpt (h : Hdr) : HasWord.Statement (.bkpt h) := rfl

theorem HasWord.ppt (h : Hdr) (n : BitVec 4) : HasWord.Statement (.ppt h n) := rfl

theorem HasWord.tmark (h : Hdr) (a : Opnd) : HasWord.Statement (.tmark h a) := by cases a <;> rfl

theorem HasWord.loadDataReturn (blk who op : Nat) : HasWord.Statement (.loadDataReturn blk who op) := rfl

theorem HasWord.storePerformed (blk who op : Nat) : HasWord.Statement (.storePerformed blk who op) := rfl

theorem HasWord.memoryFaultArrival (blk who op : Nat) : HasWord.Statement (.memoryFaultArrival blk who op) := rfl

theorem HasWord.copyComplete (blk who copy : Nat) : HasWord.Statement (.copyComplete blk who copy) := rfl

theorem HasWord.copyFailure (blk who copy : Nat) (timeout : Bool) : HasWord.Statement (.copyFailure blk who copy timeout) := rfl

theorem HasWord.depositApplied (dep : Nat) : HasWord.Statement (.depositApplied dep) := rfl

theorem HasWord.sleepExpiry (blk grp path : Nat) : HasWord.Statement (.sleepExpiry blk grp path) := rfl

theorem HasWord.matrixPassComplete (blk : Nat) : HasWord.Statement (.matrixPassComplete blk) := rfl

theorem HasWord.rds (src : Nat) (k : Key) : HasWord.Statement (.rds src k) := rfl

theorem HasWord.rdx (src : Nat) (k : Key) : HasWord.Statement (.rdx src k) := rfl

theorem HasWord.upg (src : Nat) (k : Key) : HasWord.Statement (.upg src k) := rfl

theorem HasWord.wb (src : Nat) (k : Key) : HasWord.Statement (.wb src k) := rfl

theorem HasWord.accA (src : Nat) (k : Key) : HasWord.Statement (.accA src k) := rfl

theorem HasWord.mrg (src : Nat) (k : Key) : HasWord.Statement (.mrg src k) := rfl

theorem HasWord.fwdS (dst : Nat) (k : Key) : HasWord.Statement (.fwdS dst k) := rfl

theorem HasWord.fwdInv (dst : Nat) (k : Key) : HasWord.Statement (.fwdInv dst k) := rfl

theorem HasWord.inv (dst : Nat) (k : Key) : HasWord.Statement (.inv dst k) := rfl

theorem HasWord.data (dst : Nat) (k : Key) : HasWord.Statement (.data dst k) := rfl

theorem HasWord.ack (dst : Nat) (k : Key) : HasWord.Statement (.ack dst k) := rfl

theorem HasWord.fwdData (src : Nat) (k : Key) : HasWord.Statement (.fwdData src k) := rfl

theorem HasWord.fwdMiss (src : Nat) (k : Key) : HasWord.Statement (.fwdMiss src k) := rfl

theorem HasWord.invAck (src : Nat) (k : Key) : HasWord.Statement (.invAck src k) := rfl

theorem HasWord.wbAck (dst : Nat) (k : Key) : HasWord.Statement (.wbAck dst k) := rfl

theorem HasWord.farOperation (k : Key) : HasWord.Statement (.farOperation k) := rfl

theorem HasWord.replayContribution (src : Nat) (k : Key) : HasWord.Statement (.replayContribution src k) := rfl

theorem HasWord.memRd (ofs : Nat) (m : HostMeta) : HasWord.Statement (.memRd ofs m) := rfl

theorem HasWord.memWr (ofs : Nat) (d : Line × Bool) : HasWord.Statement (.memWr ofs d) := rfl

theorem HasWord.biRsp (k : Key) (keepS : Bool) : HasWord.Statement (.biRsp k keepS) := rfl

theorem HasWord.snpInv (hpa : Nat) : HasWord.Statement (.snpInv hpa) := rfl

theorem HasWord.snpData (hpa : Nat) : HasWord.Statement (.snpData hpa) := rfl

theorem HasWord.snpCur (hpa : Nat) : HasWord.Statement (.snpCur hpa) := rfl

theorem HasWord.cxlCacheResponse (k : Key) (g : CxlGrant) (d : Line) (poison : Bool) : HasWord.Statement (.cxlCacheResponse k g d poison) := rfl

theorem HasWord.homeTimeout (k : Key) : HasWord.Statement (.homeTimeout k) := rfl

theorem HasWord.requestTimeout (cl : Nat) (k : Key) : HasWord.Statement (.requestTimeout cl k) := rfl

theorem HasWord.wcDrain (cl : Nat) : HasWord.Statement (.wcDrain cl) := rfl

theorem HasWord.throttleWindow (die core : Nat) : HasWord.Statement (.throttleWindow die core) := rfl

theorem HasWord.hotnessDecay (die : Nat) : HasWord.Statement (.hotnessDecay die) := rfl

theorem HasWord.speculativeAccess (blk who : Nat) (va : Nat) : HasWord.Statement (.speculativeAccess blk who va) := rfl

theorem HasWord.patrolScrub (pa : Nat) (o : EccOutcome) : HasWord.Statement (.patrolScrub pa o) := rfl

theorem HasWord.faqBufferDrain : HasWord.Statement (.faqBufferDrain) := rfl

theorem HasWord.faqCtl (v : Word) : HasWord.Statement (.faqCtl v) := rfl

theorem HasWord.registerWrite (r : MReg) (v : Dword) : HasWord.Statement (.registerWrite r v) := rfl

theorem HasWord.energyRefill (die core : Nat) : HasWord.Statement (.energyRefill die core) := rfl

theorem HasWord.powerAlarmRise : HasWord.Statement (.powerAlarmRise) := rfl

theorem HasWord.powerAlarmClear : HasWord.Statement (.powerAlarmClear) := rfl

theorem HasWord.thermalFreeze (stack : Nat) : HasWord.Statement (.thermalFreeze stack) := rfl

theorem HasWord.thermalResume : HasWord.Statement (.thermalResume) := rfl

theorem HasWord.freezeTimeout : HasWord.Statement (.freezeTimeout) := rfl

theorem HasWord.moveAccept (engine : Nat) : HasWord.Statement (.moveAccept engine) := rfl

theorem HasWord.lineCopyComplete (engine vpn asid : Nat) (o : EccOutcome) : HasWord.Statement (.lineCopyComplete engine vpn asid o) := rfl

theorem HasWord.destWriteError (engine vpn asid : Nat) : HasWord.Statement (.destWriteError engine vpn asid) := rfl

theorem HasWord.cursorTimeout (engine vpn asid : Nat) : HasWord.Statement (.cursorTimeout engine vpn asid) := rfl

theorem HasWord.migrationCommand : HasWord.Statement (.migrationCommand) := rfl

theorem HasWord.migrationRecordDrain (engine : Nat) : HasWord.Statement (.migrationRecordDrain engine) := rfl

theorem HasWord.map (c : MapCmd) : HasWord.Statement (.map c) := rfl

theorem HasWord.unmap (c : MapCmd) : HasWord.Statement (.unmap c) := rfl

theorem HasWord.protect (c : MapCmd) : HasWord.Statement (.protect c) := rfl

theorem HasWord.zero (c : MapCmd) : HasWord.Statement (.zero c) := rfl

theorem HasWord.badPageAdd (frame : Nat) : HasWord.Statement (.badPageAdd frame) := rfl

theorem HasWord.hotsnap (va : Nat) : HasWord.Statement (.hotsnap va) := rfl

theorem HasWord.tagPurge (task : Nat) : HasWord.Statement (.tagPurge task) := rfl

theorem HasWord.flitReceive (l : LinkId) (b c : List Byte) : HasWord.Statement (.flitReceive l b c) := rfl

theorem HasWord.ackFlit (l : LinkId) (ack : Nat) : HasWord.Statement (.ackFlit l ack) := rfl

theorem HasWord.moduleRetrainDone (l : LinkId) (ok : Bool) : HasWord.Statement (.moduleRetrainDone l ok) := rfl

theorem HasWord.ucieRetrain (l : LinkId) : HasWord.Statement (.ucieRetrain l) := rfl

theorem HasWord.podRequest (peer tag : Nat) (r : PodReq) : HasWord.Statement (.podRequest peer tag r) := rfl

theorem HasWord.podCompletion (id : Nat) (ok : Bool) (data : List Byte) : HasWord.Statement (.podCompletion id ok data) := rfl

theorem HasWord.podTimeout (id : Nat) : HasWord.Statement (.podTimeout id) := rfl

theorem HasWord.packedPartial (port slot : Nat) (p : List Byte × Bool) : HasWord.Statement (.packedPartial port slot p) := rfl

theorem HasWord.collMessage (blk : Nat) (m : CollMsg) : HasWord.Statement (.collMessage blk m) := rfl

theorem HasWord.stepDeadline (blk commid chunk : Nat) : HasWord.Statement (.stepDeadline blk commid chunk) := rfl

theorem HasWord.memberTimeout (blk commid : Nat) : HasWord.Statement (.memberTimeout blk commid) := rfl

theorem HasWord.collAbortReport (blk entry cause : Nat) : HasWord.Statement (.collAbortReport blk entry cause) := rfl

theorem HasWord.timeRecalibrate (rates : List (Dword × Dword)) : HasWord.Statement (.timeRecalibrate rates) := rfl

theorem HasWord.launchRecord (die q : Nat) : HasWord.Statement (.launchRecord die q) := rfl

theorem HasWord.blockStart (die launch : Nat) (place : Placement) (slot : Nat) : HasWord.Statement (.blockStart die launch place slot) := rfl

theorem HasWord.blockResume (die q : Nat) (place : Placement) : HasWord.Statement (.blockResume die q place) := rfl

theorem HasWord.taskRecord (die q : Nat) (place : Nat × Nat) (slot : Nat) : HasWord.Statement (.taskRecord die q place slot) := rfl

theorem HasWord.qtail (q : Nat) (v : Nat) : HasWord.Statement (.qtail q v) := rfl

theorem HasWord.workRequest (die core : Nat) : HasWord.Statement (.workRequest die core) := rfl

theorem HasWord.rejectBufferDrain : HasWord.Statement (.rejectBufferDrain) := rfl

theorem HasWord.yieldRequestTimeout (q launch : Nat) : HasWord.Statement (.yieldRequestTimeout q launch) := rfl

theorem HasWord.switchSuspend (cohort : Nat) : HasWord.Statement (.switchSuspend cohort) := rfl

theorem HasWord.preemptRequest (t : PreemptTarget) : HasWord.Statement (.preemptRequest t) := rfl

theorem HasWord.contextSave (cohort : Nat) (rows : List Nat) : HasWord.Statement (.contextSave cohort rows) := rfl

theorem HasWord.bmsResume (blk : Nat) : HasWord.Statement (.bmsResume blk) := rfl

theorem HasWord.blockEnd (blk : Nat) : HasWord.Statement (.blockEnd blk) := rfl

theorem HasWord.packageReset : HasWord.Statement (.packageReset) := rfl

theorem HasWord.hostLinkRetry (ok : Bool) : HasWord.Statement (.hostLinkRetry ok) := rfl

theorem HasWord.dieResetGraceful (die : Nat) (cores uncore : Bool) : HasWord.Statement (.dieResetGraceful die cores uncore) := rfl

theorem HasWord.dieResetCoreAbrupt (die : Nat) : HasWord.Statement (.dieResetCoreAbrupt die) := rfl

theorem HasWord.dieResetUncoreAbrupt (die : Nat) : HasWord.Statement (.dieResetUncoreAbrupt die) := rfl

theorem HasWord.uncoreReturn (die : Nat) : HasWord.Statement (.uncoreReturn die) := rfl

theorem HasWord.watchdogExpiry : HasWord.Statement (.watchdogExpiry) := rfl

theorem HasWord.uncorrectableStateError (die : Nat) (w : OnChip) : HasWord.Statement (.uncorrectableStateError die w) := rfl

theorem HasWord.mailboxStatus : HasWord.Statement (.mailboxStatus) := rfl

theorem HasWord.firmwareUpdate (img : Firmware) : HasWord.Statement (.firmwareUpdate img) := rfl

theorem HasWord.attestRequest (nonce : BitVec 256) : HasWord.Statement (.attestRequest nonce) := rfl

theorem HasWord.attach (launch : Nat) (mode : Bool) : HasWord.Statement (.attach launch mode) := rfl

theorem HasWord.detach (launch : Nat) : HasWord.Statement (.detach launch) := rfl

theorem HasWord.hold (gid idx : Nat) : HasWord.Statement (.hold gid idx) := rfl

theorem HasWord.release (gid idx : Nat) : HasWord.Statement (.release gid idx) := rfl

theorem HasWord.step (gid idx : Nat) : HasWord.Statement (.step gid idx) := rfl

theorem HasWord.split (gid idx set : Nat) (m : LaneMask) : HasWord.Statement (.split gid idx set m) := rfl

theorem HasWord.bpset (launch slot : Nat) (pc : Nat) : HasWord.Statement (.bpset launch slot pc) := rfl

theorem HasWord.bpclr (launch slot : Nat) : HasWord.Statement (.bpclr launch slot) := rfl

theorem HasWord.rdstate (gid : Nat) (it : DbgItem) : HasWord.Statement (.rdstate gid it) := rfl

theorem HasWord.wrstate (gid : Nat) (it : DbgItem) (v : Dword) : HasWord.Statement (.wrstate gid it v) := rfl

theorem HasWord.pcSample (die core : Nat) : HasWord.Statement (.pcSample die core) := rfl

theorem HasWord.ytrCtl (die core : Nat) (v : Word) : HasWord.Statement (.ytrCtl die core v) := rfl

theorem HasWord.record (launch : Nat) (clkt rplBase rplSize : Nat) (mode : Nat) : HasWord.Statement (.record launch clkt rplBase rplSize mode) := rfl

theorem HasWord.replayWaitEnd (blk who : Nat) : HasWord.Statement (.replayWaitEnd blk who) := rfl

theorem HasWord.ppcntRead (launch : Nat) : HasWord.Statement (.ppcntRead launch) := rfl

theorem HasWord.cxExchange : HasWord.Statement (.cxExchange) := rfl

theorem HasWord.coreResetEnd (die : Nat) : HasWord.Statement (.coreResetEnd die) := rfl

end Sys2Proof.Laws
end

