-- ==== Sys2Proof/Laws/Updates.lean ====
section
/-!
SUPPORT. What the shared updates of memory, caches, homes, rings, links and engines leave as it was, one lemma a field.
-/

namespace Sys2Proof.Machine

@[simp] theorem reply_work (s : State) (r : Reply) : (reply s r).work = s.work := rfl
@[simp] theorem reply_mem (s : State) (r : Reply) : (reply s r).mem = s.mem := rfl
@[simp] theorem reply_coh (s : State) (r : Reply) : (reply s r).coh = s.coh := rfl
@[simp] theorem reply_motion (s : State) (r : Reply) : (reply s r).motion = s.motion := rfl
@[simp] theorem reply_mgmt (s : State) (r : Reply) : (reply s r).mgmt = s.mgmt := rfl
@[simp] theorem reply_links (s : State) (r : Reply) : (reply s r).links = s.links := rfl
@[simp] theorem reply_trace (s : State) (r : Reply) : (reply s r).trace = s.trace := rfl
@[simp] theorem reply_cores (s : State) (r : Reply) : (reply s r).cores = s.cores := rfl
@[simp] theorem reply_power (s : State) (r : Reply) : (reply s r).power = s.power := rfl
@[simp] theorem reply_boot (s : State) (r : Reply) : (reply s r).boot = s.boot := rfl

@[simp] theorem sendAll_sched (s : State) (ms : List Msg) : (sendAll s ms).sched = s.sched := rfl
@[simp] theorem sendAll_work (s : State) (ms : List Msg) : (sendAll s ms).work = s.work := rfl
@[simp] theorem sendAll_mem (s : State) (ms : List Msg) : (sendAll s ms).mem = s.mem := rfl
@[simp] theorem sendAll_motion (s : State) (ms : List Msg) : (sendAll s ms).motion = s.motion := rfl
@[simp] theorem sendAll_mgmt (s : State) (ms : List Msg) : (sendAll s ms).mgmt = s.mgmt := rfl
@[simp] theorem sendAll_links (s : State) (ms : List Msg) : (sendAll s ms).links = s.links := rfl
@[simp] theorem sendAll_trace (s : State) (ms : List Msg) : (sendAll s ms).trace = s.trace := rfl
@[simp] theorem sendAll_cores (s : State) (ms : List Msg) : (sendAll s ms).cores = s.cores := rfl
@[simp] theorem sendAll_power (s : State) (ms : List Msg) : (sendAll s ms).power = s.power := rfl
@[simp] theorem sendAll_boot (s : State) (ms : List Msg) : (sendAll s ms).boot = s.boot := rfl

@[simp] theorem setDir_sched (s : State) (e : DEntry) : (setDir s e).sched = s.sched := rfl
@[simp] theorem setDir_work (s : State) (e : DEntry) : (setDir s e).work = s.work := rfl
@[simp] theorem setDir_mem (s : State) (e : DEntry) : (setDir s e).mem = s.mem := rfl
@[simp] theorem setDir_motion (s : State) (e : DEntry) : (setDir s e).motion = s.motion := rfl
@[simp] theorem setDir_mgmt (s : State) (e : DEntry) : (setDir s e).mgmt = s.mgmt := rfl
@[simp] theorem setDir_links (s : State) (e : DEntry) : (setDir s e).links = s.links := rfl
@[simp] theorem setDir_trace (s : State) (e : DEntry) : (setDir s e).trace = s.trace := rfl
@[simp] theorem setDir_cores (s : State) (e : DEntry) : (setDir s e).cores = s.cores := rfl
@[simp] theorem setDir_power (s : State) (e : DEntry) : (setDir s e).power = s.power := rfl
@[simp] theorem setDir_boot (s : State) (e : DEntry) : (setDir s e).boot = s.boot := rfl

@[simp] theorem setLine_sched (s : State) (c : CLine) : (setLine s c).sched = s.sched := rfl
@[simp] theorem setLine_work (s : State) (c : CLine) : (setLine s c).work = s.work := rfl
@[simp] theorem setLine_mem (s : State) (c : CLine) : (setLine s c).mem = s.mem := rfl
@[simp] theorem setLine_motion (s : State) (c : CLine) : (setLine s c).motion = s.motion := rfl
@[simp] theorem setLine_mgmt (s : State) (c : CLine) : (setLine s c).mgmt = s.mgmt := rfl
@[simp] theorem setLine_links (s : State) (c : CLine) : (setLine s c).links = s.links := rfl
@[simp] theorem setLine_trace (s : State) (c : CLine) : (setLine s c).trace = s.trace := rfl
@[simp] theorem setLine_cores (s : State) (c : CLine) : (setLine s c).cores = s.cores := rfl
@[simp] theorem setLine_power (s : State) (c : CLine) : (setLine s c).power = s.power := rfl
@[simp] theorem setLine_boot (s : State) (c : CLine) : (setLine s c).boot = s.boot := rfl

@[simp] theorem dropLine_sched (s : State) (cl : Nat) (k : Key) : (dropLine s cl k).sched = s.sched := rfl
@[simp] theorem dropLine_work (s : State) (cl : Nat) (k : Key) : (dropLine s cl k).work = s.work := rfl
@[simp] theorem dropLine_mem (s : State) (cl : Nat) (k : Key) : (dropLine s cl k).mem = s.mem := rfl
@[simp] theorem dropLine_motion (s : State) (cl : Nat) (k : Key) : (dropLine s cl k).motion = s.motion := rfl
@[simp] theorem dropLine_mgmt (s : State) (cl : Nat) (k : Key) : (dropLine s cl k).mgmt = s.mgmt := rfl
@[simp] theorem dropLine_links (s : State) (cl : Nat) (k : Key) : (dropLine s cl k).links = s.links := rfl
@[simp] theorem dropLine_trace (s : State) (cl : Nat) (k : Key) : (dropLine s cl k).trace = s.trace := rfl
@[simp] theorem dropLine_cores (s : State) (cl : Nat) (k : Key) : (dropLine s cl k).cores = s.cores := rfl
@[simp] theorem dropLine_power (s : State) (cl : Nat) (k : Key) : (dropLine s cl k).power = s.power := rfl
@[simp] theorem dropLine_boot (s : State) (cl : Nat) (k : Key) : (dropLine s cl k).boot = s.boot := rfl

@[simp] theorem modHost_sched (s : State) (hpa : Nat) (f : HostLine → HostLine) : (modHost s hpa f).sched = s.sched := rfl
@[simp] theorem modHost_work (s : State) (hpa : Nat) (f : HostLine → HostLine) : (modHost s hpa f).work = s.work := rfl
@[simp] theorem modHost_mem (s : State) (hpa : Nat) (f : HostLine → HostLine) : (modHost s hpa f).mem = s.mem := rfl
@[simp] theorem modHost_motion (s : State) (hpa : Nat) (f : HostLine → HostLine) : (modHost s hpa f).motion = s.motion := rfl
@[simp] theorem modHost_mgmt (s : State) (hpa : Nat) (f : HostLine → HostLine) : (modHost s hpa f).mgmt = s.mgmt := rfl
@[simp] theorem modHost_links (s : State) (hpa : Nat) (f : HostLine → HostLine) : (modHost s hpa f).links = s.links := rfl
@[simp] theorem modHost_trace (s : State) (hpa : Nat) (f : HostLine → HostLine) : (modHost s hpa f).trace = s.trace := rfl
@[simp] theorem modHost_cores (s : State) (hpa : Nat) (f : HostLine → HostLine) : (modHost s hpa f).cores = s.cores := rfl
@[simp] theorem modHost_power (s : State) (hpa : Nat) (f : HostLine → HostLine) : (modHost s hpa f).power = s.power := rfl
@[simp] theorem modHost_boot (s : State) (hpa : Nat) (f : HostLine → HostLine) : (modHost s hpa f).boot = s.boot := rfl

@[simp] theorem winDrop_sched (s : State) (k : Key) : (winDrop s k).sched = s.sched := rfl
@[simp] theorem winDrop_work (s : State) (k : Key) : (winDrop s k).work = s.work := rfl
@[simp] theorem winDrop_mem (s : State) (k : Key) : (winDrop s k).mem = s.mem := rfl
@[simp] theorem winDrop_motion (s : State) (k : Key) : (winDrop s k).motion = s.motion := rfl
@[simp] theorem winDrop_mgmt (s : State) (k : Key) : (winDrop s k).mgmt = s.mgmt := rfl
@[simp] theorem winDrop_links (s : State) (k : Key) : (winDrop s k).links = s.links := rfl
@[simp] theorem winDrop_trace (s : State) (k : Key) : (winDrop s k).trace = s.trace := rfl
@[simp] theorem winDrop_cores (s : State) (k : Key) : (winDrop s k).cores = s.cores := rfl
@[simp] theorem winDrop_power (s : State) (k : Key) : (winDrop s k).power = s.power := rfl
@[simp] theorem winDrop_boot (s : State) (k : Key) : (winDrop s k).boot = s.boot := rfl

@[simp] theorem loseData_sched (s : State) (k : Key) : (loseData s k).sched = s.sched := rfl
@[simp] theorem loseData_work (s : State) (k : Key) : (loseData s k).work = s.work := rfl
@[simp] theorem loseData_mem (s : State) (k : Key) : (loseData s k).mem = s.mem := rfl
@[simp] theorem loseData_motion (s : State) (k : Key) : (loseData s k).motion = s.motion := rfl
@[simp] theorem loseData_mgmt (s : State) (k : Key) : (loseData s k).mgmt = s.mgmt := rfl
@[simp] theorem loseData_links (s : State) (k : Key) : (loseData s k).links = s.links := rfl
@[simp] theorem loseData_trace (s : State) (k : Key) : (loseData s k).trace = s.trace := rfl
@[simp] theorem loseData_cores (s : State) (k : Key) : (loseData s k).cores = s.cores := rfl
@[simp] theorem loseData_power (s : State) (k : Key) : (loseData s k).power = s.power := rfl
@[simp] theorem loseData_boot (s : State) (k : Key) : (loseData s k).boot = s.boot := rfl

@[simp] theorem markDead_sched (s : State) (frame : Nat) : (markDead s frame).sched = s.sched := rfl
@[simp] theorem markDead_work (s : State) (frame : Nat) : (markDead s frame).work = s.work := rfl
@[simp] theorem markDead_coh (s : State) (frame : Nat) : (markDead s frame).coh = s.coh := rfl
@[simp] theorem markDead_motion (s : State) (frame : Nat) : (markDead s frame).motion = s.motion := rfl
@[simp] theorem markDead_mgmt (s : State) (frame : Nat) : (markDead s frame).mgmt = s.mgmt := rfl
@[simp] theorem markDead_links (s : State) (frame : Nat) : (markDead s frame).links = s.links := rfl
@[simp] theorem markDead_trace (s : State) (frame : Nat) : (markDead s frame).trace = s.trace := rfl
@[simp] theorem markDead_cores (s : State) (frame : Nat) : (markDead s frame).cores = s.cores := rfl
@[simp] theorem markDead_power (s : State) (frame : Nat) : (markDead s frame).power = s.power := rfl
@[simp] theorem markDead_boot (s : State) (frame : Nat) : (markDead s frame).boot = s.boot := rfl

@[simp] theorem putEntry_sched (s : State) (a e : Nat) : (putEntry s a e).sched = s.sched := rfl
@[simp] theorem putEntry_work (s : State) (a e : Nat) : (putEntry s a e).work = s.work := rfl
@[simp] theorem putEntry_coh (s : State) (a e : Nat) : (putEntry s a e).coh = s.coh := rfl
@[simp] theorem putEntry_motion (s : State) (a e : Nat) : (putEntry s a e).motion = s.motion := rfl
@[simp] theorem putEntry_mgmt (s : State) (a e : Nat) : (putEntry s a e).mgmt = s.mgmt := rfl
@[simp] theorem putEntry_links (s : State) (a e : Nat) : (putEntry s a e).links = s.links := rfl
@[simp] theorem putEntry_trace (s : State) (a e : Nat) : (putEntry s a e).trace = s.trace := rfl
@[simp] theorem putEntry_cores (s : State) (a e : Nat) : (putEntry s a e).cores = s.cores := rfl
@[simp] theorem putEntry_power (s : State) (a e : Nat) : (putEntry s a e).power = s.power := rfl
@[simp] theorem putEntry_boot (s : State) (a e : Nat) : (putEntry s a e).boot = s.boot := rfl

@[simp] theorem faqPush_sched (s : State) (kind count pa : Nat) : (faqPush s kind count pa).sched = s.sched := rfl
@[simp] theorem faqPush_work (s : State) (kind count pa : Nat) : (faqPush s kind count pa).work = s.work := rfl
@[simp] theorem faqPush_mem (s : State) (kind count pa : Nat) : (faqPush s kind count pa).mem = s.mem := rfl
@[simp] theorem faqPush_coh (s : State) (kind count pa : Nat) : (faqPush s kind count pa).coh = s.coh := rfl
@[simp] theorem faqPush_motion (s : State) (kind count pa : Nat) : (faqPush s kind count pa).motion = s.motion := rfl
@[simp] theorem faqPush_links (s : State) (kind count pa : Nat) : (faqPush s kind count pa).links = s.links := rfl
@[simp] theorem faqPush_trace (s : State) (kind count pa : Nat) : (faqPush s kind count pa).trace = s.trace := rfl
@[simp] theorem faqPush_cores (s : State) (kind count pa : Nat) : (faqPush s kind count pa).cores = s.cores := rfl
@[simp] theorem faqPush_power (s : State) (kind count pa : Nat) : (faqPush s kind count pa).power = s.power := rfl
@[simp] theorem faqPush_boot (s : State) (kind count pa : Nat) : (faqPush s kind count pa).boot = s.boot := rfl

@[simp] theorem setRing_sched (s : State) (i : RingId) (r : Ring) : (setRing s i r).sched = s.sched := by cases i <;> rfl
@[simp] theorem setRing_work (s : State) (i : RingId) (r : Ring) : (setRing s i r).work = s.work := by cases i <;> rfl
@[simp] theorem setRing_mem (s : State) (i : RingId) (r : Ring) : (setRing s i r).mem = s.mem := by cases i <;> rfl
@[simp] theorem setRing_coh (s : State) (i : RingId) (r : Ring) : (setRing s i r).coh = s.coh := by cases i <;> rfl
@[simp] theorem setRing_motion (s : State) (i : RingId) (r : Ring) : (setRing s i r).motion = s.motion := by cases i <;> rfl
@[simp] theorem setRing_links (s : State) (i : RingId) (r : Ring) : (setRing s i r).links = s.links := by cases i <;> rfl
@[simp] theorem setRing_trace (s : State) (i : RingId) (r : Ring) : (setRing s i r).trace = s.trace := by cases i <;> rfl
@[simp] theorem setRing_cores (s : State) (i : RingId) (r : Ring) : (setRing s i r).cores = s.cores := by cases i <;> rfl
@[simp] theorem setRing_power (s : State) (i : RingId) (r : Ring) : (setRing s i r).power = s.power := by cases i <;> rfl
@[simp] theorem setRing_boot (s : State) (i : RingId) (r : Ring) : (setRing s i r).boot = s.boot := by cases i <;> rfl

@[simp] theorem setModule_sched (s : State) (m : Module) : (setModule s m).sched = s.sched := rfl
@[simp] theorem setModule_work (s : State) (m : Module) : (setModule s m).work = s.work := rfl
@[simp] theorem setModule_mem (s : State) (m : Module) : (setModule s m).mem = s.mem := rfl
@[simp] theorem setModule_coh (s : State) (m : Module) : (setModule s m).coh = s.coh := rfl
@[simp] theorem setModule_motion (s : State) (m : Module) : (setModule s m).motion = s.motion := rfl
@[simp] theorem setModule_mgmt (s : State) (m : Module) : (setModule s m).mgmt = s.mgmt := rfl
@[simp] theorem setModule_trace (s : State) (m : Module) : (setModule s m).trace = s.trace := rfl
@[simp] theorem setModule_cores (s : State) (m : Module) : (setModule s m).cores = s.cores := rfl
@[simp] theorem setModule_power (s : State) (m : Module) : (setModule s m).power = s.power := rfl
@[simp] theorem setModule_boot (s : State) (m : Module) : (setModule s m).boot = s.boot := rfl

@[simp] theorem modMove_sched (s : State) (m : Move) (f : Move → Move) : (modMove s m f).sched = s.sched := rfl
@[simp] theorem modMove_work (s : State) (m : Move) (f : Move → Move) : (modMove s m f).work = s.work := rfl
@[simp] theorem modMove_mem (s : State) (m : Move) (f : Move → Move) : (modMove s m f).mem = s.mem := rfl
@[simp] theorem modMove_coh (s : State) (m : Move) (f : Move → Move) : (modMove s m f).coh = s.coh := rfl
@[simp] theorem modMove_mgmt (s : State) (m : Move) (f : Move → Move) : (modMove s m f).mgmt = s.mgmt := rfl
@[simp] theorem modMove_links (s : State) (m : Move) (f : Move → Move) : (modMove s m f).links = s.links := rfl
@[simp] theorem modMove_trace (s : State) (m : Move) (f : Move → Move) : (modMove s m f).trace = s.trace := rfl
@[simp] theorem modMove_cores (s : State) (m : Move) (f : Move → Move) : (modMove s m f).cores = s.cores := rfl
@[simp] theorem modMove_power (s : State) (m : Move) (f : Move → Move) : (modMove s m f).power = s.power := rfl
@[simp] theorem modMove_boot (s : State) (m : Move) (f : Move → Move) : (modMove s m f).boot = s.boot := rfl

@[simp] theorem asked_mem (s t : State) : (asked s t).mem = t.mem := rfl
@[simp] theorem asked_coh (s t : State) : (asked s t).coh = t.coh := rfl
@[simp] theorem asked_cores (s t : State) : (asked s t).cores = t.cores := rfl
@[simp] theorem asked_mgmt (s t : State) : (asked s t).mgmt = t.mgmt := rfl
@[simp] theorem asked_motion (s t : State) : (asked s t).motion = t.motion := rfl
@[simp] theorem asked_work (s t : State) : (asked s t).work = s.work := rfl
@[simp] theorem asked_trace (s t : State) : (asked s t).trace = s.trace := rfl
@[simp] theorem asked_power (s t : State) : (asked s t).power = s.power := rfl
@[simp] theorem asked_boot (s t : State) : (asked s t).boot = s.boot := rfl

/-- What waits keeps what it has asked for, and no more. -/
theorem asked_self (s : State) : asked s s = s := rfl

/-- Messages sent to a party are sent. -/
theorem sendTo_net (s : State) (dst : Nat) (k : Key) (b : Body) : (sendTo s dst k b).coh.net = s.coh.net ++ [⟨homeParty, dst, k, b⟩] := rfl

/-- A line of a cluster after it is stored. -/
theorem setLine_lines (s : State) (c : CLine) :
    (setLine s c).coh.lines = (s.coh.lines.filter fun d => !(d.cl == c.cl && d.key == c.key)) ++ [c] := rfl

/-- A module's direction after it is stored (R260). -/
theorem moduleOf_setModule (s : State) (m : Module) (l : LinkId) : moduleOf (setModule s m) l = if l = m.id then m else moduleOf s l := by
  simp only [moduleOf, setModule, List.find?_append]
  by_cases h : l = m.id
  · subst h
    rw [if_pos rfl]
    have : (s.links.mods.filter fun n => n.id != m.id).find? (fun n => n.id == m.id) = none := by
      simp [List.find?_eq_none]
    simp [this]
  · rw [if_neg h]
    have h1 : [m].find? (fun n => n.id == l) = none := by simp [Ne.symm h]
    have h2 : (s.links.mods.filter fun n => n.id != m.id).find? (fun n => n.id == l) = s.links.mods.find? fun n => n.id == l := by
      rw [List.find?_filter]
      congr 1
      funext n
      by_cases e : n.id = l
      · subst e; simp [h]
      · simp [e]
    rw [h1, h2]
    simp

end Sys2Proof.Machine
end

