-- ==== Sys2Proof/Tests/Slice0.lean ====
section
/-!
SUPPORT. Tests: ill-formed terms that WellFormed refuses, words written out from the manual's encodings, the manual's
worked values, and for every statement of Certificates/Slice0/Obligations.lean a state that meets its hypotheses.
-/

open Sys2Proof Sys2Proof.Machine Sys2Proof.Safety

namespace Sys2Proof.Tests

set_option Elab.async false

/-! ### Small states -/

/-- A lane header and a control header without guard, class or hints. -/
def lane : Hdr := ⟨false, false, 0, 0, 0, ⟨false, false, false, false⟩⟩
def ctl : Hdr := { lane with g := true }

/-- A memory extension without counter, over the package, all storage classes. -/
def mx : MemX := ⟨15, .pkg, ⟨true, true, true, true⟩, 0⟩

def oneV : Variant := ⟨512, 1, 1, 2048, 8, 0, 0⟩

/-- One block of one group of two lanes, with eight tiles and a sequencer context, alone on core 0 of N0. -/
def oneBlock : Block :=
  { freshBlock 0 0 0 0 0 0 0 [(0, 2048)] 0 oneV 0 2 0 0 1024 [0] 0 0 with bms := some (freshBms 1024 0 0 0) }

/-- The package with that block; the path of its group at PC 0 is the issuer. -/
def one : State :=
  { State.reset with
    sched := { State.reset.sched with cur := some ⟨0, 0, 0, 0, 0⟩ }
    work := { State.reset.work with
      blocks := [oneBlock]
      cohorts := [⟨0, 0, 0, 0, 1, List.replicate 16 ⟨1, 0, 0, []⟩, false, none, false, [⟨0, 0, 0, 0, 2048⟩]⟩]
      launches := [placedLaunch 0 oneV], nextUid := 1 } }

/-- The same with the sequencer as issuer. -/
def oneBms : State := { one with sched := { one.sched with cur := some ⟨0, 16, 0, 0, 0⟩ } }

/-- The group, the path, the launch and the context of `one` changed. -/
def withG (s : State) (f : Group → Group) : State := modGroup s 0 0 f
def withP (s : State) (f : Path → Path) : State := modPath s 0 0 0 f
def withL (s : State) (f : Launch → Launch) : State := modLaunch s 0 f
def withC (s : State) (who : Nat) (f : Ctx → Ctx) : State := modCtx s 0 who f
def withB (s : State) (f : Block → Block) : State := modBlock s 0 f
def withM (s : State) (f : Bms → Bms) : State := modBms s 0 f

/-- Group registers of the group or the sequencer set. -/
def withR (s : State) (who : Nat) (ws : List (Nat × Word)) : State :=
  withC s who fun c => { c with gregs := ws.foldl (fun m w => m.set w.1 (some w.2)) c.gregs }

/-- Vector registers of both lanes set. -/
def withV (s : State) (ws : List (Nat × Word)) : State :=
  withG s fun g => { g with vregs := ws.foldl (fun m w => (m.set (64 * w.1) (some w.2)).set (64 * w.1 + 1) (some w.2)) g.vregs }

/-! ### Hypotheses as tests -/

/-- Whether an instruction issues in a state, and a test of its executor holds. -/
def issuesB (s : State) (i : Instr) (h : Hdr) (p : Ex → Bool) : Bool :=
  hdrOf i == some h && match exOf s h with
    | some x => WellFormed (streamOf x.cur.who) i && (x.cur.who == bmsWho || budgetOk x.r.span i) && p x
    | none => false

theorem issues_of {s : State} {i : Instr} {h : Hdr} {p : Ex → Bool} (hb : issuesB s i h p = true) : ∃ x, Issues s i h x ∧ p x = true := by
  simp only [issuesB, Bool.and_eq_true, beq_iff_eq] at hb
  obtain ⟨h1, h2⟩ := hb
  split at h2
  · rename_i x hx
    simp only [Bool.and_eq_true, Bool.or_eq_true, beq_iff_eq] at h2
    exact ⟨x, ⟨h1, hx, h2.1.1, h2.1.2⟩, h2.2⟩
  · cases h2

/-- Instructions that issue in a state with some slot executing. -/
theorem all_issue {s : State} {h : Hdr} {l : List Instr} (hb : (l.all fun i => issuesB s i h fun x => !x.slots.isEmpty) = true) :
    ∀ i ∈ l, ∃ x, Issues s i h x ∧ x.slots ≠ [] := by
  intro i hi
  obtain ⟨x, hx, hs⟩ := issues_of (List.all_eq_true.mp hb i hi)
  exact ⟨x, hx, by intro h0; rw [h0] at hs; cases hs⟩

/-- A test of the issuer's group and path besides. -/
def onB (s : State) (i : Instr) (h : Hdr) (p : Ex → Group → Path → Bool) : Bool :=
  issuesB s i h fun x => x.cur.who != bmsWho && !x.slots.isEmpty
    && (match blockOf s x.cur.blk with | some b => !traced s b | none => true)
    && match groupOf s x.cur.blk x.cur.who with
      | some g => (match g.paths[x.cur.path]? with
        | some q => q.st == .ready && q.pc == x.cur.pc && p x g q
        | none => false)
      | none => false

theorem on_of {s : State} {i : Instr} {h : Hdr} {p : Ex → Group → Path → Bool} (hb : onB s i h p = true) :
    ∃ x g q, Issues s i h x ∧ OnPath s x g q ∧ x.slots ≠ [] ∧ Quiet s x.cur.blk ∧ p x g q = true := by
  obtain ⟨x, hx, hp⟩ := issues_of hb
  simp only [Bool.and_eq_true, bne_iff_ne, Bool.not_eq_true', ne_eq] at hp
  obtain ⟨⟨⟨h1, h2⟩, h3⟩, h4⟩ := hp
  split at h4
  · rename_i g hg
    split at h4
    · rename_i q hq
      simp only [Bool.and_eq_true, beq_iff_eq] at h4
      refine ⟨x, g, q, hx, ⟨h1, hg, hq, h4.1.1, h4.1.2⟩, ?_, ?_, h4.2⟩
      · intro h0; rw [h0] at h2; cases h2
      · intro b hb; rw [hb] at h3; simpa using h3
    · cases h4
  · cases h4

/-- A test of the issuer and its context besides. -/
def actsB (s : State) (i : Instr) (h : Hdr) (p : Ex → Iss → Ctx → Bool) : Bool :=
  issuesB s i h fun x => !x.slots.isEmpty && match issOf s x.cur.blk x.cur.who, ctxOf s x.cur.blk x.cur.who with
    | some i, some k => p x i k
    | _, _ => false

theorem acts_of {s : State} {i : Instr} {h : Hdr} {p : Ex → Iss → Ctx → Bool} (hb : actsB s i h p = true) :
    ∃ x y k, Acts s i h x y k ∧ p x y k = true := by
  obtain ⟨x, hx, hp⟩ := issues_of hb
  simp only [Bool.and_eq_true, Bool.not_eq_true'] at hp
  obtain ⟨h1, h2⟩ := hp
  split at h2
  · rename_i y k hy hk
    refine ⟨x, y, k, ⟨hx, ?_, hy, hk⟩, h2⟩
    intro h0; rw [h0] at h1; cases h1
  · cases h2

/-! ### Mapped pages and cached lines -/

/-- The state after an event that answers one. -/
def after (s : State) (i : Instr) : State := match exec i s with | .next t => t | _ => s

/-- The tables of ASID 0, one a level. -/
def tableAt (level : Nat) : Nat := 0x200000000 + 0x10000 * level

/-- One 64 KiB page of ASID 0 in those tables. -/
def page (va frame : Nat) (w : Bool) (s : State) : State :=
  let leaf := mapLeaf { asid := 0, va := va, size := 16, count := 1, frame := frame, tier := .h, home := 0, mt := .wb, rd := true, w := w, x := true, u := true } false 0
  let s := [1, 2, 3].foldl (fun s n => putEntry s (tableAt n + 8 * levelIndex n va) (1 + tableAt (n + 1))) (putEntry s s.mgmt.asidt (1 + tableAt 1))
  putEntry s (tableAt 4 + 8 * levelIndex 4 va) leaf

/-- Pages at 0x10000 and 0x20000, the second read-only; nothing maps 0x30000. -/
def paged : State := page 0x20000 0x102 false (page 0x10000 0x101 true { one with mgmt := { one.mgmt with asidt := 0x200000000 } })

/-- A line of ASID 0 in cluster 0. -/
def lineIn (st : CSt) (va : Nat) (s : State) : State :=
  let k := keyOf 0 va
  { s with coh := { s.coh with lines := s.coh.lines ++ [⟨0, k, st, 0, false, attrOf s k, [], none, [], ⟨La.zero, []⟩⟩] } }

/-- An issuer that acts, with a test of it. -/
def Met (s : State) (i : Instr) (h : Hdr) (p : Ex → Iss → Ctx → Bool) : Prop := ∃ x y k, Acts s i h x y k ∧ p x y k = true
theorem met {s : State} {i : Instr} {h : Hdr} {p : Ex → Iss → Ctx → Bool} (hb : actsB s i h p = true) : Met s i h p := acts_of hb

/-- A test of the issuer and the context of an agent. -/
def issB (s : State) (who : Nat) (p : Iss → Ctx → Bool) : Bool :=
  match issOf s 0 who, ctxOf s 0 who with | some i, some k => p i k | _, _ => false

/-- Room for the counter; a line the cluster can serve, as tests. -/
def roomB (k : Ctx) (m : MemX) : Bool := m.ctr == 15 || decide (k.ctrs.getD m.ctr.toNat 0 < 32767)
def hasB (s : State) (i : Iss) (n : Need) (k : Key) : Bool :=
  kindOf s k == some .cached && (takeRefusal s i.cl k).isNone && (held s i.cl k n).any fun c => !c.poison

/-- The address pair g4:g5 and the pairs v10:v11 of both lanes. -/
def at_ (a : Nat) (s : State) : State := withV (withR s 0 [(4, BitVec.ofNat 32 a), (5, 0)]) [(10, BitVec.ofNat 32 a), (11, 0)]

/-! ### Ill-formed terms: one for each check of R29's steps -/

/-- R46, R47: an opcode that the stream does not fetch. -/
theorem test_refuses_streams : WellFormed .bms (.trap ctl 1) = false ∧ WellFormed .group (.abw ctl 7) = false ∧ WellFormed .group .mailboxStatus = false := by decide

/-- R18, R46: a wrong form. -/
theorem test_refuses_forms : WellFormed .group (.acz ctl 8) = false ∧ WellFormed .group (.bra lane 0x18) = false ∧ WellFormed .bms (.iadd lane .s32 false 7 8 (.imm 1)) = false := by decide

/-- R19, R43 to R45: a type that the instruction does not take. -/
theorem test_refuses_types : ∀ i ∈ [Instr.iadd lane .f32 false 7 8 (.imm 1), .iabs lane .n32 false 7 8, .mov ctl .b128 4 8, .lea lane .s32 0 7 8 (.imm 1),
    .frcp lane .f16 7 8, .fexp2 lane .f64 8 10, .acdot lane .f32 8 5 6, .ld ctl .glb .b128 false .dflt 8 4 mx, .atom ctl .smin false .n32 .rlx 8 4 mx,
    .aadd ctl .la false 8 4 mx], WellFormed .group i = false := by decide

/-- R26, R106, R161, R211, R221, R231, R274, R305: what an entry adds. -/
theorem test_refuses_entries : ∀ i ∈ [Instr.fadd lane .f16 .rne false 4 5 (.imm 0x10000), .getl lane .b32 4 5 (.imm 64),
    .acrnd lane .f32 .rne false false 6 32 (.reg 0) none, .acrnd lane .f32 .rne false false 6 32 (.imm 1) (some 4), .acld lane .win 8 10 mx,
    .fence ctl .acq { mx with ctr := 3 }, .lqry ctl 2 4 { mx with ctr := 3 }, .bra ctl 0x1A, .vbr ctl false 1 0 0x18], WellFormed .group i = false := by decide

theorem test_refuses_entries_bms : ∀ i ∈ [Instr.barArrive ctl true 0 (.imm 1), .mma ctl .m64n64 0 (.tile 0 .bf16) (.tile 1 .f16),
    .coll ctl .agath ⟨.rtz, false, .fp .f32, .memory 4⟩ 20, .coll ctl .ared ⟨.rne, false, .la, .yTile 0⟩ 20], WellFormed .bms i = false := by decide

/-- R21: a reuse of no operand, of an LA, of one that is only written, and in the group form; one that is right. -/
theorem test_refuses_reuse : (∀ i ∈ [Instr.iabs { lane with reuse := 2 } .s32 false 7 8, .acmrg { lane with reuse := 1 } 8 32,
    .acrnd { lane with reuse := 3 } .f32 .rne false false 6 32 .none (some 4), .iadd { ctl with reuse := 1 } .s32 false 7 8 (.imm 1)], WellFormed .group i = false)
    ∧ WellFormed .group (.iadd { lane with reuse := 1 } .s32 false 7 8 (.imm 1)) = true := by decide

/-- R23: last-use and stream hints where they have no meaning. -/
theorem test_refuses_hints : ∀ i ∈ [Instr.movi { lane with hints := { lane.hints with lastA := true } } .b32 7 1,
    .iadd { lane with hints := { lane.hints with stream := true } } .s32 false 7 8 (.imm 1)], WellFormed .group i = false := by decide

/-- R15, R17, R201, R305: names that a field does not admit. -/
theorem test_refuses_names : ∀ i ∈ [Instr.iadd { ctl with gidx := 8 } .s32 false 7 8 (.imm 1), .iadd lane .s64 false 7 8 (.imm 1), .iadd ctl .s32 false 128 8 (.imm 1),
    .acz lane 9, .acz lane 504, .icmp lane .eq .s32 16 8 (.imm 1), .icmp ctl .eq .s32 8 8 (.imm 1), .barWait ctl false 16, .cpy ctl 12, .waitc ctl 16 (.imm 0)],
    WellFormed .group i = false := by decide

theorem test_refuses_names_bms : ∀ i ∈ [Instr.iadd ctl .s32 false 32 8 (.imm 1), .mz ctl 8 1, .coll ctl .agath ⟨.rne, false, .fp .f32, .memory 4⟩ 21], WellFormed .bms i = false := by decide

/-- R171, R209, R227, R248: what an entry adds to the ranges; D of an atomic over its address. -/
theorem test_refuses_ranges : (∀ i ∈ [Instr.sel ctl .b32 8 4 5 (.imm 1), .acxt lane 5 8 (.imm 648), .gets ctl 0x23 4, .sets ctl 0x00 4,
    .atom ctl .add false .n32 .rlx 4 4 mx], WellFormed .group i = false) ∧ WellFormed .bms (.mz ctl 0 9) = false ∧ WellFormed .bms (.gets ctl 0x0C 4) = false := by decide

/-- R16: an operand at the variant's budget. -/
theorem test_refuses_budget : budgetOk 128 (.iadd lane .s32 false 127 8 (.imm 1)) = true ∧ budgetOk 128 (.iadd lane .s32 false 128 8 (.imm 1)) = false
    ∧ budgetOk 128 (.iadd lane .s64 false 126 8 (.imm 1)) = true ∧ budgetOk 128 (.acz lane 128) = false := by decide

/-! ### Words written out from the encodings of 01, 02 and the entries -/

def k2 : Hdr := { ctl with gidx := 2 }

/-- Package scope, local and shared memory ordered, as the examples have them. -/
def mem (c : BitVec 4) (ofs : BitVec 21) : MemX := ⟨c, .pkg, ⟨false, true, true, false⟩, ofs⟩

/-- 01 R14 to R26, 10: integer words, a guard and an immediate among them. -/
theorem test_words_integer : decode .group 0x006203820000000200000064 = .instr (.iadd k2 .s32 false 7 8 (.imm 100))
    ∧ decode .group 0x00400502C180800000000000 = .instr (.iadd lane .s32 true 10 11 (.reg 12)) := by decide

/-- 10: float words. -/
theorem test_words_float : decode .group 0x2140010100A9400000000000 = .instr (.fcmp lane .ltu .f32 2 4 (.reg 5))
    ∧ decode .group 0x28000301C08CA00000000000 = .instr (.fcvt lane .f16 .f32 .rtz true 6 7) := by decide

/-- 11: accumulator words; la n is register 8 + 24n. -/
theorem test_words_accumulator : decode .group 0x404004014008000000000000 = .instr (.acadd lane .f32 8 5)
    ∧ decode .group 0x41C003080009A00240400000 = .instr (.acrnd lane .f32 .rtz true true 6 32 (.imm 0x40400000) none)
    ∧ decode .group 0x44001C028000000318C00080 = .instr (.acld lane .glb 56 10 (mem 1 0x80)) := by decide

/-- 07, 08, 05: memory words. -/
theorem test_words_memory : decode .group 0x6060048100182003F8C10000 = .instr (.st ctl .glb .b32 true .dflt 9 4 (mem 15 0x10000))
    ∧ decode .group 0x602002810018200328C00040 = .instr (.ld ctl .glb .b32 true .dflt 5 4 (mem 2 0x40))
    ∧ decode .group 0x60E002000000000200000000 = .instr (.waitc ctl 4 (.imm 0))
    ∧ decode .group 0x6120000000004003F7800000 = .instr (.fence ctl .rel ⟨15, .die, ⟨true, true, false, false⟩, 0⟩)
    ∧ decode .group 0x622000040000000000000000 = .instr (.cpy ctl 16) ∧ decode .group 0x662000000000000200000000 = .instr (.region ctl 0)
    ∧ decode .group 0x6480010100000003F8C00100 = .instr (.lqry lane 2 4 (mem 15 0x100))
    ∧ decode .group 0x6460000100C18003F8C00000 = .instr (.mhint ctl (.h 3) 4 6 (mem 15 0)) := by decide

/-- 13: atomic words. -/
theorem test_words_atomic : decode .group 0x8020040100E3200338C00040 = .instr (.atom ctl .incw true .n32 .acqrel 8 4 (mem 3 0x40))
    ∧ decode .group 0x80A0028500480003F8C00000 = .instr (.aadd ctl (.val .f32) true 5 20 (mem 15 0)) := by decide

/-- 16: control words. -/
theorem test_words_control : decode .group 0xA02200000000000400000018 = .instr (.bra k2 0x18)
    ∧ decode .group 0xA0A000004080000400000018 = .instr (.vbr ctl false 1 4 0x18)
    ∧ decode .group 0xA46000000000000000000000 = .instr (.exit ctl) ∧ decode .group 0xA72000000000000200000001 = .instr (.swpt ctl 1) := by decide

/-- 12, 14: matrix and collective words. -/
theorem test_words_matrix : decode .bms 0xC06000000080000500000070 = .instr (.mma ctl .m64n64 0 (.tile 0 .bf16) (.desc 4))
    ∧ decode .bms 0xC42000018140000500000220 = .instr (.coll ctl .ared ⟨.rne, true, .fp .f32, .memory 10⟩ 6)
    ∧ decode .bms 0xC4600001C000000000000000 = .instr (.abw ctl 7) := by decide

/-- 09, 20, 22: system words; a word of another stream and one with an operand the entry does not admit. -/
theorem test_words_system : decode .group 0xE02003000000000200000009 = .instr (.gets ctl 9 6) ∧ decode .group 0xE06000014000000200000022 = .instr (.sets ctl 0x22 5)
    ∧ decode .group 0xE26000000020000000000000 = .instr (.rett ctl true) ∧ decode .group 0xE46000000000000200000003 = .instr (.ppt ctl 3)
    ∧ decode .group 0xE4A000014000000000000000 = .instr (.tmark ctl (.reg 5)) ∧ decode .bms 0xE22000000000000200000042 = .illegalOpcode := by decide

/-! ### The manual's worked values -/

/-- A vector register of lane 0, and an accumulator's status, after an instruction of `one` with registers set. -/
def vAfter (ws : List (Nat × Word)) (i : Instr) (n : Nat) : Option Word :=
  (regsOf (after (withV one ws) i) 0 0).map fun r => r.rd (.lane 0 0) n

/-- 10 R175: 0x7FFFFFF0 + 0x20 wraps, and saturates with .sat; a 64-bit sum of 0 and -1 is all ones. -/
theorem test_iadd_wraps_and_saturates :
    vAfter [(11, 0x7FFFFFF0), (12, 0x20)] (.iadd lane .s32 true 10 11 (.reg 12)) 10 = some 0x7FFFFFFF
    ∧ vAfter [(11, 0x7FFFFFF0), (12, 0x20)] (.iadd lane .s32 false 10 11 (.reg 12)) 10 = some 0x80000010 := by decide +kernel

theorem test_iadd_s64 : vAfter [(1, 7)] (.iadd lane .s64 false 20 0 (.imm 0xFFFFFFFF)) 20 = some 0xFFFFFFFF
    ∧ vAfter [(1, 7)] (.iadd lane .s64 false 20 0 (.imm 0xFFFFFFFF)) 21 = some 0xFFFFFFFF := by decide +kernel

/-- 10 R179, R180: a field of four bits from bit 12, with its sign and without; a byte inserted at bit 4. -/
theorem test_bfx : vAfter [(11, 0xF000), (12, 12)] (.bfx lane .s32 10 11 12 (.imm 4)) 10 = some 0xFFFFFFFF
    ∧ vAfter [(11, 0xF000), (12, 12)] (.bfx lane .n32 10 11 12 (.imm 4)) 10 = some 0xF := by decide +kernel

theorem test_bfi : vAfter [(5, 0xAB), (6, 0xFFFFFFFF)] (.bfi lane .b32 4 5 6 (.imm 0x804)) 4 = some 0xFFFFFABF := by decide +kernel

/-- 13 R249: the table's rows for .incw and .badd, 32 bits. -/
theorem test_atom_table : ([(0, 0), (7, 0), (4, 5), (5, 5), (9, 5), (0xFFFFFFFE, 0xFFFFFFFF), (0xFFFFFFFF, 0xFFFFFFFF)].map fun x => (atomRmw .incw 32 x.1 x.2 0).new)
      = [0, 0, 5, 0, 0, 0xFFFFFFFF, 0]
    ∧ ([(0, 0, 0), (0, 1, 0), (4, 6, 10), (4, 7, 10), (12, 0, 10), (0xFFFFFFFF, 1, 0xFFFFFFFF)].map fun x =>
        let r := atomRmw .badd 32 x.1 x.2.1 x.2.2; if r.write then some r.new else none) = [some 0, none, some 10, none, none, none] := by decide

/-- 14 R284: a reading of N2. -/
theorem test_time : convertTime 5000000123 (0x100000000, 0x780000000) = 5000000130 := by decide

/-- 11 R212: 1.0 with COUNT 3 under .mean. -/
theorem test_acrnd_mean : let img : BitVec 768 := La.toImage (La.canonOf (2 ^ 300) ⟨3, false, false, 0, 0⟩)
    vAfter ((List.range 24).map fun k => (32 + k, img.extractLsb' (32 * k) 32)) (.acrnd lane .f32 .rne false true 6 32 .none none) 6 = some 0x3EAAAAAB := by decide +kernel

/-! ### States that meet the hypotheses of the statements -/

theorem wit_IntegerArithmeticIsExactThenNarrowed : ∀ i ∈ [Instr.iadd lane .s32 true 10 11 (.reg 12), .isub lane .s32 true 10 11 (.reg 12),
    .imul lane .s32 true 10 11 (.reg 12), .imad lane .s32 true 10 11 12 (.imm 0xFFFFFFFF), .imulh lane .n64 10 12 (.reg 14),
    .imin lane .s64 10 12 (.reg 14), .imax lane .n32 10 11 (.imm 0), .iabs lane .s64 true 10 12], ∃ x, Issues one i lane x ∧ x.slots ≠ [] :=
  all_issue (by decide +kernel)

/-- A zero divisor with DIVZ clear and with it set, and one that is not zero with it set. -/
theorem wit_DivisionTruncatesAndDivzTraps :
    (∃ x, Issues one (.idiv lane .s32 10 11 (.imm 0)) lane x ∧ (x.slots.any (fun sl => srcO x.r sl .s32 (.imm 0) == 0) && !divTraps one x.cur.blk) = true)
    ∧ (∃ x, Issues (withL one fun l => { l with k := { l.k with divz := true } }) (.idiv lane .s32 10 11 (.imm 0)) lane x
        ∧ (x.slots.any (fun sl => srcO x.r sl .s32 (.imm 0) == 0) && divTraps (withL one fun l => { l with k := { l.k with divz := true } }) x.cur.blk) = true)
    ∧ (∃ x, Issues (withL one fun l => { l with k := { l.k with divz := true } }) (.irem lane .s32 10 11 (.imm 3)) lane x
        ∧ (x.slots.all (fun sl => srcO x.r sl .s32 (.imm 3) != 0) && !x.slots.isEmpty) = true) :=
  ⟨issues_of (by decide +kernel), issues_of (by decide +kernel), issues_of (by decide +kernel)⟩

/-- Counts of 31 and of 32, the width. -/
theorem wit_LogicAndShifts : ∀ i ∈ [Instr.and lane .b32 10 11 (.reg 12), .or lane .b64 10 12 (.reg 14), .xor lane .b32 10 11 (.imm 5),
    .shl lane .b32 10 11 (.imm 31), .shl lane .b32 10 11 (.imm 32), .shr lane .b32 10 11 (.imm 32), .sar lane .b32 10 11 (.imm 32)],
    ∃ x, Issues one i lane x ∧ x.slots ≠ [] :=
  all_issue (by decide +kernel)

theorem wit_BitFieldsCountsAndAddresses : ∀ i ∈ [Instr.bfx lane .s32 10 11 12 (.imm 0), .bfx lane .n32 10 11 12 (.imm 33), .bfi lane .b32 10 11 12 (.imm 0x0820),
    .popc lane .b64 10 12, .clz lane .b32 10 11, .brev lane .b64 10 12, .lea lane .n64 7 10 12 (.reg 14)], ∃ x, Issues one i lane x ∧ x.slots ≠ [] :=
  all_issue (by decide +kernel)

theorem wit_MovesAndSelects : ∀ i ∈ [Instr.mov lane .b128 12 16, .movi lane .b64 12 0xFFFFFFFF, .sel lane .b32 15 10 11 (.reg 12), .pmov lane .p2r 10,
    .pmov lane .r2p 10], ∃ x, Issues one i lane x ∧ x.slots ≠ [] :=
  all_issue (by decide +kernel)

theorem wit_PredicatesOfIntegers : ∀ i ∈ [Instr.icmp lane .eq .s32 2 10 (.reg 11), .icmp lane .ge .n64 2 10 (.reg 12), .plop lane 15 5 0 2],
    ∃ x, Issues one i lane x ∧ x.slots ≠ [] :=
  all_issue (by decide +kernel)

/-- Lanes 0 and 63 of the set. -/
theorem wit_LanesExchange : ∀ i ∈ [Instr.shfl lane .idx .b32 10 11 (.imm 63), .shfl lane .up .b32 10 11 (.imm 1), .shfl lane .down .b32 10 11 (.imm 63),
    .shfl lane .xor .b32 10 11 (.imm 0), .vote lane .all 2 3, .vote lane .uni 2 3, .vote lane .any 2 3, .vote lane .ballot 10 3, .getl lane .b32 10 11 (.imm 63),
    .setl lane .b32 10 11 (.imm 63)], ∃ x, Issues one i lane x ∧ x.slots ≠ [] :=
  all_issue (by decide +kernel)

theorem wit_FloatArithmeticRoundsOnce : ∀ i ∈ [Instr.fadd lane .f32 .rne true 10 11 (.reg 12), .fmul lane .f16x2 .rne false 10 11 (.reg 12),
    .ffma lane .f64 .rtz false 10 12 14 (.reg 16), .fcvt lane .f16 .f32 .rtz true 6 7, .fdiv lane .f32 .rne 10 11 (.reg 12), .fsqrt lane .f64 .rne 10 12],
    ∃ x, Issues one i lane x ∧ x.slots ≠ [] :=
  all_issue (by decide +kernel)

theorem wit_FloatMinimumsComparisonsAndClasses : ∀ i ∈ [Instr.fmin lane .f32 true 10 11 (.reg 12), .fmax lane .bf16x2 false 10 11 (.reg 12),
    .fcmp lane .ltu .f32 2 4 (.reg 5), .fclass lane .f64 10 12], ∃ x, Issues one i lane x ∧ x.slots ≠ [] :=
  all_issue (by decide +kernel)

theorem wit_FloatIntegralAndScaled : ∀ i ∈ [Instr.frnd lane .f32 .rne 10 11, .fscl lane .f64 .rne 10 12 (.imm 0x7FFFFFFF), .ftoi lane .n32 .f64 .rtz true 10 12,
    .itof lane .f16 .s64 .rne 10 12], ∃ x, Issues one i lane x ∧ x.slots ≠ [] :=
  all_issue (by decide +kernel)

theorem wit_SpecialFunctionsAtTheirSpecialOperands : ∀ i ∈ [Instr.frcp lane .f32 10 11, .frsq lane .f32 10 11, .fexp2 lane .f32 10 11, .flog2 lane .f32 10 11,
    .fsin lane .f32 10 11, .fcos lane .f32 10 11], ∃ x, Issues one i lane x ∧ x.slots ≠ [] :=
  all_issue (by decide +kernel)

/-- Position 647, the last of S, and 648 in v6, the first beyond it. -/
theorem wit_AccumulatorsTakeContributions : ∀ i ∈ [Instr.acz lane 8, .acadd lane .f32 8 5, .acfma lane .bf16 8 5 6, .acdot lane .f16x2 8 5 6,
    .acins lane 8 5 (.imm 647), .acins lane 8 5 (.reg 6)], ∃ x, Issues (withV one [(6, 648)]) i lane x ∧ x.slots ≠ [] :=
  all_issue (by decide +kernel)

theorem wit_AccumulatorsMergeAndScale : ∀ i ∈ [Instr.acmrg lane 8 32, .acred lane 8 32, .acnorm lane 8 32, .acscl lane 8 32 (.imm 0xFFFFFFFF)],
    ∃ x, Issues one i lane x ∧ x.slots ≠ [] :=
  all_issue (by decide +kernel)

theorem wit_AccumulatorsAreReadAndRoundedOnce : ∀ i ∈ [Instr.acxt lane 5 8 (.imm 647), .acxt lane 5 8 (.reg 6), .actst lane .zero 2 8, .actst lane .neg 2 8,
    .actst lane .nan 2 8, .actst lane .inf 2 8, .actst lane .lowloss 2 8, .actst lane .range 2 8, .acrnd lane .f32 .rtz true true 6 32 (.imm 0x40400000) none,
    .acrnd lane .f64 .rne false false 6 32 .none (some 4)], ∃ x, Issues (withV one [(6, 648)]) i lane x ∧ x.slots ≠ [] :=
  all_issue (by decide +kernel)

theorem wit_AccumulatedSumsDoNotDependOnOrder : [(0x3F800000, 0x40000000), (0xBF800000, 1)].Perm [(0xBF800000, 1), (0x3F800000, 0x40000000)] := by decide

theorem wit_DecodingAnEncodedInstructionGivesItBack :
    WellFormed .group (.iadd lane .s32 true 10 11 (.reg 12)) = true ∧ encode (.iadd lane .s32 true 10 11 (.reg 12)) = some 0x00400502C180800000000000 := by
  decide +kernel

/-- A state whose next step answers a next state. -/
theorem next_of {o : Host.Outcome State Fault Refusal} (h : (match o with | .next _ => true | _ => false) = true) : ∃ t, o = .next t := by
  cases o with
  | next t => exact ⟨t, rfl⟩
  | fault _ => cases h
  | refused _ => cases h

/-- The word of `[k0] IADD.s32 g7, g8, 100` placed where the next step fetches it. -/
def placed : State := State.reset.withFetchWord 96 0x006003820000000200000064

/-- The word of `ABW s7` of the sequencer's stream. -/
def placedBms : State := State.reset.withFetchWord 96 0xC4600001C000000000000000

/-- Where an issuer's turn fetches: its path, its PC, whether it steps, and the state by then; none when it does not come to that. -/
def fetchAt (a : State) (uid who : Nat) (x : Iss) : Option (State × Nat × Nat × Bool) :=
  if who = bmsWho then
    x.b.bms.bind fun m => if m.st == .run && m.prog.isNone then some (a, 0, m.pc, false) else none
  else if !inRotation a x then none
  else match arbitrate (pick a x) uid who with
    | (s1, some path) =>
      if !(groupOf s1 uid who).all fun g => !g.stray then none
      else (pathOf s1 uid who path).bind fun q =>
        if q.trap.isNone && !breakAt x q q.pc then some (s1, path, q.pc, q.held && q.step) else none
    | _ => none

theorem fetchAt_of {a s1 : State} {uid who path pc : Nat} {x : Iss} {st : Bool} (h : fetchAt a uid who x = some (s1, path, pc, st)) :
    if who = bmsWho then (∃ m, x.b.bms = some m ∧ m.st = .run ∧ m.prog = none ∧ pc = m.pc) ∧ path = 0 ∧ st = false ∧ s1 = a
    else inRotation a x = true ∧ arbitrate (pick a x) uid who = (s1, some path)
      ∧ (∀ g, groupOf s1 uid who = some g → g.stray = false)
      ∧ ∃ q, pathOf s1 uid who path = some q ∧ q.trap = none ∧ breakAt x q q.pc = false ∧ pc = q.pc ∧ st = (q.held && q.step) := by
  unfold fetchAt at h
  split
  · rename_i hw
    rw [if_pos hw] at h
    obtain ⟨m, hm, h⟩ := Option.bind_eq_some_iff.mp h
    split at h
    · rename_i hc
      cases h
      simp only [Bool.and_eq_true, beq_iff_eq, Option.isNone_iff_eq_none] at hc
      exact ⟨⟨m, hm, hc.1, hc.2, rfl⟩, rfl, rfl, rfl⟩
    · cases h
  · rename_i hw
    rw [if_neg hw] at h
    split at h
    · cases h
    · rename_i hr
      split at h
      · rename_i s2 p ha
        split at h
        · cases h
        · rename_i hg
          obtain ⟨q, hq, h⟩ := Option.bind_eq_some_iff.mp h
          split at h
          · rename_i hc
            cases h
            simp only [Bool.and_eq_true, Bool.not_eq_true', Option.isNone_iff_eq_none] at hc
            refine ⟨by simpa using hr, ha, ?_, q, hq, hc.1, hc.2, rfl, rfl⟩
            intro g hgg
            rw [hgg] at hg
            simpa using hg
          · cases h
      · cases h

/-- What the statement asks of a step, as a test. -/
def stepB (s : State) : Bool :=
  match s.sched.agenda with
  | ⟨ns, cyc, .issue uid who⟩ :: rest =>
    let a := advance { s with sched := { s.sched with agenda := rest } } ns cyc
    (match issOf a uid who with
     | none => false
     | some x => !issuerStopped a x.b && match fetchAt a uid who x with
       | none => false
       | some (s1, path, pc, _) => (match fetchWord s1 x pc with
           | (s2, .word w) => (match decode (streamOf who) w, decodeFor s2 ⟨uid, who, path, pc, w⟩ w with
             | .instr i, .inl j => i == j && (match hdrOf i with
               | none => false
               | some _ => decide (0 < ((ctxOf s2 uid who).map (·.energy)).getD 1) && !issueWaits s2 ⟨uid, who, path, pc, w⟩ i
                 && match exec i (withCur (debit s2 ⟨uid, who, path, pc, w⟩ (costOf s2 i)) (some ⟨uid, who, path, pc, w⟩)) with
                   | .next t => orderOf (withCur t none) uid who != orderOf s2 uid who
                   | _ => false)
             | _, _ => false)
           | _ => false))
  | _ => false

/-- The hypotheses of the statement about a step, of a state. -/
def StepMet (s : State) : Prop := ∃ ns cyc uid who rest x path pc stepping s1 s2 w i h t,
    s.sched.agenda = ⟨ns, cyc, .issue uid who⟩ :: rest ∧
    let s0 := { s with sched := { s.sched with agenda := rest } }
    let a := advance s0 ns cyc
    issOf a uid who = some x ∧ issuerStopped a x.b = false ∧
    (if who = bmsWho then (∃ m, x.b.bms = some m ∧ m.st = .run ∧ m.prog = none ∧ pc = m.pc) ∧ path = 0 ∧ stepping = false ∧ s1 = a
      else inRotation a x = true ∧ arbitrate (pick a x) uid who = (s1, some path)
        ∧ (∀ g, groupOf s1 uid who = some g → g.stray = false)
        ∧ ∃ q, pathOf s1 uid who path = some q ∧ q.trap = none ∧ breakAt x q q.pc = false ∧ pc = q.pc ∧ stepping = (q.held && q.step)) ∧
    fetchWord s1 x pc = (s2, .word w) ∧
    let c : Cur := ⟨uid, who, path, pc, w⟩
    decode (streamOf who) w = .instr i ∧ decodeFor s2 c w = .inl i ∧ hdrOf i = some h ∧
    0 < ((ctxOf s2 uid who).map (·.energy)).getD 1 ∧ issueWaits s2 c i = false ∧
    exec i (withCur (debit s2 c (costOf s2 i)) (some c)) = .next t ∧ orderOf (withCur t none) uid who ≠ orderOf s2 uid who

theorem step_of {s : State} (hb : stepB s = true) : StepMet s := by
  unfold stepB at hb
  split at hb
  · rename_i ns cyc uid who rest ha
    simp only [] at hb
    split at hb
    · cases hb
    · rename_i x hx
      simp only [Bool.and_eq_true, Bool.not_eq_true'] at hb
      obtain ⟨h1, hb⟩ := hb
      split at hb
      · cases hb
      · rename_i s1 path pc st hp
        split at hb
        · rename_i s2 w hw
          split at hb
          · rename_i i j hi hj
            simp only [Bool.and_eq_true, beq_iff_eq] at hb
            obtain ⟨hij, hb⟩ := hb
            subst hij
            split at hb
            · cases hb
            · rename_i h hh
              simp only [Bool.and_eq_true, decide_eq_true_eq, Bool.not_eq_true'] at hb
              obtain ⟨⟨h5, h6⟩, hb⟩ := hb
              split at hb
              · rename_i t ht
                simp only [bne_iff_ne, ne_eq] at hb
                exact ⟨ns, cyc, uid, who, rest, x, path, pc, st, s1, s2, w, i, h, t, ha, hx, h1,
                  fetchAt_of hp, hw, hi, hj, hh, h5, h6, ht, hb⟩
              · cases hb
          · cases hb
        · cases hb
  · cases hb

/-- A group's turn, and a sequencer's. -/
theorem wit_StepRunsTheDecodedInstruction : StepMet placed ∧ StepMet placedBms :=
  ⟨step_of (by decide +kernel), step_of (by decide +kernel)⟩

theorem wit_EveryStepKeepsMemoryCanonical : Safety.Inv placed ∧ ∃ t, Machine.step placed = .next t :=
  ⟨by unfold Safety.Inv; decide, next_of (by decide +kernel)⟩

/-- Lane 63, and registers 1 and 511 of 512. -/
theorem wit_HardWiredRegisters (r : Regs) (h : r.span = 512) : SlotOk (.lane 0 63) ∧ SlotOk .ctl ∧ Holds r (.lane 0 63) 511 ∧ Holds r .ctl 1 := by
  simp [SlotOk, Holds, h]

theorem wit_MemoryReadsWhatWasWritten : Memory.wf [] = true ∧ Memory.wf [(0, 1), (5, 255)] = true := by decide

/-- A cause that only the runtime takes (0x05), and one that a user handler takes (0x09) with SR_UTRAP set. -/
theorem wit_TakingATrap : (∃ g r q, groupOf one 0 0 = some g ∧ regsOf one 0 0 = some r ∧ pathOf one 0 0 0 = some q ∧ g.shadows = [] ∧ g.utrap = 0 ∧ Quiet one 0)
    ∧ (∃ g, groupOf (withG one fun g => { g with utrap := 0x3000 }) 0 0 = some g ∧ g.shadows = [] ∧ g.utrap ≠ 0)
    ∧ causeOf (0x205#32) = 5 ∧ causeOf (0x209#32) = 9 ∧ (0 : Nat) ≠ bmsWho := by
  refine ⟨⟨_, _, _, rfl, rfl, rfl, rfl, rfl, ?_⟩, ⟨_, rfl, rfl, by decide⟩, by decide⟩
  intro b hb
  cases hb
  decide

theorem wit_ReturningFromATrap : (∃ g r q, groupOf one 0 0 = some g ∧ regsOf one 0 0 = some r ∧ pathOf one 0 0 0 = some q ∧ g.shadows = [] ∧ Quiet one 0)
    ∧ causeOf (0x205#32) ≠ 6 ∧ (0 : Nat) ≠ bmsWho := by
  refine ⟨⟨_, _, _, rfl, rfl, rfl, rfl, ?_⟩, by decide⟩
  intro b hb
  cases hb
  decide

/-! Control -/

/-- NOP, a BRA taken forward and back to 0, one whose guard k0 is negated, YIELD, SLEEP of 0 and of 1. -/
theorem wit_BranchesSleepAndYield : (∀ i ∈ [Instr.nop ctl, .yield ctl, .sleep ctl (.imm 0), .sleep ctl (.imm 1)],
      ∃ x g q, Issues one i ctl x ∧ OnPath one x g q ∧ x.slots ≠ [] ∧ Quiet one x.cur.blk ∧ true = true)
    ∧ (∃ x g q, Issues one (.bra ctl 0xFFFFFFF4) ctl x ∧ OnPath one x g q ∧ x.slots ≠ [] ∧ Quiet one x.cur.blk ∧ true = true)
    ∧ (∃ x, Issues one (.bra { ctl with neg := true } 0x18) { ctl with neg := true } x ∧ (x.slots == []) = true) := by
  refine ⟨?_, on_of (by decide +kernel), issues_of (by decide +kernel)⟩
  intro i hi
  simp only [List.mem_cons, List.mem_nil_iff, or_false] at hi
  obtain rfl | rfl | rfl | rfl := hi <;> exact on_of (by decide +kernel)

/-- The group with `n` tokens, and, with `full`, no FREE entry. -/
def tokens (n : Nat) (full : Bool) : State :=
  withG one fun g => { g with
    tokens := (List.range n).map fun k => (k, ⟨.loop, 0, [3], [0], none, none⟩)
    paths := if full then g.paths.map fun q => if q.st == .free then { q with st := .joinw, mask := [4] } else q else g.paths }

/-- p1 true in lane 0 only. -/
def split1 (s : State) : State := withG s fun g => { g with preds := (g.preds.set 64 true).set 65 false }

/-- No lane takes the branch, all do, some do with a FREE entry, some do and are deferred; 399 tokens with and without room,
and 400. -/
theorem wit_SplitsAndLoopsMakeTokens :
    (∃ x g q, Issues one (.vbr ctl true 0 1 0x18) ctl x ∧ OnPath one x g q ∧ x.slots ≠ [] ∧ Quiet one x.cur.blk ∧ decide (g.tokens.length < 399) = true)
    ∧ (∃ x g q, Issues one (.vbr ctl false 0 1 0x18) ctl x ∧ OnPath one x g q ∧ x.slots ≠ [] ∧ Quiet one x.cur.blk ∧ decide (g.tokens.length < 399) = true)
    ∧ (∃ x g q, Issues (split1 one) (.vbr ctl false 1 1 0x18) ctl x ∧ OnPath (split1 one) x g q ∧ x.slots ≠ [] ∧ Quiet (split1 one) x.cur.blk
        ∧ (x.r.rdPred (.lane 0 0) 1 && !x.r.rdPred (.lane 0 1) 1 && g.paths.any fun e => e.st == .free) = true)
    ∧ (∃ x g q, Issues (split1 (tokens 1 true)) (.vbr ctl false 1 1 0x18) ctl x ∧ OnPath (split1 (tokens 1 true)) x g q ∧ x.slots ≠ []
        ∧ Quiet (split1 (tokens 1 true)) x.cur.blk
        ∧ (x.r.rdPred (.lane 0 0) 1 && !x.r.rdPred (.lane 0 1) 1 && g.paths.all fun e => e.st != .free) = true)
    ∧ (∃ x g q, Issues (tokens 399 false) (.vbr ctl false 0 1 0x18) ctl x ∧ OnPath (tokens 399 false) x g q ∧ x.slots ≠ [] ∧ Quiet (tokens 399 false) x.cur.blk
        ∧ decide (g.tokens.length = 399) = true)
    ∧ (∃ x g q, Issues (tokens 400 false) (.vbr ctl false 0 1 0x18) ctl x ∧ OnPath (tokens 400 false) x g q ∧ x.slots ≠ [] ∧ Quiet (tokens 400 false) x.cur.blk
        ∧ decide (400 ≤ g.tokens.length) = true)
    ∧ (∃ x g q, Issues (tokens 399 false) (.loop ctl 0x18) ctl x ∧ OnPath (tokens 399 false) x g q ∧ x.slots ≠ [] ∧ Quiet (tokens 399 false) x.cur.blk
        ∧ decide (g.tokens.length < 400) = true)
    ∧ (∃ x g q, Issues (tokens 400 false) (.loop ctl 0x18) ctl x ∧ OnPath (tokens 400 false) x g q ∧ x.slots ≠ [] ∧ Quiet (tokens 400 false) x.cur.blk
        ∧ decide (400 ≤ g.tokens.length) = true) :=
  ⟨on_of (by decide +kernel), on_of (by decide +kernel), on_of (by decide +kernel), on_of (by decide +kernel), on_of (by decide +kernel),
    on_of (by decide +kernel), on_of (by decide +kernel), on_of (by decide +kernel)⟩

/-- The path under a token of a kind at its own PC that expects lanes `e`; with `d`, a DEFER record behind it. -/
def under (kind : TKind) (e : LaneMask) (d : Bool) : State :=
  withG (withP one fun q => { q with tref := some 0, dlist := if d then some 1 else none }) fun g => { g with
    tokens := (0, ⟨kind, 0, [e], [0], none, none⟩) :: if d then [(1, ⟨.defer, 12, [4], [0], some 0, none⟩)] else [] }

/-- No token, the last lanes to arrive, lanes that park, and lanes that give their entry to a record. -/
theorem wit_JoinsMergeLanes :
    (∃ x g q, Issues one (.join ctl) ctl x ∧ OnPath one x g q ∧ x.slots ≠ [] ∧ Quiet one x.cur.blk ∧ (q.tref == none) = true)
    ∧ (∃ x g q, Issues (under .join 3 false) (.join ctl) ctl x ∧ OnPath (under .join 3 false) x g q ∧ x.slots ≠ [] ∧ Quiet (under .join 3 false) x.cur.blk
        ∧ (q.tref == some 0 && (g.tokens.get? 0).any fun t => t.kind == .join && t.pc == x.cur.pc && t.arr.zipWith (· ||| ·) q.mask == t.exp) = true)
    ∧ (∃ x g q, Issues (under .join 7 false) (.join ctl) ctl x ∧ OnPath (under .join 7 false) x g q ∧ x.slots ≠ [] ∧ Quiet (under .join 7 false) x.cur.blk
        ∧ (q.tref == some 0 && q.dlist == none && (g.tokens.get? 0).any fun t => t.kind == .join && t.pc == x.cur.pc && t.arr.zipWith (· ||| ·) q.mask != t.exp) = true)
    ∧ (∃ x g q, Issues (under .join 7 true) (.join ctl) ctl x ∧ OnPath (under .join 7 true) x g q ∧ x.slots ≠ [] ∧ Quiet (under .join 7 true) x.cur.blk
        ∧ (q.tref == some 0 && q.dlist == some 1 && (g.tokens.get? 1).isSome && (g.tokens.get? 0).any fun t => t.kind == .join && t.pc == x.cur.pc
          && t.arr.zipWith (· ||| ·) q.mask != t.exp) = true) :=
  ⟨on_of (by decide +kernel), on_of (by decide +kernel), on_of (by decide +kernel), on_of (by decide +kernel)⟩

/-- No loop; the last lanes of a loop to arrive; lanes before others. -/
theorem wit_BreaksLeaveLoops :
    (∃ x g q, Issues one (.brk ctl) ctl x ∧ OnPath one x g q ∧ x.slots ≠ [] ∧ Quiet one x.cur.blk ∧ (chainOf g x.cur.path == [] && g.hpath == none) = true)
    ∧ (∃ x g q, Issues (under .loop 3 false) (.brk ctl) ctl x ∧ OnPath (under .loop 3 false) x g q ∧ x.slots ≠ [] ∧ Quiet (under .loop 3 false) x.cur.blk
        ∧ (q.tref == some 0 && q.dlist == none && g.hpath == none && (toLoop g (chainOf g x.cur.path) []).isSome && g.tokens.map (·.1) == [0]
          && g.tokens.all (fun t => t.2.exp.any (· != 0) && t.2.arr != t.2.exp)
          && (g.tokens.get? 0).any fun t => t.kind == .loop && t.arr.zipWith (· ||| ·) q.mask == t.exp) = true)
    ∧ (∃ x g q, Issues (under .loop 7 false) (.brk ctl) ctl x ∧ OnPath (under .loop 7 false) x g q ∧ x.slots ≠ [] ∧ Quiet (under .loop 7 false) x.cur.blk
        ∧ (q.tref == some 0 && q.dlist == none && g.hpath == none && (toLoop g (chainOf g x.cur.path) []).isSome && g.tokens.map (·.1) == [0]
          && g.tokens.all (fun t => t.2.exp.any (· != 0) && t.2.arr != t.2.exp)
          && (g.tokens.get? 0).any fun t => t.kind == .loop && t.arr.zipWith (· ||| ·) q.mask != t.exp) = true) :=
  ⟨on_of (by decide +kernel), on_of (by decide +kernel), on_of (by decide +kernel)⟩

/-- One target for both lanes, two targets with FREE entries, and two with no entry and no token left. -/
theorem wit_IndirectBranchesAndCalls :
    (∀ i ∈ [Instr.brx ctl 5, .callx ctl 5, .ret ctl, .call ctl 0x18], ∃ x g q, Issues (withV one [(1, 0x60), (5, 0x60)]) i ctl x
      ∧ OnPath (withV one [(1, 0x60), (5, 0x60)]) x g q ∧ x.slots ≠ [] ∧ Quiet (withV one [(1, 0x60), (5, 0x60)]) x.cur.blk
      ∧ ((targetsOf x.mask fun sl => x.cur.pc / 2 ^ 32 * 2 ^ 32 + (x.r.rd sl 5).toNat).length == 1 && g.tokens.length == 0) = true)
    ∧ (let two := withG one fun g => { g with vregs := (g.vregs.set 320 (some 0x60#32)).set 321 (some 0x6C#32) }
       ∃ x g q, Issues two (.brx ctl 5) ctl x ∧ OnPath two x g q ∧ x.slots ≠ [] ∧ Quiet two x.cur.blk
        ∧ ((targetsOf x.mask fun sl => x.cur.pc / 2 ^ 32 * 2 ^ 32 + (x.r.rd sl 5).toNat).length == 2 && (g.paths.filter fun r => r.st == .free).length == 7) = true)
    ∧ (let two := withG (tokens 400 true) fun g => { g with vregs := (g.vregs.set 320 (some 0x60#32)).set 321 (some 0x6C#32) }
       ∃ x g q, Issues two (.brx ctl 5) ctl x ∧ OnPath two x g q ∧ x.slots ≠ [] ∧ Quiet two x.cur.blk
        ∧ decide ((g.paths.filter fun r => r.st == .free).length + 1 + 400
          < (targetsOf x.mask fun sl => x.cur.pc / 2 ^ 32 * 2 ^ 32 + (x.r.rd sl 5).toNat).length + g.tokens.length) = true) := by
  refine ⟨?_, on_of (by decide +kernel), on_of (by decide +kernel)⟩
  intro i hi
  simp only [List.mem_cons, List.mem_nil_iff, or_false] at hi
  obtain rfl | rfl | rfl | rfl := hi <;> exact on_of (by decide +kernel)

/-- SR_UNWIND set. -/
def unwinding : State := split1 (withG one fun g => { g with unwind := 0x3000 })

/-- No unwind entry; no lane throws, all do, one of two does; EXIT of the only path with no copy left, and of the sequencer. -/
theorem wit_ThrowsAndExits :
    (∃ x g q, Issues one (.throw ctl false 0) ctl x ∧ OnPath one x g q ∧ x.slots ≠ [] ∧ Quiet one x.cur.blk ∧ (g.unwind == 0) = true)
    ∧ (∃ x g q, Issues unwinding (.throw ctl true 0) ctl x ∧ OnPath unwinding x g q ∧ x.slots ≠ [] ∧ Quiet unwinding x.cur.blk
        ∧ (g.unwind != 0 && !x.r.rdPred (.lane 0 0) 0 == false && !x.r.rdPred (.lane 0 1) 0 == false) = true)
    ∧ (∃ x g q, Issues unwinding (.throw ctl false 0) ctl x ∧ OnPath unwinding x g q ∧ x.slots ≠ [] ∧ Quiet unwinding x.cur.blk
        ∧ (g.unwind != 0 && q.tref == none && x.mask == [3] && x.r.rdPred (.lane 0 0) 0 && x.r.rdPred (.lane 0 1) 0) = true)
    ∧ (∃ x g q, Issues unwinding (.throw ctl false 1) ctl x ∧ OnPath unwinding x g q ∧ x.slots ≠ [] ∧ Quiet unwinding x.cur.blk
        ∧ (g.unwind != 0 && q.tref == none && x.mask == [3] && x.r.rdPred (.lane 0 0) 1 && !x.r.rdPred (.lane 0 1) 1 && g.paths.any fun e => e.st == .free) = true)
    ∧ (∃ x g q, Issues one (.exit ctl) ctl x ∧ OnPath one x g q ∧ x.slots ≠ [] ∧ Quiet one x.cur.blk
        ∧ (q.tref == none && q.dlist == none && g.hpath == none && g.ctx.copies == [] && g.ctx.fails == []) = true)
    ∧ (∃ x i k, Acts oneBms (.exit ctl) ctl x i k ∧ (x.cur.who == bmsWho && k.copies == [] && k.fails == [] && i.b.bms.isSome) = true) :=
  ⟨on_of (by decide +kernel), on_of (by decide +kernel), on_of (by decide +kernel), on_of (by decide +kernel), on_of (by decide +kernel),
    acts_of (by decide +kernel)⟩

/-- Barrier 0 with two participants, `a` arrived, of the block or the cohort. -/
def barred (a : Nat) : State :=
  let v : Bar := ⟨2, a, 0, []⟩
  let s := withB one fun b => { b with bars := b.bars.set 0 v }
  { s with work := { s.work with cohorts := s.work.cohorts.map fun c => { c with bars := c.bars.set 0 v } } }

/-- An access of the issuer outstanding. -/
def owing (s : State) (who : Nat) : State :=
  withC s who fun c => { c with window := [⟨0, 0, 0, 0, .ld ctl .glb .b32 false .dflt 5 4 mx, [⟨.ctl, 0⟩], [3], [], [], false, 0⟩] }

/-- The issuer at its PC, not waiting, at a barrier that exists, with a test of the barrier. -/
def barB (s : State) (coh : Bool) (x : Ex) (f : Bar → Bool) : Bool :=
  (if x.cur.who = bmsWho then ((blockOf s x.cur.blk).bind (·.bms)).map fun m => (m.pc, decide (m.st = .run), m.wait)
    else (pathOf s x.cur.blk x.cur.who x.cur.path).map fun q => (q.pc, decide (q.st = .ready), q.wait)) == some (x.cur.pc, true, .none)
  && (if coh then (cohortOf s 0).any (fun k => decide (0 < k.bars.length)) else (blockOf s 0).any fun b => decide (0 < b.bars.length))
  && f (barOf s x.cur.blk coh 0)

/-- Arrivals that leave the phase open, fill it (2 of 2) and would exceed it (3); one that waits for an access. -/
theorem wit_BarriersCountAndRelease :
    (∀ i ∈ [(Instr.barArrive ctl false 0 (.imm 1), false), (.barWait ctl true 0, true), (.barSync ctl true 0 (.reg 0), true)],
      Met (barred 0) i.1 ctl (fun x y k => barB (barred 0) i.2 x (fun v => decide (v.a + 1 < v.p)) && k.window == [] && wcEmpty (barred 0) y.cl)
      ∧ Met (barred 1) i.1 ctl (fun x y k => barB (barred 1) i.2 x (fun v => decide (v.a + 1 = v.p)) && k.window == [] && wcEmpty (barred 1) y.cl)
      ∧ Met (barred 2) i.1 ctl (fun x _ _ => barB (barred 2) i.2 x fun v => decide (v.p < v.a + 1))
      ∧ Met (owing (barred 0) 0) i.1 ctl (fun x y _ => barB (owing (barred 0) 0) i.2 x (fun v => decide (v.a + 1 ≤ v.p))
          && !(releaseAt (owing (barred 0) 0) y x true storScrGlb (if i.2 then .coh else .blk)).2)) := by
  intro i hi
  simp only [List.mem_cons, List.mem_nil_iff, or_false] at hi
  obtain rfl | rfl | rfl := hi <;>
    exact ⟨met (by decide +kernel), met (by decide +kernel), met (by decide +kernel), met (by decide +kernel)⟩

/-- A handler of the runtime level on the issuing path. -/
def handling (s : State) : State :=
  withG s fun g => { g with hpath := some 0, shadows := [⟨true, List.replicate 8 0, false, false, 0x20E, 0x24, 0x30⟩] }

/-- SR_LANE (0x00), SR_TIME, SR_TRAPCAUSE outside a handler and inside one, SR_MEMCAP; SETS of a counter at its bounds. -/
theorem wit_GetsReadsSpecialRegisters :
    (∀ i ∈ [Instr.gets ctl 0x09 6, .gets ctl 0x22 5, .gets ctl 0x1F 5, .gets ctl 0x0A 5, .gets ctl 0x00 5, .gets ctl 0x06 5],
      ∃ x y k, Acts one i ((hdrOf i).getD ctl) x y k ∧ true = true)
    ∧ (∃ x y k, Acts (handling one) (.gets ctl 0x0A 5) ctl x y k ∧ ((groupOf (handling one) x.cur.blk x.cur.who).any fun g => g.hpath == some x.cur.path) = true) := by
  refine ⟨?_, acts_of (by decide +kernel)⟩
  intro i hi
  simp only [List.mem_cons, List.mem_nil_iff, or_false] at hi
  obtain rfl | rfl | rfl | rfl | rfl | rfl := hi <;> exact acts_of (by decide +kernel)

/-- A register that SETS may not write, a counter value of 32,767 and of 32,768, SR_UNWIND, SR_MEMCAP, and SR_CX in the runtime handler. -/
theorem wit_SetsWritesSpecialRegisters :
    (∃ x y k, Acts one (.sets ctl 0x09 6) ctl x y k ∧ true = true)
    ∧ (∃ x y k, Acts (withR one 0 [(5, 32767)]) (.sets ctl 0x10 5) ctl x y k ∧ ((x.r.rd .ctl 5).toInt == 32767 && k.armed == []) = true)
    ∧ (∃ x y k, Acts (withR one 0 [(5, 32768)]) (.sets ctl 0x1F 5) ctl x y k ∧ ((x.r.rd .ctl 5).toInt == 32768) = true)
    ∧ (∃ x y k, Acts one (.sets ctl 0x0D 6) ctl x y k ∧ (k.armed == []) = true)
    ∧ (∃ x y k, Acts one (.sets ctl 0x22 5) ctl x y k ∧ (k.armed == []) = true)
    ∧ (∃ x y k, Acts (handling one) (.sets ctl 0x21 5) ctl x y k
        ∧ ((groupOf (handling one) x.cur.blk x.cur.who).any fun g => g.hpath == some x.cur.path && g.shadows.head?.any (·.runtime)) = true) :=
  ⟨acts_of (by decide +kernel), acts_of (by decide +kernel), acts_of (by decide +kernel), acts_of (by decide +kernel), acts_of (by decide +kernel),
    acts_of (by decide +kernel)⟩

/-- Outside a handler, in the runtime handler, and a launch with its sixteen progress counters. -/
theorem wit_TrapBreakpointReturnAndProbes :
    (∀ i ∈ [Instr.trap ctl 0x42, .bkpt ctl, .rett ctl false, .tmark ctl (.reg 5), .tmark ctl (.imm 0x1234), .ppt ctl 15],
      ∃ x g q, Issues one i ctl x ∧ OnPath one x g q ∧ x.slots ≠ [] ∧ Quiet one x.cur.blk
        ∧ (g.hpath == none && (launchOfBlock one x.cur.blk).any fun l => l.ppcnt.length == 16) = true)
    ∧ (∃ x g q, Issues (handling one) (.trap ctl 0x42) ctl x ∧ OnPath (handling one) x g q ∧ x.slots ≠ [] ∧ Quiet (handling one) x.cur.blk
        ∧ (g.hpath == some x.cur.path && g.shadows.head?.any (·.runtime)) = true)
    ∧ (∃ x g q, Issues (handling one) (.rett ctl true) ctl x ∧ OnPath (handling one) x g q ∧ x.slots ≠ [] ∧ Quiet (handling one) x.cur.blk
        ∧ (leaveHandler (handling one) x.cur.blk x.cur.who x.cur.path true).isSome = true) := by
  refine ⟨?_, on_of (by decide +kernel), on_of (by decide +kernel)⟩
  intro i hi
  simp only [List.mem_cons, List.mem_nil_iff, or_false] at hi
  obtain rfl | rfl | rfl | rfl | rfl | rfl := hi <;> exact on_of (by decide +kernel)

/-! Memory -/

/-- 2^48 and 2^48 - 4, misaligned, outside the leases, unmapped, not permitted, allowed; SCR up to its end of 1,024 and beyond; PRV beyond 0 bytes. -/
theorem wit_AccessChecksInOrder :
    (issB paged 0 fun i _ => decide (walk paged (tabAsid i.l.asid (2 ^ 48 - 4)) (2 ^ 48 - 4) = none ∧ walk paged (tabAsid i.l.asid 0x30000) 0x30000 = none)
        && (walk paged (tabAsid i.l.asid 0x20000) 0x20000).any (fun k => !(pteAttr k.pte).permits .write i.runtime)
        && (walk paged (tabAsid i.l.asid 0x10000) 0x10000).any (fun k => (pteAttr k.pte).permits .write i.runtime)
        && i.b.v.scr == 2048 && i.l.prv == 0) = true
    ∧ (let s := withL paged fun l => { l with ranges := [(0x10000, 0x10000)], prv := 64 }
       issB s 0 fun i _ => decide (0x20000 / 65536 = 2 ∧ ∀ r ∈ i.l.ranges, ¬(r.1 ≤ 2 * 65536 ∧ 2 * 65536 < r.1 + r.2))
        && i.l.ranges.any (fun r => r.2 != 0) && i.l.prv == 64 && (walk s 0 (prvVa s i .ctl 60)).isNone) = true := by
  decide +kernel

/-- A counter at 32,767; a second lane that fails; all slots pass. -/
theorem wit_LoadsAndStoresIssue :
    let m0 : MemX := { mx with ctr := 0 }
    let full := withC (at_ 0x10000 paged) 0 fun k => { k with ctrs := k.ctrs.set 0 32767 }
    let second := withG (at_ 0x10000 paged) fun g => { g with vregs := g.vregs.set 641 (some 0x30000#32) }
    let check (s : State) (x : Ex) (p : Iss) (w : Want) (sl : Slot) := checkAccess s p .glb sl (addrOf x.r .glb sl 10 0) 4 ⟨w, false, false⟩
    Met full (.ld ctl .glb .b32 false .dflt 6 4 m0) ctl (fun _ p k => !roomB k m0 && full.coh.wc.all fun w => w.cl != p.cl)
    ∧ Met second (.st lane .glb .b32 true .dflt 12 10 mx) lane (fun x p k => roomB k mx && second.coh.wc == []
        && x.slots == [.lane 0 0, .lane 0 1] && (check second x p .write (.lane 0 0)).isNone && check second x p .write (.lane 0 1) == some 7)
    ∧ Met (at_ 0x10000 paged) (.ld lane .glb .b32 false .dflt 12 10 m0) lane (fun x p k => roomB k m0 && x.slots.all fun sl => (check (at_ 0x10000 paged) x p .read sl).isNone)
    ∧ Met (at_ 0x10000 paged) (.st lane .glb .b32 true .dflt 12 10 mx) lane (fun x p k => roomB k mx && paged.coh.wc == []
        && x.slots.all fun sl => (check (at_ 0x10000 paged) x p .write sl).isNone) :=
  ⟨met (by decide +kernel), met (by decide +kernel), met (by decide +kernel), met (by decide +kernel)⟩

/-- A load or store of lane 1 in the window, its line with the cluster. -/
def pending (s : State) (i : Instr) (a : Nat) (got : List (Nat × Line)) : State :=
  withC s 0 fun k => { k with window := [⟨0, 0, 0, 0, i, [⟨.lane 0 1, a⟩], [2], [7], got, false, 0⟩] }

/-- The last word of a line, loaded to v511, and stored. -/
theorem wit_LoadsAndStoresComplete :
    let k := keyOf 0 0x1007C
    let s := pending (lineIn .m 0x10000 paged) (.ld lane .glb .b32 false .dflt 511 10 mx) 0x1007C [(k.line, 5)]
    let t := pending (lineIn .m 0x10000 paged) (.st lane .glb .b32 false .dflt 12 10 mx) 0x1007C []
    (issB s 0 fun i c => c.armed == [] && i.l.rr == none && (c.window.find? fun p => p.id == 0).any fun p =>
        (pendKeys s i p).all (fun q => p.got.any fun g => g.1 == q.line) && pendKeys s i p == [k] && (p.acc.map (·.slot)).Nodup
          && p.acc.all (fun e => e.slot == .lane 0 1 && decide (511 < i.b.v.regs) && (locOf s i .glb e.slot e.addr 4).isSome)) = true
    ∧ (issB t 0 fun i c => c.armed == [] && i.l.rr == none && (c.window.find? fun p => p.id == 0).any fun p =>
        !p.passed && t.coh.wc == [] && !storeOpen t i p && locOf t i .glb (.lane 0 1) 0x1007C 4 == some (.mem 0x1007C) && hasB t i .wr k && (pteOf t k).any pteW) = true := by
  decide +kernel

/-- A load whose page nothing maps; and one that is taken while a request of a later load of its path is out. -/
theorem wit_MemoryFaultsArePrecise :
    let s := pending paged (.ld lane .glb .b32 false .dflt 12 10 mx) 0x30000 []
    let two := withC { s with coh := { s.coh with reqs := [(0, keyOf 0 0x10000, .rds, 0)] } } 0 fun k =>
      { k with window := k.window ++ [⟨1, 0, 12, 0, .ld lane .glb .b32 false .dflt 13 10 mx, [⟨.lane 0 0, 0x10000⟩], [1], [], [], false, 0⟩] }
    let ok (s : State) (ended : Bool) : Bool := issB s 0 fun i c => (c.window.find? fun p => p.id == 0).any fun p => !p.passed && (hdrOf p.instr).isSome
        && (faultOf s i p).any fun f => f.2 == (7, 0x30000) && (pathOf f.1 0 0 p.path).any (fun q => !q.held) && (groupOf f.1 0 0).all (fun g => g.hpath.isNone)
          && requestsEnded f.1 i p.path p.id == ended
    ok s true = true ∧ ok two false = true := by
  decide +kernel

/-- Images at a line held; a page that may not be written, and no page. -/
theorem wit_AccumulatorImagesMove :
    let s := at_ 0x10000 (lineIn .m 0x10000 paged)
    let check (s : State) (x : Ex) (p : Iss) (w : Want) (sl : Slot) := checkAccess s p .glb sl (addrOf x.r .glb sl 10 0) 128 ⟨w, true, false⟩
    Met s (.acld lane .glb 32 10 mx) lane (fun x p k => k.window == [] && roomB k mx && p.l.rr == none
        && x.slots.all fun sl => (check s x p .read sl).isNone && hasB s p .rd (locKey p (addrOf x.r .glb sl 10 0)))
    ∧ Met s (.acst lane .glb true 32 10 mx) lane (fun x p k => k.window == [] && roomB k mx && p.l.rr == none
        && x.slots.all fun sl => (check s x p .write sl).isNone && hasB s p .wr (locKey p (addrOf x.r .glb sl 10 0)))
    ∧ Met (at_ 0x30000 paged) (.acld lane .glb 32 10 mx) lane (fun x p k => k.window == [] && roomB k mx && p.l.rr == none && check (at_ 0x30000 paged) x p .read (.lane 0 0) == some 7)
    ∧ Met (at_ 0x20000 paged) (.acst lane .glb true 32 10 mx) lane (fun x p k => k.window == [] && roomB k mx && p.l.rr == none
        && check (at_ 0x20000 paged) x p .write (.lane 0 0) == some 7) :=
  ⟨met (by decide +kernel), met (by decide +kernel), met (by decide +kernel), met (by decide +kernel)⟩

/-- Both lanes at the last word pair of a line; an address that is misaligned. -/
theorem wit_AtomicsReadModifyAndWrite :
    let ok (s : State) (n : Nat) (x : Ex) (p : Iss) (k : Ctx) : Bool := k.window == [] && roomB k mx && p.l.rr == none && s.coh.wc == []
      && x.slots.all fun sl => let a := addrOf x.r .glb sl 10 0
        (checkAccess s p .glb sl a n ⟨.both, false, true⟩).isNone && locOf s p .glb sl a n == some (.mem a) && hasB s p .wr (locKey p a) && (dirOf s (locKey p a)).st != .ha
    let s := at_ 0x10078 (lineIn .m 0x10000 paged)
    (∀ op ∈ [AtomOp.add, .and, .or, .xor, .smin, .smax, .nmin, .nmax, .exch, .incw, .badd],
      Met s (.atom lane op false (match op with | .smin | .smax => .s64 | _ => .n64) .acqrel 12 10 mx) lane (ok s 8))
    ∧ Met s (.acas lane false .n64 .rlx 12 10 mx) lane (ok s 8)
    ∧ Met (at_ 0x1007A paged) (.acas lane false .n32 .rlx 12 10 mx) lane (fun x p _ =>
        checkAccess (at_ 0x1007A paged) p .glb (.lane 0 0) (addrOf x.r .glb (.lane 0 0) 10 0) 4 ⟨.both, false, true⟩ == some 5)
    ∧ (∀ i ∈ [Instr.atom ctl .badd true .n64 .acqrel 8 4 mx, .acas ctl true .n64 .rlx 8 4 mx],
        Met (at_ 0x10008 paged) i ctl (fun x p k => k.window == [] && roomB k mx && p.l.rr == none && x.slots == [.ctl]
          && (let s := at_ 0x10008 paged
              let a := addrOf x.r .glb .ctl 4 0
              let q := locKey p a
              (checkAccess s p .glb .ctl a 8 ⟨.both, false, true⟩).isNone && locOf s p .glb .ctl a 8 == some (.mem a) && kindOf s q == some .cached
                && s.coh.wc == [] && (gatherHomes s p [q]).2 == .ok
                && (match (homeTake (gatherHomes s p [q]).1 q).2 with | .ok _ bad => !bad | _ => false)
                && (hostAddr (homeTake (gatherHomes s p [q]).1 q).1 q).isNone))) := by
  refine ⟨?_, met (by decide +kernel), met (by decide +kernel), ?_⟩
  rotate_left
  · intro i h
    simp only [List.mem_cons, List.mem_nil_iff, or_false] at h
    obtain rfl | rfl := h <;> exact met (by decide +kernel)
  intro op h
  simp only [List.mem_cons, List.mem_nil_iff, or_false] at h
  obtain rfl | rfl | rfl | rfl | rfl | rfl | rfl | rfl | rfl | rfl | rfl := h <;> exact met (by decide +kernel)

/-- Both lanes add to one line in state A, at SEQ 0 and at SEQ 2,047. -/
theorem wit_ContributionsEnterPartials :
    let ok (s : State) (x : Ex) (p : Iss) (k : Ctx) : Bool := k.window == [] && roomB k mx && p.l.rr == none && s.coh.wc == []
      && decide (1024 ≤ (k.hwm + 2048 - k.seq % 2048) % 2048) && x.slots.length == 2
      && x.slots.all fun sl => let a := addrOf x.r .glb sl 10 0
        (checkAccess s p .glb sl a 128 ⟨.write, true, false⟩).isNone && hasB s p .acc (locKey p a) && !waitsAtCluster s p.cl (locKey p a) (x.cur.blk, x.cur.who, x.cur.path) && !ownHeld s x.cur [locKey p a]
          && (lineOf s p.cl (locKey p a)).any fun l => l.part.la == La.ofImage (La.toImage La.zero)
    let s := at_ 0x10000 (lineIn .a 0x10000 paged)
    let t := withC s 0 fun k => { k with seq := 2047, hwm := 2046 }
    Met s (.aadd lane (.val .f32) true 12 10 mx) lane (ok s) ∧ Met s (.aadd lane (.prod .f64) false 12 10 mx) lane (ok s)
    ∧ Met t (.aadd lane .la false 32 10 mx) lane (ok t) :=
  ⟨met (by decide +kernel), met (by decide +kernel), met (by decide +kernel)⟩

/-- A store of lane 1 to a page that is mapped, issued and not performed, before order `n`. -/
def stored (n : Nat) : State :=
  withC (pending paged (.st lane .glb .b32 false .dflt 12 10 mx) 0x10000 []) 0 fun k => { k with order := n }

/-- A counter at its threshold and above it; sums of 32,767 and 32,768; fences with nothing owed, with an access owed, and with none named. -/
theorem wit_CountersWaitsAndFences :
    let c (v : Int) := withC one 0 fun k => { k with ctrs := k.ctrs.set 2 v }
    let none_ : MemX := { mx with stor := ⟨false, false, false, false⟩ }
    Met (c 3) (.waitc ctl 2 (.imm 3)) ctl (fun _ _ k => decide (k.ctrs.getD 2 0 ≤ 3))
    ∧ Met (c 4) (.waitc ctl 2 (.imm 3)) ctl (fun _ _ k => decide (3 < k.ctrs.getD 2 0))
    ∧ Met (c 1) (.cadd ctl 2 (.imm 32766)) ctl (fun _ _ k => decide (k.ctrs.getD 2 0 + 32766 = 32767) && k.armed == [])
    ∧ Met (c 2) (.cadd ctl 2 (.imm 32766)) ctl (fun _ _ k => decide (k.ctrs.getD 2 0 + 32766 = 32768))
    ∧ Met (owing one 0) (.fence ctl .rel none_) ctl (fun _ _ k => k.window != [])
    ∧ Met (stored 7) (.fence ctl .acq mx) ctl (fun x p k => k.window.length == 1
        && k.window.all fun q => masksMeet q.thr (threadsOf true x.mask x.slots) && (pendClasses (stored 7) p q).any (storHolds mx.stor)
          && match q.instr with | .st .. => true | _ => false)
    ∧ Met (stored 7) (.fence ctl .rel { mx with scope := .die }) ctl (fun x p k => (stored 7).coh.wc == []
        && k.window.all fun q => masksMeet q.thr (threadsOf true x.mask x.slots) && (pendClasses (stored 7) p q).any (storHolds mx.stor)
          && decide (q.id < k.order) && !performedAt (stored 7) p .die q)
    ∧ Met (owing one 0) (.fence ctl .acqrel mx) ctl (fun x p k => one.coh.wc == []
        && k.window.all fun q => masksMeet q.thr (threadsOf true x.mask x.slots) && (pendClasses (owing one 0) p q).any (storHolds mx.stor)
          && match q.instr with | .st .. => false | _ => true)
    ∧ Met one (.fence ctl .rel mx) ctl (fun _ _ k => k.window == [] && one.coh.wc == []) :=
  ⟨met (by decide +kernel), met (by decide +kernel), met (by decide +kernel), met (by decide +kernel), met (by decide +kernel),
    met (by decide +kernel), met (by decide +kernel), met (by decide +kernel), met (by decide +kernel)⟩

/-- The eight words of a copy's descriptor in g8 to g15. -/
def desc (s : State) (who w : Nat) : State := withR s who ((List.range 8).map fun j => (8 + j, BitVec.ofNat 32 (w / 2 ^ (32 * j))))

/-- SCR 0 to SCR 64, one row of 64 bytes, with counter 0. -/
def scrCopy : Nat := 2 ^ 48 + 64 * 2 ^ 64 + 2 ^ 112 + 64 * 2 ^ 128 + 2 ^ 160

/-- A sealed batch with a copy, or a failed one; sixteen open batches. -/
def batches (n : Nat) (c f : Bool) : State :=
  withC one 0 fun k => { k with batch := n, copies := if c then (List.range n).map fun j => ⟨j, 0, j + 1, 0, false, 0, false⟩ else [], fails := if f then [⟨0, 1, 7, 0⟩] else [] }

theorem wit_CopiesBatchesAndDeposits :
    let s := desc one 0 scrCopy
    let full := withC s 0 fun k => { k with copies := (List.range 64).map fun j => ⟨j, 0, 1, 0, false, 0, false⟩ }
    let ctr := withC s 0 fun k => { k with ctrs := k.ctrs.set 0 32767 }
    Met (desc one 0 (scrCopy + 2 ^ 52)) (.cpy ctl 8) ctl (fun x p _ => let D := copyOf (x.r.rdN .ctl 8 8); D.reserved != 0 && copyCheck (desc one 0 (scrCopy + 2 ^ 52)) p D == some (3, 0))
    ∧ Met full (.cpy ctl 8) ctl (fun x p k => copyCheck full p (copyOf (x.r.rdN .ctl 8 8)) == none && k.copies.length == 64)
    ∧ Met ctr (.cpy ctl 8) ctl (fun x p k => copyCheck ctr p (copyOf (x.r.rdN .ctl 8 8)) == none && k.ctrs.getD 0 0 == 32767)
    ∧ Met s (.cpy ctl 8) ctl (fun x p k => copyCheck s p (copyOf (x.r.rdN .ctl 8 8)) == none && decide (k.copies.length < 64) && (copyOf (x.r.rdN .ctl 8 8)).ctr == 0)
    ∧ Met (batches 15 true false) (.seal ctl 6) ctl (fun _ _ k => (sealedOpen k).length == 15)
    ∧ Met (batches 16 true false) (.seal ctl 6) ctl (fun _ _ k => (sealedOpen k).length == 16)
    ∧ Met one (.cbw ctl (.imm 1)) ctl (fun _ _ k => (1 + 2 ^ 32 - k.batch) % 2 ^ 32 == 1)
    ∧ Met (batches 1 true false) (.cbw ctl (.imm 1)) ctl (fun _ _ k => k.batch == 1 && k.copies.any fun q => q.batch == 1)
    ∧ Met (batches 1 false false) (.cbw ctl (.imm 1)) ctl (fun _ _ k => k.batch == 1 && k.copies == [] && k.fails == [])
    ∧ Met (batches 1 false true) (.cbw ctl (.imm 1)) ctl (fun _ _ k => k.batch == 1 && k.copies == [] && k.fails == [⟨0, 1, 7, 0⟩] && k.window == [])
    ∧ Met (withR one 0 [(4, 0x10000000)]) (.dep ctl .b32 4 (.imm 1)) ctl (fun x _ _ => (x.r.rd .ctl 4).toNat / 2 ^ 28 % 16 == 1)
    ∧ (∀ w ∈ [(0 : Word), 127], Met (withR one 0 [(4, w)]) (.dep ctl .b32 4 (.imm 1)) ctl (fun x p k => let w := (x.r.rd .ctl 4).toNat
        w / 2 ^ 28 % 16 == 0 && w / 2 ^ 7 % 2 ^ 9 == 0 && (planOf one p.b.cohort).any (fun m => m.inCoh == w / 2 ^ 16 % 16) && decide (w / 2 ^ 20 % 16 < p.b.groups.length) && k.window == []))
    ∧ (let o := withR (owing one 0) 0 [(4, 0)]
       Met o (.dep ctl .b64 4 (.imm 1)) ctl (fun x p k => (planOf one p.b.cohort).any (fun m => m.inCoh == 0) && decide (0 < p.b.groups.length)
        && x.r.rd .ctl 4 == 0 && !(release o p (x.mask.map fun _ => BitVec.allOnes 64) storScrGlb .coh k.order).2)) := by
  refine ⟨met (by decide +kernel), met (by decide +kernel), met (by decide +kernel), met (by decide +kernel), met (by decide +kernel), met (by decide +kernel),
    met (by decide +kernel), met (by decide +kernel), met (by decide +kernel), met (by decide +kernel), met (by decide +kernel), ?_, met (by decide +kernel)⟩
  intro w h
  simp only [List.mem_cons, List.mem_nil_iff, or_false] at h
  obtain rfl | rfl := h <;> exact met (by decide +kernel)

/-- A line there for each mode and an unmapped one; DISC of 0, 1 and 4,097 granules and of a misaligned one; an address inside the
leases; a table entry beyond the table and one read. -/
theorem wit_HintsQueriesDiscardsAndRegions :
    let s := at_ 0x10000 (lineIn .m 0x10000 paged)
    let n (v : Word) (s : State) := withR s 0 [(6, v)]
    let regs := withL { paged with coh := { paged.coh with icache := [(0, keyOf 0 0x10000, 0x8001, true)] } } fun l => { l with k := { l.k with rcnt := 1, rtab := 0x10000 } }
    Met s (.pref lane .s 10 mx) lane (fun x p k => roomB k mx && x.slots.all fun sl => let a := addrOf x.r .glb sl 10 0
        p.l.covers a 1 && (pteOf s (locKey p a)).any (fun pte => s.mem.backed (keyPa (locKey p a) pte) && (pteAttr pte).permits .read p.runtime)
          && (lineOf s p.cl (locKey p a)).isSome && kindOf s (locKey p a) == some .cached)
    ∧ Met s (.pref lane .x 10 mx) lane (fun x p k => roomB k mx && x.slots.all fun sl => let a := addrOf x.r .glb sl 10 0
        p.l.covers a 1 && (pteOf s (locKey p a)).any (fun pte => s.mem.backed (keyPa (locKey p a) pte) && (pteAttr pte).permits .both p.runtime) && hasB s p .wr (locKey p a))
    ∧ Met (at_ 0x20000 paged) (.pref lane .wbi 10 mx) lane (fun x p k => roomB k mx && x.slots.all fun sl => let a := addrOf x.r .glb sl 10 0; let q := locKey p a
        p.l.covers a 1 && (pteOf paged q).any (fun pte => paged.mem.backed (keyPa q pte) && (pteAttr pte).permits .read p.runtime) && kindOf paged q == some .cached
          && (lineOf paged p.cl q).isNone && paged.coh.net == [] && !reqOut paged p.cl q && !wbPending paged p.cl q)
    ∧ (let t := at_ 0x20000 paged
       Met t (.pref lane .s 10 { mx with ctr := 0 }) lane (fun x p k => roomB k { mx with ctr := 0 } && x.slots.all fun sl => let a := addrOf x.r .glb sl 10 0; let q := locKey p a
        decide (a < 2 ^ 48) && p.l.covers a 1 && q == keyOf 0 0x20000 && (pteOf t q).any (fun pte => t.mem.backed (keyPa q pte) && (pteAttr pte).permits .read p.runtime)
          && kindOf t q == some .cached && (takeRefusal t p.cl q).isNone && (lineOf t p.cl q).isNone && !wbPending t p.cl q))
    ∧ Met (at_ 0x30000 paged) (.pref lane .s 10 mx) lane (fun x p k => roomB k mx && x.slots.all fun sl => (pteOf paged (locKey p (addrOf x.r .glb sl 10 0))).isNone)
    ∧ Met (n 4097 s) (.disc ctl 4 6 mx) ctl (fun x _ _ => (x.r.rd .ctl 6).toNat == 4097)
    ∧ Met (n 4096 (at_ 0x10080 paged)) (.disc ctl 4 6 mx) ctl (fun x _ _ => (x.r.rd .ctl 6).toNat == 4096 && addrOf x.r .glb .ctl 4 0 == 0x10080)
    ∧ Met (n 0 s) (.disc ctl 4 6 mx) ctl (fun _ _ k => roomB k mx && k.window == [] && s.links.pods == [] && s.coh.ucs == [] && s.coh.discs == [])
    ∧ Met (n 1 (at_ 0x10000 paged)) (.disc ctl 4 6 mx) ctl (fun x p k => (discCheck (n 1 (at_ 0x10000 paged)) p 0x10000 1).isNone && roomB k mx && k.window == []
        && granuleKeys (n 1 (at_ 0x10000 paged)) p.l.asid 0x10000 == [] && (pteOf paged (keyOf p.l.asid 0x10000)).any (fun e => decide (paTarget (pteFrame e * 65536) ≤ 7)) && paged.motion.moves == []
        && paged.coh.discs == [] && !(podWrites paged x.cur.blk x.cur.who k.order).2)
    ∧ Met (n 1 (at_ 0x10080 paged)) (.mhint ctl (.h 0) 4 6 mx) ctl (fun x _ _ => addrOf x.r .glb .ctl 4 0 == 0x10080)
    ∧ Met (n 0 s) (.mhint ctl (.l true) 4 6 mx) ctl (fun x _ _ => (x.r.rd .ctl 6).toNat == 0)
    ∧ Met (n 1 s) (.mhint ctl (.h 0) 4 6 mx) ctl (fun _ p _ => p.l.covers 0x10000 65536 && offerMove (n 1 s) p.l.asid 0x10000 (.h 0) false == .ignored)
    ∧ Met s (.lqry lane 2 10 mx) lane (fun _ p _ => p.l.ranges == [])
    ∧ Met s (.region ctl 0) ctl (fun _ p _ => p.l.k.rcnt == 0)
    ∧ Met regs (.region ctl 0) ctl (fun x p _ => p.l.k.rcnt == 1 && x.cur.who == 0 && (regs.coh.icache.find? fun e => e.1 == 64 * p.b.die + p.b.core && e.2.1 == keyOf p.l.asid 0x10000).any
        fun e => e.2.2.2 && (List.range 64).all fun j => e.2.2.1.toNat / 2 ^ (16 * j) % 2 ^ 16 / 2 ^ 9 % 2 ^ 6 == 0) :=
  ⟨met (by decide +kernel), met (by decide +kernel), met (by decide +kernel), met (by decide +kernel), met (by decide +kernel), met (by decide +kernel),
    met (by decide +kernel), met (by decide +kernel), met (by decide +kernel), met (by decide +kernel), met (by decide +kernel), met (by decide +kernel),
    met (by decide +kernel), met (by decide +kernel), met (by decide +kernel)⟩

/-- A line that its idle home fetches, for both lanes, with and without `.clr`. -/
theorem wit_AccumulatorLinesAreRead :
    let s := at_ 0x10000 paged
    let keys := [keyOf 0 0x10000]
    ∀ clr : Bool, Met s (.afin lane true clr .f32 .rne false 12 10 mx) lane (fun x p k => k.window == [] && roomB k mx && p.l.rr == none
      && x.slots.all (fun sl => (checkAccess s p .glb sl (addrOf x.r .glb sl 10 0) 128 ⟨if clr then .both else .read, true, false⟩).isNone)
      && keysOf p 128 (locsOf s p .glb 128 (accessesOf x.r .glb 10 0 x.slots)) == keys
      && (gatherHomes s p keys).2 == .ok && (match (homeTake (gatherHomes s p keys).1 (keyOf 0 0x10000)).2 with | .ok _ p => !p | _ => false)) := by
  intro s keys clr
  cases clr <;> exact met (by decide +kernel)

/-! Completions, tasks and switch points -/

/-- One copy of a descriptor handed over by the group. -/
def copying (s : State) (w : Nat) : State := withC s 0 fun k => { k with copies := [⟨0, BitVec.ofNat 256 w, 1, 0, false, 0, false⟩] }

/-- A deposit of 7 to g127 and c15 of the group, and that counter at `v`. -/
def depositing (v : Int) : State :=
  withC { one with work := { one.work with deposits := [⟨5, 0, 0, 0, 0, 0, 127, true, 7, 15⟩] } } 0 fun k => { k with ctrs := k.ctrs.set 15 v }

/-- SCR to SCR, whole and with no row; from a page that nothing maps; in a freeze; a deposit at the last counter value that takes it;
a path whose cycles have just passed. -/
theorem wit_CopiesDepositsAndSleepsEnd :
    let frozen := copying { one with power := { one.power with frozen := true } } scrCopy
    let whole := copying one scrCopy
    let none_ := copying one (scrCopy - 2 ^ 160)
    let absent := copying paged (scrCopy - 2 ^ 48 + 0x30000)
    let ready (s : State) (p : Iss) (k : Ctx) (f : CopyRec → Iss → Bool) : Bool := k.armed == [] && k.window == [] && s.coh.wc == [] && s.links.pods == []
      && (k.copies.find? fun q => q.id == 0).any fun y => !y.sent && f y { p with runtime := y.runtime }
    issB frozen 0 (fun p k => ready frozen p k fun _ _ => frozen.power.frozen) = true
    ∧ issB whole 0 (fun p k => ready whole p k fun y r => !whole.power.frozen && y.rows == 0 && decide (p.b.scr.Pairwise fun a b => a.1 < b.1)
        && (let D := copyOf y.desc.toNat; D.ssp == 1 && D.dsp == 1 && D.conv == 0 && D.rows == 1 && D.rowb == 64)
        && (match copyTo whole r y 65535 with
          | (u, .ok) => !(podWrites u 0 0 0).2 && (ctxOf u 0 0).any fun k => k.armed == []
          | _ => false)) = true
    ∧ issB none_ 0 (fun p k => ready none_ p k fun y _ => (copyOf y.desc.toNat).rows == 0) = true
    ∧ issB absent 0 (fun p k => ready absent p k fun y r => (let D := copyOf y.desc.toNat
        D.ssp == 0 && D.dsp == 1 && D.conv == 0 && D.rows == 1 && D.rowb == 64 && (match gPlace absent r D.src (min D.rowb (128 - D.src % 128)) .read with | .bad 7 => true | _ => false))
        && (match copyTo absent r y 65535 with
          | (u, .fail 7 0x30000) => (ctxOf u 0 0).any fun k => k.armed == []
          | _ => false)) = true
    ∧ (let s := depositing (-32767)
       (s.work.deposits.find? (fun e => e.id == 5)).any (fun d => d.grp != 16 && (memberOf s d.cohort d.inCoh).any (fun b => blockOf s b.uid == some b)
        && (ctxOf s 0 d.grp).any (fun k => k.armed == [] && decide (-32768 < k.ctrs.getD d.ctr 0)) && (regsOf s 0 d.grp).isSome) = true)
    ∧ (let s := withP { one with sched := { one.sched with cycle := 9 } } fun q => { q with st := .sleep, wake := 9 }
       (pathOf s 0 0 0).any (fun q => q.st == .sleep && decide (q.wake ≤ s.sched.cycle) && !s.power.frozen) = true) := by
  decide +kernel

/-- An address pair in g4:g5, a word in g6, a record in g8 to g15. -/
def names (s : State) (a w rec_ : Nat) : State :=
  withR s 0 ([(4, BitVec.ofNat 32 a), (5, 0), (6, BitVec.ofNat 32 w)] ++ (List.range 8).map fun j => (8 + j, BitVec.ofNat 32 (rec_ / 2 ^ (32 * j))))

/-- Queue 0 of 4 records at 0x10400, of which `n` wait. -/
def queued (n : Nat) (s : State) : State :=
  { s with work := { s.work with qbase := s.work.qbase.set 0 0x10400, qsize := s.work.qsize.set 0 4, qtail := s.work.qtail.set 0 n } }

/-- A join object at 0x10000 with COUNT 1, and a waiting record when `w` is 1. -/
def joinAt (w : Nat) (s : State) : State := { s with mem := { s.mem with cells := Memory.write s.mem.cells 0x1010000 16 (1 + w * 2 ^ 64) } }

/-- The path of the group as issuer besides. -/
def pathB (s : State) (x : Ex) (f : Group → Path → Bool) : Bool :=
  x.cur.who != bmsWho && (groupOf s x.cur.blk x.cur.who).any fun g => (g.paths[x.cur.path]?).any fun q => q.st == .ready && q.pc == x.cur.pc && f g q

/-- SWPT on a path alone in its block; SUSPEND at once, behind a counter, and at an address that is no object; SIGNAL that fires, that
does not, that waits; SPAWN and LAUNCH with room, with none, to queue 64, of another KIND, and behind an access. -/
theorem wit_TasksAndSwitchPoints :
    let free (s : State) (p : Iss) (k : Ctx) : Bool := k.window == [] && s.coh.wc.all fun w => w.cl != p.cl
    let lone := withB one fun b => { b with bms := none }
    let obj := names paged 0x10000 0x10000 0
    let behind := names paged 0x10000 (2 ^ 16 + 3 * 2 ^ 17 + 5 * 2 ^ 21) 0
    let odd := names paged 0x10020 0 0
    let fire := queued 0 (joinAt 1 (names paged 0x10000 1 0))
    let keep := joinAt 0 (names paged 0x10000 1 0)
    let roomy := queued 2 (names paged 0x10000 0 0)
    let full := queued 3 (names paged 0x10000 0 0)
    let launch := queued 2 (names paged 0x10000 0 (3 * 2 ^ 252))
    Met lone (.swpt ctl 7) ctl (fun x p k => pathB lone x (fun g q => k.window == [] && lone.work.blocks == [p.b] && p.b.groups == [g] && p.b.bms == none && g.tokens == []
        && g.paths.length == 8 && (List.range 8).all (fun j => j == x.cur.path || (g.paths[j]?).any fun r => r.st == .free && r.wait == .none)
        && (cohortOf lone p.b.cohort).all (fun y => !y.yield) && !p.b.broken && q.trap == none))
    ∧ Met obj (.suspend ctl 4 6) ctl (fun x p k => pathB obj x fun _ _ => joinCheck obj p 0x10000 == none && decide (x.r.rdN .ctl 4 2 = 0x10000)
        && !decide (0 < k.ctrs.getD 0 0))
    ∧ Met (withC behind 0 fun k => { k with ctrs := k.ctrs.set 3 6 }) (.suspend ctl 4 6) ctl (fun x p k => pathB behind x fun _ _ => joinCheck behind p 0x10000 == none
        && sextN 11 ((x.r.rd .ctl 6).toNat / 2 ^ 21) == 5 && decide (5 < k.ctrs.getD 3 0))
    ∧ Met odd (.suspend ctl 4 6) ctl (fun x p _ => pathB odd x fun _ _ => decide (x.r.rdN .ctl 4 2 % 64 ≠ 0) && joinCheck odd p 0x10020 == some 5)
    ∧ Met odd (.signal ctl 4 6) ctl (fun _ p _ => joinCheck odd p 0x10020 == some 5)
    ∧ Met (owing obj 0) (.signal ctl 4 6) ctl (fun x p _ => joinCheck (owing obj 0) p 0x10000 == none && !(sysRelease (owing obj 0) p x).2)
    ∧ Met fire (.signal ctl 4 6) ctl (fun x p k => free fire p k && joinCheck fire p 0x10000 == none && (takeRefusal fire p.cl (keyOf 0 0x10000)).isNone
        && (match joinLine fire p.l.asid 0x10000 with
          | (s1, .ok l false) => let v := lineGet l 0 64
            v % 2 ^ 32 == 1 && v / 2 ^ 64 % 2 == 1 && (x.r.rd .ctl 6).toInt == 1 && (queueAppend s1 (v / 2 ^ 66 % 64) (v / 2 ^ 256) p.l.asid 0).2
          | _ => false))
    ∧ Met keep (.signal ctl 4 6) ctl (fun _ p k => free keep p k && joinCheck keep p 0x10000 == none && (takeRefusal keep p.cl (keyOf 0 0x10000)).isNone
        && (match joinLine keep p.l.asid 0x10000 with | (_, .ok l false) => lineGet l 0 64 == 1 | _ => false))
    ∧ Met roomy (.spawn ctl 8 6) ctl (fun x p k => free roomy p k && x.r.rdN .ctl 8 8 / 2 ^ 252 == 0 && (x.r.rd .ctl 6).toNat == 0 && (engWrite roomy (0x10400 + 64) 32 0).2)
    ∧ Met full (.spawn ctl 8 6) ctl (fun x p k => free full p k && x.r.rdN .ctl 8 8 / 2 ^ 252 == 0 && (x.r.rd .ctl 6).toNat == 0 && full.work.qtail.get? 0 == some 3)
    ∧ Met launch (.launch ctl 8 6) ctl (fun x p k => free launch p k && x.r.rdN .ctl 8 8 / 2 ^ 252 == 3 && (x.r.rd .ctl 6).toNat == 0
        && (engWrite launch (0x10400 + 64) 32 (x.r.rdN .ctl 8 8)).2)
    ∧ Met roomy (.launch ctl 8 6) ctl (fun x _ _ => x.r.rdN .ctl 8 8 / 2 ^ 252 != 3)
    ∧ Met (names one 0 64 0) (.spawn ctl 8 6) ctl (fun x _ _ => decide (64 ≤ (x.r.rd .ctl 6).toNat))
    ∧ Met (owing roomy 0) (.spawn ctl 8 6) ctl (fun x p _ => x.r.rdN .ctl 8 8 / 2 ^ 252 == 0 && (x.r.rd .ctl 6).toNat == 0 && !(sysRelease (owing roomy 0) p x).2) :=
  ⟨met (by decide +kernel), met (by decide +kernel), met (by decide +kernel), met (by decide +kernel), met (by decide +kernel), met (by decide +kernel),
    met (by decide +kernel), met (by decide +kernel), met (by decide +kernel), met (by decide +kernel), met (by decide +kernel), met (by decide +kernel),
    met (by decide +kernel), met (by decide +kernel)⟩

/-! Collectives -/

/-- The sequencer of the block over the mapped pages. -/
def pagedBms : State := { paged with sched := { paged.sched with cur := some ⟨0, 16, 0, 0, 0⟩ } }

/-- A descriptor: three members, this one of a rank, chunks of 32 elements in a tree of fan-in 2 from rank 0, a deadline of 1,000 ns,
communicator 7, the member table at 0x10000 and the progress vector at 0x10400. -/
def collDesc (rank : Nat) : Nat :=
  3 + rank * 2 ^ 16 + 32 * 2 ^ 48 + 2 ^ 64 + 2 ^ 66 + 7 * 2 ^ 96 + 1000 * 2 ^ 128 + 0x10000 * 2 ^ 192 + 0x10400 * 2 ^ 256

/-- The y tile 0 of float32 values, reduced. -/
def cx : CollX := ⟨.rne, false, .fp .f32, .yTile 0⟩

/-- The descriptor at SCR 0 and the barrier object at SCR 64 with a value; s4 and s5 name them, s6 the object. -/
def described (rank o : Nat) : State :=
  withR (scrWrite (scrWrite (withB pagedBms fun b => { b with v := { b.v with scr := 262144 }, ytiles := List.replicate 8 ⟨none, []⟩ }) 0 0 64 (collDesc rank)) 0 64 16 o)
    16 [(4, 0), (5, 64), (6, 64)]

/-- The collective of that descriptor, at epoch 1. -/
def member (rank : Nat) : Coll := { Machine.collOf .ared cx (collDesc rank) 64 0 0 1 with members := [5, 6, 7] }

def withColls (s : State) (l : List Coll) : State := withM s fun m => { m with colls := l }

/-- Objects that are misaligned, beyond the scratchpad, aborted, complete, never set up, and incomplete; a descriptor out of place; four
collectives that are incomplete; one that can start; one that can recover. -/
theorem wit_CollectivesAreIssuedAndAwaited :
    let s := described 0 0
    let at_ (v : Word) := withR s 16 [(6, v)]
    let four := withColls s ((List.range 4).map fun n => { member 0 with abo := 128 + 16 * n, commid := 20 + n })
    let old := withColls (described 0 (2 ^ 65 + 2 ^ 96)) [{ member 0 with aborted := true }]
    let odd := withR s 16 [(4, 32)]
    let C (s : State) (x : Ex) : Coll := (collRead s x .ared cx 4).2.2
    let check (s : State) (x : Ex) (p : Iss) (again : Bool) := collCheck s p (C s x) (collRead s x .ared cx 4).2.1 (collRead s x .ared cx 4).1 again
    let reads (s : State) (x : Ex) (p : Iss) : Bool := match spanRead s p ((C s x).access 0) (C s x).mtab (8 * (C s x).n) with
      | (t, .ok, _, _) => blockOf t 0 == some p.b && t.links.heldMsgs == []
      | _ => false
    Met (at_ 72) (.abw ctl 6) ctl (fun x _ _ => (x.r.rd .ctl 6).toNat == 72)
    ∧ Met (at_ 262136) (.abw ctl 6) ctl (fun x p _ => (x.r.rd .ctl 6).toNat == 262136 && p.b.v.scr == 262144)
    ∧ Met (at_ 262144) (.abw ctl 6) ctl (fun x p _ => (x.r.rd .ctl 6).toNat % 16 == 0 && decide (p.b.v.scr < (x.r.rd .ctl 6).toNat + 16))
    ∧ Met (described 0 (2 ^ 65)) (.abw ctl 6) ctl (fun _ _ _ => scrRead (described 0 (2 ^ 65)) 0 64 16 / 2 ^ 65 % 2 == 1)
    ∧ Met s (.abw ctl 6) ctl (fun _ _ _ => scrRead s 0 64 16 == 0)
    ∧ Met (described 0 (3 + 3 * 2 ^ 32)) (.abw ctl 6) ctl (fun _ _ _ => scrRead (described 0 (3 + 3 * 2 ^ 32)) 0 64 16 == 3 + 3 * 2 ^ 32)
    ∧ Met (described 0 (3 + 2 * 2 ^ 32)) (.abw ctl 6) ctl (fun _ _ _ => scrRead (described 0 (3 + 2 * 2 ^ 32)) 0 64 16 == 3 + 2 * 2 ^ 32)
    ∧ Met odd (.coll ctl .ared cx 4) ctl (fun x p _ => check odd x p false == some (5, 32))
    ∧ Met four (.coll ctl .ared cx 4) ctl (fun x p _ => (check four x p false).isNone && ((p.b.bms.map (·.colls)).getD []).countP (·.open_) == 4)
    ∧ Met s (.coll ctl .ared cx 4) ctl (fun x p _ => (check s x p false).isNone && reads s x p && decide (p.b.scr.Pairwise fun a b => a.1 < b.1)
        && (C s x).reduces && (List.range (C s x).chunks).all fun q => (C s x).inputs ((C s x).pos q (C s x).rank) != [])
    ∧ Met s (.crec ctl .ared cx 4) ctl (fun x p _ => check s x p true == some (3, 0))
    ∧ Met old (.crec ctl .ared cx 4) ctl (fun x p _ => (check old x p true).isNone && reads old x p && decide (p.b.scr.Pairwise fun a b => a.1 < b.1)
        && decide (2 ≤ (C old x).n ∧ (C old x).rank < (C old x).n) && (((p.b.bms.map (·.colls)).getD []).find? fun d => d.abo == (C old x).abo).isSome) :=
  ⟨met (by decide +kernel), met (by decide +kernel), met (by decide +kernel), met (by decide +kernel), met (by decide +kernel), met (by decide +kernel),
    met (by decide +kernel), met (by decide +kernel), met (by decide +kernel), met (by decide +kernel), met (by decide +kernel), met (by decide +kernel)⟩

/-- The zero images of a chunk, and their packet. -/
def zeros : List LaImage := List.replicate 32 (La.toImage La.zero)

/-- Block 0 with one collective, at which a message waits. -/
def receiving (c : Coll) (m : CollMsg) : State :=
  let s := withColls (described c.rank (2 ^ 96)) [c]
  { s with links := { s.links with heldMsgs := [(0, m)] }, sched := { s.sched with time := [2000, 0, 0, 0, 0, 0], ns := 1000000 } }

/-- A partial of rank 1 for chunk 0. -/
def part (epoch : Nat) (ps : List (List Byte)) : CollMsg := ⟨7, epoch, 3, 0, 1, 1, .partials ps true 0 []⟩

/-- Messages of an earlier epoch, malformed, added before, late, and expected; a deadline that has passed; a step that closes at a leaf
and at the root; a member that has owed an input for 1 ms. -/
theorem wit_CollectivesTakeMessagesAndStop :
    let c : Coll := { member 0 with parts := [(0, zeros)], opened := [(0, (1000, 0))] }
    let leaf : Coll := { member 1 with parts := [(0, zeros)] }
    let ok (s : State) (c : Coll) (m : CollMsg) (f : Iss → Block → Bool) : Bool := issB s 16 fun p _ => (blockOf s 0).any fun b =>
      (b.bms.any fun n => n.colls == [c]) && decide (b.scr.Pairwise fun a b => a.1 < b.1) && takeSent s b m == some s && f p b
    let takes (c : Coll) (m : CollMsg) : Bool := m.commid == c.commid && !c.aborted && !c.recovering
    let input (c : Coll) (m : CollMsg) : Bool := takes c m && m.epoch == c.epoch && m.n == c.n && decide (m.src < c.n) && c.reduces && decide (m.chunk < c.chunks)
      && (c.inputs (c.pos 0 c.rank)).contains (c.pos 0 m.src) && m.step == c.closes (c.pos 0 m.src)
    let good := part 1 (packAll zeros)
    let whole : Bool := (unpackAll (packAll zeros) (c.span 0).2).isSome
    let dup : Coll := { c with srcs := [(0, [(1, 1)])] }
    let done : Coll := { c with prog := [(0, (1, false))] }
    let s := receiving c good
    ok (receiving c (part 0 [])) c (part 0 []) (fun _ _ => takes c (part 0 []) && earlier 0 c.epoch) = true
    ∧ ok (receiving c (part 1 [])) c (part 1 []) (fun _ _ => input c (part 1 []) && (unpackAll [] (c.span 0).2).isNone) = true
    ∧ ok (receiving dup good) dup good (fun _ _ => input dup good && whole && ((dup.srcs.get? 0).getD []).contains (1, 1)) = true
    ∧ ok (receiving done good) done good (fun _ _ => input done good && whole && (done.srcs.get? 0).isNone && decide (done.closes 0 ≤ (done.at_ 0).1)) = true
    ∧ ok s c good (fun p b => input c good && whole && !(c.at_ 0).2 && decide ((c.at_ 0).1 < c.closes 0) && c.inputs 0 == [1, 2] && c.rankAt 0 2 == 2
        && scrRead s 0 64 16 / 2 ^ 96 % 2 ^ 32 == c.epoch
        && c.waiting 0 && c.deadline != 0 && decide (((c.opened.get? 0).getD (0, 0)).1 + c.deadline ≤ s.sched.time.getD b.die 0)
        && (closeReduce (aboMark s 0 c.abo c.epoch true) p c 0).2.isSome) = true
    ∧ ok (receiving leaf good) leaf good (fun p _ => leaf.pos 0 leaf.rank == 1 && (objPut (receiving leaf good) p (leaf.access 3) leaf.pvec 4 1).2) = true
    ∧ ok s c good (fun p b => c.pos 0 c.rank == 0 && decide (0 < b.ytiles.length) && (closeReduce s p c 0).2.isSome) = true
    ∧ ok s c good (fun _ b => s.work.blocks == [b] && s.work.away.isEmpty && c.working && !s.power.frozen && (c.owing 0).any c.members.contains
        && (c.opened.get? 0).any fun o => decide (o.2 + 1000000 ≤ s.sched.ns)) = true := by
  decide +kernel

/-! The matrix unit -/

/-- The sequencer's block with all its tiles zeroed and the whole scratchpad. -/
def zeroed (s : State) : State :=
  withB s fun b => { b with v := { b.v with scr := 262144 }, ztiles := List.replicate 8 ⟨true, 0, []⟩, ytiles := List.replicate 8 ⟨none, []⟩ }

/-- A matrix instruction in progress at a pass or row. -/
def atRow (s : State) (n : Nat) (i : Instr) : State := withM s fun m => { m with prog := some (n, i) }

/-- Elements that a pass can take as they are. -/
def canonZ (b : Block) (m : Nat) : Bool :=
  (List.range 64).all fun r => (List.range 64).all fun q => let e := (zTileOf b m).el r q
    e.s == wrapS e.s && decide (e.st.count < 65536 ∧ e.st.ninf < 128 ∧ e.st.pinf < 128)

/-- MZ of tiles 7 and 8, and of tile 7; a reserved format; y tiles and formats that do not fit; tiles that a collective holds; both
kinds of product that can start; metadata beyond its 24 bits; the last pass of four. -/
theorem wit_MatrixPassesContributeProducts :
    let s := zeroed oneBms
    let reg (n : Nat) (v : Word) (s : State) := withR s 16 [(n, v)]
    let ok := Instr.mma ctl .m128n128 0 (.tile 0 .bf16) (.tile 2 .bf16)
    let mixed := Instr.mma ctl .m64n64 0 (.desc 4) (.tile 1 .f16)
    let sparse := Instr.mmas ctl .m64n64 .k16 0 4 (.tile 0 .bf16)
    let held := withColls s [member 0]
    let busy (s : State) (m : MulOp) (p : Iss) : Bool := tilesBusy p.b (shapeZs m.sh m.d) (mopTiles m.a m.la ++ mopTiles m.b m.lb)
    let desc := reg 4 0x30000000 (reg 5 (768 + 24 * 65536) (reg 6 0 s))
    Met s (.mz ctl 7 2) ctl (fun _ p _ => decide (p.b.ztiles.length < 7 + 2))
    ∧ Met s (.mz ctl 7 1) ctl (fun _ p _ => decide (7 + 1 ≤ p.b.ztiles.length) && !tilesBusy p.b [7] [])
    ∧ Met (reg 4 0xF0000000 s) (.mma ctl .m64n64 0 (.desc 4) (.tile 1 .bf16)) ctl (fun x p _ => (mulOf x.r (.mma ctl .m64n64 0 (.desc 4) (.tile 1 .bf16))).isNone && p.b.bms.isSome)
    ∧ Met desc mixed ctl (fun x p _ => (mulOf x.r mixed).any fun m => mulCheck p.b m false == some 3)
    ∧ Met held ok ctl (fun x p _ => (mulOf x.r ok).any fun m => (mulCheck p.b m false).isNone && busy held m p)
    ∧ Met s ok ctl (fun x p _ => (mulOf x.r ok).any fun m => (mulCheck p.b m false).isNone && !busy s m p)
    ∧ Met (reg 6 0x01000000 desc) sparse ctl (fun x p _ => (x.r.rd .ctl 6).toNat / 2 ^ 24 == 1 && (mulOf x.r sparse).any fun m => mulCheck p.b m true == some 3)
    ∧ Met desc sparse ctl (fun x p _ => (x.r.rd .ctl 6).toNat / 2 ^ 24 == 0 && (mulOf x.r sparse).any fun m => (mulCheck p.b m false).isNone && !busy desc m p)
    ∧ (let t := atRow s 3 ok
       (issB t 16 fun p _ => (blockOf t 0).any fun b => b.bms.any fun n => n.prog == some (3, ok) && !b.halted && p.b == b && !t.power.frozen
          && canonZ b 3 && (mulOf n.regs ok).any fun m => m.d + 3 < b.ztiles.length && m.sparse.isNone && m.la.ys == 1 && m.lb.ys == 1) = true) :=
  ⟨met (by decide +kernel), met (by decide +kernel), met (by decide +kernel), met (by decide +kernel), met (by decide +kernel), met (by decide +kernel),
    met (by decide +kernel), met (by decide +kernel), by decide +kernel⟩

/-- A drain block at s8: a destination, pitches of 2,048 bytes, and a residual. -/
def drains (da ra : Nat) (s : State) : State :=
  let w := da + 2048 * 2 ^ 64 + 2048 * 2 ^ 80 + 0x3F800000 * 2 ^ 96 + ra * 2 ^ 128
  withR s 16 ((List.range 12).map fun j => (8 + j, BitVec.ofNat 32 (w / 2 ^ (32 * j))))

/-- BASE and P at s4 to s6. -/
def spills (base p : Nat) (s : State) : State := withR s 16 [(4, BitVec.ofNat 32 base), (5, 0), (6, BitVec.ofNat 32 p)]

def plain : DrainX := ⟨.m64n64, false, none, false, true⟩

/-- Tables whose leaf at level 3 maps 2 MiB at 0x200000; BASE is 0x200000 and P is 8,192 bytes. -/
def bigBms : State :=
  let s := zeroed { oneBms with mgmt := { oneBms.mgmt with asidt := 0x200000000 } }
  let leaf := mapLeaf { asid := 0, va := 0x200000, size := 21, count := 1, frame := 0x120, tier := .h, home := 0, mt := .wb, rd := true, w := true, x := true, u := true } false 0
  let s := [1, 2].foldl (fun s n => putEntry s (tableAt n + 8 * levelIndex n 0x200000) (1 + tableAt (n + 1))) (putEntry s s.mgmt.asidt (1 + tableAt 1))
  spills 0x200000 8192 (putEntry s (tableAt 3 + 8 * levelIndex 3 0x200000) leaf)

/-- The 64 lines of the last row in cluster 0. -/
def rowLines (st : CSt) (s : State) : State :=
  let a := attrOf s (keyOf 0 0x200000)
  { s with coh := { s.coh with lines := (List.range 64).map fun j => ⟨0, keyOf 0 (0x27E000 + 128 * j), st, 0, false, a, [], none, [], ⟨La.zero, []⟩⟩ } }

theorem walk_small {s : State} {asid a : Nat} : ∀ fuel level table seen w, 4 ≤ level → walkFrom s asid a fuel level table seen = some w → w.size = 16
  | 0, _, _, _, _, _, h => by simp [walkFrom] at h
  | fuel + 1, level, table, seen, w, hl, h => by
    simp only [walkFrom] at h
    split at h
    · cases h
    · split at h
      · cases h
      · split at h
        · split at h
          · cases h; simp only [levelSize]; split <;> omega
          · cases h
        · split at h
          · exact walk_small fuel _ _ _ w (by omega) h
          · cases h

/-- A walk to a leaf above level 4 is that of every address of the leaf. -/
theorem walk_same {s : State} {asid a b : Nat} (hi : ∀ l, 0 < l → l < 4 → levelIndex l a = levelIndex l b) :
    ∀ fuel level table seen w, 0 < level → walkFrom s asid b fuel level table seen = some w → w.size ≠ 16 → walkFrom s asid a fuel level table seen = some w
  | 0, _, _, _, _, _, h, _ => by simp [walkFrom] at h
  | fuel + 1, level, table, seen, w, h0, h, hw => by
    by_cases hl : level < 4
    · simp only [walkFrom, hi level h0 hl] at h ⊢
      split at h
      · cases h
      · split at h
        · cases h
        · rename_i hv
          rw [if_neg hv]
          split at h
          · rename_i hf
            rw [if_pos hf]; exact h
          · rename_i hf
            rw [if_neg hf]
            split at h
            · rename_i ht
              rw [if_pos ht]; exact walk_same hi fuel _ _ _ w (by omega) h hw
            · cases h
    · exact absurd (walk_small _ _ _ _ w (by omega) h) hw

theorem walk_leaf {s : State} {asid a b : Nat} {w : Walk} (hi : ∀ l, 0 < l → l < 4 → levelIndex l a = levelIndex l b) (ha : tabAsid asid a = tabAsid asid b)
    (h : walk s asid b = some w) (hw : w.size ≠ 16) : walk s asid a = some w := by
  simp only [walk, ha] at h ⊢
  split at h
  · cases h
  · split at h
    · cases h
    · rename_i h1
      rw [if_neg h1]; exact walk_same hi _ _ _ _ w (by omega) h hw

theorem big_check {a : Nat} (h : a / 2 ^ 21 = 1) (h7 : a % 128 = 0) {p : Iss} (hl : p.l.asid = 0) (hr : p.l.hasRange = false) (acc : Want)
    (hw : acc = .read ∨ acc = .write) : checkAccess bigBms p .glb .ctl a 128 ⟨acc, true, false⟩ = none := by
  have hb : (walk bigBms 0 0x200000).any (fun w => w.size == 21 && pteFrame w.pte == 0x120 && (pteAttr w.pte).mt == .wb && (pteAttr w.pte).rd && (pteAttr w.pte).w && (pteAttr w.pte).u) = true := by decide +kernel
  cases hv : walk bigBms 0 0x200000 with
  | none => rw [hv] at hb; cases hb
  | some w =>
    rw [hv] at hb
    simp only [Option.any_some, Bool.and_eq_true, beq_iff_eq] at hb
    obtain ⟨⟨⟨⟨⟨hs, hf⟩, hm⟩, h1⟩, h2⟩, h3⟩ := hb
    have hk : (keyOf 0 a).asid = 0 := by simp [keyOf, tabAsid]
    have ha : walk bigBms 0 a = some w := by
      refine walk_leaf ?_ ?_ hv (by omega)
      · intro l h0 hl
        have hc : l = 1 ∨ l = 2 ∨ l = 3 := by omega
        rcases hc with rfl | rfl | rfl <;> simp only [levelIndex, bitsAt] <;> omega
      · simp [tabAsid]
    have h48 : a < 2 ^ 48 := by omega
    have hpa : w.pa a = 0x120 * 65536 + a % 2 ^ 21 := by rw [Walk.pa, hf, hs]
    have ht : inTables bigBms (w.pa a) = false := by
      have hq : ∀ q < 32, bigBms.mem.tables.contains (0x120 + q) = false := by decide +kernel
      have hA : bigBms.mgmt.asidt = 0x200000000 := by decide +kernel
      simp only [inTables, hA, Bool.or_eq_false_iff, decide_eq_false_iff_not]
      refine ⟨?_, by omega⟩
      have h0 := hq (a % 2 ^ 21 / 65536) (by omega)
      rwa [show w.pa a / 65536 = 0x120 + a % 2 ^ 21 / 65536 by omega]
    have hg : paTarget (w.pa a) = 0 := by rw [hpa, paTarget, bitsAt]; omega
    have hp : (pteAttr w.pte).permits acc p.runtime = true := by rcases hw with rfl | rfl <;> simp [Attr.permits, h1, h2, h3]
    rw [checkAccess]
    simp only [ge_iff_le, Nat.not_le.mpr h48, if_false, h7, Launch.covers, hr, pageCheck, hl, hk, ha, ht, hm, hg, hp]
    simp

theorem spill_none {acc : Want} (hw : acc = .read ∨ acc = .write) {p : Iss} (hl : p.l.asid = 0) (hr : p.l.hasRange = false)
    (hz : shapeFits p.b .m64n64 0 = true) : spillCheck bigBms p .m64n64 0 0x200000 8192 acc = none := by
  have hn : ∀ e ∈ shapeIndices .m64n64, e.1 < 64 ∧ e.2 < 64 := by
    simp only [shapeIndices, shapeDims, List.mem_flatMap, List.mem_map, List.mem_range]
    rintro e ⟨i, hi, j, hj, rfl⟩
    exact ⟨by omega, by omega⟩
  simp only [spillCheck, hz, spillLines]
  simp only [shapeSize, Bool.not_true, Bool.false_or, decide_eq_true_eq, bne_iff_ne, Bool.or_eq_true]
  rw [if_neg (by decide), if_neg (by decide), List.findSome?_eq_none_iff]
  intro e he
  have h := hn e he
  rw [big_check (by simp only [spillAt]; omega) (by simp only [spillAt]; omega) hl hr acc hw]
  rfl

/-- A row of the sequencer's instruction, with a test. -/
def rowB (t : State) (n : Nat) (i : Instr) (f : Iss → Bms → Bool) : Bool := issB (atRow t n i) 16 fun p _ => !p.b.halted && !t.power.frozen && p.l.rr == none
  && decide (1 ≤ p.b.ztiles.length) && p.b.bms.any fun m => m.prog == some (n, i) && f p m

/-- MDRAIN's checks at issue, passed and failed; its last row, and its first with a residual. -/
theorem wit_MatrixTilesLeaveAndReturn_drains :
    let s := drains 0 0 (zeroed pagedBms)
    let I (x : DrainX) := Instr.mdrain ctl .f32 .rne false x 0 8
    let resid : DrainX := { plain with res := some (false, .f32) }
    let D (x : Ex) := Machine.drainOf (x.r.rdN .ctl 8 12)
    let held := withColls s [{ member 0 with x := { cx with obj := .zTile 0 } }]
    Met s (I plain) ctl (fun x p _ => (drainCheck s p plain .f32 0 (D x)).isNone && p.b.bms.isSome && !tilesBusy p.b (shapeZs .m64n64 0) [])
    ∧ Met (drains 2 0 s) (I plain) ctl (fun x p _ => drainCheck (drains 2 0 s) p plain .f32 0 (D x) == some (5, 2))
    ∧ Met held (I plain) ctl (fun x p _ => (drainCheck held p plain .f32 0 (D x)).isNone && tilesBusy p.b (shapeZs .m64n64 0) [])
    ∧ rowB s 63 (I plain) (fun p m => !(podWrites s 0 bmsWho m.ctx.order).1 && decide (p.b.scr.Pairwise fun a b => a.1 < b.1)) = true
    ∧ (let t := drains 0 0x20000 s
       rowB t 0 (I resid) (fun p m => !(podWrites t 0 bmsWho m.ctx.order).1 && (match rowRead t p m.ctx.order false 0x20000 256 with
        | (u, .ok, v) => (match rowWrite u p m.ctx.order false 0 256 (drainRow p.b resid .f32 .rne false 0 (Machine.drainOf (m.regs.rdN .ctl 8 12)) 0 v) with
          | (u, .ok) => !(podWrites u 0 bmsWho m.ctx.order).1
          | _ => false)
        | _ => false)) = true) :=
  ⟨met (by decide +kernel), met (by decide +kernel), met (by decide +kernel), by decide +kernel, by decide +kernel⟩

/-- MSPILL's checks at issue, failed and passed; its last row. -/
theorem wit_MatrixTilesLeaveAndReturn_spills :
    let s := bigBms
    let odd := spills 0x200040 8192 s
    let J := Instr.mspill ctl .m64n64 true 0 4
    let last := rowLines .a s
    Met odd J ctl (fun _ p _ => spillCheck odd p .m64n64 0 0x200040 8192 .write == some ⟨5, 0x200040, none⟩ && !walkFault ⟨5, 0x200040, none⟩)
    ∧ (∃ x p k, Acts s J ctl x p k ∧ p.b.bms.isSome = true ∧ spillCheck s p .m64n64 0 0x200000 8192 .write = none
        ∧ tilesBusy p.b (shapeZs .m64n64 0) [] = false
        ∧ ownHeld s x.cur (contribKeys (spillContribs p .m64n64 0 0x200000 8192 (shapeIndices .m64n64))) = false)
    ∧ rowB last 63 J (fun p m => !m.replay && (spillLines last p 0x200000 8192 .write (rowIndices .m64n64 63)).isNone
        && (List.range 64).all fun j => let k := locKey p (0x27E000 + 128 * j)
          hasB last p .acc k && !waitsAtCluster last p.cl k (0, bmsWho, 0)) = true := by
  refine ⟨met (by decide +kernel), ?_, by decide +kernel⟩
  obtain ⟨x, p, k, ha, hp⟩ := met (s := bigBms) (i := .mspill ctl .m64n64 true 0 4) (h := ctl)
    (p := fun x p k => p.l.asid == 0 && !p.l.hasRange && shapeFits p.b .m64n64 0 && p.b.bms.isSome && !tilesBusy p.b (shapeZs .m64n64 0) []
      && (ctxOf bigBms x.cur.blk x.cur.who).isNone.not && ((ctxOf bigBms x.cur.blk x.cur.who).bind (·.hold)).isNone) (by decide +kernel)
  simp only [Bool.and_eq_true, Bool.not_eq_true', beq_iff_eq, Option.isNone_iff_eq_none] at hp
  refine ⟨x, p, k, ha, hp.1.1.1.2, spill_none (.inr rfl) hp.1.1.1.1.1.1 hp.1.1.1.1.1.2 hp.1.1.1.1.2, hp.1.1.2, ?_⟩
  simp only [ownHeld, hp.2]

/-- MFILL's checks at issue, failed and passed; its last row; one whose page is gone. -/
theorem wit_MatrixTilesLeaveAndReturn_fills :
    let s := bigBms
    let short := spills 0x200000 8064 s
    let gone := spills 0x400000 8192 s
    let K := Instr.mfill ctl .m64n64 0 4
    let back := rowLines .m s
    Met short K ctl (fun _ p _ => spillCheck short p .m64n64 0 0x200000 8064 .read == some ⟨3, 0, none⟩)
    ∧ (∃ x p k, Acts s K ctl x p k ∧ p.b.bms.isSome = true ∧ spillCheck s p .m64n64 0 0x200000 8192 .read = none
        ∧ tilesBusy p.b (shapeZs .m64n64 0) [] = false)
    ∧ rowB back 63 K (fun p _ => (List.range 64).all fun j => hasB back p .rd (locKey p (0x27E000 + 128 * j))
        && match gPlace back p (0x27E000 + 128 * j) 128 .read with | .mem => true | _ => false) = true
    ∧ rowB gone 0 K (fun p m => match rowStep (atRow gone 0 K) p m 0 K with | (_, .fault f) => f.cause == 7 | _ => false) = true := by
  refine ⟨met (by decide +kernel), ?_, by decide +kernel, by decide +kernel⟩
  obtain ⟨x, p, k, ha, hp⟩ := met (s := bigBms) (i := .mfill ctl .m64n64 0 4) (h := ctl)
    (p := fun x p k => p.l.asid == 0 && !p.l.hasRange && shapeFits p.b .m64n64 0 && p.b.bms.isSome && !tilesBusy p.b (shapeZs .m64n64 0) []) (by decide +kernel)
  simp only [Bool.and_eq_true, Bool.not_eq_true', beq_iff_eq] at hp
  exact ⟨x, p, k, ha, hp.1.2, spill_none (.inl rfl) hp.1.1.1.1 hp.1.1.1.2 hp.1.1.2, hp.2⟩

/-! Caches and homes -/

def key1 : Key := keyOf 0 0x10000

/-- Messages, lines, requests and write-backs under way. -/
def cached (net : List Msg) (lines : List CLine) (reqs : List (Nat × Key × Req × Nat)) (wbs : List (Nat × Key × Nat)) : State :=
  { one with coh := { one.coh with net := net, lines := lines, reqs := reqs, wbs := wbs } }

def cline (st : CSt) : CLine := ⟨0, key1, st, 5, false, ⟨.wb, true, true, true, true⟩, [3], none, [], ⟨La.zero, []⟩⟩

/-- Forwards and Invs that meet lines in each state and none; grants to sets with room; a refusal; the end of a write-back. -/
theorem wit_ClustersAnswerTheirHomes :
    let k := key1
    let m (b : Body) : Msg := ⟨33, 0, k, b⟩
    let room (s : State) : Prop := (s.coh.lines.filter fun c =>
      c.cl == 0 && Config.clusterSet c.key.line c.key.asid == Config.clusterSet k.line k.asid).length < 16
    let waits (r : Req) : State := cached [m (.ack ⟨.wb, true, true, true, true⟩)] [cline .s] [(0, k, r, 0)] []
    (∀ b ∈ [Body.fwdS, .fwdInv, .inv], ∀ st ∈ [CSt.e, .o, .m, .s, .a], let s := cached [m b] [cline st] [] []
      s.coh.net = [] ++ m b :: [] ∧ lineOf s 0 k = some (cline st))
    ∧ (let s := cached [m (.data .m 9 false ⟨.wb, true, true, true, true⟩)] [] [(0, k, .rdx, 0)] []
       s.coh.net = [] ++ m (.data .m 9 false ⟨.wb, true, true, true, true⟩) :: [] ∧ room s)
    ∧ (cached [m (.refuse 7)] [] [(0, k, .rdx, 0)] []).coh.net = [] ++ m (.refuse 7) :: []
    ∧ (∀ r, r = .accA ∨ r = .upg → (waits r).coh.net = [] ++ m (.ack ⟨.wb, true, true, true, true⟩) :: []
        ∧ (∃ q ∈ (waits r).coh.reqs, q.1 = 0 ∧ q.2.1 = k) ∧ room (waits r) ∧ (∀ q ∈ (waits r).coh.reqs, q.1 = 0 → q.2.1 = k → q.2.2.1 = r))
    ∧ (let s := cached [m .wbAck] [] [] [(1, k, 0), (0, k, 0)]
       s.coh.net = [] ++ m .wbAck :: [] ∧ s.coh.wbs = [(1, k, 0)] ++ (0, k, 0) :: [] ∧ ∀ w ∈ [(1, k, 0)], ¬(w.1 = 0 ∧ w.2.1 = k)) := by
  refine ⟨by decide +kernel, ⟨rfl, ?_⟩, rfl, ?_, ⟨rfl, rfl, by simp⟩⟩
  · exact Nat.lt_of_le_of_lt (List.length_filter_le _ _) (by decide)
  · intro r _
    refine ⟨rfl, ⟨_, List.mem_cons_self .., rfl, rfl⟩, Nat.lt_of_le_of_lt (List.length_filter_le _ _) (by show 1 < 16; decide), ?_⟩
    intro q hq _ _
    simp only [cached, List.mem_singleton] at hq
    rw [hq]

/-- A home with one entry of its directory and a message to it under way. -/
def homed (e : DEntry) (net : List Msg) : State := { paged with coh := { paged.coh with dir := [e], net := net } }

def ent (st : HSt) (o : Nat) (sh : List Nat) (t : Option Txn) : DEntry := ⟨key1, st, o, sh, t, [], none, none, (0, 0), []⟩

def txn (r : Req) (fwd : Option Nat) (wb : Bool) (invs mrgs : List Nat) : Txn := ⟨1, r, fwd, wb, invs, mrgs, [], none, false, 0⟩

def homeB (s : State) (k : Key) (p : DEntry → Bool) : Bool :=
  homeUp s k && decide (s.coh.dir.map (·.key)).Nodup && decide (s.coh.dir.length < 15) && decide (s.coh.hostTab.length < 524287) && hostAddr s k == none
    && (let e := dirOf s k; (e.st != .hi || e.attr == none) && p e)

def fetched (s : State) (k : Key) (own : Bool) : Bool := match homeFetch s k own true with | (_, .ok _ _) => true | _ => false

/-- Requests that meet each state of an entry; one that its page refuses. -/
theorem wit_HomesServeRequests_requests :
    let s (st : HSt) (o : Nat) (sh : List Nat) (r : Req) := homed (ent st o sh none) [⟨1, 33, key1, .req r⟩]
    (∀ x ∈ [(HSt.hs, 0, [1, 2], Req.upg), (.hs, 0, [2], .accA), (.he, 3, [], .rds), (.he, 3, [], .rdx), (.ho, 3, [], .rds), (.ho, 3, [2], .rdx), (.ho, 1, [2], .upg),
        (.ha, 0, [2], .rdx), (.ha, 0, [2], .accA), (.hi, 0, [], .accA), (.hs, 0, [1], .upg)], let u := s x.1 x.2.1 x.2.2.1 x.2.2.2
      homeB u key1 (fun e => e.txn == none && e.queue == [] && e.wbEarly == none) = true ∧ sliceFull u key1 = false ∧ refusal u key1 1 x.2.2.2 = none)
    ∧ (∀ x ∈ [(HSt.hi, 0, [], Req.rds), (.hs, 0, [2], .rds), (.hi, 0, [], .rdx), (.hs, 0, [1], .rdx)], let u := s x.1 x.2.1 x.2.2.1 x.2.2.2
      homeB u key1 (fun e => e.txn == none && e.queue == [] && e.wbEarly == none) = true ∧ sliceFull u key1 = false ∧ refusal u key1 1 x.2.2.2 = none
        ∧ fetched u key1 (x.2.2.2 == .rdx) = true ∧ (attrOf u key1).w = true)
    ∧ (let k := keyOf 0 0x20000
       let u : State := { paged with coh := { paged.coh with net := [⟨1, 33, k, .req .rdx⟩] } }
       homeB u k (fun e => e.txn == none && e.queue == [] && e.wbEarly == none) = true ∧ sliceFull u k = false ∧ refusal u k 1 .rdx = some 7) := by
  decide +kernel

/-- Answers that meet the transaction that waits for them: forwards, misses, InvAcks, a stale one among them. -/
theorem wit_HomesServeRequests_answers :
    (∀ r ∈ [Req.rds, .rdx, .upg, .accA], ∀ st ∈ [HSt.he, .ho], let t := txn r (some 3) false [] []
      let u := homed (ent st 3 [] (some t)) [⟨3, 33, key1, .fwdData 9 false true⟩]
      homeB u key1 (fun e => e.txn == some t && e.queue == [] && e.wbEarly == none) = true ∧ homeBusy u key1 = false)
    ∧ (let t := txn .rds (some 3) false [] []
       let u (b : Bool) := homed (ent .he 3 [] (some t)) [⟨3, 33, key1, .fwdMiss b⟩]
       homeB (u true) key1 (fun e => e.txn == some t && e.queue == [] && e.wbEarly == none) = true
       ∧ homeB (u false) key1 (fun e => e.txn == some t && e.sharers == [] && (attrOf (u false) key1).w) = true ∧ fetched (u false) key1 false = true)
    ∧ (let u := homed { ent .hs 0 [2, 3] (some (txn .upg none false [2, 3] [])) with stale := [3] } [⟨3, 33, key1, .invAck⟩]
       homeB u key1 (fun e => e.stale.contains 3) = true)
    ∧ homeB (homed (ent .hs 0 [2, 3] none) [⟨3, 33, key1, .invAck⟩]) key1 (fun e => e.txn == none && !e.stale.contains 3) = true
    ∧ homeB (homed (ent .hs 0 [2, 3] (some (txn .upg none false [2, 3] []))) [⟨3, 33, key1, .invAck⟩]) key1
        (fun e => !e.stale.contains 3 && e.txn.any fun t => t.invs.erase 3 != []) = true
    ∧ (∀ e ∈ [ent .hs 0 [1, 3] (some (txn .upg none false [3] [])), ent .ho 1 [3] (some (txn .upg none false [3] []))],
        homeB (homed e [⟨3, 33, key1, .invAck⟩]) key1 (fun e => !e.stale.contains 3 && e.txn.any fun t => t.invs == [3] && t.fwd == none) = true) := by
  decide +kernel

/-- Write-backs that meet a forward under way, a requester that waits for them, an idle owner and a stranger; partials; replay
contributions that a window knows and does not know; far operations. -/
theorem wit_HomesServeRequests_data :
    (let u := homed (ent .he 3 [] (some (txn .rds (some 3) false [] []))) [⟨3, 33, key1, .wb (some (9, false))⟩]
     homeB u key1 (fun e => e.txn == some (txn .rds (some 3) false [] []) && e.wbEarly == none) = true)
    ∧ (let t := txn .rds (some 3) true [] []
       let u (d : Option (Line × Bool)) := homed (ent .he 3 [] (some t)) [⟨3, 33, key1, .wb d⟩]
       let ok (u u1 : State) : Bool := homeB u key1 (fun e => e.txn == some t && e.wbEarly == none && (attrOf u key1).w) && !homeBusy u key1
         && attrOf u1 key1 == attrOf u key1 && fetched u1 key1 false
       ok (u none) (u none) = true ∧ ok (u (some (9, false))) (homeAbsorb (u (some (9, false))) key1 9 false) = true)
    ∧ (∀ e ∈ [ent .he 3 [] none, ent .ho 3 [2] none], let u := homed e [⟨3, 33, key1, .wb (some (9, false))⟩]
        homeB u key1 (fun e => e.txn == none && e.wbEarly == none && e.owner == 3) = true ∧ homeBusy u key1 = false)
    ∧ homeB (homed (ent .he 4 [] none) [⟨3, 33, key1, .wb none⟩]) key1 (fun e => e.txn == none && e.owner != 3) = true
    ∧ homeB (homed (ent .ha 0 [2, 3] (some (txn .rds none false [] [2, 3]))) [⟨3, 33, key1, .mrg ⟨La.zero, []⟩⟩]) key1
        (fun e => e.txn.any fun t => t.mrgs.contains 3 && t.mrgs.erase 3 != []) = true
    ∧ (∀ sh ∈ [[3], [2, 3]], let u := homed (ent .ha 0 sh none) [⟨3, 33, key1, .mrg ⟨La.zero, [(5, 1)]⟩⟩]
        homeB u key1 (fun e => e.txn == none && e.st == .ha && e.sharers.contains 3) = true ∧ fetched u key1 false = true
          ∧ homeBusy (homeFetch u key1 false true).1 key1 = false)
    ∧ (let q := { ent .hi 0 [] none with queue := [(3, .replay La.zero 5)] }
       let u := homed q []
       let v : State := { u with coh := { u.coh with wins := [⟨key1, 2, [(5, 1)]⟩] } }
       homeB u key1 (fun e => e.queue == [(3, .replay La.zero 5)]) = true ∧ refusal u key1 3 (.replay La.zero 5) = none ∧ tagTake u key1 5 = none
       ∧ fetched u key1 false = true ∧ homeBusy (homeFetch u key1 false true).1 key1 = false
       ∧ homeB v key1 (fun e => e.queue == [(3, .replay La.zero 5)]) = true ∧ refusal v key1 3 (.replay La.zero 5) = none ∧ (tagTake v key1 5).isSome = true)
    ∧ (∀ drop ∈ [true, false], ∀ st ∈ [HSt.he, .hi], let u := homed { ent st 3 [] none with queue := [(34, .far drop)] } []
        homeB u key1 (fun e => e.queue == [(34, .far drop)]) = true ∧ homeBusy u key1 = false) := by
  decide +kernel

/-- A leaf of ASID 0 in the tables that `page` sets, to a frame of host memory. -/
def hostPage (va frame : Nat) (s : State) : State :=
  let s := page va 0 true s
  putEntry s (tableAt 4 + 8 * levelIndex 4 va) (mapLeaf { asid := 0, va := va, size := 16, count := 1, frame := 8 * 2 ^ 32 + frame, tier := .none, home := 0, mt := .hc, rd := true, w := true, x := true, u := true } false 0)

/-- An aperture with a page, a read-only page and no page at 0x30000. -/
def aperture (dir : List DEntry) : State :=
  let s := page (2 ^ 47 + 0x20000) 0x102 false (page (2 ^ 47 + 0x10000) 0x101 true { one with mgmt := { one.mgmt with asidt := 0x200000000, barSize := 2 ^ 40 } })
  { s with coh := { s.coh with dir := dir } }

def keyA : Key := apertureKey 0x10000
def entA (st : HSt) (o : Nat) (sh : List Nat) (t : Option Txn) : DEntry := { ent st o sh t with key := keyA }
def readyB (s : State) (k : Key) (p : DEntry → Bool) : Bool := homeB s k fun e => e.queue == [] && e.wbEarly == none && p e

/-- Beyond the aperture and on pages that do not serve; MemRd and MemWr on idle and owned lines; BIRsp to a recall. -/
theorem wit_TheHostReachesLines :
    let A := keyA
    let t (r : Req) := txn r (some 32) false [] []
    let bi (e : DEntry) (b : Body) : State := { aperture [e] with coh := { (aperture [e]).coh with net := [⟨33, 32, A, b⟩] } }
    (aperture []).mgmt.barSize ≤ 2 ^ 40
    ∧ apertureOk (aperture []) 0x30000 false = false ∧ (apertureOk (aperture []) 0x20000 false = true ∧ apertureOk (aperture []) 0x20000 true = false)
    ∧ apertureOk (aperture []) 0x10000 false = true ∧ apertureOk (aperture []) 0x10000 true = true
    ∧ (readyB (aperture []) A (fun e => e.st == .hi && e.txn == none) && fetched (aperture []) A false && !homeBusy (aperture []) A) = true
    ∧ (∀ o ∈ [3, 32], readyB (aperture [entA .he o [] none]) A (fun e => e.st == .he && e.owner == o && e.txn == none) = true
        ∧ homeBusy (aperture [entA .he o [] none]) A = false)
    ∧ (let s := bi (entA .hs 0 [2, 32] (some (txn .upg none false [32, 2] []))) .inv
       (readyB s A (fun e => e.stale == [] && e.txn.any fun t => !t.host && t.invs.erase 32 != [])) = true)
    ∧ (∀ x ∈ [(Body.fwdInv, Req.rdx), (.fwdS, .rds)], let s := bi (entA .he 32 [] (some (t x.2))) x.1
        readyB s A (fun e => e.stale == [] && e.st == .he && e.owner == 32 && e.txn == some (t x.2)) = true ∧ fetched s A (x.2 == .rdx) = true) := by
  decide +kernel

/-- A line of host memory in the table, and its home. -/
def hostHeld (g : CxlGrant) (dirty wait : Bool) (dir : List DEntry) : State :=
  let s := hostPage 0x10000 5 { one with mgmt := { one.mgmt with asidt := 0x200000000 } }
  { s with coh := { s.coh with dir := dir, hostTab := [⟨5 * 512, [key1], g, 9, false, dirty, wait⟩] } }

def hostB (s : State) (p : DEntry → Bool) : Bool := homeUp s key1 && decide (s.coh.dir.map (·.key)).Nodup && decide (s.coh.dir.length < 15)
  && decide (s.coh.hostTab.length < 524287) && hostAddr s key1 == some (5 * 512)
  && (let e := dirOf s key1; e.queue == [] && e.wbEarly == none && (e.st != .hi || e.attr == none) && p e)

/-- Snoops of a line that the table lacks, that waits, that no cluster holds, that clusters share, that one owns; a grant. -/
theorem wit_TheHostReachesLines_snoops :
    hostLine one (5 * 512) = none
    ∧ hostLine (hostHeld .exclusive false true []) (5 * 512) = some ⟨5 * 512, [key1], .exclusive, 9, false, false, true⟩
    ∧ (∀ dirty ∈ [true, false], ∀ e ∈ [([] : List DEntry), [ent .hs 0 [2] none], [ent .he 3 [] none]], let s := hostHeld .exclusive dirty false e
        hostB s (fun e => e.txn == none) = true ∧ (hostLine s (5 * 512)).any (fun h => h.dirty == dirty && h.keys == [key1] && !h.wait) = true)
    ∧ (let s := hostHeld .invalid false true [ent .hi 0 [] (some { txn .rds none false [] [] with host := true })]
       hostB s (fun e => e.txn == some { txn .rds none false [] [] with host := true } && e.st == .hi) = true
       ∧ s.coh.hostTab.find? (fun e => e.wait && e.keys.contains key1) = hostLine s (5 * 512) ∧ (hostLine s (5 * 512)).isSome = true) := by
  decide +kernel

/-! Time -/

/-- A page of ASID 0 in the tables that `page` sets, its leaf made otherwise. -/
def leafPage (va : Nat) (f : MapCmd → MapCmd) (s : State) : State :=
  putEntry (page va 0x101 true s) (tableAt 4 + 8 * levelIndex 4 va)
    (mapLeaf (f { asid := 0, va := va, size := 16, count := 1, frame := 0x101, tier := .h, home := 0, mt := .wb, rd := true, w := true, x := true, u := true }) false 0)

def tabled : State := { one with mgmt := { one.mgmt with asidt := 0x200000000 } }

/-- Cycles and nanoseconds passed. -/
def later (c n : Nat) (s : State) : State := { s with sched := { s.sched with cycle := c, ns := n } }

/-- A lost owner before and after its time; a request and an operation without answer; write-backs whose home or memory is gone or up. -/
theorem wit_TimePasses_homes :
    let k := key1
    let T := txn .rds (some 3) false [] []
    let lost (n : Nat) := later 0 n (homed (ent .he 3 [] (some T)) [])
    let asked (reqs : List (Nat × Key × Req × Nat)) (ops : List HomeWait) (wbs : List (Nat × Key × Nat)) (down : List Nat) (s : State) : State :=
      { later 0 3000000 s with coh := { s.coh with reqs := reqs, homeWaits := ops, wbs := wbs }, power := { s.power with uncoreDown := down } }
    (∀ n ∈ [5, 3000000], let s := lost n
      homeB s k (fun e => e.txn == some T && e.st == .he && e.owner == 3 && e.sharers == [] && e.queue == [] && e.wbEarly == none) = true ∧ homeBusy s k = false
      ∧ (match homeFetch s k false false with
         | (s1, .ok l _) => let s2 := homeAbsorb s1 k l true; hostAddr s2 k == none && fetched s2 k false
         | _ => false) = true)
    ∧ (let s := asked [(0, k, .rds, 0)] [⟨0, k, 0, 0, 0⟩] [] [] paged
       0 < (s.coh.reqs.filter fun r => r.1 == 0 && r.2.1 == k && decide (r.2.2.2 + 2000000 ≤ s.sched.ns)).length
         + (s.coh.homeWaits.filter fun w => w.cl == 0 && w.key == k && decide (w.since + 2000000 ≤ s.sched.ns)).length)
    ∧ (let s := asked [] [] [(0, k, 0)] [] paged
       homeUp s k = true ∧ memDown s k = false ∧ ∃ w ∈ s.coh.wbs, w.1 = 0 ∧ w.2.1 = k ∧ w.2.2 + 2000000 ≤ s.sched.ns)
    ∧ (let s := asked [] [] [(0, k, 0)] [0] paged
       homeUp s k = false ∧ ∃ w ∈ s.coh.wbs, w.1 = 0 ∧ w.2.1 = k ∧ w.2.2 + 2000000 ≤ s.sched.ns)
    ∧ (let s := asked [] [] [(0, k, 0)] [0] (leafPage 0x10000 (fun c => { c with home := 1 }) tabled)
       homeUp s k = true ∧ memDown s k = true ∧ ∃ w ∈ s.coh.wbs, w.1 = 0 ∧ w.2.1 = k ∧ w.2.2 + 2000000 ≤ s.sched.ns) := by
  decide +kernel

/-- A combined write before and after its time; the throttle, the budget and hotness before and after theirs. -/
theorem wit_TimePasses_cores :
    let wc (c : Nat) : State := let s := later c 0 (leafPage 0x10000 (fun c => { c with mt := .wc }) tabled)
      { s with coh := { s.coh with wc := [⟨0, key1, [(3, 7)], 0, [], false, []⟩] } }
    (wc 2047).sched.cycle < 0 + 2048
    ∧ (let s := wc 2048
       0 + 2048 ≤ s.sched.cycle ∧ (pteOf s key1).map (pageKind key1) = some .uncached ∧ (uncachedIdle s key1).2 = true
         ∧ hostAddr (uncachedIdle s key1).1 key1 = none)
    ∧ (let s := later 4096 0 one
       (coreState s 0).winStart + 4096 ≤ s.sched.cycle ∧ (coreState s 0).refilled + 512 ≤ s.sched.cycle ∧ (s.work.blocks.map (·.uid)).Nodup
         ∧ ((rankGroups (groupsOn s 0 0))[0]?).isSome = true ∧ (∀ b ∈ s.work.blocks, b.groups.length ≤ 16) ∧ (ctxOf s 0 0).isSome = true)
    ∧ (let s := later 511 0 one; s.sched.cycle < (coreState s 0).winStart + 4096 ∧ s.sched.cycle < (coreState s 0).refilled + 512
        ∧ s.sched.cycle < s.motion.decayed.getD 0 0 + 2 ^ 20)
    ∧ (let s := later (2 ^ 20) 0 one; s.motion.decayed.getD 0 0 + 2 ^ 20 ≤ s.sched.cycle) := by
  decide +kernel

/-- Speculative accesses frozen, dropped, served and waiting; scrubs of frames with each flaw; the time page at each step. -/
theorem wit_TimePasses_memory :
    (let s : State := { paged with power := { paged.power with frozen := true } }; s.power.frozen = true ∧ (issOf s 0 0).isSome = true)
    ∧ issB paged 0 (fun i _ => !paged.power.frozen && !specOk paged i 0x30000) = true
    ∧ (let s := lineIn .s 0x10000 paged
       issB s 0 (fun i _ => !s.power.frozen && specOk s i 0x10000 && match obtain (translate s key1 false).1 i.cl key1 .rd with
         | (_, .line c) => !c.poison
         | _ => false) = true)
    ∧ (let s := leafPage 0x10000 (fun c => { c with home := 1 }) { tabled with power := { tabled.power with uncoreDown := [1] } }
       issB s 0 (fun i _ => specOk s i 0x10000 && match obtain (translate s key1 false).1 i.cl key1 .rd with | (_, .wait) => true | _ => false) = true)
    ∧ (∀ v ∈ [none, some 1, some 2], let s : State := { one with mem := { one.mem with flaws := match v with | none => [] | some n => [(0x1010000 / 64, n)] } }
        paTarget 0x1010000 ≤ 5 ∧ s.mem.backed 0x1010000 = true ∧ 0x1010000 / 65536 ∉ s.mem.dead ∧ paHeld s 0x1010000 = false
          ∧ s.mem.flaws.get? (0x1010000 / 64) = v)
    ∧ one.mgmt.timePage = 0 ∧ one.sched.newRates = none ∧ ratesOk one [] = false ∧ ratesOk one (List.replicate 6 (2 ^ 32, 0)) = true := by
  decide +kernel

/-! Granules in motion and the map engine -/

/-- A granule asked for on LP6 of F1, its page at 0x10000 in frame 0x101 of N0. -/
def wanted : MoveReq := ⟨0, 0, 1, .l true, false⟩

def mappedOnce : State := page 0x10000 0x101 true tabled

def withMotion (s : State) (f : Motion → Motion) : State := { s with motion := f s.motion }

/-- The granule in motion from frame 0x101 to frame 0x555 of N1, its line at the cursor for `n` nanoseconds. -/
def inMotion (cursor n : Nat) : State :=
  later 0 n (withMotion mappedOnce fun m => { m with moves := [⟨0, 0, 1, 0x101, 2 ^ 32 + 0x555, cursor, false, false, .h 1, 0, 1, true⟩] })

def recRoom (s : State) (e : Nat) : Bool := decide (recsHeld s e < 64) && !s.mgmt.mgr.ctl.getLsbD 0 && !s.power.frozen

/-- A move that finds a frame, none, or a dead granule; a line copied at the start and at the end, too late, or at a bad destination. -/
theorem wit_PagesMoveAndAreMapped_moves :
    (∀ free ∈ [[], [(1, 1, 5 * 2 ^ 32 + 7)]], ∀ dead ∈ [[], [0x101]],
      let s := withMotion { mappedOnce with mem := { mappedOnce.mem with dead := dead } } fun m => { m with queue := [wanted], free := free }
      s.motion.queue = wanted :: [] ∧ s.motion.moves = [] ∧ recRoom s 0 = true ∧ (walk s 0 0x10000).any (fun w => w.pa 0x10000 / 65536 == 0x101) = true
        ∧ pageOfFrame s 0x101 = (0x101, 1) ∧ 0x101 ∉ s.mem.retired ∧ placeOfFrame 0x101 ≠ destOf s 0 0x10000 (.l true)
        ∧ freeRun s (1, 1) 1 = (if free.isEmpty then none else some (5 * 2 ^ 32 + 7)) ∧ destOf s 0 0x10000 (.l true) = (1, 1))
    ∧ (∀ c ∈ [0, 511], ∀ n ∈ [0, 1000], let s := inMotion c n
      (s.motion.moves.all fun m => m.begun && !m.dead && m.cursor == c && m.engine == 0 && decide (m.dst ∉ s.mem.retired)) = true ∧ recRoom s 0 = true
        ∧ paHeld s (0x101 * 65536 + 128 * c) = false ∧ paHeld s ((2 ^ 32 + 0x555) * 65536 + 128 * c) = false
        ∧ (match readLine (sourceFlaw s (0x101 * 65536 + 128 * c) .clean) (0x101 * 65536 + 128 * c) with
           | (s1, .ok l p) => (match mappingsOf (writeLine s1 ((2 ^ 32 + 0x555) * 65536 + 128 * c) l p) 0x101 with | [lf] => pteFrame lf.pte == 0x101 | _ => false)
           | _ => false) = true) := by
  decide +kernel

/-- The commands' ring at 0x10000 with one command of eight. -/
def commanded (v : Nat) (q : List MoveReq) : State :=
  let s := (List.range 4).foldl (fun s j => putEntry s (0x101 * 65536 + 8 * j) (v / 2 ^ (64 * j) % 2 ^ 64)) mappedOnce
  let s := page 0x50000 0x105 true s
  { s with motion := { s.motion with queue := q }, mgmt := { s.mgmt with mgc := { s.mgmt.mgc with base := 0x10000, size := 8, head := 0, tail := 1, ctl := 1 } } }

/-- A command of `n` granules from a VA to HBM3E of N1. -/
def command (vpn n : Nat) : Nat := vpn + n * 2 ^ 64 + 4 * 2 ^ 116

/-- The record ring that takes records and does not; commands that are malformed, empty, ignored, taken and held back. -/
theorem wit_PagesMoveAndAreMapped_rings :
    (mappedOnce.motion.moves = [] ∧ recsHeld mappedOnce 0 = 0)
    ∧ (let s : State := { withMotion mappedOnce fun m => { m with recs := [(0, toBytes 16 3)] } with mgmt := { mappedOnce.mgmt with mgr := { mappedOnce.mgmt.mgr with base := 0x10000, size := 8, ctl := 1 } } }
       s.mgmt.mgr.takes = true ∧ (match engWrite (setRing s .mgr { s.mgmt.mgr with buf := [toBytes 16 3] }) 0x10000 16 (ofBytes (toBytes 16 3)) with
        | (u, true) => u.motion.moves == [] && u.mgmt.mgr.buf == [toBytes 16 3]
        | _ => false) = true)
    ∧ mappedOnce.mgmt.mgc.ctl.getLsbD 0 = false
    ∧ (∀ x ∈ [(command 5 1 + 2 ^ 32, 0), (command 9 0, 1), (command 9 1, 2), (command 5 1, 3), (command 5 1, 4)],
        let s := commanded x.1 (if x.2 = 4 then List.replicate 256 { wanted with engine := 1 } else [])
        s.mgmt.mgc.ctl.getLsbD 0 = true ∧ s.mgmt.mgc.size ≠ 0 ∧ s.mgmt.mgc.head ≠ s.mgmt.mgc.tail ∧ s.power.frozen = false
          ∧ (match engRead s 0x10000 32 with
             | (s1, some v) => v == x.1 && s1.motion.cmdAt == 0 && tierOf (BitVec.ofNat 4 (v / 2 ^ 116)) == some (.h 1)
                && (match x.2, offerMove s1 0 (v % 2 ^ 32 * 65536) (.h 1) false with
                  | 2, .ignored => true
                  | 3, .taken _ => true
                  | 4, .full _ => true
                  | n, _ => decide (n < 2))
             | _ => false) = true) := by
  decide +kernel

/-- A command of one 64 KiB page. -/
def cmd (asid va frame : Nat) (w : Bool) : MapCmd :=
  { asid := asid, va := va, size := 16, count := 1, frame := frame, tier := .h, home := 0, mt := .wb, rd := true, w := w, x := false, u := true }

/-- Maps that are refused with each status, and that are made. -/
theorem wit_PagesMoveAndAreMapped_maps :
    let s := mappedOnce
    let gone : State := { s with mem := { s.mem with retired := [0x109] } }
    s.motion.mapq = []
    ∧ (let u : State := withMotion { s with coh := { s.coh with lines := [cline .m], dir := [ent .he 0 [] none] }, power := { s.power with uncoreDown := [0] } } fun m => { m with mapq := [(2, cmd 0 0x10000 0 true)] }
       (mapAny (2, cmd 0 0x10000 0 true) u).2 = false)
    ∧ 2 ^ 47 < (cmd 1 (2 ^ 47) 9 true).va + 1 * 2 ^ 16
    ∧ leavesIn s (cmd 0 0x10000 0x109 true) ≠ []
    ∧ (leavesIn s (cmd 0 0x20000 0x101 true) = [] ∧ mappingsOf s 0x101 ≠ [])
    ∧ (leavesIn s (cmd 0 0x20000 0x101 false) = [] ∧ ∃ l ∈ mappingsOf s 0x101, pteW l.pte = true)
    ∧ (leavesIn gone (cmd 0 0x20000 0x109 true) = [] ∧ mappingsOf gone 0x109 = [] ∧ 0x109 ∈ gone.mem.retired)
    ∧ (leavesIn s (cmd 0 0x20000 0x109 true) = [] ∧ mappingsOf s 0x109 = [] ∧ 0x109 ∉ s.mem.retired ∧ (entryFor s 0 0x20000 4).2.isSome = true) := by
  decide +kernel

/-- Pages unmapped and protected: refused with each status, made to wait, and done; the other commands. -/
theorem wit_PagesMoveAndAreMapped_changes :
    let s := mappedOnce
    let c (w : Bool) := cmd 0 0x10000 0x101 w
    let leased := withL s fun l => { l with leased := true, ranges := [(0x10000, 0x10000)] }
    let twice := page 0x30000 0x101 true s
    let held : State := { s with coh := { s.coh with lines := [cline .m], dir := [ent .he 0 [] none] }, power := { s.power with uncoreDown := [0] } }
    (let C := wholeLeaves s (cmd 1 (2 ^ 47) 9 true); C.asid ≠ 0 ∧ 2 ^ 47 < C.va + C.count * 2 ^ C.size)
    ∧ (let C := wholeLeaves leased (c false); C.asid = 0 ∧ leasedIn leased C = true ∧ ∃ l ∈ leavesIn leased C, pteW l.pte = true)
    ∧ (let C := wholeLeaves twice (c true); C.asid = 0 ∧ ∃ l ∈ leavesIn twice C, ∃ k ∈ leavesOf twice, k.at_ ≠ l.at_ ∧ pteFrame k.pte < pteFrame l.pte + 2 ^ (l.size - 16)
        ∧ pteFrame l.pte < pteFrame k.pte + 2 ^ (k.size - 16))
    ∧ (let C := wholeLeaves held (c false); leasedIn held C = false ∧ (flushRange held C).2 = false)
    ∧ (let C := wholeLeaves s (c false); C.asid = 0 ∧ leasedIn s C = false ∧ (flushRange s C).2 = true ∧ (flushRange s C).1.motion.moves = [])
    ∧ s.mem.badList.length < 4096
    ∧ (let t : State := { s with coh := { s.coh with mtlb := [⟨0, 0, 1, 3, [5]⟩] } }; let b := t.coh.mtlb.flatMap fun e => (List.range e.hot.length).flatMap fun j => toBytes 8 (Config.hotsnapEntry e.asid (e.vpn + j) (e.hot.getD j 0))
       (engWrite t 0x10000 b.length (ofBytes b)).2 = true ∧ t.coh.mtlb.length = 1)
    ∧ (let t : State := { s with work := { s.work with purge := [7] } }; 7 ∈ t.work.purge ∧ 8 ∉ t.work.purge) := by
  decide +kernel

/-! Links and the pod -/

/-- The first module of the edge between N0 and N1, on the way to N1. -/
def lnk : LinkId := ⟨0, true, 0⟩

def withMods (ms : List Module) : State := { one with links := { one.links with mods := ms } }

def modA : Module := freshModule lnk

/-- Payload bytes of a flit that carries new messages, of an acknowledgement, of a resent flit. -/
def newFlit (seq : Nat) (rr : Bool) : List Byte := flitBytes ⟨rr, 0, false, 0, seq, []⟩
def ackOnly : List Byte := flitBytes ⟨false, 1, true, 3, 0, []⟩

/-- Flits a sender may and may not send. What messages a payload holds is a free value of Config: of them the theorem shows that a
request in its turn, whatever its key that this module serves, finds the module free. -/
theorem wit_LinksCarryFlitsAndPodRequests_senders :
    (flitOf ackOnly).kind = 1
    ∧ ((moduleOf one lnk).resend = none ∧ ∀ x ∈ [newFlit 0 true, newFlit 5 false], (flitOf x).kind = 0 ∧ ((flitOf x).rr = true ∨ (flitOf x).seq ≠ (moduleOf one lnk).seq))
    ∧ ((flitOf (newFlit 0 false)).kind = 0 ∧ (flitOf (newFlit 0 false)).rr = false ∧ (flitOf (newFlit 0 false)).seq = (moduleOf one lnk).seq
        ∧ (moduleOf one lnk).replay.length < 512)
    ∧ (∀ key, keyHome lnk key = lnk.mod → keyModule one lnk key = lnk.mod)
    ∧ (let sender := linkTarget (opposite lnk)
       let to_ := 8 * linkTarget lnk + sender
       0 / 2 ^ 13 % 8 = sender ∧ 0 % 2 ^ 13 = (one.links.nextReq.get? to_).getD 0 ∧ 1 % 2 ^ 13 ≠ (one.links.nextReq.get? to_).getD 0
        ∧ (outstanding one to_).length < 2048 ∧ unacked one lnk sender = [])
    ∧ (let s := withMods [{ modA with seq := 6, replay := [flitOf (newFlit 5 false)], resend := some 5 }]
       (moduleOf s lnk).resend = some 5 ∧ (flitOf (newFlit 4 false)).seq ≠ 5
        ∧ ((flitOf (newFlit 5 false)).kind = 0 ∧ (flitOf (newFlit 5 false)).seq = 5 ∧ flitOf (newFlit 5 false) ∈ (moduleOf s lnk).replay)) := by
  refine ⟨by decide +kernel, by decide +kernel, by decide +kernel, ?_, by decide +kernel, by decide +kernel⟩
  intro key hk
  simp only [keyModule, hk]
  rfl

/-- A module that is down and one that retrains; received flits that are good, out of order and bad, the ninth among them; the keys of
messages are again whatever they are. -/
theorem wit_LinksCarryFlitsAndPodRequests_receivers :
    (∀ m ∈ [{ modA with up := false }, { modA with retraining := true }], (moduleOf (withMods [m]) lnk).up = false ∨ (moduleOf (withMods [m]) lnk).retraining = true)
    ∧ ((moduleOf one lnk).up = true ∧ (moduleOf one lnk).retraining = false ∧ sendFlit one lnk (flitOf ackOnly) = some one)
    ∧ flitOk ackOnly = true ∧ flitOk (newFlit 5 false) = true ∧ flitOk (newFlit 0 false) = true
    ∧ (flitOf ackOnly).kind ≠ 0 ∧ ( (flitOf (newFlit 5 false)).seq ≠ (moduleOf one lnk).expect)
    ∧ ((flitOf (newFlit 0 false)).kind = 0 ∧ (flitOf (newFlit 0 false)).seq = (moduleOf one lnk).expect)
    ∧ (flitOk [] = false ∧ ((moduleOf one lnk).crcs.filter fun t => decide (one.sched.time.getD (linkTarget lnk) 0 < t + 1000)).length + 1 < 9)
    ∧ (let s := withMods [{ modA with crcs := List.replicate 8 0 }]
       9 ≤ ((moduleOf s lnk).crcs.filter fun t => decide (s.sched.time.getD (linkTarget lnk) 0 < t + 1000)).length + 1 ∧ (nextModule s lnk).isSome = true)
    ∧ (moduleOf one lnk).lanes ≠ 32 ∧ (moduleOf (withMods [{ modA with lanes := 32 }]) lnk).lanes = 32
    ∧ (let s := withMods [{ modA with retraining := true }]
       (moduleOf s lnk).retraining = true ∧ lnk.mod < edgeModules lnk.edge ∧ (moduleOf s ⟨0, true, 1⟩).up = true)
    ∧ (let s := withMods [{ modA with retraining := true, moved := some 1, replay := [flitOf (newFlit 5 false)] }]
       (moduleOf s lnk).retraining = true ∧ (moduleOf s lnk).moved ≠ none ∧ (moduleOf s lnk).replay ≠ [])
    ∧ (let s := withMods ({ modA with retraining := true } :: (List.range 16).flatMap fun j => [true, false].map fun b => { freshModule ⟨0, b, j⟩ with up := false })
       (moduleOf s lnk).retraining = true ∧ (∀ j < 16, ∀ b, j ≠ 0 → (moduleOf s ⟨0, b, j⟩).up = false) ∧ s.power.fatal = none) := by
  refine ⟨by decide +kernel, ⟨by decide +kernel, by decide +kernel, rfl⟩, flitOk_flitBytes _, flitOk_flitBytes _, flitOk_flitBytes _, ?_⟩
  decide +kernel

/-- The pod's aperture on, over the page at 0x10000. -/
def podded : State := { mappedOnce with mgmt := { mappedOnce.mgmt with podEn := true } }

/-- Requests of a peer that are refused and served; one's own that end; partials that are malformed, first, further and due. -/
theorem wit_LinksCarryFlitsAndPodRequests_pods :
    Config.deviceId + 1 ≠ Config.deviceId ∧ mappedOnce.mgmt.podEn = false
    ∧ (podded.mgmt.podEn = true ∧ podded.mgmt.podBase = 0 ∧ podOk podded 0x90000 4 true false = false ∧ podOk podded 0x90000 4 false true = false
        ∧ podOk podded 0x90000 4 true true = false ∧ podOk podded 0x10000 4 true false = true ∧ podOk podded 0x10000 4 false true = true
        ∧ ∀ k ∈ [4, 8], podOk podded 0x10000 k true true = true ∧ 0x10000 % k = 0 ∧ 0x10001 % k ≠ 0)
    ∧ (match uncachedRead podded agentTag (keyOf 0 0x10000), uncachedWrite podded agentTag (keyOf 0 0x10000) false (fun l => linePut l 0 4 7), joinLine podded 0 0x10000 with
        | (_, .ok _ false), (_, .ok _ _), (_, .ok _ false) => true
        | _, _, _ => false) = true
    ∧ (∀ n ∈ [5, 1000000], let s : State := later 0 n { one with links := { one.links with pods := [⟨4, true, 0, 0, 0, 0, 0, none⟩] } }
        s.links.pods = [⟨4, true, 0, 0, 0, 0, 0, none⟩] ∧ (s.sched.ns < 0 + 1000000 ↔ n = 5))
    ∧ (let b := packEls (List.replicate 32 0)
       let good (b : List Byte) : Prop := b.length = 272 + 96 * ((List.range 32).filter (bitAt (packField b 264 4))).length ∧ packField b 0 2 ≤ 647
          ∧ packField b 4 4 = 0 ∧ packField b 268 4 = 0
       ¬good [] ∧ good b ∧ one.links.adders = [] ∧ ∃ s : State, s.links.adders = [(3, 5, List.replicate 32 0)]) := by
  refine ⟨by omega, by decide +kernel, by decide +kernel, by decide +kernel, by decide +kernel, by decide +kernel, by decide +kernel, rfl,
    { one with links := { one.links with adders := [(3, 5, List.replicate 32 0)] } }, rfl⟩

/-! Distribution, suspension and pre-emption -/

/-- Dwords written at an address of the page at 0x10000 or, from 0x20000 on, of the page at 0x30000, which N1 homes. -/
def poke (a : Nat) (v : Nat) (n : Nat) (s : State) : State :=
  (List.range n).foldl (fun s j => putEntry s (0xF10000 + a + 8 * j) (v / 2 ^ (64 * j) % 2 ^ 64)) s

/-- An idle package whose queue 0 holds one record, with slots, pages at 0x10000 (frame 0x101, but from frame 0xF2 on) and 0x30000. -/
def queueing (r x lease : Nat) (down : List Nat) : State :=
  let s := leafPage 0x30000 (fun c => { c with home := 1, frame := 0xF3 }) (leafPage 0x10000 (fun c => { c with frame := 0xF2 })
    { State.reset with mgmt := { State.reset.mgmt with asidt := 0x200000000 } })
  let s := poke 0x10000 r 4 (poke 0x10400 x 13 (poke 0x10800 lease 2 s))
  { s with
    work := { s.work with qbase := [(0, 0x10000)], qsize := [(0, 8)], qtail := [(0, 1)], ppSlots := 16, ppSlotb := 4096, csaSlots := 16, csaSlotb := 2 ^ 24 }
    power := { s.power with uncoreDown := down } }

/-- A launch record of `n` blocks for a descriptor and arguments, and a descriptor of one variant for 64 lanes and one lease. -/
def rec3 (kdesc args n : Nat) : Nat := kdesc + args * 2 ^ 64 + n * 2 ^ 176 + 3 * 2 ^ 252
def kern (prog nlease : Nat) : Nat := 1 + prog * 2 ^ 4 + nlease * 2 ^ 8 + 64 * 2 ^ 32

def recB (s : State) (f : State → Nat → Bool) : Bool :=
  decide (s.mgmt.rej.buf.length < 16) && (queuedLaunch s 0).isNone && match headRecord s 0 with | (s1, some (0, r)) => f s1 r | _ => false

/-- What is read of the descriptor: 0 wait, 1 bad, and a test of what is read. -/
def kernB (s : State) (f : State → Nat → Nat → Launch → Kernel → Bool) : Bool := recB s fun s1 r =>
  let l := launchFor s 0 r (r / 2 ^ 228 % 2 ^ 16) (16 * (r / 2 ^ 208 % 2 ^ 20)) false
  match readKernel s1 l.asid l.kdesc l.pin with
  | (u, .ok x) => bitsAt r 252 4 == 3 && f u r x l (kernelOf x l.pin)
  | _ => false

def goodK (u : State) (r x : Nat) (k : Kernel) : Bool := !recordReserved r && !kernelReserved x && !kernelRange k && !(k.eligible u).isEmpty

/-- Records of each kind whose descriptor waits, is missing or is read; each status of R291; one admitted. -/
theorem wit_WorkIsDistributedAndSuspended_records :
    let at_ (kdesc args : Nat) (r x : Nat) (lease : Nat) (down : List Nat) := queueing (rec3 kdesc args 1 + r) x lease down
    let ok (f : State → Nat → Launch → Kernel → Bool) (s : State) : Bool := kernB s fun u r x l k => goodK u r x k && decide (k.fmax + k.ltpb * l.prv ≤ u.work.ppSlotb) && f u x l k
    let reads (s : State) (p : State → List (Nat × Nat) → Launch → Kernel → Bool) : Bool := ok (fun u x l k => (!l.pin || !pinsBad x { l with k := k })
      && match readRanges l.asid l.args x (List.range k.nlease) u [] with | (v, .inl rs) => p v rs l k | _ => false) s
    let fails (s : State) (p : DRead → Bool) : Bool := ok (fun u x l k => match readRanges l.asid l.args x (List.range k.nlease) u [] with | (_, .inr e) => p e | _ => false) s
    let kread (s : State) (p : DRead → Bool) : Bool := recB s fun s1 r => p (readKernel s1 0 (r % 2 ^ 48) false).2
    let wait (e : DRead) : Bool := match e with | .wait => true | _ => false
    let bad (e : DRead) : Bool := match e with | .bad => true | _ => false
    let fine (e : DRead) : Bool := match e with | .ok _ => true | _ => false
    let g := kern 1 1
    (recB (queueing 0 0 0 []) (fun _ r => bitsAt r 252 4 == 0) && recB (queueing (2 ^ 253) 0 0 []) (fun _ r => bitsAt r 252 4 == 2)) = true
    ∧ (kread (at_ 0x30000 0 0 g 0 [1]) wait && kread (at_ 0x70000 0 0 g 0 []) bad && kread (at_ 0x10400 0 0 g 0 []) fine) = true
    ∧ (let other := 2 ^ 254 + 2 ^ 253
       kread (at_ 0x30000 0 other g 0 [1]) wait && kread (at_ 0x70000 0 other g 0 []) bad && kread (at_ 0x10400 0 other g 0 []) fine) = true
    ∧ kernB (at_ 0x10400 0 (2 ^ 160) g 0 []) (fun _ r _ _ _ => recordReserved r) = true
    ∧ kernB (at_ 0x10400 0 0 (g + 2 ^ 7) 0 []) (fun _ r x _ _ => !recordReserved r && kernelReserved x) = true
    ∧ kernB (at_ 0x10400 0 0 (kern 3 0) 0 []) (fun _ r x _ k => !recordReserved r && !kernelReserved x && kernelRange k) = true
    ∧ kernB (at_ 0x10400 0 0 (g + 2 ^ (512 + 72)) 0 []) (fun u r x _ k => !recordReserved r && !kernelReserved x && !kernelRange k && (k.eligible u).isEmpty) = true
    ∧ kernB (at_ 0x10400 0 (255 * 2 ^ 208) g 0 []) (fun u r x l k => goodK u r x k && decide (u.work.ppSlotb < k.fmax + k.ltpb * l.prv)) = true
    ∧ ok (fun _ x l k => l.pin && pinsBad x { l with k := k }) (at_ 0x10400 0 (2 ^ 251) (g + 2 ^ 240 + 9 * 2 ^ 768) 0 []) = true
    ∧ (fails (at_ 0x10400 0x70000 0 g 0 []) bad && fails (at_ 0x10400 0x30000 0 g 0 [1]) wait) = true
    ∧ reads (at_ 0x10400 0x10800 0 g (3 + 8 * 2 ^ 64) []) (fun _ rs _ _ => rs.any fun g => !rangeOk g) = true
    ∧ reads (at_ 0x10400 0x10800 (2 ^ 32 * 2 ^ 176 - 2 * 2 ^ 176) (kern 0 1) 0 []) (fun v rs l k => rs.all rangeOk && neverFits v { l with k := k, ranges := rs }) = true
    ∧ reads (at_ 0x10400 0x10800 0 g (0x10000 + 65536 * 2 ^ 64) []) (fun v rs l k => rs.all rangeOk && !neverFits v { l with k := k, ranges := rs }) = true := by
  decide +kernel

/-- A launch of `n` blocks queued at queue 0, its ranges and pins. -/
def startingAt (n : Nat) (prog : Nat) (f : Launch → Launch) : State :=
  let s := queueing (rec3 0x10400 0x10800 n) (kern prog 0) 0 []
  { s with work := { s.work with nextUid := 1, launches := [f { placedLaunch 0 oneV with queued := true, nblk := n, next := 0, k := { (placedLaunch 0 oneV).k with prog := prog, vars := [{ oneV with zt := 0 }] } }] } }

/-- A launch whose record is at the head and whose next cohort starts, does not fit, or is placed; one that is not. -/
theorem wit_WorkIsDistributedAndSuspended_starts :
    let s := startingAt 1 1 id
    let off := startingAt 1 1 fun l => { l with queued := false }
    let gone := startingAt 1 1 fun l => { l with ranges := [(0x70000, 65536)] }
    let mine (s : State) : Bool := (launchOf s 0).any fun l => l.queued && mayPop s 0 l.queue false
    mine off = false
    ∧ (mine gone && (launchOf gone 0).any fun l => (startNext gone l 0 (some [(0, 0)])).isNone) = true
    ∧ (mine s && (launchOf s 0).any fun l => (startNext s l 0 (some [(0, 0)])).isSome) = true
    ∧ ((launchOf s 0).any fun l => min (l.cohb + 1) (l.nblk - l.next) == 1 && !l.failed && rangesMapped s l && l.k.prog != 0 && l.k.place == []
        && (match fitCohort s l l.next 1 [] with
          | some (_, v, _) => (placeGiven s v [(0, 0)] [] []).isSome
          | none => false)
        && (takeFor s l.id 0 0 [l.next]).isSome && diesAllowed [0]) = true := by
  decide +kernel

/-- A task record for a frame and a switch id; an away block of launch 0 whose frame is at 0x500. -/
def rec0 (kdesc : Nat) : Nat := kdesc + 0xFFFF * 2 ^ 48 + 0x500 * 2 ^ 64
def awayOne (s : State) (saved : Bool) (f : Launch → Launch) : State :=
  { s with work := { s.work with
      launches := [f (placedLaunch 0 oneV)], nextUid := 9
      away := [⟨3, 0, 0, 0, 0, 0, 0, 0x500, saved, 0, oneV, none⟩]
      cohorts := [⟨3, 0, 0, 0, 1, List.replicate 16 ⟨1, 0, 0, []⟩, false, none, saved, []⟩] } }

/-- Task records that resume, are refused, wait, have ranges that are not mapped, and start. -/
theorem wit_WorkIsDistributedAndSuspended_tasks :
    let pops (s : State) (p : State → Nat → Bool) : Bool := mayPop s 0 0 false && recB s fun s1 r => bitsAt r 252 4 == 0 && p s1 r
    let new (f : State → Admit → Bool) (s : State) : Bool := pops s fun s1 r => awayFor s1 (putBits r 167 1 0) == none
      && (match admitRecord s1 r (launchFor s1 0 r 0 0 true) with | (u, a) => f u a)
    let lost := awayOne (queueing (rec0 0x70000) (kern 1 0) 0 []) false id
    let fresh (x lease : Nat) (down : List Nat) (kdesc : Nat) := queueing (rec0 kdesc) x lease down
    (pops lost fun s1 r => (awayFor s1 (putBits r 167 1 0)).isSome && (resumeRecordAt s1 0 0 (putBits r 167 1 0) (some [(0, 0)])).isDone) = true
    ∧ new (fun _ a => match a with | .refused _ => true | _ => false) (fresh (kern 3 0) 0 [] 0x10400) = true
    ∧ new (fun _ a => match a with | .wait => true | _ => false) (fresh (kern 1 0) 0 [1] 0x30000) = true
    ∧ new (fun u a => match a with | .ok l => !rangesMapped u l | _ => false)
        (queueing (rec0 0x10400 + (0x10800 - 0x500) * 2 ^ 64) (kern 1 1) (0x70000 + 65536 * 2 ^ 64) []) = true
    ∧ new (fun u a => match a with
        | .ok l => rangesMapped u l && (startTask.resumePlacesNew u l (some (0, 0))).isSome && (takeFor u l.id 0x500 0 [0]).isSome
        | _ => false) (fresh (kern 1 0) 0 [] 0x10400) = true := by
  decide +kernel

/-- A resume record of the block that is away. -/
def rec2 (kdesc : Nat) : Nat := kdesc + 0x500 * 2 ^ 64 + 2 ^ 253

/-- Resume records: unreadable, of a parallel launch, which this die may and may not pop, of a sequential launch, of no cohort; none. -/
theorem wit_WorkIsDistributedAndSuspended_resumes :
    let st (kdesc : Nat) (down : List Nat) (prog : Nat) := awayOne (queueing (rec2 kdesc) (kern 1 0) 0 down) false fun l => { l with k := { l.k with prog := prog, vars := [{ oneV with zt := 0 }] } }
    let gone : State := let s := queueing 0 0 0 [1]; { s with work := { s.work with qbase := [(0, 0x30000)] } }
    let first (s : State) (p : State → Nat × Nat → Bool) : Bool := match firstResume s 0 with | (u, some (some n)) => p u n | _ => false
    let none_ (s : State) : Bool := match firstResume s 0 with | (_, some none) => true | _ => false
    let outcome (t : Tried) : Nat := match t with | .done _ => 0 | .wait _ => 1 | .no => 2
    (match firstResume gone 0 with | (_, none) => true | _ => false) = true
    ∧ (first (st 0x70000 [] 1) fun u n => mayPop (st 0x70000 [] 1) 0 0 true && !mayPop (st 0x70000 [] 1) 4 0 true
        && outcome (resumeRecordAt u 0 n.1 n.2 (some [(0, 0)])) == 0) = true
    ∧ (first (st 0x30000 [1] 1) fun u n => mayPop (st 0x30000 [1] 1) 0 0 true && outcome (resumeRecordAt u 0 n.1 n.2 (some [(0, 0)])) == 1) = true
    ∧ (first (st 0x10400 [] 1) fun u n => mayPop (st 0x10400 [] 1) 0 0 true && outcome (resumeRecordAt u 0 n.1 n.2 (some [])) == 2) = true
    ∧ (none_ (startingAt 1 1 id) && (queuedLaunch (startingAt 1 1 id) 0).isSome) = true
    ∧ (let s := queueing (rec3 0x10400 0x10800 1) (kern 1 1) 0 []; none_ s && mayPop s 0 0 false && recB s fun _ r => bitsAt r 252 4 != 2) = true
    ∧ (∀ x ∈ [(0x70000, ([] : List Nat), 0, some [(0, 0)]), (0x30000, [1], 1, some [(0, 0)]), (0x10400, [], 2, some [])], let s := st x.1 x.2.1 2
        (none_ s && mayPop s 0 0 false && recB s fun s1 r => bitsAt r 252 4 == 2 && outcome (resumeRecordAt s1 0 0 r x.2.2.2) == x.2.2.1) = true)
    ∧ (let s := queueing (rec2 0x10400) 0 0 []; recB s fun s1 r => awayFor s1 r == none && !r.testBit 167) = true := by
  decide +kernel

/-- QTAIL off, before the host's step and in effect; a core's request that is met there, elsewhere and not at all; the ring of rejected records
that waits and takes one; a starved record too early, that fits, and late. -/
theorem wit_WorkIsDistributedAndSuspended_requests :
    let s := startingAt 1 1 id
    let pinned := startingAt 1 1 fun l => { l with k := { l.k with place := [(0, 1, 5)] } }
    let next (s : State) (y : Bool × Nat) (g : Option (List (Nat × Nat))) : Tried := if y.1 then resumeNext s y.2 g else headNext s y.2 g
    let find (s : State) : Option (Bool × Nat) :=
      ((heldQueues s).flatMap fun q => [(true, q), (false, q)]).find? fun y => (next s y none).isDone && mayPop s 0 y.2 y.1
    let up : State := { s with boot := { s.boot with step := 7 } }
    let rej (ctl : Word) : State := let s := queueing 0 0 0 []
      { s with mgmt := { s.mgmt with rej := { s.mgmt.rej with base := 0x10000, size := 8, ctl := ctl, buf := [toBytes 64 3] } } }
    let starved (n cyc : Nat) (l : Launch → Launch) : State := let s := later cyc 0 (startingAt n 1 fun x => { l x with queue := 0, queued := false })
      { s with work := { s.work with qbase := [(16, 0x10000)], qsize := [(16, 8)], qtail := [(16, 1)] } }
    (s.work.qsize.get? 5).getD 0 = 0 ∧ s.boot.step < 7 ∧ ((up.work.qsize.get? 0).getD 0 ≠ 0 ∧ 7 ≤ up.boot.step)
    ∧ (find s == some (false, 0) && s.mgmt.rej.buf == [] && (next s (false, 0) (some [(0, 0)])).isDone) = true
    ∧ (find pinned == some (false, 0) && !(next pinned (false, 0) (some [(0, 0)])).isDone) = true
    ∧ (find State.reset == none && heldQueues State.reset == []) = true
    ∧ ((rej 0).mgmt.rej.takes = false ∧ (rej 1).mgmt.rej.takes = true ∧ (match engWrite (rej 1) 0x10000 64 (putBits (ofBytes (toBytes 64 3)) 511 1 1) with
        | (u, true) => u.mgmt.rej.buf == [toBytes 64 3]
        | _ => false) = true ∧ (rej 1).mgmt.rej.phase.toNat = 1 ∧ (rej 1).mgmt.rej.tail = 0)
    ∧ (∀ n ∈ [0, 65536], let s := starved 1 n id
        queueHead s 16 = some 0 ∧ (launchOf s 0).any (fun l => l.k.prog != 0 && decide (l.queue / 16 < 16 / 16)) = true ∧ s.work.enq = [] ∧ (headNext s 16 none).isDone = false)
    ∧ (let s := starved 1 0 id
       let t : State := { later 65536 0 s with work := { s.work with enq := [(16, 0, 0)] } }
       queueHead t 16 = some 0 ∧ 0 + 65536 ≤ t.sched.cycle ∧ (headNext t 16 none).isDone = false) := by
  decide +kernel

/-- A cohort of one block at switch point 7 of a kernel with a switch table at 0x13000, frames from 0x12000 and save areas from 0x14000 on. -/
def atSwitch (nsw room : Nat) : State :=
  let s := withB { mappedOnce with mem := { mappedOnce.mem with cells := Memory.write (Memory.write mappedOnce.mem.cells 0x1013000 8 7) 0x1013010 8 0x13800 } }
    fun b => { b with bms := none, v := ⟨0, 1, 0, 0, 0, 0, 0⟩ }
  let s := withP s fun q => { q with st := .barw, wait := .swpt 7 }
  let s := withL s fun l => { l with k := { l.k with ftab := 0x13000, nsw := nsw } }
  { s with work := { s.work with
      ppBase := 0x12000, csaBase := 0x14000, qbase := [(0, 0x11000)], qsize := [(0, room)]
      cohorts := s.work.cohorts.map fun c => { c with yield := true } } }

/-- A combined line of the block whose home, N1, is in reset. -/
def combined (s : State) : State :=
  let t := leafPage 0x30000 (fun c => { c with home := 1, frame := 0x103, mt := .wc }) { s with power := { s.power with uncoreDown := [1] } }
  { t with coh := { t.coh with wc := [⟨0, keyOf 0 0x30000, [(3, 7)], 0, [(0, 0, 0, 0)], false, []⟩] } }

def blocksB (s : State) (p : Cohort → Block → Launch → List Block → Bool) : Bool :=
  match cohortOf s 0, (cohortBlocks s 0).head? with
  | some c, some b => (launchOf s b.launch).any fun l => p c b l (cohortBlocks s 0)
  | _, _ => false

/-- A cohort not yet asked to yield; at its switch point with a buffer that does not drain, a counter, an open phase, no table, no room in
its queue, and room. -/
theorem wit_WorkIsDistributedAndSuspended_switch :
    let due (s : State) (p : Cohort → Block → Launch → List Block → Bool) : Bool := blocksB s fun c b l bs => !s.power.frozen && bs.all (fun b => !b.halted && b.bms.isNone)
      && !cohortOwes s 0 && (cohortSuspends s 0).isNone && p c b l bs
    let at_ (s : State) (p : State → Bool → List Block → Launch → Bool) : Bool := due s fun c b l bs => c.yield && cohortAtSwpt s 0 && blockSwpt b == some [7]
      && (match drainBuffers s 0 with | (w, d) => p w d bs l)
    let ready (w : State) (bs : List Block) : Bool := unevenGroup bs == none && openPhase w 0 bs == none
    let s := atSwitch 1 4
    due { s with work := { s.work with cohorts := s.work.cohorts.map fun c => { c with yield := false } } } (fun c _ _ _ => !c.yield) = true
    ∧ at_ (combined s) (fun _ d _ _ => !d) = true
    ∧ at_ (withC s 0 fun k => { k with ctrs := k.ctrs.set 3 6 }) (fun _ d bs _ => d && (unevenGroup bs).isSome) = true
    ∧ at_ (withB s fun b => { b with bars := b.bars.set 0 ⟨1, 1, 0, [(0, 0)]⟩ }) (fun w d bs _ => d && unevenGroup bs == none && (openPhase w 0 bs).isSome) = true
    ∧ at_ (atSwitch 0 4) (fun w d bs l => d && ready w bs && !(writeFrames l bs.length 7 bs w).2) = true
    ∧ (∀ room ∈ [0, 4], at_ (atSwitch 1 room) (fun w d bs l => d && ready w bs && (match writeFrames l bs.length 7 bs w with
        | (u, true) => (queueAppend u (queueOf w 0) 5 l.asid l.prv).2 == decide (room = 4)
        | _ => false)) = true) := by
  decide +kernel

/-- The cohort pre-empted, its block halted. -/
def halted (s : State) : State :=
  let s := withB s fun b => { b with halted := true }
  { s with work := { s.work with cohorts := s.work.cohorts.map fun c => { c with preempt := true } } }

/-- A load whose line N1, in reset, homes; save areas there. -/
def awaiting (s : State) : State :=
  let t := leafPage 0x30000 (fun c => { c with home := 1, frame := 0x103 }) { s with power := { s.power with uncoreDown := [1] } }
  withC t 0 fun k => { k with window := [⟨0, 0, 0, 0, .ld ctl .glb .b32 false .dflt 5 4 mx, [⟨.ctl, 0x30000⟩], [3], [], [], false, 0⟩] }

/-- A cohort that is not pre-empted, not halted; one that does not drain, whose buffer does not, whose copy waits for the pod; whose save area
does not answer; that has no queue; that is saved. -/
theorem wit_WorkIsDistributedAndSuspended_saves :
    let due (s : State) (p : Block → Launch → List Block → Bool) : Bool := blocksB s fun c b l bs => !s.power.frozen && c.preempt && bs.all (·.halted) && p b l bs
    let drained (s : State) (p : State → Block → Launch → Bool) : Bool := due s fun b l _ => (drainAll s 0).2 && (match drainBuffers (drainAll s 0).1 0 with
      | (w, true) =>
        let cs := cohortCopies w 0
        p ((List.range cs.length).foldl (fun s n => stopCopy s (cs.getD n (0, 0, 0)) 0) w) b l
      | _ => false)
    let s := halted (atSwitch 1 4)
    let away : State := leafPage 0x30000 (fun c => { c with home := 1, frame := 0x103 }) { s with work := { s.work with csaBase := 0x30000 }, power := { s.power with uncoreDown := [1] } }
    let copies : State := withC s 0 fun k => { k with copies := [⟨0, 0, 0, 0, true, 0, false⟩] }
    blocksB (atSwitch 1 4) (fun c _ _ bs => !c.preempt && bs.any fun b => !b.halted) = true
    ∧ due (awaiting s) (fun _ _ _ => !(drainAll (awaiting s) 0).2) = true
    ∧ due (combined s) (fun _ _ _ => (drainAll (combined s) 0).2 && !(drainBuffers (drainAll (combined s) 0).1 0).2) = true
    ∧ drained { copies with links := { copies.links with pods := [⟨4, true, 0, 0, 0, 0, 0, none⟩] } } (fun z _ _ => podWritesOpen z 0) = true
    ∧ drained away (fun z _ _ => !podWritesOpen z 0 && cohortBlocks z 0 != [] && !(saveBlocks (cohortBlocks z 0) z).2) = true
    ∧ (∀ room ∈ [0, 4], drained (halted (atSwitch 1 room)) (fun z _ l => !podWritesOpen z 0 && (cohortBlocks z 0).head?.isSome && (match saveBlocks (cohortBlocks z 0) z with
        | (u, true) => (queueAppend u (queueOf z 0) 5 l.asid l.prv).2 == decide (room = 4)
        | _ => false)) = true)
    ∧ ((blockOf oneBms 0).any fun b => b.bms.any fun m => m.st != .trapped) = true
    ∧ ((blockOf (withM oneBms fun m => { m with st := .trapped }) 0).any fun b => b.bms.any fun m => m.st == .trapped) = true := by
  decide +kernel

/-! Reset, trust, fatal errors -/

/-- An image of a stage without a body, and a device that trusts its key. -/
def image (n : Nat) (key : BitVec 256) (sig : List Byte) : Firmware := ⟨0x46574946, n, 0, 0, Config.sha256 [], true, [], sig, key⟩
def trusts (key : BitVec 256) (fs : List Firmware) (s : State) : State := { s with boot := { s.boot with pkh := Config.sha256 (toBytes 32 key.toNat), flash := fs } }

/-- Images that pass, whenever the free value Config.slhVerify accepts their signature, and one of a wrong stage, which never does; the
edges of a device whose modules train; the update log full and not. -/
theorem wit_ResetsAndFatalErrors_trust (key : BitVec 256) (sig : List Byte) :
    let s := trusts key [image 1 key sig, image 2 key sig, image 3 key sig] one
    (s.boot.flash = [image 1 key sig, image 2 key sig, image 3 key sig] ∧ ∀ n, (image n key sig).stage = n)
    ∧ ((∀ n, Config.slhVerify key (Firmware.header (image n key sig) ++ []) sig = true) → ∀ n < 4, imageReason s.boot n (image n key sig) = 0)
    ∧ (∀ e < 8, edgeDown (resetKeeping one) e = false)
    ∧ (let t := trusts key [{ image 1 key sig with magic := 0 }, image 2 key sig, image 3 key sig] one
       imageReason t.boot 1 { image 1 key sig with magic := 0 } ≠ 0)
    ∧ (image 0 key sig).stage < 1 ∧ s.boot.log.length < 64 ∧ ∃ b : Boot, 64 ≤ b.log.length := by
  refine ⟨⟨rfl, fun _ => rfl⟩, ?_, by decide +kernel, ?_, Nat.zero_lt_one, by show one.boot.log.length < 64; decide +kernel, ?_⟩
  · intro h n hn
    have h0 : one.boot.roll = [0, 0, 0] := by decide +kernel
    have hr : one.boot.roll.getD (n - 1) 0 = 0 := by
      rw [h0]
      have : n = 0 ∨ n = 1 ∨ n = 2 ∨ n = 3 := by omega
      rcases this with rfl | rfl | rfl | rfl <;> rfl
    rw [imageReason, if_neg (by simp [trusts, image]), if_neg (by simp [image]), if_neg (by simp only [trusts, hr]; exact Nat.lt_irrefl 0),
      if_neg (by simp [image]), if_neg]
    have hv := h n
    simp only [image] at hv ⊢
    simpa using hv
  · simp [imageReason, trusts, image]
  · exact ⟨{ one.boot with log := List.replicate 64 (0, 0, 0, 0) }, by simp⟩

/-- A line of cluster 8, on N1, whose home knows it; no blocks but those of N0. -/
def remote (st : CSt) (h : HSt) (s : State) : State :=
  { s with coh := { s.coh with lines := [{ cline st with cl := 8 }], dir := [{ ent h 8 [] none with sharers := if h = .ha ∨ h = .hs then [8] else [] }] } }

def graced (s : State) (die : Nat) (uncore : Bool) (p : State → Bool) : Bool :=
  (s.work.blocks.all fun b => b.die != die) && (match (if uncore then recallHomes (flushDie s die) die else (flushDie s die, true)) with
    | (u, true) => (u.coh.lines.all fun c => !onDie die c.cl) && (u.coh.wbs.all fun w => !onDie die w.1) && p u
    | _ => false)

def abrupt (s : State) (die : Nat) (p : State → CLine → Bool) : Bool :=
  (s.work.blocks.all fun b => b.die != die) && (let u := settleKeys s (keysHeld s die); match u.coh.lines.filter fun c => onDie die c.cl with
    | [c] => p u c
    | _ => false)

/-- Dies with work, without, with dirty lines; lost lines of each state, on device and host memory, with a home that answers and one that
does not; dies whose uncore returns to no lost line, one that waits, one that is poisoned. -/
theorem wit_ResetsAndFatalErrors_dies :
    (6 ≤ 6 ∧ ∃ b ∈ paged.work.blocks, b.die = 0)
    ∧ (∀ uncore ∈ [true, false], graced (remote .m .he paged) 1 uncore (fun _ => true) = true)
    ∧ (∀ x ∈ [(CSt.m, HSt.he), (.o, .ho), (.a, .ha)], abrupt (remote x.1 x.2 paged) 1 (fun u c => let gone := dropLine u c.cl c.key
        c.st == x.1 && !homeBusy gone c.key && homeUp gone c.key && hostAddr (poisonHome gone c.key) c.key == none) = true)
    ∧ abrupt { remote .m .he paged with power := { paged.power with uncoreDown := [0] } } 1 (fun u c => c.st == .m && !homeUp (dropLine u c.cl c.key) c.key) = true
    ∧ (∀ x ∈ [(CSt.e, HSt.he), (.s, .hs)], abrupt (remote x.1 x.2 paged) 1 (fun u c => c.st == x.1 && hostAddr (dropLine u c.cl c.key) c.key == none) = true)
    ∧ abrupt (let s := hostHeld .exclusive true false []; remote .m .he s) 1 (fun u c =>
        let z := poisonHome (dropLine u c.cl c.key) c.key
        c.st == .m && !homeBusy (dropLine u c.cl c.key) c.key && homeUp (dropLine u c.cl c.key) c.key && hostAddr z c.key == some (5 * 512)
          && (hostLine z (5 * 512)).any (fun e => e.keys == [c.key] && e.st != .invalid) && (dirOf z c.key).st == .he && (dirOf z c.key).owner == c.cl) = true
    ∧ (∀ dropped ∈ [[], [key1]], ∀ down ∈ [[1], [1, 0]], let s : State := { paged with coh := { paged.coh with dropped := dropped }, power := { paged.power with uncoreDown := down } }
        let w := (keysHomed s 1).foldl reported { s with power := { s.power with uncoreDown := s.power.uncoreDown.erase 1 } }
        1 ∈ s.power.uncoreDown ∧ s.coh.dropped = dropped ∧ (homeUp w key1 = true ↔ down = [1]) ∧ homeBusy w key1 = decide (down ≠ [1])) := by
  decide +kernel

/-- A freeze too short, without a hot stack, and long enough; a device that has had its fatal error. -/
theorem wit_ResetsAndFatalErrors_fatal :
    let frozen (t : Nat) (hot : List Nat) : State := { one with power := { one.power with frozen := true, hot := hot }, sched := { one.sched with time := List.replicate 6 t } }
    one.power.fatal = none ∧ one.power.frozen = false
    ∧ (let s := frozen (10 ^ 9) [3]; s.power.fatal = none ∧ s.power.frozen = true ∧ s.power.frzStart + 10 ^ 9 ≤ s.sched.time.getD 4 0 ∧ s.power.hot ≠ [])
    ∧ ((frozen 5 [3]).sched.time.getD 4 0 < (frozen 5 [3]).power.frzStart + 10 ^ 9 ∧ (frozen (10 ^ 9) []).power.hot = [])
    ∧ (let s : State := { one with power := { one.power with fatal := some (4, 4, 0) } }; s.power.fatal ≠ none)
    ∧ one.boot.step ≠ 5 ∧ (let s : State := { one with boot := { one.boot with step := 5 } }; s.boot.step = 5) := by
  decide +kernel

/-! Debug, trace, recording, registers -/

/-- The group of `one` as a debugger names it, with a test of it and of one of its entries. -/
def namedB (s : State) (idx : Nat) (p : Block → Launch → Group → Path → Bool) : Bool :=
  groupWith s 0 == some (0, 0) && match blockOf s 0, launchOfBlock s 0, groupOf s 0 0 with
    | some b, some l, some g => b.groups[0]? == some g && (match g.paths[idx]? with | some q => p b l g q | none => false)
    | _, _, _ => false

def heldPath (s : State) : State := withP s fun q => { q with held := true }

/-- A launch with and without a debugger, with and without leases, with no block; no group of a name; an entry that is free, live, held, that
has an access out; a group without a free entry; items whose register an access writes, and those a debugger may write. -/
theorem wit_DebugCommandsAndRegisters_groups :
    let full := withG (heldPath one) fun g => { g with paths := g.paths.map fun q => { q with st := .ready } }
    let own : LaneMask := 3
    ((launchOf one 0).any (fun l => l.dbg == none && l.k.nlease == 0) && (launchOf (withL one fun l => { l with dbg := some true, k := { l.k with nlease := 1 } }) 0).any fun l => l.dbg != none && l.k.nlease != 0) = true
    ∧ (let s : State := { one with work := { one.work with blocks := [] } }; (launchOf s 0).isSome = true ∧ ∀ b ∈ s.work.blocks, b.launch ≠ 0)
    ∧ groupWith one 5 = none
    ∧ namedB one 3 (fun _ _ _ q => q.st == .free) = true
    ∧ (one.mgmt.dbq.ctl.getLsbD 0 = false ∧ one.mgmt.dbq.buf.length < 64)
    ∧ namedB one 0 (fun _ _ _ q => q.st != .free && q.mask == [own] && !q.held) = true
    ∧ namedB (owing (heldPath one) 0) 0 (fun _ _ _ q => q.held && unpassed (owing (heldPath one) 0) 0 0 0) = true
    ∧ namedB full 0 (fun _ _ g q => q.held && !unpassed full 0 0 0 && freeEntry g == none) = true
    ∧ namedB (heldPath one) 0 (fun _ _ g q => q.held && !unpassed (heldPath one) 0 0 0 && freeEntry g == some 1 && q.st != .free
        && !((1 : LaneMask) == 0) && (1 &&& q.mask.getD 0 0 == 1) && q.mask.getD 0 0 != 1 && (4 &&& q.mask.getD 0 0 != 4)) = true
    ∧ (itemPending (owing one 0) 0 0 (.greg 5) = true ∧ itemPending one 0 0 (.greg 5) = false)
    ∧ (namedB one 0 (fun _ _ g _ => !mayWrite g (.greg 5)) && namedB (heldPath one) 0 (fun _ _ g _ => mayWrite g (.greg 5))
        && namedB (owing (heldPath one) 0) 0 (fun _ _ g _ => mayWrite g (.greg 5) && itemPending (owing (heldPath one) 0) 0 0 (.greg 5))) = true := by
  decide +kernel

/-- The sampler off, without and with a sample; trace control that changes EN, off and on; replay: no issuer, none recorded, an access whose data
has come; rings with nothing and one entry buffered; the registers' rings empty. -/
theorem wit_DebugCommandsAndRegisters_rest :
    let on : State := { one with mgmt := { one.mgmt with smp := 4 } }
    let sampled : State := { on with cores := on.cores.set 0 { coreState on 0 with lastIssue := [some (0, 0, 0), none, none, none] } }
    let y := yarrowOf one 0
    let traced := setYarrow one 0 { y with ctl := 1 }
    let replays (n : Nat) (s : State) := withL s fun l => { l with rr := some ⟨n, 0, 0, 0, 0, 0, []⟩ }
    let loads := replays 2 (withC (lineIn .s 0x10000 paged) 0 fun c => { c with window := [⟨0, 0, 0, 0, .ld ctl .glb .b32 false .dflt 5 4 mx, [⟨.ctl, 0x10000⟩], [3], [], [], true, 0⟩] })
    let faq : State := { paged with mgmt := { paged.mgmt with faq := { paged.mgmt.faq with base := 0x10000, size := 8, ctl := 1, buf := [toBytes 16 3] } } }
    one.mgmt.smp = 0 ∧ (on.mgmt.smp ≠ 0 ∧ (coreState on 0).lastIssue.getD 0 none = none)
    ∧ ((coreState sampled 0).lastIssue.getD 0 none = some (0, 0, 0) ∧ sampled.mgmt.smp ≠ 0 ∧ namedB sampled 0 (fun b l _ q => gidOf b l.isTask 0 == 0 && q.mask == [3]) = true
        ∧ (sampled.mgmt.smpQuad.get? 0).getD 0 = 0)
    ∧ (y.ctl.getLsbD 0 = false ∧ (yarrowOf traced 0).ctl.getLsbD 0 = true ∧ (yarrowOf traced 0).bits = [] ∧ (yarrowOf traced 0).loss = none)
    ∧ issOf one 9 0 = none
    ∧ (issB one 0 (fun i _ => i.l.rr == none) && issB (replays 1 one) 0 (fun i _ => i.l.rr.any fun r => r.mode != 2)) = true
    ∧ issB loads 0 (fun i _ => (i.l.rr.any fun r => r.mode == 2) && match windowOf loads 0 0 with
        | [p] => !p.isStore && (match tryData loads i p with | (_, .yes) => true | _ => false)
        | _ => false) = true
    ∧ one.mgmt.faq.buf = []
    ∧ (faq.mgmt.faq.takes = true ∧ (match engWrite faq 0x10000 16 (putBits (ofBytes (toBytes 16 3)) 63 1 faq.mgmt.faq.phase.toNat) with
        | (w, true) => w.mgmt.faq.buf == [toBytes 16 3]
        | _ => false) = true ∧ faq.mgmt.faq.tail = 0)
    ∧ (one.mgmt.rej.buf = [] ∧ one.mgmt.trq.buf = [] ∧ one.mgmt.dbq.buf = [] ∧ one.motion.recs = [] ∧ one.motion.moves = []) := by
  decide +kernel

end Sys2Proof.Tests
end

section
/-!
PROOFS. Chapter 10, vector and group arithmetic: what the shared shapes of register instructions give, what the integer and
floating functions of the model compute, and the statements of the family assembled from both.
-/

namespace Sys2Proof.Machine

open Sys2Proof.Safety

/-! ### Instructions of one value or one predicate a slot -/

theorem issues_hdrOf {s : State} {i : Instr} {h : Hdr} {x : Ex} (hx : Issues s i h x) : hdrOf i = some h := hx.1

theorem issues_exOf {s : State} {i : Instr} {h : Hdr} {x : Ex} (hx : Issues s i h x) : exOf s h = some x := hx.2.1

theorem laneUse_useO (n : Nat) (o : Opnd) : laneUse (useO n o) = true := by cases o <;> rfl

/-- An instruction whose meaning is `valueOp` completes with its value in D (R173). -/
theorem gives_of_valueOp {s : State} {i : Instr} {h : Hdr} {d : Reg} {n : Nat} {f : Regs → Slot → Nat} {val : Ex → Slot → Nat}
    (hh : hdrOf i = some h) (he : exec i s = valueOp s i h d n f) (hd : useSpan (uses i).d = (d.toNat, n))
    (hl : laneUse (uses i).d = true ∧ laneUse (uses i).a = true ∧ laneUse (uses i).b = true)
    (hv : ∀ x sl, f x.r sl = val x sl) : Gives s i d n val := by
  intro h' x hx
  obtain rfl : h = h' := Option.some.inj (hh.symm.trans (issues_hdrOf hx))
  obtain rfl : (fun x sl => f x.r sl) = val := funext fun x => funext (hv x)
  rw [he]
  exact valueOp_gives hx hd hl f

/-- An instruction whose meaning is `predOp` completes with its value in the predicate D (R173). -/
theorem gives_of_predOp {s : State} {i : Instr} {h : Hdr} {d : Reg} {f : Regs → Slot → Bool} {val : Ex → Slot → Bool}
    (hh : hdrOf i = some h) (he : exec i s = predOp s i h d f) (hd : (uses i).d = some ⟨.pred, d, false⟩)
    (hl : laneUse (uses i).a = true ∧ laneUse (uses i).b = true) (hv : ∀ x sl, f x.r sl = val x sl) : GivesPred s i d val := by
  intro h' x hx
  obtain rfl : h = h' := Option.some.inj (hh.symm.trans (issues_hdrOf hx))
  obtain rfl : (fun x sl => f x.r sl) = val := funext fun x => funext (hv x)
  rw [he]
  exact predOp_gives hx hd hl f

/-! ### Widths and ranges of integer types (R172, R175) -/

theorem tyW_pos (t : Ty) : 0 < tyW t := by cases t <;> decide

theorem src_lt (r : Regs) (sl : Slot) (t : Ty) (a : Reg) : src r sl t a < 2 ^ tyW t := Nat.mod_lt _ (Nat.two_pow_pos _)

theorem srcO_lt (r : Regs) (sl : Slot) (t : Ty) (b : Opnd) : srcO r sl t b < 2 ^ tyW t := by
  cases b with
  | reg a => exact src_lt r sl t a
  | imm x => exact Nat.mod_lt _ (Nat.two_pow_pos _)

/-- Two's complement of a number below 2^w. -/
theorem sextN_of_lt {w n : Nat} (h : n < 2 ^ w) : sextN w n = if n < 2 ^ (w - 1) then (n : Int) else n - 2 ^ w := by
  simp only [sextN, Nat.mod_eq_of_lt h]

/-- Only the bits of zero stand for the integer zero (R175). -/
theorem intOf_eq_zero {t : Ty} {n : Nat} (h : n < 2 ^ tyW t) : intOf t n = 0 ↔ n = 0 := by
  have hc : ((2 ^ tyW t : Nat) : Int) = 2 ^ tyW t := by norm_cast
  unfold intOf
  split
  · have hp : 0 < 2 ^ (tyW t - 1) := Nat.two_pow_pos _
    rw [sextN_of_lt h]
    split <;> omega
  · rw [Nat.mod_eq_of_lt h]; omega

/-- A clamp as a choice among bound and value. -/
theorem max_min_eq_ite {lo hi v : Int} (h : lo ≤ hi) : max lo (min hi v) = if v < lo then lo else if hi < v then hi else v := by
  split
  · omega
  · split <;> omega

/-- Clamp(x, T) by the bounds of the type (R175). -/
theorem clampT_eq (t : Ty) (v : Int) :
    clampT t v =
      (let lo : Int := if tySigned t then -(2 ^ (tyW t - 1)) else 0
       let hi : Int := if tySigned t then 2 ^ (tyW t - 1) - 1 else 2 ^ tyW t - 1
       if v < lo then lo else if hi < v then hi else v) := by
  have hp : ∀ n, 0 < (2 : Int) ^ n := fun n => Int.pow_pos (by decide)
  have h1 := hp (tyW t - 1)
  have h2 := hp (tyW t)
  unfold clampT
  split <;> exact max_min_eq_ite (by omega)

/-- Narrowing, the clamp written out (R175). -/
theorem narrow_eq (t : Ty) (sat : Bool) (v : Int) :
    narrow t sat v =
      (let lo : Int := if tySigned t then -(2 ^ (tyW t - 1)) else 0
       let hi : Int := if tySigned t then 2 ^ (tyW t - 1) - 1 else 2 ^ tyW t - 1
       ((if sat then (if v < lo then lo else if hi < v then hi else v) else v) % 2 ^ tyW t).toNat) := by
  simp only [narrow, truncN, clampT_eq]

/-- Settles O1: each meaning is the exact integer narrowed, and narrowing is the clamp written out. -/
theorem integerArithmeticIsExactThenNarrowed : Obligations.IntegerArithmeticIsExactThenNarrowed := by
  intro s h t sat d a b' b c
  have hb := laneUse_useO (tyRegs t) b
  refine ⟨gives_of_valueOp rfl (exec_iadd ..) rfl ⟨rfl, rfl, hb⟩ fun x sl => narrow_eq t sat _,
    gives_of_valueOp rfl (exec_isub ..) rfl ⟨rfl, rfl, hb⟩ fun x sl => narrow_eq t sat _,
    gives_of_valueOp rfl (exec_imul ..) rfl ⟨rfl, rfl, hb⟩ fun x sl => narrow_eq t sat _,
    gives_of_valueOp rfl (exec_imad ..) rfl ⟨rfl, rfl, rfl⟩ fun x sl => narrow_eq t sat _,
    gives_of_valueOp rfl (exec_imulh ..) rfl ⟨rfl, rfl, hb⟩ fun x sl => narrow_eq t false _,
    gives_of_valueOp rfl (exec_imin ..) rfl ⟨rfl, rfl, hb⟩ fun x sl => ?min,
    gives_of_valueOp rfl (exec_imax ..) rfl ⟨rfl, rfl, hb⟩ fun x sl => ?max,
    gives_of_valueOp rfl (exec_iabs ..) rfl ⟨rfl, rfl, rfl⟩ fun x sl => ?abs⟩
  case min => exact (narrow_eq t false _).trans (by rw [Int.min_def])
  case max => exact (narrow_eq t false _).trans (by rw [Int.max_comm, Int.max_def])
  case abs =>
    refine (narrow_eq t sat _).trans ?_
    rw [show (↑(intOf t (src x.r sl t a)).natAbs : Int)
      = if intOf t (src x.r sl t a) < 0 then -intOf t (src x.r sl t a) else intOf t (src x.r sl t a) by split <;> omega]

/-! ### Division (R177) -/

theorem tdiv_eq_natAbs_div {a b : Int} (ha : 0 ≤ a) (hb : 0 ≤ b) : a.tdiv b = (a.natAbs / b.natAbs : Nat) := by
  rw [Int.tdiv_eq_ediv_of_nonneg ha, Int.natCast_ediv, Int.natAbs_of_nonneg ha, Int.natAbs_of_nonneg hb]

/-- Division toward zero by signs and magnitudes. -/
theorem tdiv_eq_sign_mul_natAbs_div (a b : Int) :
    a.tdiv b = (if (a < 0) = (b < 0) then 1 else -1) * (a.natAbs / b.natAbs : Nat) := by
  rcases Int.lt_or_le a 0 with ha | ha <;> rcases Int.lt_or_le b 0 with hb | hb
  · have hq := tdiv_eq_natAbs_div (a := -a) (b := -b) (by omega) (by omega)
    rw [Int.neg_tdiv, Int.tdiv_neg, Int.neg_neg, Int.natAbs_neg, Int.natAbs_neg] at hq
    simp [ha, hb, hq]
  · have hq := tdiv_eq_natAbs_div (a := -a) (b := b) (by omega) hb
    rw [Int.neg_tdiv, Int.natAbs_neg, Int.neg_eq_comm] at hq
    simp [ha, Int.not_lt.2 hb, ← hq]
  · have hq := tdiv_eq_natAbs_div (a := a) (b := -b) ha (by omega)
    rw [Int.tdiv_neg, Int.natAbs_neg, Int.neg_eq_comm] at hq
    simp [hb, Int.not_lt.2 ha, ← hq]
  · simp [Int.not_lt.2 ha, Int.not_lt.2 hb, tdiv_eq_natAbs_div ha hb]

/-- The quotient of R177, written out by signs and magnitudes. -/
theorem divRem_fst (a b : Int) :
    (divRem a b).1 = if b = 0 then 0 else (if (a < 0) = (b < 0) then 1 else -1 : Int) * (a.natAbs / b.natAbs : Nat) := by
  unfold divRem
  split
  · rfl
  · exact tdiv_eq_sign_mul_natAbs_div a b

/-- The remainder of R177 is what the quotient leaves. -/
theorem divRem_snd (a b : Int) : (divRem a b).2 = if b = 0 then 0 else a - b * (divRem a b).1 := by
  unfold divRem
  split
  · rfl
  · exact Int.tmod_def a b

theorem zeroDivisor_some {x : Ex} {t : Ty} {b : Opnd} {sl : Slot} (h : zeroDivisor x t b = some sl) :
    sl ∈ x.slots ∧ intOf t (srcO x.r sl t b) = 0 :=
  ⟨List.mem_of_find?_eq_some h, (intOf_eq_zero (srcO_lt x.r sl t b)).2 (beq_iff_eq.1 (List.find?_some h :))⟩

theorem zeroDivisor_none {x : Ex} {t : Ty} {b : Opnd} (h : zeroDivisor x t b = none) :
    ¬∃ sl ∈ x.slots, intOf t (srcO x.r sl t b) = 0 := by
  rintro ⟨sl, hs, h0⟩
  exact List.find?_eq_none.1 h sl hs (beq_iff_eq.2 ((intOf_eq_zero (srcO_lt x.r sl t b)).1 h0))

/-- With DIVZ clear, or with no zero divisor in an executing slot, a division completes (R177). -/
theorem divOp_completes {s : State} {i : Instr} {h : Hdr} {x : Ex} (hx : Issues s i h x) {t : Ty} {d a : Reg} {b : Opnd}
    (pick : Int × Int → Int) (hd : useSpan (uses i).d = (d.toNat, tyRegs t))
    (hl : laneUse (uses i).d = true ∧ laneUse (uses i).a = true ∧ laneUse (uses i).b = true)
    (hz : divTraps s x.cur.blk = false ∨ ¬∃ sl ∈ x.slots, intOf t (srcO x.r sl t b) = 0) :
    ∃ t' r', divOp s i h t d a b pick = .next t' ∧ Retires s t' x.cur ∧ regsOf t' x.cur.blk x.cur.who = some r'
      ∧ Written s x i h d (tyRegs t)
        (fun sl => truncN (tyW t) (pick (divRem (intOf t (src x.r sl t a)) (intOf t (srcO x.r sl t b))))) r' := by
  simp only [divOp, issues_exOf hx]
  cases hf : zeroDivisor x t b with
  | none => exact retire_gives hx hd hl _
  | some sl =>
    have hdz : divTraps s x.cur.blk = false := hz.resolve_right fun hn => hn ⟨sl, zeroDivisor_some hf⟩
    simp only [hdz]
    exact retire_gives hx hd hl _

/-- With DIVZ set a zero divisor in an executing slot traps (R177). -/
theorem divOp_traps {s : State} {i : Instr} {h : Hdr} {x : Ex} (hx : Issues s i h x) {t : Ty} (d a : Reg) {b : Opnd}
    (pick : Int × Int → Int) (hdz : divTraps s x.cur.blk = true) (hz : ∃ sl ∈ x.slots, intOf t (srcO x.r sl t b) = 0) :
    ∃ sl ∈ x.slots, intOf t (srcO x.r sl t b) = 0 ∧ divOp s i h t d a b pick = .next (trapAt s x.cur (!h.g) ⟨9, 0, some sl⟩) := by
  cases hf : zeroDivisor x t b with
  | none => exact absurd hz (zeroDivisor_none hf)
  | some sl =>
    obtain ⟨hs, h0⟩ := zeroDivisor_some hf
    exact ⟨sl, hs, h0, by simp [divOp, issues_exOf hx, hf, hdz]⟩

/-- Settles O2: a division completes or traps by its first zero divisor, with the quotient by signs and magnitudes. -/
theorem divisionTruncatesAndDivzTraps : Obligations.DivisionTruncatesAndDivzTraps := by
  intro s h t d a b x
  have hl := laneUse_useO (tyRegs t) b
  refine ⟨fun hx => ⟨fun hz => ?quotient, fun ⟨hdz, hz⟩ => divOp_traps hx d a (·.1) hdz hz⟩,
    fun hx => ⟨fun hz => ?remainder, fun ⟨hdz, hz⟩ => divOp_traps hx d a (·.2) hdz hz⟩⟩
  case quotient =>
    have hg := divOp_completes (a := a) hx (·.1) rfl ⟨rfl, rfl, hl⟩ hz
    simp only [divRem_fst] at hg
    exact hg
  case remainder =>
    have hg := divOp_completes (a := a) hx (·.2) rfl ⟨rfl, rfl, hl⟩ hz
    simp only [divRem_snd, divRem_fst] at hg
    exact hg

/-! ### Shifts (R178) -/

/-- SAR by W or more leaves the sign in every bit (R178). -/
theorem sarN_eq {w a : Nat} (n : Nat) (hw : 0 < w) (ha : a < 2 ^ w) :
    sarN w a n = if n < w then ((sextN w a).fdiv (2 ^ n) % 2 ^ w).toNat else if a < 2 ^ (w - 1) then 0 else 2 ^ w - 1 := by
  unfold sarN truncN
  split
  next hn => rw [Nat.min_eq_left (Nat.le_of_lt hn)]
  next hn =>
    have hc : ((2 ^ w : Nat) : Int) = 2 ^ w := by norm_cast
    have hh : 2 ^ w = 2 * 2 ^ (w - 1) := by rw [← Nat.pow_succ']; congr 1; omega
    have hp : 0 < 2 ^ (w - 1) := Nat.two_pow_pos _
    rw [Nat.min_eq_right (Nat.le_of_not_lt hn), sextN_of_lt ha, Int.fdiv_eq_ediv_of_nonneg _ (Int.pow_nonneg (by decide)), ← hc]
    generalize 2 ^ w = M at *
    split
    · rw [Int.ediv_eq_zero_of_lt (by omega) (by omega)]; rfl
    · have hq : ((a : Int) - M) / M = -1 := by
        rw [Int.sub_ediv_of_dvd _ (Int.dvd_refl _), Int.ediv_eq_zero_of_lt (by omega) (by omega), Int.ediv_self (by omega)]; rfl
      have hr : (-1 : Int) % M = M - 1 := by rw [← Int.add_emod_right, Int.emod_eq_of_lt (by omega) (by omega)]; omega
      rw [hq, hr]; omega

/-- Settles O3: the meanings are the operations named, SAR by `sarN_eq`. -/
theorem logicAndShifts : Obligations.LogicAndShifts := by
  intro s h t d a b
  have hb := laneUse_useO (tyRegs t) b
  have hn := laneUse_useO 1 b
  exact ⟨gives_of_valueOp rfl (exec_and ..) rfl ⟨rfl, rfl, hb⟩ fun _ _ => rfl,
    gives_of_valueOp rfl (exec_or ..) rfl ⟨rfl, rfl, hb⟩ fun _ _ => rfl,
    gives_of_valueOp rfl (exec_xor ..) rfl ⟨rfl, rfl, hb⟩ fun _ _ => rfl,
    gives_of_valueOp rfl (exec_shl ..) rfl ⟨rfl, rfl, hn⟩ fun _ _ => rfl,
    gives_of_valueOp rfl (exec_shr ..) rfl ⟨rfl, rfl, hn⟩ fun _ _ => rfl,
    gives_of_valueOp rfl (exec_sar ..) rfl ⟨rfl, rfl, hn⟩ fun x sl => sarN_eq _ (tyW_pos t) (src_lt x.r sl t a)⟩

/-! ### Bits counted and reversed (R181) -/

theorem bitAt_succ (a i : Nat) : bitAt a (i + 1) = bitAt (a / 2) i := by
  simp only [bitAt, Nat.pow_succ', Nat.div_div_eq_div_mul]

theorem toNat_bitAt_zero (a : Nat) : (bitAt a 0).toNat = a % 2 := by
  rw [bitAt, Nat.pow_zero, Nat.div_one]
  rcases Nat.mod_two_eq_zero_or_one a with h | h <;> rw [h] <;> rfl

/-- The count of one bits is the number of positions that hold one. -/
theorem popN_eq (w a : Nat) : popN w a = ((List.range w).filter fun i => bitAt a i).length := by
  induction w generalizing a with
  | zero => rfl
  | succ w ih =>
    have hf : (fun i => bitAt a i) ∘ Nat.succ = fun i => bitAt (a / 2) i := funext fun i => bitAt_succ a i
    rw [popN, ih, List.range_succ_eq_map, List.filter_cons, List.filter_map, hf, ← toNat_bitAt_zero]
    cases bitAt a 0 <;> simp [Nat.add_comm]

/-- The reversed bits as a sum over the positions. -/
theorem revN_eq (w a : Nat) : revN w a = ((List.range w).map fun i => (bitAt a i).toNat * 2 ^ (w - 1 - i)).sum := by
  induction w generalizing a with
  | zero => rfl
  | succ w ih =>
    have hf : (fun i => (bitAt a i).toNat * 2 ^ (w + 1 - 1 - i)) ∘ Nat.succ = fun i => (bitAt (a / 2) i).toNat * 2 ^ (w - 1 - i) := by
      funext i
      simp only [Function.comp, Nat.succ_eq_add_one, bitAt_succ]
      congr 2; omega
    rw [revN, ih, List.range_succ_eq_map, List.map_cons, List.map_map, hf, List.sum_cons, toNat_bitAt_zero]
    simp

/-- Settles O4: the meanings are the fields and sums of the statement, POPC by `popN_eq` and BREV by `revN_eq`. -/
theorem bitFieldsCountsAndAddresses : Obligations.BitFieldsCountsAndAddresses := by
  intro s h t sh d a b c o
  have ho := laneUse_useO 1 o
  exact ⟨gives_of_valueOp rfl (exec_bfx ..) rfl ⟨rfl, rfl, rfl⟩ fun _ _ => rfl,
    gives_of_valueOp rfl (exec_bfi ..) rfl ⟨rfl, rfl, rfl⟩ fun _ _ => rfl,
    gives_of_valueOp rfl (exec_popc ..) rfl ⟨rfl, rfl, rfl⟩ fun x sl => popN_eq _ _,
    gives_of_valueOp rfl (exec_clz ..) rfl ⟨rfl, rfl, rfl⟩ fun _ _ => rfl,
    gives_of_valueOp rfl (exec_brev ..) rfl ⟨rfl, rfl, rfl⟩ fun x sl => revN_eq _ _,
    gives_of_valueOp rfl (exec_lea ..) rfl ⟨rfl, rfl, ho⟩ fun _ _ => rfl⟩

/-! ### Predicates from bits (R187) -/

theorem predCount_le (sl : Slot) : predCount sl ≤ 16 := by
  cases sl with
  | lane j l => exact Nat.le_refl 16
  | ctl => exact (by decide : 8 ≤ 16)

/-- What every step of a fold keeps, the fold keeps. -/
theorem foldl_keeps {α β γ : Type} (p : β → γ) (f : β → α → β) (l : List α) (hf : ∀ b, ∀ a ∈ l, p (f b a) = p b) (b : β) :
    p (l.foldl f b) = p b :=
  List.foldlRecOn (motive := fun c => p c = p b) l f rfl fun c hc a ha => (hf c a ha).trans hc

/-- The predicates of a slot set from bits, lowest first. -/
def setPreds (bits : Slot → Nat → Bool) (r : Regs) (sl : Slot) : Regs :=
  (List.range (predCount sl)).foldl (fun r i => r.wrPred sl i (bits sl i)) r

/-- A predicate read after the lowest `n` predicates of a slot are set. -/
theorem rdPred_foldl_wrPred (b : Nat → Bool) (r : Regs) {sl sl' : Slot} {n m : Nat} (hs : SlotOk sl) (hs' : SlotOk sl') (hm : m < 16)
    (hn : n ≤ 16) :
    ((List.range n).foldl (fun r i => r.wrPred sl' i (b i)) r).rdPred sl m
      = if sl = sl' ∧ m < n ∧ m ≠ 0 then b m else r.rdPred sl m := by
  induction n with
  | zero => simp
  | succ n ih =>
    rw [List.range_succ, List.foldl_append, List.foldl_cons, List.foldl_nil, Regs.rdPred_wrPred _ _ hs hs' hm (by omega), ih (by omega)]
    by_cases e : sl = sl' ∧ m = n ∧ n ≠ 0
    · obtain ⟨rfl, rfl, h0⟩ := e
      rw [if_pos ⟨rfl, rfl, h0⟩, if_pos ⟨rfl, by omega, h0⟩]
    · rw [if_neg e]
      have hc : (sl = sl' ∧ m < n ∧ m ≠ 0) ↔ (sl = sl' ∧ m < n + 1 ∧ m ≠ 0) :=
        ⟨fun ⟨h1, h2, h3⟩ => ⟨h1, by omega, h3⟩, fun ⟨h1, h2, h3⟩ => ⟨h1, by
          have : m ≠ n := fun hmn => e ⟨h1, hmn, hmn ▸ h3⟩
          omega, h3⟩⟩
      simp only [hc]

/-- A predicate read after the predicates of every slot of a list are set (R187): p0 and k0 are not among them. -/
theorem rdPred_foldl_setPreds (bits : Slot → Nat → Bool) (r : Regs) {ss : List Slot} {sl : Slot} {m : Nat} (hss : ∀ q ∈ ss, SlotOk q)
    (hs : SlotOk sl) (hm : m < 16) :
    (ss.foldl (setPreds bits) r).rdPred sl m = if sl ∈ ss ∧ m < predCount sl ∧ m ≠ 0 then bits sl m else r.rdPred sl m := by
  induction ss generalizing r with
  | nil => simp
  | cons q ss ih =>
    rw [List.foldl_cons, ih _ (fun p hp => hss p (.tail _ hp)), setPreds,
      rdPred_foldl_wrPred (bits q) r hs (hss q (.head _)) hm (predCount_le q)]
    by_cases e : sl = q
    · subst e
      by_cases c : m < predCount sl ∧ m ≠ 0 <;> simp [c]
    · simp [e]

/-- Setting predicates leaves the registers (R187). -/
theorem foldl_setPreds_keeps (bits : Slot → Nat → Bool) (ss : List Slot) (r : Regs) :
    (ss.foldl (setPreds bits) r).v = r.v ∧ (ss.foldl (setPreds bits) r).g = r.g ∧ (ss.foldl (setPreds bits) r).span = r.span
      ∧ (ss.foldl (setPreds bits) r).seed = r.seed := by
  have hk := foldl_keeps (fun r : Regs => (r.v, r.g, r.span, r.seed)) (setPreds bits) ss (fun r sl _ =>
    foldl_keeps (fun r : Regs => (r.v, r.g, r.span, r.seed)) _ _ (fun r i _ => by
      obtain ⟨hv, hg, hsp, hsd⟩ := Regs.wrPred_keeps r sl i (bits sl i)
      simp only [hv, hg, hsp, hsd]) r) r
  simpa only [Prod.mk.injEq] using hk

/-- Setting the control thread's predicates leaves the lanes' (R162). -/
theorem foldl_setPreds_ctl_p {ss : List Slot} (hs : ∀ q ∈ ss, q = .ctl) (bits : Slot → Nat → Bool) (r : Regs) :
    (ss.foldl (setPreds bits) r).p = r.p :=
  foldl_keeps Regs.p (setPreds bits) ss (fun r sl hsl => foldl_keeps Regs.p _ _ (fun r i _ => by
    rw [hs sl hsl]
    simp only [Regs.wrPred, Regs.wrK]
    split <;> rfl) r) r

/-- PMOV `.r2p` retires with every executing slot's predicates set from the bits of its register. -/
theorem execPmov_r2p {s : State} {h : Hdr} {x : Ex} (a : Reg) (hx : exOf s h = some x) :
    exec (.pmov h .r2p a) s
      = .next (retire s x (.pmov h .r2p a) h fun r => x.slots.foldl (setPreds fun sl i => (x.r.rd sl a.toNat).getLsbD i) r) := by
  simp only [exec_pmov, execPmov, hx]
  rfl

/-- PMOV `.r2p` (R187): the predicates it sets, the others and the registers. -/
theorem pmov_r2p_sets {s : State} {h : Hdr} {x : Ex} {a : Reg} (hx : Issues s (.pmov h .r2p a) h x) :
    ∃ t' r', exec (.pmov h .r2p a) s = .next t' ∧ Retires s t' x.cur ∧ regsOf t' x.cur.blk x.cur.who = some r'
      ∧ (∀ sl ∈ x.slots, ∀ i, 1 ≤ i → i < predCount sl → r'.rdPred sl i = (x.r.rd sl a.toNat).getLsbD i)
      ∧ (∀ sl, r'.rdPred sl 0 = true)
      ∧ (∀ sl i, SlotOk sl → i < 16 → sl ∉ x.slots → r'.rdPred sl i = x.r.rdPred sl i)
      ∧ (∀ sl m, SlotOk sl → Holds x.r sl m → ¬(sl ∈ x.slots ∧ Marked (.pmov h .r2p a) h m) → r'.rd sl m = x.r.rd sl m) := by
  let bits : Slot → Nat → Bool := fun sl i => (x.r.rd sl a.toNat).getLsbD i
  obtain ⟨kv, kg, ksp, ksd⟩ := foldl_setPreds_keeps bits x.slots (marked s x (.pmov h .r2p a) h)
  have hok := slots_ok (issues_exOf hx)
  obtain ⟨t', r', he, hret, hr, hrd, hrp⟩ := retire_view (i := .pmov h .r2p a) (issues_exOf hx) (fun r => x.slots.foldl (setPreds bits) r)
    (by rw [ksp, marked_span]) (by rw [ksd, marked_seed]) fun hw => by
      obtain ⟨hv, hp⟩ := marks_bms hx hw
      exact ⟨kv.trans hv, (foldl_setPreds_ctl_p (issues_ctl hx hw) bits _).trans hp⟩
  refine ⟨t', r', (execPmov_r2p a (issues_exOf hx)).trans he, hret, hr, fun sl hs j h1 hj => ?_, fun sl => Regs.rdPred_zero r' sl,
    fun sl j ho hj hn => ?_, fun sl m ho hh hmk => ?_⟩
  · rw [hrp, rdPred_foldl_setPreds bits _ hok (hok sl hs) (Nat.lt_of_lt_of_le hj (predCount_le sl)), if_pos ⟨hs, hj, by omega⟩]
  · rw [hrp, rdPred_foldl_setPreds bits _ hok ho hj, if_neg fun y => hn y.1]
    exact rdPred_congr (by simp) (by simp) (by simp) sl j
  · rw [hrd, rd_congr kv kg ksp ksd]
    exact rd_unmarked (issues_marks hx ⟨rfl, rfl⟩) ho hh hmk

/-- Settles O5: the copies and choices are the meanings themselves, PMOV `.r2p` by `pmov_r2p_sets`. -/
theorem movesAndSelects : Obligations.MovesAndSelects := by
  intro s h t p d a b w
  have hb := laneUse_useO (tyRegs t) b
  exact ⟨gives_of_valueOp rfl (exec_mov ..) rfl ⟨rfl, rfl, rfl⟩ fun _ _ => rfl,
    gives_of_valueOp rfl (exec_movi ..) rfl ⟨rfl, rfl, rfl⟩ fun _ _ => rfl,
    gives_of_valueOp rfl (exec_sel ..) rfl ⟨rfl, rfl, hb⟩ fun _ _ => rfl,
    gives_of_valueOp rfl (exec_pmov ..) rfl ⟨rfl, rfl, rfl⟩ fun _ _ => rfl,
    fun x hx => pmov_r2p_sets hx⟩

/-! ### Comparisons and truth tables (R185, R186) -/

/-- Settles O6: the meanings are the comparisons and the table's entry. -/
theorem predicatesOfIntegers : Obligations.PredicatesOfIntegers := by
  intro s h t tt d a b' b
  have hb := laneUse_useO (tyRegs t) b
  have cmp (c : CmpI) : GivesPred s (.icmp h c t d a b) d fun x sl => cmpHolds c (intOf t (src x.r sl t a)) (intOf t (srcO x.r sl t b)) :=
    gives_of_predOp rfl (exec_icmp ..) rfl ⟨rfl, hb⟩ fun _ _ => rfl
  exact ⟨cmp .eq, cmp .ne, cmp .lt, cmp .le, cmp .gt, cmp .ge, gives_of_predOp rfl (exec_plop ..) rfl ⟨rfl, rfl⟩ fun _ _ => rfl⟩

/-! ### Minimum, maximum and comparison of floating values (R192, R193) -/

/-- A two-source operation by elements, the packed types named (R56). -/
theorem fOp2_eq (t : Ty) (op : Fmt → Nat → Nat → Nat) (a : Reg) (b : Opnd) (r : Regs) (sl : Slot) :
    fOp2 t op a b r sl =
      (let g := op (fmtOf t)
       let A := src r sl t a
       let B := srcO r sl t b
       if t = .f16x2 ∨ t = .bf16x2 then g (A % 65536) (B % 65536) + g (A / 65536 % 65536) (B / 65536 % 65536) * 65536 else g A B) := by
  cases t <;> rfl

/-- The order that chooses a minimum: below, or equal with −0 below +0 (R192). -/
theorem fminLeft_eq (f : Fmt) (p q : Nat) :
    fminLeft f p q = (decide (vcmp (fdecode f p) (fdecode f q) < 0)
      || (decide (vcmp (fdecode f p) (fdecode f q) = 0) && (p / f.signBit % 2 == 1 || !(q / f.signBit % 2 == 1)))) := by
  have hp : decide (p / f.signBit % 2 = 1) = (p / f.signBit % 2 == 1) := rfl
  have hq : decide (q / f.signBit % 2 = 0) = !(q / f.signBit % 2 == 1) := by
    rcases Nat.mod_two_eq_zero_or_one (q / f.signBit) with h | h <;> rw [h] <;> rfl
  simp only [fminLeft, hp, hq]
  split
  next h0 => simp [h0]
  next h0 => simp [h0]

/-- FMIN and FMAX as a choice by which operands are NaN (R192). -/
theorem fminmaxBits_eq (f : Fmt) (mx nan : Bool) (p q : Nat) :
    fminmaxBits f mx nan p q =
      if isNan f p && isNan f q || nan && (isNan f p || isNan f q) then f.nanBits
      else if isNan f p then q else if isNan f q then p
      else if mx then (if fminLeft f q p then p else q) else (if fminLeft f p q then p else q) := by
  unfold fminmaxBits
  cases isNan f p <;> cases isNan f q <;> cases nan <;> rfl

/-- Settles O9: FMIN and FMAX by `fminmaxBits_eq` and `fminLeft_eq` on each element; FCMP and FCLASS as the model defines them. -/
theorem floatMinimumsComparisonsAndClasses : Obligations.FloatMinimumsComparisonsAndClasses := by
  intro s h t nan c d a b
  have hb := laneUse_useO (tyRegs t) b
  refine ⟨gives_of_valueOp rfl (exec_fmin ..) rfl ⟨rfl, rfl, hb⟩ fun x sl => ?min,
    gives_of_valueOp rfl (exec_fmax ..) rfl ⟨rfl, rfl, hb⟩ fun x sl => ?max,
    gives_of_predOp rfl (exec_fcmp ..) rfl ⟨rfl, hb⟩ fun x sl => ?cmp,
    gives_of_valueOp rfl (exec_fclass ..) rfl ⟨rfl, rfl, rfl⟩ fun _ _ => rfl⟩
  case min => simp only [fOp2_eq, fminmaxBits_eq, fminLeft_eq]
  case max => simp only [fOp2_eq, fminmaxBits_eq, fminLeft_eq]
  case cmp => cases c <;> rfl

/-! ### Integral and scaled values (R195, R199, R200) -/

theorem clampScale_eq (k : Int) : clampScale k = if k < -5000 then -5000 else if 5000 < k then 5000 else k :=
  max_min_eq_ite (by decide)

/-- FSCL with the bounds on its scale written out (R195). -/
theorem fsclBits_eq (f : Fmt) (rm : Rm) (a : Nat) (k : Int) :
    fsclBits f rm a k =
      match fdecode f a with
      | .nan => f.nanBits
      | .inf p => infOf f p
      | .fin p m e => fencode f rm (.fin p m (e + (if k < -5000 then -5000 else if 5000 < k then 5000 else k))) := by
  unfold fsclBits
  cases fdecode f a with
  | nan => rfl
  | inf p => rfl
  | fin p m e => exact congrArg (fun j => roundDy f rm p m (e + j)) (clampScale_eq k)

/-- Settles O10: FRND, FTOI and ITOF as the model defines them, FSCL by `fsclBits_eq`. -/
theorem floatIntegralAndScaled : Obligations.FloatIntegralAndScaled := by
  intro s h t ts rm sat d a b
  have hb := laneUse_useO 1 b
  exact ⟨gives_of_valueOp rfl (exec_frnd ..) rfl ⟨rfl, rfl, rfl⟩ fun _ _ => rfl,
    gives_of_valueOp rfl (exec_fscl ..) rfl ⟨rfl, rfl, hb⟩ fun _ _ => fsclBits_eq _ _ _ _,
    gives_of_valueOp rfl (exec_ftoi ..) rfl ⟨rfl, rfl, rfl⟩ fun _ _ => rfl,
    gives_of_valueOp rfl (exec_itof ..) rfl ⟨rfl, rfl, rfl⟩ fun _ _ => rfl⟩

end Sys2Proof.Machine
end
